-- ==== Sys2Proof/Word.lean ====
section
/-! DEFINITION. The words of the frame link block: bytes, ids, 32-bit patterns, and the two small register
arrays of the responder (10_state.md R25, R26; 00_scope.md R15). -/

namespace Sys2Proof

/-- A byte, "an integer in 0..255" (R15). -/
abbrev Byte := BitVec 8

/-- A signed 16-bit command id as its two's-complement pattern (R94); its number is `BitVec.toInt`. -/
abbrev Id := BitVec 16

/-- A 32-bit pattern: an `I32` or `F32` value (R95). -/
abbrev Word32 := BitVec 32

/-- Two bytes in offset order, lowest offset first: `id_bytes[0..1]` (R25), the Id and AckId fields (R90). -/
structure Pair where
  b0 : Byte
  b1 : Byte
deriving DecidableEq, Repr

/-- Four bytes in offset order, lowest offset first: `value_bytes[0..3]` (R26), the Value field (R90). -/
structure Quad where
  b0 : Byte
  b1 : Byte
  b2 : Byte
  b3 : Byte
deriving DecidableEq, Repr

end Sys2Proof
end

