-- ==== Sys2Proof/Config.lean ====
section
/-! DEFINITION. What an implementation fixes (00_scope.md R7 to R14, 10_state.md R40), as plain data, and the free
values of the model: opaque constants with no body, so that nothing can be proved of the value they take. -/

namespace Sys2Proof

/-- `BYTE_ORDER` (R8). -/
inductive ByteOrder where
  | le
  | be
deriving DecidableEq, Repr

/-- A command's declared value type, `VTYPE(id)` (R14, R95). -/
inductive ValueType where
  | i16
  | i32
  | f32
deriving DecidableEq, Repr, Inhabited

/-- The kind of a tick, the first argument of `RESTART_POLICY` (R13, R229, R230). -/
inductive TickKind where
  | probe
  | command
deriving DecidableEq, Repr

/-- `START_SEQUENCE` (R9): nine bytes whose last is `0xFF`; the last byte is fixed by construction. -/
structure StartSeq where
  b0 : Byte
  b1 : Byte
  b2 : Byte
  b3 : Byte
  b4 : Byte
  b5 : Byte
  b6 : Byte
  b7 : Byte
deriving DecidableEq, Repr

/-- `S[i]` of R9: the byte at position `i`; `S[8]` is `0xFF`. -/
def StartSeq.get (S : StartSeq) (i : Fin 9) : Byte :=
  match i.val with
  | 0 => S.b0
  | 1 => S.b1
  | 2 => S.b2
  | 3 => S.b3
  | 4 => S.b4
  | 5 => S.b5
  | 6 => S.b6
  | 7 => S.b7
  | _ => 0xFF

/-- The nine bytes in the order they are sent (R92). -/
def StartSeq.bytes (S : StartSeq) : List Byte :=
  [S.b0, S.b1, S.b2, S.b3, S.b4, S.b5, S.b6, S.b7, 0xFF]

/-- The source's example pattern `08 07 06 05 04 03 02 01 FF`, the default of R9 (D2). -/
def StartSeq.default : StartSeq := ⟨8, 7, 6, 5, 4, 3, 2, 1⟩

namespace Config

/-- FREE VALUE: the `n`-th byte the environment draws on link `s` (R16 `draw`; R25, R26, R44, R47, R296); log 9. -/
opaque freeByte : Nat → Nat → Byte

/-- FREE VALUE: a restart policy about which nothing is assumed (R13, R232 "treat as a configurable policy"); the
first argument tells several such policies apart; log 4. -/
opaque openRestartPolicy : Nat → TickKind → Nat → Bool

/-- FREE VALUE: `VTYPE(id)` for an id the table does not declare (R40: `VTYPE` is "total on ids in use"); log 5. -/
opaque undeclaredType : Id → ValueType

end Config

/-- `RESTART_POLICY` (R13, R232): the two instances the source names, and an uninterpreted one. -/
inductive RestartPolicy where
  /-- "every failure": `true` for all `n ≥ 1` (R232). -/
  | everyFailure
  /-- "after N consecutive failures": `n ≥ N` (R232). -/
  | afterConsecutive (count : Nat)
  /-- Any other total function of the kind and the count: `Config.openRestartPolicy which`. -/
  | uninterpreted (which : Nat)
deriving DecidableEq, Repr

/-- The two transmit buffers of a slot (R31): what `ENC.*` may write and what `TICK_PLAN[s]` lists (R13). -/
inductive TxBuf where
  | push
  | pull
deriving DecidableEq, Repr

/-- The constants of the initiator side and of the watchdog (R8 to R14). -/
structure Cfg where
  /-- `BYTE_ORDER` as the initiator has it (R8, R300). -/
  byteOrder : ByteOrder
  /-- `START_SEQUENCE` as the initiator has it (R9, R300). -/
  startSeq : StartSeq
  /-- `MAX_ID` (R10). -/
  maxId : Nat
  /-- `MAX_SLOTS` (R11). -/
  maxSlots : Nat
  /-- `VTYPE` as the initiator has it: the declared ids (R14). -/
  vtypes : List (Id × ValueType)
  /-- `WD_THRESHOLD` (R12). -/
  wdThreshold : Nat
  /-- `WD_WIDTH` (R12). -/
  wdWidth : Nat
  /-- `WD_INTERVAL` (R12): a duration that no operation reads (R267). -/
  wdInterval : Nat
  /-- `RESTART_POLICY` (R13). -/
  restartPolicy : RestartPolicy
  /-- `RESTART_PULSE` (R13): a duration that no operation reads (R267). -/
  restartPulse : Nat
deriving DecidableEq, Repr

/-- The configuration of one slot on the initiator (R11, R13, R14). -/
structure SlotCfg where
  /-- The ids of the slot's push commands in buffer order; `NPUSH[s]` is its length (R11, R228). -/
  pushCmds : List Id
  /-- The ids of the slot's pull commands in buffer order; `NPULL[s]` is its length (R11, R228). -/
  pullCmds : List Id
  /-- The length of `rx_buf[s]` (R32: "at least as long as the longest transmit buffer"); log 28. -/
  rxLen : Nat
  /-- `PULL_M[s]` (R14, R46). -/
  pullM : List Id
  /-- `TICK_PLAN[s]` (R13). -/
  tickPlan : List TxBuf
  /-- `SLOT_INTERVAL[s]` (R13): a duration that no operation reads (R267). -/
  interval : Nat
deriving DecidableEq, Repr

/-- The configuration of one responder (R14, R287). -/
structure RespCfg where
  /-- `BYTE_ORDER` as this responder has it (R8, R300). -/
  byteOrder : ByteOrder
  /-- `START_SEQUENCE` as this responder has it (R9, R300). -/
  startSeq : StartSeq
  /-- `PULL_S` (R14, R44). -/
  pullS : List Id
  /-- `PUSH_S` (R14, R45). -/
  pushS : List Id
  /-- `VTYPE` as the responder's collaborators have it: the declared ids (R14, R176). -/
  vtypes : List (Id × ValueType)
deriving DecidableEq, Repr

/-- The initiator's constants of `State.reset`: those of 95_test_vectors.md, restart policy left open; logs 1 to 4. -/
def Cfg.default : Cfg :=
  { byteOrder := .le
    startSeq := StartSeq.default
    maxId := 5
    maxSlots := 3
    vtypes := [(1, .i32), (2, .i16), (5, .f32)]
    wdThreshold := 3
    wdWidth := 32
    wdInterval := 1
    restartPolicy := .uninterpreted 0
    restartPulse := 1 }

/-- The configuration of slot 0 of `State.reset`: that of the programs of 95_test_vectors.md; log 3. -/
def SlotCfg.default : SlotCfg :=
  { pushCmds := [2], pullCmds := [5], rxLen := 9, pullM := [5], tickPlan := [.push, .pull], interval := 1 }

/-- The configuration of the responder of `State.reset`: that of 95_test_vectors.md; log 3. -/
def RespCfg.default : RespCfg :=
  { byteOrder := .le
    startSeq := StartSeq.default
    pullS := [5]
    pushS := [1, 2]
    vtypes := [(1, .i32), (2, .i16), (5, .f32)] }

/-- The legal values of the initiator's parameters (R10, R40, R289). -/
abbrev Cfg.Legal (c : Cfg) : Prop :=
  1 ≤ c.maxId ∧ c.maxId ≤ 32767 ∧ c.wdThreshold < 2 ^ c.wdWidth ∧ 0 < c.wdInterval

end Sys2Proof
end

