-- ==== Sys2Proof/Syntax.lean ====
section
/-! DEFINITION. The instructions: one constructor per mnemonic of opcode_table.json (30_encoding.md R104, R108), and
the three kinds of code words they are read from. -/

namespace Sys2Proof

/-- The buffers that the codec's decode operations can be given (R120 "the buffer they are given"): the slot's receive buffer
(R48, R198), its two transmit buffers, on which R129 states the round trip, and the transmit buffer of its current or last
transaction (R192 "`txId1 = DEC.ID tx, o`"). A request reaches the receive buffer alone, as the table of R48 says (`callRefusal`,
log 42). -/
inductive Buf where
  | push
  | pull
  | rx
  | tx
deriving DecidableEq, Repr

/-- The unit a `RESET` names: everything (R281) or one responder (R283). -/
inductive ResetTarget where
  | all
  | responder (p : Nat)
deriving DecidableEq, Repr

/-- The operations of R104 and the wire formats of R90 to R93. `s` is a slot, `p` a responder, `off` a byte offset, `rx`
the received byte, `pos` the position of the selector `SKEY` (R105). -/
inductive Instr where
  /-- `ENC.I16 buffer, offset, id, v` (R122). -/
  | encI16 (b : TxBuf) (s off : Nat) (id : Id) (v : BitVec 16)
  /-- `ENC.I32 buffer, offset, id, v` (R123). -/
  | encI32 (b : TxBuf) (s off : Nat) (id : Id) (v : Word32)
  /-- `ENC.F32 buffer, offset, id, w`: a binary32 datum by its pattern (R124). -/
  | encF32 (b : TxBuf) (s off : Nat) (id : Id) (w : Word32)
  /-- `DEC.ID buffer, offset` (R125). -/
  | decId (b : Buf) (s off : Nat)
  /-- `DEC.I16 buffer, offset` (R126). -/
  | decI16 (b : Buf) (s off : Nat)
  /-- `DEC.I32 buffer, offset` (R127). -/
  | decI32 (b : Buf) (s off : Nat)
  /-- `DEC.F32 buffer, offset` (R128). -/
  | decF32 (b : Buf) (s off : Nat)
  /-- `R.ADV`: `SKEY = 0 pppp 1`, `pppp` in 0..7 (R142). -/
  | rAdv (p : Nat) (pos : Fin 9) (rx : Byte)
  /-- `R.FIN`: `SKEY = 0 1000 1` (R143). -/
  | rFin (p : Nat) (rx : Byte)
  /-- `R.MISS`: `SKEY = 0 pppp 0`, `pppp` in 0..8 (R144). -/
  | rMiss (p : Nat) (pos : Fin 9) (rx : Byte)
  /-- `I.PROBE s` (R146). -/
  | iProbe (s : Nat)
  /-- `I.CHECK s` (R147). -/
  | iCheck (s : Nat)
  /-- `S.ID`: `SKEY = 1 000p x` (R162). -/
  | sId (p : Nat) (pos : Fin 9) (rx : Byte)
  /-- `S.SEL`: `SKEY = 1 0010 x` (R164). -/
  | sSel (p : Nat) (rx : Byte)
  /-- `S.VAL`: `SKEY = 1 pppp x`, `pppp` in 3..5 (R165). -/
  | sVal (p : Nat) (pos : Fin 9) (rx : Byte)
  /-- `S.ACK`: `SKEY = 1 011p 1` (R173). -/
  | sAck (p : Nat) (pos : Fin 9) (rx : Byte)
  /-- `S.DESYNC`: `SKEY = 1 011p 0` (R174). -/
  | sDesync (p : Nat) (pos : Fin 9) (rx : Byte)
  /-- `S.END`: `SKEY = 1 1000 x` (R175). -/
  | sEnd (p : Nat) (rx : Byte)
  /-- `S.DISPATCH p` (R176). -/
  | sDispatch (p : Nat)
  /-- `V.SLOT s, k` (R193). -/
  | vSlot (s k : Nat)
  /-- `V.TXN s, N` (R191). -/
  | vTxn (s n : Nat)
  /-- `W.INC` (R212). -/
  | wInc
  /-- `W.CHECK` (R213). -/
  | wCheck
  /-- `T.TICK s` (R227). -/
  | tTick (s : Nat)
  /-- `T.RESTART s` (R231). -/
  | tRestart (s : Nat)
  /-- `B.XCHG s, i` (R62). -/
  | bXchg (s i : Nat)
  /-- `RESET` (R281, R283). -/
  | reset (target : ResetTarget)
  /-- `FRAME`: a command frame on the wire of slot `s`, by its free bytes (R90); log 15. -/
  | frame (s : Nat) (id : Pair) (value : Quad)
  /-- `REPLY`: what the initiator receives for a frame slot, by its nine bytes (R91); log 15. -/
  | reply (s : Nat) (prev : Byte) (id : Pair) (value : Quad) (ack : Pair)
  /-- `PROBE`: the probe on the wire of slot `s` (R92); log 15. -/
  | probe (s : Nat)
  /-- `PROBE_REPLY`: what the initiator receives for a probe, by its one free byte (R93); log 15. -/
  | probeReply (s : Nat) (prev : Byte)
deriving DecidableEq, Repr

/-- The code words of an instruction, by the `format` of its row (R108). -/
inductive Code where
  /-- Format `OPSEL`: a request, its selector byte and its operand bytes (R106); log 11. -/
  | opsel (bytes : List Byte)
  /-- Format `SKEY`: the key of a byte step (R105), the responder and the received byte. -/
  | skey (key : BitVec 6) (p : Nat) (rx : Byte)
  /-- Formats `FRAME` and `PROBE`: nine transmitted bytes (R108). -/
  | sent (s : Nat) (bytes : List Byte)
  /-- Formats `REPLY` and `PROBE_REPLY`: nine received bytes (R108). -/
  | received (s : Nat) (bytes : List Byte)
deriving DecidableEq, Repr

end Sys2Proof
end

