-- ==== Sys2Proof/WellFormed.lean ====
section
/-! DEFINITION. Which instructions have an encoding: the positions of the `SKEY` rows and the relation of their `m` bit to
the received byte (30_encoding.md R105), and the wire formats that no narrower format claims (R108). Every request has one:
"Offsets are unbounded non-negative integers in the model" (10_state.md R48), and the layout of log 11 bounds no operand.
`S` is the START_SEQUENCE the code is read with. -/

namespace Sys2Proof

/-- The nine bytes of a command frame with these free bytes (R90). -/
def frameBytes (id : Pair) (v : Quad) : List Byte :=
  [id.b0, id.b1, v.b0, v.b1, v.b2, v.b3, 0xFF, 0xFF, 0xFF]

/-- The nine bytes of a reply (R91). -/
def replyBytes (prev : Byte) (id : Pair) (v : Quad) (ack : Pair) : List Byte :=
  [prev, id.b0, id.b1, v.b0, v.b1, v.b2, v.b3, ack.b0, ack.b1]

/-- The nine bytes of a probe reply: `rx[i] = S[i-1]` for `i = 1..8` (R93). -/
def probeReplyBytes (S : StartSeq) (prev : Byte) : List Byte :=
  [prev, S.b0, S.b1, S.b2, S.b3, S.b4, S.b5, S.b6, S.b7]

/-- The well-formed instructions. -/
def Instr.wf (S : StartSeq) (i : Instr) : Bool :=
  match i with
  | .encI16 .. => true
  | .encI32 .. => true
  | .encF32 .. => true
  | .decId .. => true
  | .decI16 .. => true
  | .decI32 .. => true
  | .decF32 .. => true
  | .rAdv _ pos rx => decide (pos ≠ 8 ∧ rx = S.get pos)
  | .rFin _ rx => decide (rx = S.get 8)
  | .rMiss _ pos rx => decide (rx ≠ S.get pos)
  | .iProbe .. => true
  | .iCheck .. => true
  | .sId _ pos _ => decide (pos.val < 2)
  | .sSel _ _ => true
  | .sVal _ pos _ => decide (3 ≤ pos.val ∧ pos.val < 6)
  | .sAck _ pos rx => decide ((6 ≤ pos.val ∧ pos.val < 8) ∧ rx = 0xFF)
  | .sDesync _ pos rx => decide ((6 ≤ pos.val ∧ pos.val < 8) ∧ rx ≠ 0xFF)
  | .sEnd _ _ => true
  | .sDispatch .. => true
  | .vSlot .. => true
  | .vTxn .. => true
  | .wInc => true
  | .wCheck => true
  | .tTick .. => true
  | .tRestart .. => true
  | .bXchg .. => true
  | .reset _ => true
  | .frame _ id v => decide (frameBytes id v ≠ S.bytes)
  | .reply _ prev id v ack => decide (replyBytes prev id v ack ≠ probeReplyBytes S prev)
  | .probe _ => true
  | .probeReply _ _ => true

end Sys2Proof
end

