-- ==== Sys2Proof/Decode.lean ====
section
/-! DEFINITION. From code words to instructions and back (30_encoding.md R104 to R108). Every decoder is total and
rejects by name. The operand bytes of a request are the model's own layout, since the spec gives none (R106); log 11. -/

namespace Sys2Proof

/-- Why code words are no instruction. -/
inductive DecodeError where
  /-- A request shorter than 13 bytes, or one that ends within an extension pair; log 11. -/
  | truncated
  /-- A request that ends in an extension pair of zeros, which would extend nothing; log 11. -/
  | trailing
  /-- A 5-bit `OPSEL` code, or a selector byte, that no row of the table has (R104). -/
  | reservedOpsel (sel : Nat)
  /-- A request whose operand fields are not zero where its row has no such operand; log 11. -/
  | reservedField
  /-- A buffer kind the operation does not take. -/
  | badBuffer (kind : Nat)
  /-- A key whose `pppp` is 9..15: "a model's decoder should refuse them" (R105, U14). -/
  | illegalKey (key : BitVec 6)
  /-- A key whose `m` bit is not the comparison of the received byte that R105 defines. -/
  | keyMismatch (key : BitVec 6) (rx : Byte)
  /-- A wire format that is not nine bytes long (R100). -/
  | wrongLength (n : Nat)
  /-- Nine transmitted bytes that are neither a frame nor the probe (R90, R92). -/
  | notAFrame
deriving DecidableEq, Repr

/-! ## Format OPSEL: requests -/

/-- The fields of a request (log 11): selector, unit (slot, responder or reset target), buffer kind, argument (offset,
frame-slot index, count or exchange number), id, value. -/
structure Request where
  sel : Nat
  unit : Nat
  kind : Nat
  arg : Nat
  id : BitVec 16
  value : BitVec 32
deriving DecidableEq, Repr

/-- The number four bytes stand for, the first the least significant (log 11). -/
def natOfBytes4 (a b c d : Byte) : Nat :=
  a.toNat + 2 ^ 8 * (b.toNat + 2 ^ 8 * (c.toNat + 2 ^ 8 * d.toNat))

/-- The extension of a request, for an argument and a unit of which these parts do not fit its 13 bytes: pairs of one more
byte of each, least significant first, until nothing is left (R48 "unbounded"; log 11). `fuel` bounds the number of pairs. -/
def extensionBytes (fuel arg unit : Nat) : List Byte :=
  match fuel with
  | 0 => []
  | fuel + 1 =>
    if arg = 0 ∧ unit = 0 then []
    else BitVec.ofNat 8 arg :: BitVec.ofNat 8 unit :: extensionBytes fuel (arg / 2 ^ 8) (unit / 2 ^ 8)

/-- The parts of the argument and the unit that an extension holds; a last pair of zeros is refused, so that every request has
one form. -/
def extensionOf (w : List Byte) : Except DecodeError (Nat × Nat) :=
  match w with
  | [] => .ok (0, 0)
  | [_] => .error .truncated
  | a :: u :: rest =>
    match extensionOf rest with
    | .error e => .error e
    | .ok (arg, unit) =>
      if a = 0 ∧ u = 0 ∧ arg = 0 ∧ unit = 0 then .error .trailing
      else .ok (a.toNat + 2 ^ 8 * arg, u.toNat + 2 ^ 8 * unit)

/-- The bytes of a request, multi-byte fields least significant byte first: 13, and an extension where the unit is above 255 or
the argument above 2^32 - 1 (log 11). -/
def Request.toBytes (r : Request) : List Byte :=
  [BitVec.ofNat 8 r.sel, BitVec.ofNat 8 r.unit, BitVec.ofNat 8 r.kind,
   BitVec.ofNat 8 r.arg, BitVec.ofNat 8 (r.arg / 2 ^ 8), BitVec.ofNat 8 (r.arg / 2 ^ 16), BitVec.ofNat 8 (r.arg / 2 ^ 24),
   BitVec.ofNat 8 r.id.toNat, BitVec.ofNat 8 (r.id.toNat / 2 ^ 8),
   BitVec.ofNat 8 r.value.toNat, BitVec.ofNat 8 (r.value.toNat / 2 ^ 8),
   BitVec.ofNat 8 (r.value.toNat / 2 ^ 16), BitVec.ofNat 8 (r.value.toNat / 2 ^ 24)] ++
    extensionBytes (r.arg / 2 ^ 32 + r.unit / 2 ^ 8) (r.arg / 2 ^ 32) (r.unit / 2 ^ 8)

/-- The fields of a request: those of its first 13 bytes, and what its extension adds to the argument and the unit. -/
def Request.ofBytes (w : List Byte) : Except DecodeError Request :=
  match w with
  | sel :: unit :: kind :: a0 :: a1 :: a2 :: a3 :: i0 :: i1 :: v0 :: v1 :: v2 :: v3 :: rest =>
    match extensionOf rest with
    | .error e => .error e
    | .ok (argHigh, unitHigh) =>
      .ok { sel := sel.toNat, unit := unit.toNat + 2 ^ 8 * unitHigh, kind := kind.toNat,
            arg := natOfBytes4 a0 a1 a2 a3 + 2 ^ 32 * argHigh,
            id := BitVec.ofNat 16 (natOfBytes4 i0 i1 0 0), value := BitVec.ofNat 32 (natOfBytes4 v0 v1 v2 v3) }
  | _ => .error .truncated

/-- The transmit buffer a kind byte names. -/
def txBufOfKind (kind : Nat) : Except DecodeError TxBuf :=
  match kind with
  | 0 => .ok .push
  | 1 => .ok .pull
  | _ => .error (.badBuffer kind)

/-- The buffer a kind byte names (log 11); 0 is the receive buffer, the one that a decode request reaches (R48). -/
def bufOfKind (kind : Nat) : Except DecodeError Buf :=
  match kind with
  | 0 => .ok .rx
  | 1 => .ok .push
  | 2 => .ok .pull
  | 3 => .ok .tx
  | _ => .error (.badBuffer kind)

/-- The kind byte of a transmit buffer. -/
def TxBuf.kind : TxBuf → Nat
  | .push => 0
  | .pull => 1

/-- The kind byte of a buffer. -/
def Buf.kind : Buf → Nat
  | .rx => 0
  | .push => 1
  | .pull => 2
  | .tx => 3

/-- An encode request: the operands of R122 to R124; `wide` is false for a 2-byte value. -/
def Request.encode (r : Request) (wide : Bool) (mk : TxBuf → Nat → Nat → Id → Word32 → Instr) : Except DecodeError Instr :=
  match txBufOfKind r.kind with
  | .error e => .error e
  | .ok b =>
    if wide = false ∧ 2 ^ 16 ≤ r.value.toNat then .error .reservedField
    else .ok (mk b r.unit r.arg r.id r.value)

/-- A decode request: the operands of R125 to R128. -/
def Request.decode (r : Request) (mk : Buf → Nat → Nat → Instr) : Except DecodeError Instr :=
  match bufOfKind r.kind with
  | .error e => .error e
  | .ok b => if r.id ≠ 0 ∨ r.value ≠ 0 then .error .reservedField else .ok (mk b r.unit r.arg)

/-- A request with a unit and an argument. -/
def Request.unitArg (r : Request) (mk : Nat → Nat → Instr) : Except DecodeError Instr :=
  if r.kind ≠ 0 ∨ r.id ≠ 0 ∨ r.value ≠ 0 then .error .reservedField else .ok (mk r.unit r.arg)

/-- A request with a unit. -/
def Request.unitOnly (r : Request) (mk : Nat → Instr) : Except DecodeError Instr :=
  if r.kind ≠ 0 ∨ r.arg ≠ 0 ∨ r.id ≠ 0 ∨ r.value ≠ 0 then .error .reservedField else .ok (mk r.unit)

/-- A request without operands. -/
def Request.bare (r : Request) (i : Instr) : Except DecodeError Instr :=
  if r.unit ≠ 0 ∨ r.kind ≠ 0 ∨ r.arg ≠ 0 ∨ r.id ≠ 0 ∨ r.value ≠ 0 then .error .reservedField else .ok i

/-- The unit byte of a reset: 0 is ALL, `p + 1` is responder `p` (log 11). -/
def resetTargetOfUnit (u : Nat) : ResetTarget :=
  match u with
  | 0 => .all
  | p + 1 => .responder p

/-- The instruction of a request, by its `OPSEL` code (R104). -/
def Request.instr (r : Request) : Except DecodeError Instr :=
  match r.sel with
  | 0x01 => r.encode false (fun b s off id v => .encI16 b s off id (v.setWidth 16))
  | 0x02 => r.encode true .encI32
  | 0x03 => r.encode true .encF32
  | 0x04 => r.decode .decId
  | 0x05 => r.decode .decI16
  | 0x06 => r.decode .decI32
  | 0x07 => r.decode .decF32
  | 0x08 => r.unitOnly .iProbe
  | 0x09 => r.unitOnly .iCheck
  | 0x0A => r.unitArg .vSlot
  | 0x0B => r.unitArg .vTxn
  | 0x0C => r.bare .wInc
  | 0x0D => r.bare .wCheck
  | 0x0E => r.unitOnly .tTick
  | 0x0F => r.unitOnly .tRestart
  | 0x10 => r.unitOnly .sDispatch
  | 0x11 => r.unitArg .bXchg
  | 0x12 => r.unitOnly (fun u => .reset (resetTargetOfUnit u))
  | _ => .error (.reservedOpsel r.sel)

/-- Decode a request. -/
def decodeRequest (w : List Byte) : Except DecodeError Instr :=
  match Request.ofBytes w with
  | .error e => .error e
  | .ok r => r.instr

/-! ## Format SKEY: byte steps -/

/-- The key `s ‖ pppp ‖ m` of R105. -/
def mkKey (s : Bool) (pos : Fin 9) (m : Bool) : BitVec 6 :=
  BitVec.ofNat 6 (s.toNat * 32 + pos.val * 2 + m.toNat)

/-- The `m` bit of R105: the comparison of the received byte. -/
def keyMatch (S : StartSeq) (s : Bool) (pos : Fin 9) (rx : Byte) : Bool :=
  if s = false then decide (rx = S.get pos) else decide (rx = 0xFF)

/-- The operation a legal key selects, on responder `p` and received byte `rx`: the table of R105. -/
def instrOfKey (s : Bool) (pos : Fin 9) (m : Bool) (p : Nat) (rx : Byte) : Instr :=
  match s, m with
  | false, true => if pos = 8 then .rFin p rx else .rAdv p pos rx
  | false, false => .rMiss p pos rx
  | true, m =>
    match pos.val with
    | 0 => .sId p pos rx
    | 1 => .sId p pos rx
    | 2 => .sSel p rx
    | 3 => .sVal p pos rx
    | 4 => .sVal p pos rx
    | 5 => .sVal p pos rx
    | 6 => if m then .sAck p pos rx else .sDesync p pos rx
    | 7 => if m then .sAck p pos rx else .sDesync p pos rx
    | _ => .sEnd p rx

/-- Decode a key; `S` is the responder's START_SEQUENCE. -/
def decodeKey (S : StartSeq) (key : BitVec 6) (p : Nat) (rx : Byte) : Except DecodeError Instr :=
  if h : key.toNat / 2 % 16 < 9 then
    let s := decide (32 ≤ key.toNat)
    let pos : Fin 9 := ⟨key.toNat / 2 % 16, h⟩
    let m := decide (key.toNat % 2 = 1)
    if m = keyMatch S s pos rx then .ok (instrOfKey s pos m p rx) else .error (.keyMismatch key rx)
  else .error (.illegalKey key)

/-! ## Formats FRAME, PROBE, REPLY, PROBE_REPLY: nine bytes -/

/-- Nine transmitted bytes: the probe if they are START_SEQUENCE, else a frame if the AckId and Sentinel fields hold
their constants (R90, R92). Nine other bytes are no format of the table, and that they are refused (`notAFrame`) is the
model's choice, log 39: R99 has no trap on the wire. -/
def decodeSent (S : StartSeq) (s : Nat) (w : List Byte) : Except DecodeError Instr :=
  match w with
  | [a, b, c, d, e, f, g, h, k] =>
    if w = S.bytes then .ok (.probe s)
    else if g = 0xFF ∧ h = 0xFF ∧ k = 0xFF then .ok (.frame s ⟨a, b⟩ ⟨c, d, e, f⟩)
    else .error .notAFrame
  | _ => .error (.wrongLength w.length)

/-- Nine received bytes: a probe reply if `rx[1..9)` is `S[0..8)`, else a reply (R91, R93). -/
def decodeReceived (S : StartSeq) (s : Nat) (w : List Byte) : Except DecodeError Instr :=
  match w with
  | [a, b, c, d, e, f, g, h, k] =>
    if w = probeReplyBytes S a then .ok (.probeReply s a) else .ok (.reply s a ⟨b, c⟩ ⟨d, e, f, g⟩ ⟨h, k⟩)
  | _ => .error (.wrongLength w.length)

/-! ## The decoder and the encoder -/

/-- The decoder. `S` is the START_SEQUENCE of the side that reads the code. -/
def decode (S : StartSeq) (c : Code) : Except DecodeError Instr :=
  match c with
  | .opsel w => decodeRequest w
  | .skey key p rx => decodeKey S key p rx
  | .sent s w => decodeSent S s w
  | .received s w => decodeReceived S s w

/-- The request fields of an instruction with a unit, an argument and a buffer kind. -/
def Request.plain (sel unit kind arg : Nat) : Code :=
  .opsel (Request.toBytes { sel := sel, unit := unit, kind := kind, arg := arg, id := 0, value := 0 })

/-- The unit byte of a reset target. -/
def ResetTarget.unit : ResetTarget → Nat
  | .all => 0
  | .responder p => p + 1

/-- The encoder: the code words of an instruction, from the table of R104, the keys of R105 and the formats of R90 to
R93. -/
def encode (S : StartSeq) (i : Instr) : Code :=
  match i with
  | .encI16 b s off id v => .opsel (Request.toBytes ⟨0x01, s, b.kind, off, id, v.setWidth 32⟩)
  | .encI32 b s off id v => .opsel (Request.toBytes ⟨0x02, s, b.kind, off, id, v⟩)
  | .encF32 b s off id w => .opsel (Request.toBytes ⟨0x03, s, b.kind, off, id, w⟩)
  | .decId b s off => Request.plain 0x04 s b.kind off
  | .decI16 b s off => Request.plain 0x05 s b.kind off
  | .decI32 b s off => Request.plain 0x06 s b.kind off
  | .decF32 b s off => Request.plain 0x07 s b.kind off
  | .rAdv p pos rx => .skey (mkKey false pos true) p rx
  | .rFin p rx => .skey (mkKey false 8 true) p rx
  | .rMiss p pos rx => .skey (mkKey false pos false) p rx
  | .iProbe s => Request.plain 0x08 s 0 0
  | .iCheck s => Request.plain 0x09 s 0 0
  | .sId p pos rx => .skey (mkKey true pos (rx = 0xFF)) p rx
  | .sSel p rx => .skey (mkKey true 2 (rx = 0xFF)) p rx
  | .sVal p pos rx => .skey (mkKey true pos (rx = 0xFF)) p rx
  | .sAck p pos rx => .skey (mkKey true pos true) p rx
  | .sDesync p pos rx => .skey (mkKey true pos false) p rx
  | .sEnd p rx => .skey (mkKey true 8 (rx = 0xFF)) p rx
  | .sDispatch p => Request.plain 0x10 p 0 0
  | .vSlot s k => Request.plain 0x0A s 0 k
  | .vTxn s n => Request.plain 0x0B s 0 n
  | .wInc => Request.plain 0x0C 0 0 0
  | .wCheck => Request.plain 0x0D 0 0 0
  | .tTick s => Request.plain 0x0E s 0 0
  | .tRestart s => Request.plain 0x0F s 0 0
  | .bXchg s i => Request.plain 0x11 s 0 i
  | .reset t => Request.plain 0x12 t.unit 0 0
  | .frame s id v => .sent s (frameBytes id v)
  | .reply s prev id v ack => .received s (replyBytes prev id v ack)
  | .probe s => .sent s S.bytes
  | .probeReply s prev => .received s (probeReplyBytes S prev)

/-! ## The host's words -/

/-- A byte that the comparison of R105 answers `m` on: the byte the key's position asks for, or another one. -/
def keyByte (S : StartSeq) (s : Bool) (pos : Fin 9) (m : Bool) : Byte :=
  let want := if s = false then S.get pos else 0xFF
  if m then want else want + 1

/-- A 6-bit key as code words: responder 0 and a received byte that fits the key. -/
def keyCode (S : StartSeq) (w : Nat) : Code :=
  if h : w / 2 % 16 < 9 then
    .skey (BitVec.ofNat 6 w) 0 (keyByte S (decide (32 ≤ w % 64)) ⟨w / 2 % 16, h⟩ (decide (w % 2 = 1)))
  else .skey (BitVec.ofNat 6 w) 0 0

/-- The nine bytes of a 72-bit pattern, frame byte 0 its most significant byte (R90, R108); log 16. -/
def wireBytes (w : Nat) : List Byte :=
  [BitVec.ofNat 8 (w / 2 ^ 64), BitVec.ofNat 8 (w / 2 ^ 56), BitVec.ofNat 8 (w / 2 ^ 48), BitVec.ofNat 8 (w / 2 ^ 40),
   BitVec.ofNat 8 (w / 2 ^ 32), BitVec.ofNat 8 (w / 2 ^ 24), BitVec.ofNat 8 (w / 2 ^ 16), BitVec.ofNat 8 (w / 2 ^ 8),
   BitVec.ofNat 8 w]

/-- A 72-bit pattern as code words: transmitted if it is the probe or ends in the constants of a frame, else received;
log 16. -/
def wireCode (S : StartSeq) (w : Nat) : Code :=
  if wireBytes w = S.bytes ∨ w % 2 ^ 24 = 0xFFFFFF then .sent 0 (wireBytes w) else .received 0 (wireBytes w)

/-- The code words of a table word. A row of 72 bits is a wire format. A row of one byte is a request if its value is an
`OPSEL` code, and a key otherwise: the keys `0x01`, `0x10`, `0x11` of `R.ADV`, `R.MISS`, `R.FIN` are also `OPSEL` codes,
and a word of one byte is then read as the request; log 12. -/
def tableCode (S : StartSeq) (nbits w : Nat) : Code :=
  if nbits = 72 then wireCode S w
  else if nbits = 6 ∨ (w < 64 ∧ (w = 0 ∨ 0x20 ≤ w)) then keyCode S w
  else .opsel (BitVec.ofNat 8 w :: BitVec.ofNat 8 (w / 2 ^ 8) :: BitVec.ofNat 8 (w / 2 ^ 16) :: BitVec.ofNat 8 (w / 2 ^ 24)
    :: List.replicate 9 0)

/-- The instruction the decoder reads from a table word; none where it refuses. -/
def decodeTableWord (nbits w : Nat) : Option Instr :=
  match decode StartSeq.default (tableCode StartSeq.default nbits w) with
  | .ok i => some i
  | .error _ => none

end Sys2Proof
end

