-- ==== Sys2Proof/Machine/State.lean ====
section
/-! DEFINITION. The state of the frame link block as plain data (10_state.md), its faults and refusals, and the state
after reset (70_reset_and_hazards.md R281, R282). -/

namespace Sys2Proof
namespace Machine

/-! ## Buffers -/

/-- A byte memory with offsets from 0 (R48): its length, and the bytes that are not `0x00` by rising offset. An unlisted
offset below `size` reads as `0x00`, the reset contents of R31 and R32; log 29. -/
structure Memory where
  size : Nat
  cells : List Host.Cell
deriving DecidableEq, Repr

/-- A memory of `n` bytes, every byte `0x00` (R31, R32). -/
def Memory.zero (n : Nat) : Memory := { size := n, cells := [] }

/-- The memory that holds these bytes from offset 0 on. -/
def Memory.ofBytes (w : List Byte) : Memory :=
  { size := w.length, cells := ((List.range w.length).zip w).filter (fun x => decide (x.2 ≠ 0)) }

/-! ## The responder side (R21 to R28) -/

/-- SyncState, one per side per link (R21, R30). -/
inductive SyncState where
  | unsynchronized
  | synchronized
deriving DecidableEq, Repr

/-- The snapshot a `FrameComplete` carries (R175). -/
structure Snapshot where
  idBytes : Pair
  valueBytes : Quad
  isPull : Bool
deriving DecidableEq, Repr

/-- The registers of one responder (SE-R and SFI). -/
structure Responder where
  /-- `s_sync` (R21). -/
  sSync : SyncState
  /-- `sync_pos` (R22). -/
  syncPos : Fin 9
  /-- `frame_pos` (R23). -/
  framePos : Fin 9
  /-- `id_bytes` (R25). -/
  idBytes : Pair
  /-- `value_bytes` (R26). -/
  valueBytes : Quad
  /-- `is_pull` (R27). -/
  isPull : Bool
  /-- `tx_reg` (R28). -/
  txReg : Byte
  /-- The pending `FrameComplete` effects, oldest first (R175, R176). -/
  pending : List Snapshot
deriving DecidableEq, Repr

/-- The reset values of a responder (R282); the staging registers, arbitrary in R25 and R26, take the given bytes. -/
def Responder.reset (idb : Pair) (vb : Quad) : Responder :=
  { sSync := .unsynchronized, syncPos := 0, framePos := 0, idBytes := idb, valueBytes := vb, isPull := false,
    txReg := 0x00, pending := [] }

/-! ## The initiator side, per slot (R30 to R35) -/

/-- The registers and buffers of one slot on the initiator. -/
structure Slot where
  /-- `m_sync[s]` (R30). -/
  mSync : SyncState
  /-- `push_buf[s]` (R31). -/
  pushBuf : Memory
  /-- `pull_buf[s]` (R31). -/
  pullBuf : Memory
  /-- `rx_buf[s]` (R32). -/
  rxBuf : Memory
  /-- `tx`: the transmit buffer of the current or last transaction (R62, R146, R191); log 8. -/
  tx : Memory
  /-- `fail_run[s]` (R34). -/
  failRun : Nat
  /-- `restart_line[s]`, `true` = asserted (R35). -/
  restartLine : Bool
deriving DecidableEq, Repr

/-! ## What the environment has chosen (R16 `draw`, R64); the model's own fields, log 9 -/

/-- What a responder does on its own between two byte steps: a step of its main loop (R17, R77, R257), or a reset that the
initiator does not know of (R284). -/
inductive Turn where
  /-- One `S.DISPATCH` (R176). -/
  | dispatch
  /-- The responder's own power cycle (R283, R284). -/
  | powerCycle
deriving DecidableEq, Repr

/-- One byte clock of the responder that the initiator did not intend (R64), with what the responder does on its own before it
(R77: between "any two byte steps"). -/
structure AddedClock where
  /-- What the responder does on its own first; log 22. -/
  turns : List Turn
  /-- The received byte. -/
  rx : Byte
deriving DecidableEq, Repr

/-- What a non-ideal bus does in one exchange (R64). -/
structure Disturbance where
  /-- A byte that replaces the one delivered to the responder. -/
  toResponder : Option Byte
  /-- A byte that replaces the one delivered to the initiator. -/
  toInitiator : Option Byte
  /-- The byte clock does not reach the responder. -/
  dropClock : Bool
  /-- Byte clocks the initiator did not intend, delivered to the responder after the exchange. -/
  extraClocks : List AddedClock
deriving DecidableEq, Repr

/-- The exchange of the ideal bus. -/
def Disturbance.ideal : Disturbance :=
  { toResponder := none, toInitiator := none, dropClock := false, extraClocks := [] }

/-- The environment of one link: choices still to be used, and how many free bytes were drawn. -/
structure Inputs where
  /-- The disturbances of the next exchanges; the ideal bus where the list has ended (R64). -/
  bus : List Disturbance
  /-- The pull source's next answers; free bytes where the list has ended (R44). -/
  answers : List Quad
  /-- The push-value supplier's next values, as patterns; free bytes where the list has ended (R47). -/
  values : List Word32
  /-- What the responder does before each exchange of a transfer, after its last one, and before the restart pulse of a
  tick: one list for each of these places as they come; nothing where the list has ended (R77, R257); log 22. -/
  turns : List (List Turn)
  /-- The number of free bytes drawn so far. -/
  draws : Nat
deriving DecidableEq, Repr

/-- No choice made yet: an ideal bus, collaborators that answer free bytes, and no main-loop step inside a transfer. -/
def Inputs.none : Inputs := { bus := [], answers := [], values := [], turns := [], draws := 0 }

/-! ## One link: a slot and the responder bound to it (R268) -/

/-- One link. -/
structure Link where
  /-- The slot's configuration. -/
  slotCfg : SlotCfg
  /-- The responder's configuration. -/
  respCfg : RespCfg
  /-- The initiator's registers for the slot. -/
  slot : Slot
  /-- The responder's registers. -/
  resp : Responder
  /-- The environment's choices for the link. -/
  env : Inputs
deriving DecidableEq, Repr

/-! ## Watchdog, effects, results, events -/

/-- `wd_state` (R38). -/
inductive WdState where
  | armed
  | tripped
deriving DecidableEq, Repr

/-- A decoded value of a declared type (R95). -/
inductive Value where
  | i16 (v : BitVec 16)
  | i32 (v : Word32)
  | f32 (w : Word32)
deriving DecidableEq, Repr

/-- The effects of R16, each with the unit it comes from. -/
inductive Effect where
  /-- `FrameComplete` of responder `p` (R175). -/
  | frameComplete (p : Nat) (snap : Snapshot)
  /-- `PushDeliver` of responder `p`; `claimed` says whether a sink takes it, that is `id ∈ PUSH_S` (R45, R176). -/
  | pushDeliver (p : Nat) (id : Id) (vb : Quad) (claimed : Bool)
  /-- `PullQuery` of responder `p` (R164). -/
  | pullQuery (p : Nat) (id : Id)
  /-- `PullDeliver` of slot `s` (R198). -/
  | pullDeliver (s : Nat) (id : Id) (v : Value)
  /-- `Warn(TxAck)` of slot `s` (R194). -/
  | warnTxAck (s : Nat)
  /-- `Safety()` (R213). -/
  | safety
  /-- `RestartPulse(s)` (R231). -/
  | restartPulse (s : Nat)
deriving DecidableEq, Repr

/-- The cause of a failed frame slot, class (b) (R248). -/
inductive FailCause where
  | idAckMismatch
  | idRange
  | staleEcho
deriving DecidableEq, Repr

/-- The result of `V.SLOT` (R193). -/
inductive Verdict where
  | okPush
  | okPull (v : Value)
  | fail (cause : FailCause)
deriving DecidableEq, Repr

/-- What a step returns to its caller (R18, R107). -/
inductive Result where
  /-- The operation returns nothing. -/
  | none
  /-- The reply of a byte step (R107). -/
  | reply (b : Byte)
  /-- `DEC.ID` (R125). -/
  | id (v : Id)
  /-- `DEC.I16`, `DEC.I32`, `DEC.F32` (R126 to R128). -/
  | value (v : Value)
  /-- `I.CHECK`: pass or fail (R147). -/
  | check (pass : Bool)
  /-- `V.SLOT` (R193). -/
  | verdict (v : Verdict)
  /-- `V.TXN`: ok or fail (R191). -/
  | txn (ok : Bool)
  /-- `W.CHECK`: armed or tripped (R213). -/
  | watchdog (w : WdState)
deriving DecidableEq, Repr

/-- What the outside world delivers (R252 to R254, R17); log 10. -/
inductive Event where
  /-- A request by its `OPSEL` code words (R106). -/
  | request (bytes : List Byte)
  /-- One byte clock of responder `p` with its received byte (R252). -/
  | byteClock (p : Nat) (rx : Byte)
  /-- Nine bytes the initiator of slot `s` sends (R90, R92). -/
  | sent (s : Nat) (bytes : List Byte)
  /-- Nine bytes the initiator of slot `s` receives (R91, R93). -/
  | received (s : Nat) (bytes : List Byte)
  /-- The periodic triggers of these slots, all due at the same moment (R233, R253). -/
  | ticksDue (slots : List Nat)
  /-- The boot of the initiator comes to the `j`-th pull frame of slot `s`, which it encodes (R228); log 23. -/
  | bootEncode (s j : Nat)
deriving DecidableEq, Repr

/-! ## The machine -/

/-- The whole block: one initiator, its slots with their responders, and the watchdog. -/
structure State where
  /-- The constants of the initiator and of the watchdog (R40). -/
  cfg : Cfg
  /-- The slots in registry order, each with its responder (R226, R268). -/
  links : List Link
  /-- `wd_counter` (R37). -/
  wdCounter : Nat
  /-- `wd_state` (R38). -/
  wdState : WdState
  /-- The events still to come; the model's own field, log 10. -/
  events : List Event
  /-- The effect list of the last step (R16, R18); the model's own field, log 18. -/
  effects : List Effect
  /-- The result of the last step (R18); the model's own field, log 18. -/
  result : Result
deriving DecidableEq, Repr

/-- The buffers a `Precondition` fault names (R249). -/
inductive BufName where
  | push (s : Nat)
  | pull (s : Nat)
  | rx (s : Nat)
  | tx (s : Nat)
deriving DecidableEq, Repr

/-- The faults: error class (c) alone stops a step (R251). -/
inductive Fault where
  /-- `Precondition(buffer, a, n)`: an access of `n` bytes at offset `a` outside the buffer. Raised by the codec, the
  transfer, `I.CHECK`, `V.SLOT`, `V.TXN`, `B.XCHG` and the ticks that perform them. It ends the run of
  the whole block (log 40). Safe: the spec gives the step no next state (R249). -/
  | precondition (buffer : BufName) (a n : Nat)
deriving DecidableEq, Repr

/-- The refusals: no instruction, or an operation the machine does not perform. -/
inductive Refusal where
  /-- An instruction without a meaning. Raised by no arm. Safe. -/
  | notModelled (mnemonic : String)
  /-- Code words that are no instruction (R105 and U14 for keys). Raised by the fetch. Safe: the machine stops. -/
  | illegalCode (e : DecodeError)
  /-- A decode request whose type is not the one declared for the frame's id: "a call the well-formedness check of the
  caller refuses" (R130, U6). Raised by the fetch; log 17. Safe: the machine stops. -/
  | wrongType (id : Id)
  /-- A decode request for another buffer than the receive buffer: each memory is "reachable only by the operations listed", and
  `DEC.*` is listed for `rx_buf[s]` (R48). Raised by the fetch; log 42. Safe: the machine stops. -/
  | notReachable (buffer : BufName)
  /-- A slot or responder that does not exist (R226); log 27. Safe: the machine stops. -/
  | noSuchSlot (n : Nat)
  /-- A byte step whose selector is not the one the responder's state and the received byte give (R105). Raised by the
  nine byte operations, never after a fetch; log 13. Safe: the machine stops. -/
  | notSelected
deriving DecidableEq, Repr

/-! ## Reset -/

/-- The reset values of a slot (R282); `tx` as log 8 says. -/
def Slot.reset (c : Cfg) (k : SlotCfg) : Slot :=
  { mSync := .unsynchronized
    pushBuf := Memory.zero (9 * k.pushCmds.length)
    pullBuf := Memory.zero (9 * k.pullCmds.length)
    rxBuf := Memory.zero k.rxLen
    tx := Memory.ofBytes c.startSeq.bytes
    failRun := 0
    restartLine := false }

/-- The machine right after reset, with the configuration of log 3, no event delivered from outside and no choice of the
environment made; the arbitrary staging bytes are `00` here (log 6). What is still to come is the boot's own work: `pull_buf`
is `00` and is "then encoded" (R282, R228; log 23). -/
def State.reset : State :=
  { cfg := Cfg.default
    links := [{ slotCfg := SlotCfg.default
                respCfg := RespCfg.default
                slot := Slot.reset Cfg.default SlotCfg.default
                resp := Responder.reset ⟨0, 0⟩ ⟨0, 0, 0, 0⟩
                env := Inputs.none }]
    wdCounter := 0
    wdState := .armed
    events := [.bootEncode 0 0]
    effects := []
    result := .none }

end Machine
end Sys2Proof
end

