-- ==== Sys2Proof/Machine/Operands.lean ====
section
/-! DEFINITION. Operand forms: byte order and field assembly (00_scope.md R15, 30_encoding.md R94 to R96), the register
arrays, the declared types, the selector of a byte step (R105) and the fields the validator extracts (R192). -/

namespace Sys2Proof
namespace Machine

/-! ## Byte order (R15, R66) -/

/-- `ord16(b0, b1)` of R15. -/
def ord16 (o : ByteOrder) (b0 b1 : Byte) : BitVec 16 :=
  match o with
  | .le => b1 ++ b0
  | .be => b0 ++ b1

/-- `ord32(b0, b1, b2, b3)` of R15. -/
def ord32 (o : ByteOrder) (q : Quad) : Word32 :=
  match o with
  | .le => q.b3 ++ q.b2 ++ q.b1 ++ q.b0
  | .be => q.b0 ++ q.b1 ++ q.b2 ++ q.b3

/-- `bytes16(v)` of R15: the bytes of a 16-bit pattern, lowest offset first. -/
def bytes16 (o : ByteOrder) (v : BitVec 16) : List Byte :=
  match o with
  | .le => [v.extractLsb' 0 8, v.extractLsb' 8 8]
  | .be => [v.extractLsb' 8 8, v.extractLsb' 0 8]

/-- `bytes32(v)` of R15. -/
def bytes32 (o : ByteOrder) (v : Word32) : List Byte :=
  match o with
  | .le => [v.extractLsb' 0 8, v.extractLsb' 8 8, v.extractLsb' 16 8, v.extractLsb' 24 8]
  | .be => [v.extractLsb' 24 8, v.extractLsb' 16 8, v.extractLsb' 8 8, v.extractLsb' 0 8]

/-- The id two bytes in offset order stand for (R94); its number is the `toInt` of the pattern. -/
def idOf (o : ByteOrder) (b : Pair) : Id := ord16 o b.b0 b.b1

/-! ## Values (R95) -/

/-- The value of type `t` that the four bytes of a Value field hold; a 2-byte value is in the first two (R95, R126). -/
def valueOf (o : ByteOrder) (t : ValueType) (q : Quad) : Value :=
  match t with
  | .i16 => .i16 (ord16 o q.b0 q.b1)
  | .i32 => .i32 (ord32 o q)
  | .f32 => .f32 (ord32 o q)

/-- The bytes an encode operation writes for a value: 2 for `I16`, 4 for `I32` and `F32` (R122 to R124). -/
def valueBytesOf (o : ByteOrder) (v : Value) : List Byte :=
  match v with
  | .i16 v => bytes16 o v
  | .i32 v => bytes32 o v
  | .f32 w => bytes32 o w

/-- The value of type `t` that a 32-bit pattern gives: its low half for `I16`. -/
def valueOfPattern (t : ValueType) (w : Word32) : Value :=
  match t with
  | .i16 => .i16 (w.setWidth 16)
  | .i32 => .i32 w
  | .f32 => .f32 w

/-- The type a table declares for an id, if it declares one (R14). -/
def declaredType (table : List (Id × ValueType)) (id : Id) : Option ValueType :=
  match table with
  | [] => none
  | (i, t) :: rest => if i = id then some t else declaredType rest id

/-- `VTYPE(id)`, total: the declared type, else the free value of log 5 (R14, R40). -/
def vtype (table : List (Id × ValueType)) (id : Id) : ValueType :=
  match declaredType table id with
  | some t => t
  | none => Config.undeclaredType id

/-! ## Register arrays (R16, R25, R26) -/

/-- `id_bytes[i]`. -/
def pairGet (b : Pair) (i : Nat) : Byte :=
  match i with
  | 0 => b.b0
  | _ => b.b1

/-- `id_bytes[i] <- v`. -/
def pairSet (b : Pair) (i : Nat) (v : Byte) : Pair :=
  match i with
  | 0 => { b with b0 := v }
  | _ => { b with b1 := v }

/-- `value_bytes[i]`. -/
def quadGet (q : Quad) (i : Nat) : Byte :=
  match i with
  | 0 => q.b0
  | 1 => q.b1
  | 2 => q.b2
  | _ => q.b3

/-- `value_bytes[i] <- v`. -/
def quadSet (q : Quad) (i : Nat) (v : Byte) : Quad :=
  match i with
  | 0 => { q with b0 := v }
  | 1 => { q with b1 := v }
  | 2 => { q with b2 := v }
  | _ => { q with b3 := v }

/-- `SlaveId()` of R163. -/
def slaveId (c : RespCfg) (r : Responder) : Id := idOf c.byteOrder r.idBytes

/-! ## The selector of a byte step (R105) -/

/-- The `s` bit of R105. -/
def selSync (r : Responder) : Bool := decide (r.sSync = .synchronized)

/-- The `pppp` field of R105. -/
def selPos (r : Responder) : Fin 9 := if r.sSync = .unsynchronized then r.syncPos else r.framePos

/-- The `m` bit of R105. -/
def selMatch (c : RespCfg) (r : Responder) (rx : Byte) : Bool := keyMatch c.startSeq (selSync r) (selPos r) rx

/-- `SKEY = s ‖ pppp ‖ m` of R105, from the state before the step and the received byte. -/
def skey (c : RespCfg) (r : Responder) (rx : Byte) : BitVec 6 := mkKey (selSync r) (selPos r) (selMatch c r rx)

/-- The operation the table of R105 gives for the key of `r` and `rx`. -/
def selected (c : RespCfg) (r : Responder) (p : Nat) (rx : Byte) : Instr :=
  instrOfKey (selSync r) (selPos r) (selMatch c r rx) p rx

/-! ## What the validator extracts (R192) -/

/-- The six fields of `Extract(tx, rx, k)`. -/
structure Extracted where
  txId1 : Id
  txVal : Quad
  txId2 : Id
  rxId1 : Id
  rxVal : Quad
  rxId2 : Id
deriving DecidableEq, Repr

/-! ## Named buffers -/

/-- The buffer an encode operation writes. -/
def txBufMem (b : TxBuf) (t : Slot) : Memory :=
  match b with
  | .push => t.pushBuf
  | .pull => t.pullBuf

/-- Put a buffer back. -/
def setTxBuf (b : TxBuf) (m : Memory) (t : Slot) : Slot :=
  match b with
  | .push => { t with pushBuf := m }
  | .pull => { t with pullBuf := m }

/-- The name of a transmit buffer. -/
def txBufName (b : TxBuf) (s : Nat) : BufName :=
  match b with
  | .push => .push s
  | .pull => .pull s

/-- The buffer a decode operation is given (R120 "the buffer they are given"). -/
def bufMem (b : Buf) (t : Slot) : Memory :=
  match b with
  | .push => t.pushBuf
  | .pull => t.pullBuf
  | .rx => t.rxBuf
  | .tx => t.tx

/-- The name of a buffer. -/
def bufName (b : Buf) (s : Nat) : BufName :=
  match b with
  | .push => .push s
  | .pull => .pull s
  | .rx => .rx s
  | .tx => .tx s

end Machine
end Sys2Proof
end

