-- ==== Sys2Proof/Machine/Flags.lean ====
section
/-! DEFINITION. The conditions the block computes: the handshake check, the verdict on a frame slot, the watchdog's
comparison and the restart policy (10_state.md R39). -/

namespace Sys2Proof
namespace Machine

/-- The check of `I.CHECK` on `rx[1..9)`: `rx[i] = S[i-1]` for `i = 1..8`; the `0xFF` clause is about the constant `S[8]`
and always holds (R147, 90_conflicts.md C1). -/
def probeEchoed (S : StartSeq) (rx : Nat → Byte) : Bool :=
  decide (rx 1 = S.b0 ∧ rx 2 = S.b1 ∧ rx 3 = S.b2 ∧ rx 4 = S.b3 ∧ rx 5 = S.b4 ∧ rx 6 = S.b5 ∧ rx 7 = S.b6 ∧ rx 8 = S.b7)

/-- Step 2 of the validator: the transmitted AckId is not `-1` (R194). -/
def txAckWrong (e : Extracted) : Bool := decide (e.txId2.toInt ≠ -1)

/-- `id1` of step 3: the id sent if its echo matches it, else `-1` (R195). -/
def echoId (sent echoed : Id) : Int := if echoed.toInt = sent.toInt then sent.toInt else -1

/-- Steps 3 to 5 of the validator (R193, R195 to R199): the cause of failure, or the accepted id and whether the initiator
claims it as a pull command. The order of the checks is that of R193's pseudocode (R256), so an id -1 whose echoes differ is
`IdRange` (U4), against the words of R196 and R248; log 7. -/
def frameVerdict (c : Cfg) (pullM : List Id) (e : Extracted) : Verdict :=
  let id1 := echoId e.txId1 e.rxId1
  let id2 := echoId e.txId1 e.rxId2
  if id1 ≠ id2 then .fail .idAckMismatch
  else if id1 < 1 ∨ (c.maxId : Int) < id1 then .fail .idRange
  else if e.txId1 ∈ pullM then .okPull (valueOf c.byteOrder (vtype c.vtypes e.txId1) e.rxVal)
  else if e.rxVal = e.txVal then .okPush
  else .fail .staleEcho

/-- A verdict that fails the transaction (R200). -/
def Verdict.failed (v : Verdict) : Bool :=
  match v with
  | .fail _ => true
  | _ => false

/-- The largest value of `wd_counter`: `2^WD_WIDTH - 1` (R212). -/
def wdMax (c : Cfg) : Nat := 2 ^ c.wdWidth - 1

/-- `wd_counter + 1`, saturating (R212). -/
def wdNext (c : Cfg) (n : Nat) : Nat := if n < wdMax c then n + 1 else n

/-- The check of `W.CHECK`: a strict, unsigned comparison (R213). -/
def wdTrips (c : Cfg) (n : Nat) : Bool := decide (n < c.wdThreshold)

/-- `RESTART_POLICY(kind, n)` (R13, R232). -/
def restartDue (c : Cfg) (kind : TickKind) (n : Nat) : Bool :=
  match c.restartPolicy with
  | .everyFailure => decide (1 ≤ n)
  | .afterConsecutive count => decide (count ≤ n)
  | .uninterpreted which => Config.openRestartPolicy which kind n

end Machine
end Sys2Proof
end

