-- ==== Sys2Proof/Machine/Ops.lean ====
section
/-! DEFINITION. The shared operations over buffers, registers and links: reads and writes of a memory (R16, R69), the
nine parts of a byte step and the byte step itself (R160), the bus exchange and the transfer (R62 to R65), the error
classes (60_exceptions.md R245 to R251) and reset (R281, R283). -/

namespace Sys2Proof
namespace Machine

/-! ## Memory (10_state.md R48, 20_memory.md R68, R69) -/

/-- The byte that a list of cells gives an offset; `0x00` where none is listed. -/
def cellsRead (cells : List Host.Cell) (a : Nat) : Byte :=
  match cells with
  | [] => 0x00
  | (x, y) :: rest => if x = a then y else cellsRead rest a

/-- The byte at an offset. -/
def Memory.read (m : Memory) (a : Nat) : Byte := cellsRead m.cells a

/-- Cells without an offset. -/
def cellsErase (cells : List Host.Cell) (a : Nat) : List Host.Cell :=
  match cells with
  | [] => []
  | (x, y) :: rest => if x = a then cellsErase rest a else (x, y) :: cellsErase rest a

/-- Cells with one more cell, before the first larger offset. -/
def cellsInsert (cells : List Host.Cell) (a : Nat) (b : Byte) : List Host.Cell :=
  match cells with
  | [] => [(a, b)]
  | (x, y) :: rest => if a < x then (a, b) :: (x, y) :: rest else (x, y) :: cellsInsert rest a b

/-- Cells with one byte changed; a byte that becomes `0x00` is no longer listed. -/
def cellsWrite (cells : List Host.Cell) (a : Nat) (b : Byte) : List Host.Cell :=
  if b = 0x00 then cellsErase cells a else cellsInsert (cellsErase cells a) a b

/-- Write one byte; an offset outside the memory is left alone (the callers raise `Precondition` before that, R69). -/
def Memory.write (m : Memory) (a : Nat) (b : Byte) : Memory :=
  if a < m.size then { m with cells := cellsWrite m.cells a b } else m

/-- Write bytes at rising offsets. -/
def Memory.writeBytes (m : Memory) (a : Nat) (bs : List Byte) : Memory :=
  match bs with
  | [] => m
  | b :: rest => (m.write a b).writeBytes (a + 1) rest

/-- Two bytes from an offset on. -/
def Memory.pairAt (m : Memory) (a : Nat) : Pair := ⟨m.read a, m.read (a + 1)⟩

/-- Four bytes from an offset on. -/
def Memory.quadAt (m : Memory) (a : Nat) : Quad := ⟨m.read a, m.read (a + 1), m.read (a + 2), m.read (a + 3)⟩

/-- Offsets strictly rise from `lo` on, stay below `size`, and no listed byte is `0x00`. -/
def cellsWf (lo size : Nat) (cells : List Host.Cell) : Bool :=
  match cells with
  | [] => true
  | (x, y) :: rest => decide (lo ≤ x ∧ x < size ∧ y ≠ 0x00) && cellsWf (x + 1) size rest

/-- The canonical form of a memory. -/
def Memory.wf (m : Memory) : Bool := cellsWf 0 m.size m.cells

/-- Raise `Precondition(name, a, n)` unless the `n` bytes at offset `a` lie inside the memory: error class (c), the one
exception that stops a step (R249). -/
def checkBounds (name : BufName) (m : Memory) (a n : Nat) : Except Fault Unit :=
  if a + n ≤ m.size then .ok () else .error (.precondition name a n)

/-- `probe_buf`, the read-only memory of START_SEQUENCE (R33). -/
def probeBuf (c : Cfg) : Memory := Memory.ofBytes c.startSeq.bytes

/-! ## Frame Codec bodies (R121, R125 to R128) -/

/-- `Encode(id, vb, n, buffer, offset)` of R121: the bounds check on all nine bytes, then Id, Value, AckId, Sentinel. -/
def encodeFrame (name : BufName) (o : ByteOrder) (off : Nat) (id : Id) (vb : List Byte) (m : Memory) : Except Fault Memory :=
  match checkBounds name m off 9 with
  | .error e => .error e
  | .ok () =>
    .ok ((((m.writeBytes off (bytes16 o id)).writeBytes (off + 2) vb).writeBytes (off + 6) [0xFF, 0xFF]).writeBytes
      (off + 8) [0xFF])

/-- `DEC.ID` of R125 on a memory. -/
def decodeId (name : BufName) (o : ByteOrder) (off : Nat) (m : Memory) : Except Fault Id :=
  match checkBounds name m off 2 with
  | .error e => .error e
  | .ok () => .ok (idOf o (m.pairAt off))

/-- The number of Value bytes of a type (R15 `size`). -/
def valueSize (t : ValueType) : Nat :=
  match t with
  | .i16 => 2
  | .i32 => 4
  | .f32 => 4

/-- `DEC.I16`, `DEC.I32`, `DEC.F32` of R126 to R128 on a memory. -/
def decodeValue (name : BufName) (o : ByteOrder) (t : ValueType) (off : Nat) (m : Memory) : Except Fault Value :=
  match checkBounds name m (off + 2) (valueSize t) with
  | .error e => .error e
  | .ok () => .ok (valueOf o t (m.quadAt (off + 2)))

/-- `Extract(tx, rx, k)` of R192: every receive index is the transmit index plus `RX_OFFSET = 1`. -/
def extract (o : ByteOrder) (tx rx : Memory) (k : Nat) : Extracted :=
  { txId1 := idOf o (tx.pairAt (9 * k))
    txVal := tx.quadAt (9 * k + 2)
    txId2 := idOf o (tx.pairAt (9 * k + 6))
    rxId1 := idOf o (rx.pairAt (9 * k + 1))
    rxVal := rx.quadAt (9 * k + 3)
    rxId2 := idOf o (rx.pairAt (9 * k + 7)) }

/-! ## What the environment chooses (R16 `draw`); log 9 -/

/-- Four free bytes. -/
def Inputs.freeQuad (s : Nat) (e : Inputs) : Quad × Inputs :=
  (⟨Config.freeByte s e.draws, Config.freeByte s (e.draws + 1), Config.freeByte s (e.draws + 2),
    Config.freeByte s (e.draws + 3)⟩, { e with draws := e.draws + 4 })

/-- Two free bytes. -/
def Inputs.freePair (s : Nat) (e : Inputs) : Pair × Inputs :=
  (⟨Config.freeByte s e.draws, Config.freeByte s (e.draws + 1)⟩, { e with draws := e.draws + 2 })

/-- One free byte. -/
def Inputs.freeOne (s : Nat) (e : Inputs) : Byte × Inputs :=
  (Config.freeByte s e.draws, { e with draws := e.draws + 1 })

/-- The pull source's answer to a query (R44). -/
def Inputs.pullAnswer (s : Nat) (e : Inputs) : Quad × Inputs :=
  match e.answers with
  | q :: rest => (q, { e with answers := rest })
  | [] => e.freeQuad s

/-- The push-value supplier's next value, as a pattern (R47). -/
def Inputs.pushValue (s : Nat) (e : Inputs) : Word32 × Inputs :=
  match e.values with
  | w :: rest => (w, { e with values := rest })
  | [] => (ord32 .le (e.freeQuad s).1, (e.freeQuad s).2)

/-- What the bus does in the next exchange (R64). -/
def Inputs.disturbance (e : Inputs) : Disturbance × Inputs :=
  match e.bus with
  | d :: rest => (d, { e with bus := rest })
  | [] => (Disturbance.ideal, e)

/-! ## One link with the effects emitted so far -/

/-- What an operation on one link works on: the link, and the step's effect list (R16). -/
structure Act where
  link : Link
  fx : List Effect
deriving DecidableEq, Repr

/-- `emit` of R16. -/
def Act.emit (e : Effect) (a : Act) : Act := { a with fx := a.fx ++ [e] }

/-- Replace the responder's registers. -/
def Act.setResp (r : Responder) (a : Act) : Act := { a with link := { a.link with resp := r } }

/-- Replace the initiator's registers of the slot. -/
def Act.setSlot (t : Slot) (a : Act) : Act := { a with link := { a.link with slot := t } }

/-- Replace the environment. -/
def Act.setEnv (e : Inputs) (a : Act) : Act := { a with link := { a.link with env := e } }

/-! ## SE-R: the three unsynchronized byte operations (R142 to R144) -/

/-- `R_FIN_REPLY` (R143, D6). -/
def rFinReply : Byte := 0x00

/-- `R_MISS_REPLY` (R144, D6). -/
def rMissReply : Byte := 0x00

/-- `R.ADV` of R142: echo `S[sync_pos]`, advance. -/
def probeAdvance (a : Act) : Act :=
  let r := a.link.resp
  a.setResp { r with syncPos := r.syncPos + 1, txReg := a.link.respCfg.startSeq.get r.syncPos }

/-- `R.FIN` of R143: Synchronized. With the initiator's `I.CHECK` this is the return from a desynchronization (R260). -/
def probeFinish (a : Act) : Act :=
  let r := a.link.resp
  a.setResp { r with sSync := .synchronized, syncPos := 0, txReg := rFinReply }

/-- `R.MISS` of R144: the byte is dropped and matching restarts. Cause `Desync.ProbeByte` of class (a) (R246). -/
def probeMiss (a : Act) : Act :=
  let r := a.link.resp
  a.setResp { r with syncPos := 0, txReg := rMissReply }

/-! ## SFI: the six synchronized byte operations (R162 to R175) -/

/-- `S.ID` of R162. -/
def captureId (rx : Byte) (a : Act) : Act :=
  let r := a.link.resp
  a.setResp { r with idBytes := pairSet r.idBytes r.framePos.val rx, txReg := rx, framePos := r.framePos + 1 }

/-- `S.SEL` of R164 for an id that the pull source claims: query, sample, reply the first byte. -/
def selectPull (p : Nat) (a : Act) : Act :=
  let r := a.link.resp
  let (pv, env) := a.link.env.pullAnswer p
  ((a.emit (.pullQuery p (slaveId a.link.respCfg r))).setEnv env).setResp
    { r with isPull := true, valueBytes := pv, txReg := pv.b0, framePos := 3 }

/-- `S.SEL` of R164 for an id that no pull callback claims: a push command, captured and echoed. -/
def selectPush (rx : Byte) (a : Act) : Act :=
  let r := a.link.resp
  a.setResp { r with isPull := false, valueBytes := quadSet r.valueBytes 0 rx, txReg := rx, framePos := 3 }

/-- `S.SEL` of R164: the lookup at `frame_pos = 2`. -/
def selectValue (p : Nat) (rx : Byte) (a : Act) : Act :=
  if slaveId a.link.respCfg a.link.resp ∈ a.link.respCfg.pullS then selectPull p a else selectPush rx a

/-- `S.VAL` of R165. -/
def furtherValue (rx : Byte) (a : Act) : Act :=
  let r := a.link.resp
  if r.isPull then a.setResp { r with txReg := quadGet r.valueBytes (r.framePos.val - 2), framePos := r.framePos + 1 }
  else a.setResp { r with valueBytes := quadSet r.valueBytes (r.framePos.val - 2) rx, txReg := rx,
                          framePos := r.framePos + 1 }

/-- `S.ACK` of R173: reply the stored id byte. -/
def ackProbe (a : Act) : Act :=
  let r := a.link.resp
  a.setResp { r with txReg := pairGet r.idBytes (r.framePos.val - 6), framePos := r.framePos + 1 }

/-- `S.DESYNC` of R174: taking an error of class (a) on the responder, cause `Desync.AckProbe` (R246, R258). -/
def desynchronize (a : Act) : Act :=
  let r := a.link.resp
  a.setResp { r with framePos := 0, sSync := .unsynchronized, txReg := 0x00 }

/-- `S.END` of R175: the frame is complete; the signal carries a snapshot. -/
def completeFrame (p : Nat) (a : Act) : Act :=
  let r := a.link.resp
  let snap : Snapshot := { idBytes := r.idBytes, valueBytes := r.valueBytes, isPull := r.isPull }
  (a.emit (.frameComplete p snap)).setResp { r with txReg := 0x00, framePos := 0, pending := r.pending ++ [snap] }

/-! ## The byte step (R141, R160) -/

/-- `ResponderStep(rx)` of R141. -/
def responderStep (rx : Byte) (a : Act) : Act :=
  let r := a.link.resp
  if rx = a.link.respCfg.startSeq.get r.syncPos then (if r.syncPos = 8 then probeFinish a else probeAdvance a)
  else probeMiss a

/-- `ByteStep(rx)` of R160, the one entry point of responder `p`. -/
def byteStep (p : Nat) (rx : Byte) (a : Act) : Act :=
  let r := a.link.resp
  if r.sSync = .unsynchronized then responderStep rx a
  else if r.framePos.val < 2 then captureId rx a
  else if r.framePos.val = 2 then selectValue p rx a
  else if r.framePos.val < 6 then furtherValue rx a
  else if r.framePos.val < 8 then (if rx = 0xFF then ackProbe a else desynchronize a)
  else completeFrame p a

/-! ## The responder's main loop (R176), and what a responder does between two byte steps (R77, R257) -/

/-- `S.DISPATCH` of R176: consume the oldest pending `FrameComplete`; a push is delivered, a pull needs nothing more. With no
pending signal nothing changes (log 14). -/
def dispatchFrame (p : Nat) (a : Act) : Act :=
  match a.link.resp.pending with
  | [] => a
  | snap :: rest =>
    let a1 := a.setResp { a.link.resp with pending := rest }
    if snap.isPull then a1
    else
      let id := idOf a.link.respCfg.byteOrder snap.idBytes
      a1.emit (.pushDeliver p id snap.valueBytes (decide (id ∈ a.link.respCfg.pushS)))

/-- `RESET p` of R283: the responder takes its reset values and its pending signals are discarded; the staging bytes,
arbitrary in R25 and R26, are free bytes (log 6). -/
def resetResponder (p : Nat) (a : Act) : Act :=
  let (idb, env1) := a.link.env.freePair p
  let (vb, env2) := env1.freeQuad p
  (a.setEnv env2).setResp (Responder.reset idb vb)

/-- One thing that responder `p` does on its own. -/
def takeTurn (p : Nat) (t : Turn) (a : Act) : Act :=
  match t with
  | .dispatch => dispatchFrame p a
  | .powerCycle => resetResponder p a

/-- What responder `p` does on its own at one place, in order. -/
def takeTurns (p : Nat) (ts : List Turn) (a : Act) : Act :=
  match ts with
  | [] => a
  | t :: rest => takeTurns p rest (takeTurn p t a)

/-- Byte clocks that the initiator did not intend (R64): before each of them the responder's main loop may run, as between any
two byte steps (R77; logs 21 and 22). -/
def byteSteps (p : Nat) (cs : List AddedClock) (a : Act) : Act :=
  match cs with
  | [] => a
  | c :: rest => byteSteps p rest (byteStep p c.rx (takeTurns p c.turns a))

/-- A place at which the main loop of responder `p` may run: the environment says what happens there (R77, R257; log 22). -/
def pause (p : Nat) (a : Act) : Act :=
  match a.link.env.turns with
  | [] => a
  | ts :: rest => takeTurns p ts (a.setEnv { a.link.env with turns := rest })

/-! ## The bus (R62 to R65) -/

/-- The exchange once its bounds are checked: `out` goes to the initiator and `txByte` to the responder, each unless the
disturbance `d` replaces it. -/
def exchangeBytes (s i : Nat) (txByte out : Byte) (d : Disturbance) (a : Act) : Act :=
  let t := a.link.slot
  let a1 := a.setSlot { t with rxBuf := t.rxBuf.write i (d.toInitiator.getD out) }
  let a2 := if d.dropClock then a1 else byteStep s (d.toResponder.getD txByte) a1
  byteSteps s d.extraClocks a2

/-- An exchange with a responder held in reset by its restart line: no byte step (R63), and the initiator receives
"whatever the wire floats to" (R296), a free byte; log 20. -/
def exchangeHeld (s i : Nat) (d : Disturbance) (a : Act) : Act :=
  let t := a.link.slot
  let (b, env) := a.link.env.freeOne s
  (a.setEnv env).setSlot { t with rxBuf := t.rxBuf.write i (d.toInitiator.getD b) }

/-- `B.XCHG(s, i)` of R62, with the disturbance the bus has chosen (R64). -/
def exchange (s i : Nat) (a : Act) : Except Fault Act :=
  match checkBounds (.tx s) a.link.slot.tx i 1 with
  | .error e => .error e
  | .ok () =>
    match checkBounds (.rx s) a.link.slot.rxBuf i 1 with
    | .error e => .error e
    | .ok () =>
      let (d, env) := a.link.env.disturbance
      if a.link.slot.restartLine then .ok (exchangeHeld s i d (a.setEnv env))
      else .ok (exchangeBytes s i (a.link.slot.tx.read i) a.link.resp.txReg d (a.setEnv env))

/-- Exchanges `i, i+1, …`, `n` of them, in that order (R65). Before each and after the last, the responder's main loop may
run: "The main-loop agent's steps may fall between any two byte steps" (R77). -/
def exchanges (s n i : Nat) (a : Act) : Except Fault Act :=
  match n with
  | 0 => .ok (pause s a)
  | n + 1 =>
    match exchange s i (pause s a) with
    | .error e => .error e
    | .ok a => exchanges s n (i + 1) a

/-- `transfer(tx, rx, len)` of R65. -/
def transfer (s len : Nat) (a : Act) : Except Fault Act :=
  match checkBounds (.tx s) a.link.slot.tx 0 len with
  | .error e => .error e
  | .ok () =>
    match checkBounds (.rx s) a.link.slot.rxBuf 0 len with
    | .error e => .error e
    | .ok () => exchanges s len 0 a

/-- Take a buffer as the transmit buffer of the transaction that follows (R62, R146). -/
def selectTx (m : Memory) (a : Act) : Act := a.setSlot { a.link.slot with tx := m }

/-! ## SE-I and the validator (R146, R147, R191, R193, R200) -/

/-- `I.CHECK s` of R147 on an unsynchronized slot: pass sets `m_sync[s]`; fail leaves it, cause `Desync.ProbeReply` (R246). -/
def checkProbe (c : Cfg) (s : Nat) (a : Act) : Except Fault (Bool × Act) :=
  match checkBounds (.rx s) a.link.slot.rxBuf 0 9 with
  | .error e => .error e
  | .ok () =>
    if probeEchoed c.startSeq a.link.slot.rxBuf.read then
      .ok (true, a.setSlot { a.link.slot with mSync := .synchronized })
    else .ok (false, a)

/-- Taking an error of class (b): `SyncState := Unsynchronized` for that peripheral, on the initiator (R200, R247). -/
def invalidate (a : Act) : Act := a.setSlot { a.link.slot with mSync := .unsynchronized }

/-- `V.SLOT s, k` of R193: the warning of step 2, then the verdict, with the delivery of an accepted pull. -/
def validateSlot (c : Cfg) (s k : Nat) (a : Act) : Except Fault (Verdict × Act) :=
  match checkBounds (.tx s) a.link.slot.tx (9 * k) 9 with
  | .error e => .error e
  | .ok () =>
    match checkBounds (.rx s) a.link.slot.rxBuf (9 * k) 9 with
    | .error e => .error e
    | .ok () =>
      let e := extract c.byteOrder a.link.slot.tx a.link.slot.rxBuf k
      let a1 := if txAckWrong e then a.emit (.warnTxAck s) else a
      match frameVerdict c a.link.slotCfg.pullM e with
      | .okPull v => .ok (.okPull v, a1.emit (.pullDeliver s e.txId1 v))
      | .okPush => .ok (.okPush, a1)
      | .fail cause => .ok (.fail cause, a1)

/-- Frame slots `k, k+1, …`, `n` of them, in that order, every one examined (R191); true if one has failed. -/
def validateSlots (c : Cfg) (s n k : Nat) (failed : Bool) (a : Act) : Except Fault (Bool × Act) :=
  match n with
  | 0 => .ok (failed, a)
  | n + 1 =>
    match validateSlot c s k a with
    | .error e => .error e
    | .ok (v, a) => validateSlots c s n (k + 1) (failed || v.failed) a

/-- `V.TXN s, N` of R191: true for ok. -/
def validateTxn (c : Cfg) (s n : Nat) (a : Act) : Except Fault (Bool × Act) :=
  match checkBounds (.tx s) a.link.slot.tx 0 (9 * n) with
  | .error e => .error e
  | .ok () =>
    match checkBounds (.rx s) a.link.slot.rxBuf 0 (9 * n) with
    | .error e => .error e
    | .ok () =>
      match validateSlots c s n 0 false a with
      | .error e => .error e
      | .ok (true, a) => .ok (false, invalidate a)
      | .ok (false, a) => .ok (true, a)

/-! ## Reset (R280 to R284) -/

/-- The part of `RESET all` on one link (R281): every register of the slot and of the responder. -/
def resetLink (c : Cfg) (s : Nat) (l : Link) : Link :=
  (resetResponder s { link := { l with slot := Slot.reset c l.slotCfg }, fx := [] }).link

/-- `RESET all` on the links, the first of which has index `s`. -/
def resetLinks (c : Cfg) (s : Nat) (ls : List Link) : List Link :=
  match ls with
  | [] => []
  | l :: rest => resetLink c s l :: resetLinks c (s + 1) rest

/-- `T.RESTART s` of R231: assert, reset the responder (R283), deassert, forget synchronization and failures. The whole
pulse is one step. -/
def restartPulse (s : Nat) (a : Act) : Act :=
  let a1 := a.setSlot { a.link.slot with restartLine := true }
  let a2 := resetResponder s (a1.emit (.restartPulse s))
  a2.setSlot { a2.link.slot with restartLine := false, mSync := .unsynchronized, failRun := 0 }

/-! ## Boot (R228) -/

/-- The codec operation that encodes the pattern `w` as the value of the `j`-th command, of id `id`, of a buffer: its type is
`VTYPE(id)` and its frame slot is at `9j` (R228). -/
def encodeCommand (c : Cfg) (b : TxBuf) (n j : Nat) (id : Id) (w : Word32) : Instr :=
  match vtype c.vtypes id with
  | .i16 => .encI16 b n (9 * j) id (w.setWidth 16)
  | .i32 => .encI32 b n (9 * j) id w
  | .f32 => .encF32 b n (9 * j) id w

/-- What the boot of the initiator does by itself for the slots from number `n` on: it comes to every pull frame once, in
order (R228); log 23. -/
def bootEvents (n : Nat) (ls : List Link) : List Event :=
  match ls with
  | [] => []
  | l :: rest => (List.range l.slotCfg.pullCmds.length).map (.bootEncode n) ++ bootEvents (n + 1) rest

/-- Work of the boot that is still to be done. -/
def Event.isBoot (e : Event) : Bool :=
  match e with
  | .bootEncode _ _ => true
  | .request _ | .byteClock _ _ | .sent _ _ | .received _ _ | .ticksDue _ => false

/-! ## Operations on the whole machine -/

/-- Run an operation on link `n`; every other link, the configuration, the watchdog and the events stay. A fault has no next
state (R249), and that it ends the run of the whole block, the watchdog and the responders with it, is the model's choice:
R249 ends "the run of that side", and R3 places the watchdog on no side (R210); log 40. -/
def State.onLink (n : Nat) (s : State) (f : Act → Except Fault (Result × Act)) : Host.Outcome State Fault Refusal :=
  match s.links[n]? with
  | none => .refused (.noSuchSlot n)
  | some l =>
    match f { link := l, fx := s.effects } with
    | .error e => .fault e
    | .ok (r, a) => .next { s with links := s.links.set n a.link, effects := a.fx, result := r }

/-- A byte operation on responder `p`: performed if the responder is not held in reset (R63) and the selector of R105
selects it; the result is the reply it stages. -/
def byteOperation (i : Instr) (p : Nat) (rx : Byte) (op : Act → Act) (s : State) : Host.Outcome State Fault Refusal :=
  match s.links[p]? with
  | none => .refused (.noSuchSlot p)
  | some l =>
    if l.slot.restartLine = false ∧ selected l.respCfg l.resp p rx = i then
      s.onLink p (fun a => .ok (.reply (op a).link.resp.txReg, op a))
    else .refused .notSelected

end Machine
end Sys2Proof
end

