-- ==== Sys2Proof/Machine/Bus.lean ====
section
/-! DEFINITION. The bus and reset: the meanings of `B.XCHG` (20_memory.md R62 to R64) and `RESET`
(70_reset_and_hazards.md R280 to R284). -/

namespace Sys2Proof
namespace Machine

/-- `B.XCHG s, i` (R62). R65 performs exchanges only inside a transfer, in order, with nothing else of the initiator between
them; that a lone request performs exchange `i` of the buffers as they stand is the model's choice, log 37. -/
def execBXchg (n i : Nat) (s : State) : Host.Outcome State Fault Refusal :=
  s.onLink n (fun a =>
    match exchange n i a with
    | .error e => .error e
    | .ok a => .ok (.none, a))

/-- `RESET all` (R281): every register of 10_state.md takes its reset value; the configuration stays (R290), and so do
the environment's choices and the events delivered from outside, which are no registers (log 25). The boot, which encodes
the pull frames, comes next (R228, R282, program P1; log 23). That a boot which is unfinished is given up, so that the new one
alone encodes the pull frames, is the model's choice, log 25. -/
def resetAll (s : State) : State :=
  { s with links := resetLinks s.cfg 0 s.links, wdCounter := 0, wdState := .armed,
           events := bootEvents 0 s.links ++ s.events.filter (fun e => !e.isBoot), result := .none }

/-- `RESET` (R281, R283). -/
def execReset (t : ResetTarget) (s : State) : Host.Outcome State Fault Refusal :=
  match t with
  | .all => .next (resetAll s)
  | .responder p => s.onLink p (fun a => .ok (.none, resetResponder p a))

end Machine
end Sys2Proof
end

