-- ==== Sys2Proof/Machine/Codec.lean ====
section
/-! DEFINITION. Frame Codec: the meanings of `ENC.*` and `DEC.*` (40_frame_codec.md R120 to R131). -/

namespace Sys2Proof
namespace Machine

/-- Encode a value into a transmit buffer of slot `n`, in the initiator's byte order (R66, R121). -/
def encodeInto (b : TxBuf) (n off : Nat) (id : Id) (v : Value) (s : State) : Host.Outcome State Fault Refusal :=
  s.onLink n (fun a =>
    match encodeFrame (txBufName b n) s.cfg.byteOrder off id (valueBytesOf s.cfg.byteOrder v) (txBufMem b a.link.slot) with
    | .error e => .error e
    | .ok m => .ok (.none, a.setSlot (setTxBuf b m a.link.slot)))

/-- Decode a value of type `t` from a buffer of slot `n` (R126 to R128): the codec reads "the buffer they are given" (R120). That a
request reaches the receive buffer alone (R48) is checked where it is fetched, `callRefusal`, log 42. -/
def decodeFrom (b : Buf) (n off : Nat) (t : ValueType) (s : State) : Host.Outcome State Fault Refusal :=
  s.onLink n (fun a =>
    match decodeValue (bufName b n) s.cfg.byteOrder t off (bufMem b a.link.slot) with
    | .error e => .error e
    | .ok v => .ok (.value v, a))

/-- `ENC.I16` (R122). -/
def execEncI16 (b : TxBuf) (n off : Nat) (id : Id) (v : BitVec 16) (s : State) : Host.Outcome State Fault Refusal :=
  encodeInto b n off id (.i16 v) s

/-- `ENC.I32` (R123). -/
def execEncI32 (b : TxBuf) (n off : Nat) (id : Id) (v : Word32) (s : State) : Host.Outcome State Fault Refusal :=
  encodeInto b n off id (.i32 v) s

/-- `ENC.F32` (R124): the pattern is moved unchanged. -/
def execEncF32 (b : TxBuf) (n off : Nat) (id : Id) (w : Word32) (s : State) : Host.Outcome State Fault Refusal :=
  encodeInto b n off id (.f32 w) s

/-- `DEC.ID` (R125), on the buffer it is given, as `decodeFrom`. -/
def execDecId (b : Buf) (n off : Nat) (s : State) : Host.Outcome State Fault Refusal :=
  s.onLink n (fun a =>
    match decodeId (bufName b n) s.cfg.byteOrder off (bufMem b a.link.slot) with
    | .error e => .error e
    | .ok id => .ok (.id id, a))

/-- `DEC.I16` (R126). -/
def execDecI16 (b : Buf) (n off : Nat) (s : State) : Host.Outcome State Fault Refusal := decodeFrom b n off .i16 s

/-- `DEC.I32` (R127). -/
def execDecI32 (b : Buf) (n off : Nat) (s : State) : Host.Outcome State Fault Refusal := decodeFrom b n off .i32 s

/-- `DEC.F32` (R128): the result is a bit pattern. -/
def execDecF32 (b : Buf) (n off : Nat) (s : State) : Host.Outcome State Fault Refusal := decodeFrom b n off .f32 s

end Machine
end Sys2Proof
end

