-- ==== Sys2Proof/Machine/Scheduler.lean ====
section
/-! DEFINITION. Transaction Scheduler: the meanings of `T.TICK` and `T.RESTART` (45_scheduler.md R225 to R234). -/

namespace Sys2Proof
namespace Machine

/-- Fill the push buffer of slot `n` from its `j`-th command on: each supplied value is encoded at `9j` (R228). -/
def fillPush (c : Cfg) (n j : Nat) (ids : List Id) (a : Act) : Except Fault Act :=
  match ids with
  | [] => .ok a
  | id :: rest =>
    let (w, env) := a.link.env.pushValue n
    let v := valueOfPattern (vtype c.vtypes id) w
    match encodeFrame (.push n) c.byteOrder (9 * j) id (valueBytesOf c.byteOrder v) a.link.slot.pushBuf with
    | .error e => .error e
    | .ok m => fillPush c n (j + 1) rest ((a.setEnv env).setSlot { a.link.slot with pushBuf := m })

/-- A failed tick of this kind: one more consecutive failure, and a restart pulse if the policy says so (R229, R230). The
main loop of the responder may still run before the pulse, which discards its pending signals (R77, R283, R298). -/
def tickFailed (c : Cfg) (n : Nat) (kind : TickKind) (a : Act) : Act :=
  let run := a.link.slot.failRun + 1
  let a1 := a.setSlot { a.link.slot with failRun := run }
  if restartDue c kind run then restartPulse n (pause n a1) else a1

/-- A passing tick (R229, R230). -/
def tickPassed (a : Act) : Act := a.setSlot { a.link.slot with failRun := 0 }

/-- `ProbeTick(s)` (R229). -/
def probeTick (c : Cfg) (n : Nat) (a : Act) : Except Fault Act :=
  match transfer n 9 (selectTx (probeBuf c) a) with
  | .error e => .error e
  | .ok a1 =>
    match checkProbe c n a1 with
    | .error e => .error e
    | .ok (true, a2) => .ok (tickPassed a2)
    | .ok (false, a2) => .ok (tickFailed c n .probe a2)

/-- The push buffer is filled before its transfer, the pull buffer is sent as it is (R228, R230). -/
def prepareBuffer (c : Cfg) (n : Nat) (b : TxBuf) (a : Act) : Except Fault Act :=
  match b with
  | .push => fillPush c n 0 a.link.slotCfg.pushCmds a
  | .pull => .ok a

/-- One transaction of a command tick: prepare the buffer, transfer it, validate it (R230); true for ok. -/
def transact (c : Cfg) (n : Nat) (b : TxBuf) (a : Act) : Except Fault (Bool × Act) :=
  match prepareBuffer c n b a with
  | .error e => .error e
  | .ok a1 =>
    let m := txBufMem b a1.link.slot
    match transfer n m.size (selectTx m a1) with
    | .error e => .error e
    | .ok a2 => validateTxn c n (m.size / 9) a2

/-- `CommandTick(s)` (R230) along the plan: an empty buffer is skipped, the plan is abandoned at the first failure. -/
def commandTick (c : Cfg) (n : Nat) (plan : List TxBuf) (a : Act) : Except Fault Act :=
  match plan with
  | [] => .ok (tickPassed a)
  | b :: rest =>
    if (txBufMem b a.link.slot).size = 0 then commandTick c n rest a
    else
      match transact c n b a with
      | .error e => .error e
      | .ok (true, a1) => commandTick c n rest a1
      | .ok (false, a1) => .ok (tickFailed c n .command a1)

/-- The tick of a slot, by its `m_sync[s]` at the start (R227). -/
def slotTick (c : Cfg) (n : Nat) (a : Act) : Except Fault Act :=
  if a.link.slot.mSync = .unsynchronized then probeTick c n a else commandTick c n a.link.slotCfg.tickPlan a

/-- `T.TICK s` (R227). -/
def execTTick (n : Nat) (s : State) : Host.Outcome State Fault Refusal :=
  s.onLink n (fun a =>
    match slotTick s.cfg n a with
    | .error e => .error e
    | .ok a => .ok (.none, a))

/-- `T.RESTART s` (R231). -/
def execTRestart (n : Nat) (s : State) : Host.Outcome State Fault Refusal :=
  s.onLink n (fun a => .ok (.none, restartPulse n a))

end Machine
end Sys2Proof
end

