-- ==== Sys2Proof/Machine/Slave.lean ====
section
/-! DEFINITION. Slave Frame Interpreter: the meanings of `S.ID`, `S.SEL`, `S.VAL`, `S.ACK`, `S.DESYNC`, `S.END` and of the
main loop's `S.DISPATCH` (42_slave_interpreter.md R160 to R177). -/

namespace Sys2Proof
namespace Machine

/-- `S.ID` (R162). -/
def execSId (p : Nat) (pos : Fin 9) (rx : Byte) (s : State) : Host.Outcome State Fault Refusal :=
  byteOperation (.sId p pos rx) p rx (captureId rx) s

/-- `S.SEL` (R164). -/
def execSSel (p : Nat) (rx : Byte) (s : State) : Host.Outcome State Fault Refusal :=
  byteOperation (.sSel p rx) p rx (selectValue p rx) s

/-- `S.VAL` (R165). -/
def execSVal (p : Nat) (pos : Fin 9) (rx : Byte) (s : State) : Host.Outcome State Fault Refusal :=
  byteOperation (.sVal p pos rx) p rx (furtherValue rx) s

/-- `S.ACK` (R173). -/
def execSAck (p : Nat) (pos : Fin 9) (rx : Byte) (s : State) : Host.Outcome State Fault Refusal :=
  byteOperation (.sAck p pos rx) p rx ackProbe s

/-- `S.DESYNC` (R174). -/
def execSDesync (p : Nat) (pos : Fin 9) (rx : Byte) (s : State) : Host.Outcome State Fault Refusal :=
  byteOperation (.sDesync p pos rx) p rx desynchronize s

/-- `S.END` (R175): the received byte is ignored. -/
def execSEnd (p : Nat) (rx : Byte) (s : State) : Host.Outcome State Fault Refusal :=
  byteOperation (.sEnd p rx) p rx (completeFrame p) s

/-- `S.DISPATCH p` (R176). With no pending signal it is not enabled and nothing changes (log 14). -/
def execSDispatch (p : Nat) (s : State) : Host.Outcome State Fault Refusal :=
  s.onLink p (fun a => .ok (.none, dispatchFrame p a))

end Machine
end Sys2Proof
end

