-- ==== Sys2Proof/Machine/Sync.lean ====
section
/-! DEFINITION. Synchronization Engine: the meanings of `R.ADV`, `R.FIN`, `R.MISS` (responder) and `I.PROBE`, `I.CHECK`
(initiator) (41_sync_engine.md R140 to R148). -/

namespace Sys2Proof
namespace Machine

/-- `R.ADV` (R142). -/
def execRAdv (p : Nat) (pos : Fin 9) (rx : Byte) (s : State) : Host.Outcome State Fault Refusal :=
  byteOperation (.rAdv p pos rx) p rx probeAdvance s

/-- `R.FIN` (R143). -/
def execRFin (p : Nat) (rx : Byte) (s : State) : Host.Outcome State Fault Refusal :=
  byteOperation (.rFin p rx) p rx probeFinish s

/-- `R.MISS` (R144). -/
def execRMiss (p : Nat) (pos : Fin 9) (rx : Byte) (s : State) : Host.Outcome State Fault Refusal :=
  byteOperation (.rMiss p pos rx) p rx probeMiss s

/-- `I.PROBE s` (R146): the probe becomes the transmit buffer. Its condition is `m_sync[s] = 0`; on a synchronized slot
it is not performed and nothing changes (R145 "runs only while"; log 14). -/
def execIProbe (n : Nat) (s : State) : Host.Outcome State Fault Refusal :=
  s.onLink n (fun a =>
    if a.link.slot.mSync = .unsynchronized then .ok (.none, selectTx (probeBuf s.cfg) a) else .ok (.none, a))

/-- `I.CHECK s` (R147). Where its condition `m_sync[s] = 0` is false nothing changes, as for `I.PROBE`; that it is performed
at other times than directly after the probe transfer, on the receive buffer as it stands, is the model's choice too (log
14). -/
def execICheck (n : Nat) (s : State) : Host.Outcome State Fault Refusal :=
  s.onLink n (fun a =>
    if a.link.slot.mSync = .unsynchronized then
      match checkProbe s.cfg n a with
      | .error e => .error e
      | .ok (pass, a) => .ok (.check pass, a)
    else .ok (.none, a))

end Machine
end Sys2Proof
end

