-- ==== Sys2Proof/Machine/Validator.lean ====
section
/-! DEFINITION. Master Transaction Validator: the meanings of `V.SLOT` and `V.TXN` (43_master_validator.md R190 to R203).
-/

namespace Sys2Proof
namespace Machine

/-- `V.SLOT s, k` (R193). R190 runs it only while `m_sync[s] = 1`; that a lone request is performed all the same on a slot
with `m_sync[s] = 0` is the model's choice, log 38; so is it at any other time than directly after the transaction of the
`tx` "just sent" (R190, R191), on the buffers as they stand, log 41. -/
def execVSlot (n k : Nat) (s : State) : Host.Outcome State Fault Refusal :=
  s.onLink n (fun a =>
    match validateSlot s.cfg n k a with
    | .error e => .error e
    | .ok (v, a) => .ok (.verdict v, a))

/-- `V.TXN s, N` (R191). R190 runs it only while `m_sync[s] = 1`, and R261 says that no transaction fails with
`m_sync[s] = 0`; that a lone request is performed all the same on such a slot is the model's choice, log 38; so is it at any
other time than directly after the transaction of the `tx` "just sent" (R190, R191), a second time or with another `N`, on the
buffers as they stand, log 41. -/
def execVTxn (n count : Nat) (s : State) : Host.Outcome State Fault Refusal :=
  s.onLink n (fun a =>
    match validateTxn s.cfg n count a with
    | .error e => .error e
    | .ok (ok, a) => .ok (.txn ok, a))

end Machine
end Sys2Proof
end

