-- ==== Sys2Proof/Machine/Watchdog.lean ====
section
/-! DEFINITION. Liveness Watchdog: the meanings of `W.INC` and `W.CHECK` (44_watchdog.md R210 to R217). -/

namespace Sys2Proof
namespace Machine

/-- `W.INC` (R212). -/
def execWInc (s : State) : Host.Outcome State Fault Refusal :=
  .next { s with wdCounter := wdNext s.cfg s.wdCounter, result := .none }

/-- `W.CHECK` (R213): error class (d) when it trips (R250). -/
def execWCheck (s : State) : Host.Outcome State Fault Refusal :=
  if wdTrips s.cfg s.wdCounter then
    .next { s with wdState := .tripped, wdCounter := 0, effects := s.effects ++ [.safety], result := .watchdog .tripped }
  else .next { s with wdState := .armed, wdCounter := 0, result := .watchdog .armed }

end Machine
end Sys2Proof
end

