-- ==== Sys2Proof/Machine/Wire.lean ====
section
/-! DEFINITION. The wire formats as they pass over the wire (30_encoding.md R90 to R93, R108). The table lists them and
calls them formats, not operations; the model gives a transmitted format the transfer of its nine bytes (R65, the
pseudo-operation XFER of R107), and a received format the transfer in which the initiator receives its nine bytes; log 15. -/

namespace Sys2Proof
namespace Machine

/-- Nine bytes go out on slot `n` as one transaction: they are the transmit buffer, and the transfer of R65 is performed. R261
and R266 have an unsynchronized slot send probes only and a synchronized one commands only; that `FRAME` and `PROBE` are
performed whatever `m_sync[s]` is, and leave it as it is, is the model's choice, log 15. -/
def sendNine (n : Nat) (w : List Byte) (s : State) : Host.Outcome State Fault Refusal :=
  s.onLink n (fun a =>
    match transfer n 9 (selectTx (Memory.ofBytes w) a) with
    | .error e => .error e
    | .ok a => .ok (.none, a))

/-- The bus of the next exchanges, with the bytes that the initiator receives in them fixed (R64). -/
def received (w : List Byte) (bus : List Disturbance) : List Disturbance :=
  match w with
  | [] => bus
  | b :: rest => { bus.headD Disturbance.ideal with toInitiator := some b } :: received rest bus.tail

/-- Nine bytes arrive at the initiator: the slot's transmit buffer is transferred, and these bytes are received, one in each
exchange (R32 "the byte received during the exchange in which `tx[i]` was sent", "Written only by the bus transfer"). That
`REPLY` and `PROBE_REPLY` are performed whatever `m_sync[s]` is, and leave it as it is, is the model's choice, log 15 (R261,
R266). -/
def receiveNine (n : Nat) (w : List Byte) (s : State) : Host.Outcome State Fault Refusal :=
  s.onLink n (fun a =>
    match transfer n 9 (a.setEnv { a.link.env with bus := received w a.link.env.bus }) with
    | .error e => .error e
    | .ok a => .ok (.none, a))

/-- `FRAME`: a command frame goes out (R90), on an unsynchronized slot too (log 15). -/
def execFrame (n : Nat) (id : Pair) (value : Quad) (s : State) : Host.Outcome State Fault Refusal :=
  sendNine n (frameBytes id value) s

/-- `PROBE`: START_SEQUENCE goes out "as one transaction of length 9" (R92), on a synchronized slot too (log 15). -/
def execProbe (n : Nat) (s : State) : Host.Outcome State Fault Refusal :=
  sendNine n s.cfg.startSeq.bytes s

/-- `REPLY`: the nine bytes of a reply arrive (R91). -/
def execReply (n : Nat) (prev : Byte) (id : Pair) (value : Quad) (ack : Pair) (s : State) :
    Host.Outcome State Fault Refusal :=
  receiveNine n (replyBytes prev id value ack) s

/-- `PROBE_REPLY`: the nine bytes of a probe reply arrive (R93). -/
def execProbeReply (n : Nat) (prev : Byte) (s : State) : Host.Outcome State Fault Refusal :=
  receiveNine n (probeReplyBytes s.cfg.startSeq prev) s

end Machine
end Sys2Proof
end

