-- ==== Sys2Proof/Machine/Dispatch.lean ====
section
/-! DEFINITION. The dispatch: one arm per constructor of Instr, each a direct call of its meaning. -/

namespace Sys2Proof
namespace Machine

def exec (i : Instr) (s : State) : Host.Outcome State Fault Refusal :=
  match i with
  | .encI16 b n off id v => Sys2Proof.Machine.execEncI16 b n off id v s
  | .encI32 b n off id v => Sys2Proof.Machine.execEncI32 b n off id v s
  | .encF32 b n off id w => Sys2Proof.Machine.execEncF32 b n off id w s
  | .decId b n off => Sys2Proof.Machine.execDecId b n off s
  | .decI16 b n off => Sys2Proof.Machine.execDecI16 b n off s
  | .decI32 b n off => Sys2Proof.Machine.execDecI32 b n off s
  | .decF32 b n off => Sys2Proof.Machine.execDecF32 b n off s
  | .rAdv p pos rx => Sys2Proof.Machine.execRAdv p pos rx s
  | .rFin p rx => Sys2Proof.Machine.execRFin p rx s
  | .rMiss p pos rx => Sys2Proof.Machine.execRMiss p pos rx s
  | .iProbe n => Sys2Proof.Machine.execIProbe n s
  | .iCheck n => Sys2Proof.Machine.execICheck n s
  | .sId p pos rx => Sys2Proof.Machine.execSId p pos rx s
  | .sSel p rx => Sys2Proof.Machine.execSSel p rx s
  | .sVal p pos rx => Sys2Proof.Machine.execSVal p pos rx s
  | .sAck p pos rx => Sys2Proof.Machine.execSAck p pos rx s
  | .sDesync p pos rx => Sys2Proof.Machine.execSDesync p pos rx s
  | .sEnd p rx => Sys2Proof.Machine.execSEnd p rx s
  | .sDispatch p => Sys2Proof.Machine.execSDispatch p s
  | .vSlot n k => Sys2Proof.Machine.execVSlot n k s
  | .vTxn n count => Sys2Proof.Machine.execVTxn n count s
  | .wInc => Sys2Proof.Machine.execWInc s
  | .wCheck => Sys2Proof.Machine.execWCheck s
  | .tTick n => Sys2Proof.Machine.execTTick n s
  | .tRestart n => Sys2Proof.Machine.execTRestart n s
  | .bXchg n k => Sys2Proof.Machine.execBXchg n k s
  | .reset t => Sys2Proof.Machine.execReset t s
  | .frame n id value => Sys2Proof.Machine.execFrame n id value s
  | .reply n prev id value ack => Sys2Proof.Machine.execReply n prev id value ack s
  | .probe n => Sys2Proof.Machine.execProbe n s
  | .probeReply n prev => Sys2Proof.Machine.execProbeReply n prev s

end Machine
end Sys2Proof
end

