-- ==== Sys2Proof/Machine/Fetch.lean ====
section
/-! DEFINITION. How the next instruction is found: the block fetches no program (10_state.md R24); it takes the next event
(60_exceptions.md R252 to R254), forms its code words and decodes them (30_encoding.md R105, R106); log 10. -/

namespace Sys2Proof
namespace Machine

/-- What the next event asks for. -/
inductive Fetched where
  /-- Nothing: no event, or one that starts no operation. -/
  | idle
  /-- An instruction. -/
  | run (i : Instr)
  /-- A refusal by name. -/
  | refuse (r : Refusal)
deriving DecidableEq, Repr

/-- The buffer, slot and offset of a decode, and its type if it is a value decode; none for every other instruction. -/
def decodeCall (i : Instr) : Option (Buf × Nat × Nat × Option ValueType) :=
  match i with
  | .decId b n off => some (b, n, off, none)
  | .decI16 b n off => some (b, n, off, some .i16)
  | .decI32 b n off => some (b, n, off, some .i32)
  | .decF32 b n off => some (b, n, off, some .f32)
  | .encI16 .. | .encI32 .. | .encF32 .. | .rAdv .. | .rFin .. | .rMiss .. | .iProbe .. | .iCheck ..
  | .sId .. | .sSel .. | .sVal .. | .sAck .. | .sDesync .. | .sEnd .. | .sDispatch .. | .vSlot .. | .vTxn .. | .wInc
  | .wCheck | .tTick .. | .tRestart .. | .bXchg .. | .reset .. | .frame .. | .reply .. | .probe .. | .probeReply .. => none

/-- The caller's check of R130: a value decode whose type is not the one declared for the frame's id is refused; an
undeclared id, or a frame that is not there, is left to the operation; log 17. -/
def typeRefusal (b : Buf) (n off : Nat) (t : ValueType) (s : State) : Option Refusal :=
  match s.links[n]? with
  | none => none
  | some l =>
    match decodeId (bufName b n) s.cfg.byteOrder off (bufMem b l.slot) with
    | .error _ => none
    | .ok id =>
      match declaredType s.cfg.vtypes id with
      | none => none
      | some u => if u = t then none else some (.wrongType id)

/-- The caller's checks of a decode: its buffer is the receive buffer, the one memory for which the table of R48 lists `DEC.*`
(log 42); then, for a value decode, its type (R130). -/
def callRefusal (i : Instr) (s : State) : Option Refusal :=
  match decodeCall i with
  | none => none
  | some (b, n, off, t) =>
    if b = .rx then
      match t with
      | none => none
      | some t => typeRefusal b n off t s
    else some (.notReachable (bufName b n))

/-- Decode code words and check the call. -/
def fetchCode (S : StartSeq) (c : Code) (s : State) : Fetched :=
  match decode S c with
  | .error e => .refuse (.illegalCode e)
  | .ok i =>
    match callRefusal i s with
    | some r => .refuse r
    | none => .run i

/-- What one event asks for. A byte clock forms the key of R105; a responder held in reset takes no byte step (R63). The boot
encodes a pull frame "with value 0 of the declared type" (R228). -/
def fetchEvent (e : Event) (s : State) : Fetched :=
  match e with
  | .request w => fetchCode s.cfg.startSeq (.opsel w) s
  | .byteClock p rx =>
    match s.links[p]? with
    | none => .refuse (.noSuchSlot p)
    | some l =>
      if l.slot.restartLine then .idle
      else fetchCode l.respCfg.startSeq (.skey (skey l.respCfg l.resp rx) p rx) s
  | .sent n w => fetchCode s.cfg.startSeq (.sent n w) s
  | .received n w => fetchCode s.cfg.startSeq (.received n w) s
  | .ticksDue slots =>
    match slots.min? with
    | none => .idle
    | some n => .run (.tTick n)
  | .bootEncode n j =>
    match s.links[n]? with
    | none => .refuse (.noSuchSlot n)
    | some l =>
      match l.slotCfg.pullCmds[j]? with
      | none => .idle
      | some id => .run (encodeCommand s.cfg .pull n j id 0)

/-- The events left after one is taken: of several due triggers, the first slot in registry order is served and the others
stay due, none is lost (R233, R253); log 26. -/
def eventsAfter (e : Event) (rest : List Event) : List Event :=
  match e with
  | .ticksDue slots =>
    match slots.min? with
    | none => rest
    | some n => if slots.erase n = [] then rest else .ticksDue (slots.erase n) :: rest
  | .request _ | .byteClock _ _ | .sent _ _ | .received _ _ | .bootEncode _ _ => rest

/-- The state in which the step's operation runs: the event is taken, the effect list is empty, no result is returned yet
(R16, R18). -/
def State.begin (events : List Event) (s : State) : State :=
  { s with events := events, effects := [], result := .none }

/-- The responder in the position a key names (R105). -/
def positionAt (key : BitVec 6) (r : Responder) : Responder :=
  if h : key.toNat / 2 % 16 < 9 then
    if key.toNat < 32 then { r with sSync := .unsynchronized, syncPos := ⟨key.toNat / 2 % 16, h⟩ }
    else { r with sSync := .synchronized, framePos := ⟨key.toNat / 2 % 16, h⟩ }
  else r

/-- Make code words the next thing to be fetched: a request or nine bytes are the next event; for a key, which is formed
and not stored, responder 0 is put in the key's position and the next event is a byte clock whose byte fits the key. -/
def placeCode (c : Code) (s : State) : State :=
  match c with
  | .opsel w => { s with events := .request w :: s.events }
  | .sent n w => { s with events := .sent n w :: s.events }
  | .received n w => { s with events := .received n w :: s.events }
  | .skey key _ _ =>
    match s.links with
    | [] => s
    | l :: rest =>
      match keyCode l.respCfg.startSeq key.toNat with
      | .skey k _ rx =>
        if k.toNat / 2 % 16 < 9 then
          { s with links := { l with resp := positionAt k l.resp } :: rest, events := .byteClock 0 rx :: s.events }
        else { s with events := .request [BitVec.ofNat 8 k.toNat] :: s.events }
      | _ => s

end Machine
end Sys2Proof
end

