-- ==== Sys2Proof/Machine/Step.lean ====
section
/-! DEFINITION. One step of the block: the next event's operation (00_scope.md R17, R18). -/

namespace Sys2Proof
namespace Machine

/-- One step: take the next event and perform its operation. With no event, or one that starts no operation, the block
idles (R18 "No step of the block blocks or waits", R270). -/
def step (s : State) : Host.Outcome State Fault Refusal :=
  match s.events with
  | [] => .next (s.begin [])
  | e :: rest =>
    match fetchEvent e s with
    | .idle => .next (s.begin (eventsAfter e rest))
    | .run i => exec i (s.begin (eventsAfter e rest))
    | .refuse r => .refused r

/-- The state in which the table word `w` of `nbits` bits is what the next step fetches. -/
def State.withFetchWord (s : State) (nbits w : Nat) : State := placeCode (tableCode s.cfg.startSeq nbits w) s

end Machine
end Sys2Proof
end

