-- ==== Sys2Proof/Safety.lean ====
section
/-! DEFINITION. What counts as a good state and a safe run, and the terms the statements use. -/

namespace Sys2Proof
namespace Machine

/-- The invariant of the responder registers (10_state.md R29). -/
abbrev Responder.Inv (r : Responder) : Prop :=
  (r.sSync = .unsynchronized → r.framePos = 0) ∧ (r.sSync = .synchronized → r.syncPos = 0)

/-- What holds of a link between two steps: R29, every buffer in canonical form, the restart line deasserted (R231: the
pulse is one step). -/
abbrev Link.Inv (l : Link) : Prop :=
  l.resp.Inv ∧ l.slot.pushBuf.wf = true ∧ l.slot.pullBuf.wf = true ∧ l.slot.rxBuf.wf = true ∧ l.slot.tx.wf = true ∧
    l.slot.restartLine = false

/-- The invariant of the machine: every link's, and `wd_counter` within `WD_WIDTH` bits (R37). -/
abbrev State.Inv (s : State) : Prop := (∀ l ∈ s.links, l.Inv) ∧ s.wdCounter ≤ wdMax s.cfg

/-- The buffers have the lengths of the declared command counts, and the receive buffer is long enough for every
transaction of the slot (R31, R32, R147). -/
abbrev Link.Sized (l : Link) : Prop :=
  l.slot.pushBuf.size = 9 * l.slotCfg.pushCmds.length ∧ l.slot.pullBuf.size = 9 * l.slotCfg.pullCmds.length ∧
    9 ≤ l.slot.rxBuf.size ∧ l.slot.pushBuf.size ≤ l.slot.rxBuf.size ∧ l.slot.pullBuf.size ≤ l.slot.rxBuf.size

/-- A configured machine: legal constants, at most `MAX_SLOTS` slots, buffers of the right lengths (R10, R11, R289). -/
abbrev State.Configured (s : State) : Prop :=
  s.cfg.Legal ∧ s.links.length ≤ s.cfg.maxSlots ∧ ∀ l ∈ s.links, l.Sized

/-- The state after an operation on link `n`: its link, the effect list and the result; nothing else changes. -/
def State.withLink (s : State) (n : Nat) (l : Link) (fx : List Effect) (r : Result) : State :=
  { s with links := s.links.set n l, effects := fx, result := r }

/-- The outcome is a next state that satisfies `P`: the run goes on. -/
abbrev NextWith (o : Host.Outcome State Fault Refusal) (P : State → Prop) : Prop := ∃ t, o = .next t ∧ P t

/-- A safe outcome: no fault. A run is safe if every step of it is (R249 "no `Precondition` fault"). -/
def Safe (o : Host.Outcome State Fault Refusal) : Prop := ∀ e, o ≠ .fault e

/-- Instructions performed one after the other, up to the first that gives no next state. -/
def execAll (is : List Instr) (s : State) : Host.Outcome State Fault Refusal :=
  match is with
  | [] => .next s
  | i :: rest =>
    match exec i s with
    | .next t => execAll rest t
    | .fault e => .fault e
    | .refused r => .refused r

/-- The one link an instruction works on; none for the watchdog's operations and for `RESET all`. -/
def linkOf (i : Instr) : Option Nat :=
  match i with
  | .encI16 _ n _ _ _ | .encI32 _ n _ _ _ | .encF32 _ n _ _ _ | .decId _ n _ | .decI16 _ n _ | .decI32 _ n _
  | .decF32 _ n _ | .rAdv n _ _ | .rFin n _ | .rMiss n _ _ | .iProbe n | .iCheck n | .sId n _ _ | .sSel n _ | .sVal n _ _
  | .sAck n _ _ | .sDesync n _ _ | .sEnd n _ | .sDispatch n | .vSlot n _ | .vTxn n _ | .tTick n | .tRestart n | .bXchg n _
  | .reset (.responder n) | .frame n _ _ | .reply n _ _ _ _ | .probe n | .probeReply n _ => some n
  | .wInc | .wCheck | .reset .all => none

/-- A memory holds these bytes from offset `a` on. -/
def Memory.Holds (m : Memory) (a : Nat) (bs : List Byte) : Prop := ∀ (i : Nat) (h : i < bs.length), m.read (a + i) = bs[i]

/-- Two memories of one length that agree outside the `n` bytes at offset `a`. -/
def Memory.SameOutside (m m' : Memory) (a n : Nat) : Prop :=
  m'.size = m.size ∧ ∀ x, (x < a ∨ a + n ≤ x) → m'.read x = m.read x

/-- The selector byte of a request: its `OPSEL` code (R104, R106). -/
def codeSelector (c : Code) : Option Byte :=
  match c with
  | .opsel (b :: _) => some b
  | _ => none

/-- The key that the responder of a link forms with a received byte decodes to this instruction (R105). -/
def Keyed (l : Link) (p : Nat) (rx : Byte) (i : Instr) : Prop :=
  decode l.respCfg.startSeq (.skey (skey l.respCfg l.resp rx) p rx) = .ok i

/-- The byte step of responder `p` on `rx` performs the operation `i`: its key decodes to it (R105); while the responder is not
held in reset, a step that takes such a byte clock is `i`; and `i`, performed on the link in any state, is `ByteStep(rx)` of R160,
with the reply that it stages. -/
def ByteStepPerforms (l : Link) (p : Nat) (rx : Byte) (i : Instr) : Prop :=
  Keyed l p rx i ∧ (l.slot.restartLine = false →
    (∀ (s : State) (rest : List Event), s.events = .byteClock p rx :: rest → s.links[p]? = some l →
      step s = exec i (s.begin rest)) ∧
    ∀ s : State, s.links[p]? = some l →
      exec i s = .next (s.withLink p (byteStep p rx ⟨l, s.effects⟩).link (byteStep p rx ⟨l, s.effects⟩).fx
        (.reply (byteStep p rx ⟨l, s.effects⟩).link.resp.txReg)))

/-- A transmit buffer as a buffer that a decode operation reads. -/
def txAsBuf (b : TxBuf) : Buf :=
  match b with
  | .push => .push
  | .pull => .pull

/-! ## A transfer, a transaction and a fill as operations -/

/-- What a responder does on its own, as operations (R176, R283). -/
def turnOps (n : Nat) (ts : List Turn) : List Instr :=
  ts.map (fun t => match t with
    | .dispatch => .sDispatch n
    | .powerCycle => .reset (.responder n))

/-- The byte steps that a responder takes on these clocks, each after what it does on its own (R77), as operations: the byte
operation is the one that R105 selects. -/
def clockSteps (n : Nat) (cs : List AddedClock) (s : State) : Host.Outcome State Fault Refusal :=
  match cs with
  | [] => .next s
  | c :: rest =>
    match execAll (turnOps n c.turns) s with
    | .fault e => .fault e
    | .refused r => .refused r
    | .next t =>
      match t.links[n]? with
      | none => .refused (.noSuchSlot n)
      | some l =>
        match exec (selected l.respCfg l.resp n c.rx) t with
        | .fault e => .fault e
        | .refused r => .refused r
        | .next u => clockSteps n rest u

/-- The operations of a transfer of `len` bytes on slot `n` from exchange `i` on (R65), with what the responder does on its own
before each exchange and after the last (R77): `len + 1` places. -/
def transferOps (n len i : Nat) (turns : List (List Turn)) : List Instr :=
  match len with
  | 0 => turnOps n (turns.headD [])
  | len + 1 => turnOps n (turns.headD []) ++ .bXchg n i :: transferOps n len (i + 1) turns.tail

/-- The operations of one probe transaction on slot `n`: the pseudo-operation PROBE of R107. -/
def probeTransaction (n : Nat) (turns : List (List Turn)) : List Instr :=
  .iProbe n :: transferOps n 9 0 turns ++ [.iCheck n]

/-- The operations of one command transaction of `len` bytes on slot `n`: the pseudo-operation TXN of R107. -/
def commandTransaction (n len : Nat) (turns : List (List Turn)) : List Instr :=
  transferOps n len 0 turns ++ [.vTxn n (len / 9)]

/-- The next `k` values of the push-value supplier of slot `n`, and the environment after them (R47; log 9). -/
def supplied (n k : Nat) (e : Inputs) : List Word32 × Inputs :=
  match k with
  | 0 => ([], e)
  | k + 1 => ((e.pushValue n).1 :: (supplied n k (e.pushValue n).2).1, (supplied n k (e.pushValue n).2).2)

/-- The operations that fill the push buffer of slot `n` from its `j`-th command on (R228). -/
def fillOps (c : Cfg) (n j : Nat) (ids : List Id) (ws : List Word32) : List Instr :=
  match ids, ws with
  | id :: ids, w :: ws => encodeCommand c .push n j id w :: fillOps c n (j + 1) ids ws
  | _, _ => []

/-- The operations that prepare a buffer for its transfer, and the environment after them (R228, R230). -/
def prepareOps (c : Cfg) (n : Nat) (b : TxBuf) (l : Link) : List Instr × Inputs :=
  match b with
  | .push => (fillOps c n 0 l.slotCfg.pushCmds (supplied n l.slotCfg.pushCmds.length l.env).1,
      (supplied n l.slotCfg.pushCmds.length l.env).2)
  | .pull => ([], l.env)

/-- A link whose first `k` places for the responder's own steps are taken. -/
def Link.dropTurns (k : Nat) (l : Link) : Link := { l with env := { l.env with turns := l.env.turns.drop k } }

/-- The state with another `TICK_PLAN` for slot `n`. -/
def State.withPlan (n : Nat) (plan : List TxBuf) (s : State) : State :=
  match s.links[n]? with
  | none => s
  | some l => { s with links := s.links.set n { l with slotCfg := { l.slotCfg with tickPlan := plan } } }

/-- The tick of slot `n` in `s` ends as its tick in `u` with the plan `rest`, the plan itself aside. -/
def TickGoesOn (n : Nat) (s u : State) (plan rest : List TxBuf) : Prop :=
  (∀ t, exec (.tTick n) (u.withPlan n rest) = .next t → exec (.tTick n) s = .next (t.withPlan n plan)) ∧
    ∀ e, exec (.tTick n) (u.withPlan n rest) = .fault e → exec (.tTick n) s = .fault e

/-! ## Deliveries (R176) -/

/-- What `S.DISPATCH` emits for these snapshots, in their order (R45, R176). -/
def deliveries (p : Nat) (k : RespCfg) (snaps : List Snapshot) : List Effect :=
  snaps.flatMap (fun snap => if snap.isPull then [] else
    [.pushDeliver p (idOf k.byteOrder snap.idBytes) snap.valueBytes (decide (idOf k.byteOrder snap.idBytes ∈ k.pushS))])

/-- An effect of the main loop. -/
def Effect.isDelivery (e : Effect) : Bool :=
  match e with
  | .pushDeliver .. => true
  | .frameComplete .. | .pullQuery .. | .pullDeliver .. | .warnTxAck .. | .safety | .restartPulse .. => false

/-! ## Links -/

/-- No power cycle of the responder is due at these places; main-loop steps may be. -/
abbrev Powered (turns : List (List Turn)) : Prop := ∀ ts ∈ turns, Turn.powerCycle ∉ ts

/-- Both sides of a link are synchronized and stand at a frame boundary (R152). -/
abbrev Link.Aligned (l : Link) : Prop :=
  l.slot.mSync = .synchronized ∧ l.resp.sSync = .synchronized ∧ l.resp.framePos = 0 ∧ l.resp.syncPos = 0

/-- The bus of the link is ideal from now on, and the responder is neither held in reset nor power-cycled (R64, R63, R284). -/
abbrev Link.Undisturbed (l : Link) : Prop := l.env.bus = [] ∧ l.slot.restartLine = false ∧ Powered l.env.turns

/-- The reset values of a responder, the staging registers aside (R282). -/
abbrev Responder.AtReset (r : Responder) : Prop :=
  r.sSync = .unsynchronized ∧ r.syncPos = 0 ∧ r.framePos = 0 ∧ r.isPull = false ∧ r.txReg = 0x00 ∧ r.pending = []

end Machine
end Sys2Proof
end

