-- ==== Sys2Proof/Certificates/Slice0/Obligations.lean ====
section
/-! DEFINITION. The statements for the provers. In each, `l` is the link of the slot or responder that the instruction
names; a conclusion `exec i s = .next (s.withLink n l' fx r)` gives the whole next state: link `n` is `l'`, the effect list
is `fx`, the result is `r`, and everything else (the other links, the configuration, the watchdog, the events) is as in
`s`. -/

section

open Sys2Proof Sys2Proof.Machine

/-! ## Fetching, decoding, encoding -/

/-- A step performs the instruction that the next event's code words decode to, in the state without that event (R17,
R252, R253); a byte clock reaches no responder that is held in reset (R63). Events as data are the model's choice, log 10;
coinciding triggers are served in registry order, R233, by the choice of log 26; the boot encodes each pull frame with value
0, R228, as log 23 has it. -/
def Obligations.StepRunsDecodedInstruction : Prop :=
  ∀ (s : State) (e : Event) (rest : List Event), s.events = e :: rest →
    (∀ w i, e = .request w → decode s.cfg.startSeq (.opsel w) = .ok i → callRefusal i s = none →
      step s = exec i (s.begin rest)) ∧
    (∀ p rx l i, e = .byteClock p rx → s.links[p]? = some l → l.slot.restartLine = false → Keyed l p rx i →
      step s = exec i (s.begin rest)) ∧
    (∀ n w i, e = .sent n w → decode s.cfg.startSeq (.sent n w) = .ok i → step s = exec i (s.begin rest)) ∧
    (∀ n w i, e = .received n w → decode s.cfg.startSeq (.received n w) = .ok i → step s = exec i (s.begin rest)) ∧
    (∀ slots n, e = .ticksDue slots → slots.min? = some n →
      step s = exec (.tTick n) (s.begin (if slots.erase n = [] then rest else .ticksDue (slots.erase n) :: rest))) ∧
    (∀ p rx l, e = .byteClock p rx → s.links[p]? = some l → l.slot.restartLine = true →
      step s = .next (s.begin rest)) ∧
    (∀ n j l id, e = .bootEncode n j → s.links[n]? = some l → l.slotCfg.pullCmds[j]? = some id →
      step s = exec (encodeCommand s.cfg .pull n j id 0) (s.begin rest))

/-- Decoding the code words of a well-formed instruction gives it back, with every operand. No operand of a request is bounded:
offsets are "unbounded non-negative integers" (R48); the layout is the model's choice, log 11. -/
def Obligations.DecodeInvertsEncode : Prop :=
  ∀ (S : StartSeq) (i : Instr), i.wf S = true → decode S (encode S i) = .ok i

/-- Code words that decode are the code words of the well-formed instruction they decode to: no two code words share a
meaning, and no bit is dropped. That a request has one form (zeros in its unused fields, no needless extension) is the model's
layout, log 11, since R106 gives no operand encoding; that received bytes are read as `PROBE_REPLY` or as `REPLY`, never as
both, is log 16's choice. -/
def Obligations.EncodeInvertsDecode : Prop :=
  ∀ (S : StartSeq) (c : Code) (i : Instr), decode S c = .ok i → i.wf S = true ∧ encode S i = c

/-- R105: a byte step performs exactly the operation that its table gives for `s_sync`, the position and the received byte:
the responder's key decodes to it, the step of a byte clock is that operation, and `ByteStep` of R160, which the exchanges of a
transfer perform, has its outcome; keys with `pppp` in 9..15 are refused. -/
def Obligations.ByteClockSelectsByTable : Prop :=
  (∀ (l : Link) (p : Nat) (rx : Byte),
    (l.resp.sSync = .unsynchronized →
      (rx = l.respCfg.startSeq.get l.resp.syncPos → l.resp.syncPos ≠ 8 → ByteStepPerforms l p rx (.rAdv p l.resp.syncPos rx)) ∧
      (rx = l.respCfg.startSeq.get l.resp.syncPos → l.resp.syncPos = 8 → ByteStepPerforms l p rx (.rFin p rx)) ∧
      (rx ≠ l.respCfg.startSeq.get l.resp.syncPos → ByteStepPerforms l p rx (.rMiss p l.resp.syncPos rx))) ∧
    (l.resp.sSync = .synchronized →
      (l.resp.framePos.val = 0 ∨ l.resp.framePos.val = 1 → ByteStepPerforms l p rx (.sId p l.resp.framePos rx)) ∧
      (l.resp.framePos.val = 2 → ByteStepPerforms l p rx (.sSel p rx)) ∧
      (l.resp.framePos.val = 3 ∨ l.resp.framePos.val = 4 ∨ l.resp.framePos.val = 5 →
        ByteStepPerforms l p rx (.sVal p l.resp.framePos rx)) ∧
      (l.resp.framePos.val = 6 ∨ l.resp.framePos.val = 7 → rx = 0xFF → ByteStepPerforms l p rx (.sAck p l.resp.framePos rx)) ∧
      (l.resp.framePos.val = 6 ∨ l.resp.framePos.val = 7 → rx ≠ 0xFF → ByteStepPerforms l p rx (.sDesync p l.resp.framePos rx)) ∧
      (l.resp.framePos.val = 8 → ByteStepPerforms l p rx (.sEnd p rx)))) ∧
  ∀ (S : StartSeq) (key : BitVec 6) (p : Nat) (rx : Byte), 9 ≤ key.toNat / 2 % 16 →
    decode S (.skey key p rx) = .error (.illegalKey key)

/-- Words written out from the spec's tables decode to the instructions they stand for (R90, R92, R93, R104, R105; the
operand bytes of a request are log 11's). -/
def Obligations.DecodeReadsSpecWords : Prop :=
  decode StartSeq.default (.opsel [0x01, 0, 0, 9, 0, 0, 0, 2, 0, 0x88, 0xFF, 0, 0]) =
    .ok (.encI16 .push 0 9 2 0xFF88) ∧
  decode StartSeq.default (.opsel [0x0F, 2, 0, 0, 0, 0, 0, 0, 0, 0, 0, 0, 0]) = .ok (.tRestart 2) ∧
  decode StartSeq.default (.skey 0b000111 0 0x05) = .ok (.rAdv 0 3 0x05) ∧
  decode StartSeq.default (.skey 0b101101 0 0xFF) = .ok (.sAck 0 6 0xFF) ∧
  decode StartSeq.default (.sent 0 [0x02, 0, 0x88, 0xFF, 0, 0, 0xFF, 0xFF, 0xFF]) =
    .ok (.frame 0 ⟨0x02, 0⟩ ⟨0x88, 0xFF, 0, 0⟩) ∧
  decode StartSeq.default (.sent 0 [8, 7, 6, 5, 4, 3, 2, 1, 0xFF]) = .ok (.probe 0) ∧
  decode StartSeq.default (.received 0 [0xA5, 8, 7, 6, 5, 4, 3, 2, 1]) = .ok (.probeReply 0 0xA5)

/-! ## Frame Codec -/

/-- `bytes16` and `bytes32` are the inverses of `ord16` and `ord32`, lowest offset first, in either byte order (R15). -/
def Obligations.ByteOrderRoundTrip : Prop :=
  (∀ (o : ByteOrder) (v : BitVec 16), ∃ b0 b1, bytes16 o v = [b0, b1] ∧ ord16 o b0 b1 = v) ∧
  (∀ (o : ByteOrder) (v : Word32), ∃ b0 b1 b2 b3, bytes32 o v = [b0, b1, b2, b3] ∧ ord32 o ⟨b0, b1, b2, b3⟩ = v) ∧
  (∀ (b0 b1 : Byte), ord16 .le b0 b1 = b1 ++ b0 ∧ ord16 .be b0 b1 = b0 ++ b1) ∧
  ∀ (b0 b1 b2 b3 : Byte), ord32 .le ⟨b0, b1, b2, b3⟩ = b3 ++ b2 ++ b1 ++ b0 ∧
    ord32 .be ⟨b0, b1, b2, b3⟩ = b0 ++ b1 ++ b2 ++ b3

/-- R121 and R122: `ENC.I16` writes Id, two Value bytes, AckId and Sentinel; frame bytes 4 and 5 and every byte outside the
frame keep what they held; outside the buffer it faults. -/
def Obligations.EncI16WritesFrame : Prop :=
  ∀ (s : State) (n : Nat) (l : Link) (b : TxBuf) (off : Nat) (id : Id) (v : BitVec 16), s.links[n]? = some l →
    codeSelector (encode s.cfg.startSeq (.encI16 b n off id v)) = some 0x01 ∧
    (off + 9 ≤ (txBufMem b l.slot).size →
      ∃ m, exec (.encI16 b n off id v) s = .next (s.withLink n { l with slot := setTxBuf b m l.slot } s.effects .none) ∧
        m.Holds off (bytes16 s.cfg.byteOrder id ++ bytes16 s.cfg.byteOrder v) ∧ m.Holds (off + 6) [0xFF, 0xFF, 0xFF] ∧
        m.read (off + 4) = (txBufMem b l.slot).read (off + 4) ∧ m.read (off + 5) = (txBufMem b l.slot).read (off + 5) ∧
        (txBufMem b l.slot).SameOutside m off 9) ∧
    ((txBufMem b l.slot).size < off + 9 →
      exec (.encI16 b n off id v) s = .fault (.precondition (txBufName b n) off 9))

/-- R121 and R123: `ENC.I32` writes all nine bytes of the frame and nothing else; outside the buffer it faults. -/
def Obligations.EncI32WritesFrame : Prop :=
  ∀ (s : State) (n : Nat) (l : Link) (b : TxBuf) (off : Nat) (id : Id) (v : Word32), s.links[n]? = some l →
    codeSelector (encode s.cfg.startSeq (.encI32 b n off id v)) = some 0x02 ∧
    (off + 9 ≤ (txBufMem b l.slot).size →
      ∃ m, exec (.encI32 b n off id v) s = .next (s.withLink n { l with slot := setTxBuf b m l.slot } s.effects .none) ∧
        m.Holds off (bytes16 s.cfg.byteOrder id ++ bytes32 s.cfg.byteOrder v ++ [0xFF, 0xFF, 0xFF]) ∧
        (txBufMem b l.slot).SameOutside m off 9) ∧
    ((txBufMem b l.slot).size < off + 9 →
      exec (.encI32 b n off id v) s = .fault (.precondition (txBufName b n) off 9))

/-- R121 and R124: `ENC.F32` moves the 32-bit pattern unchanged; outside the buffer it faults. -/
def Obligations.EncF32WritesFrame : Prop :=
  ∀ (s : State) (n : Nat) (l : Link) (b : TxBuf) (off : Nat) (id : Id) (w : Word32), s.links[n]? = some l →
    codeSelector (encode s.cfg.startSeq (.encF32 b n off id w)) = some 0x03 ∧
    (off + 9 ≤ (txBufMem b l.slot).size →
      ∃ m, exec (.encF32 b n off id w) s = .next (s.withLink n { l with slot := setTxBuf b m l.slot } s.effects .none) ∧
        m.Holds off (bytes16 s.cfg.byteOrder id ++ bytes32 s.cfg.byteOrder w ++ [0xFF, 0xFF, 0xFF]) ∧
        (txBufMem b l.slot).SameOutside m off 9) ∧
    ((txBufMem b l.slot).size < off + 9 →
      exec (.encF32 b n off id w) s = .fault (.precondition (txBufName b n) off 9))

/-- R125: `DEC.ID` returns the id of the two bytes at the offset, changes nothing, and faults outside the buffer. -/
def Obligations.DecIdReadsId : Prop :=
  ∀ (s : State) (n : Nat) (l : Link) (b : Buf) (off : Nat), s.links[n]? = some l →
    codeSelector (encode s.cfg.startSeq (.decId b n off)) = some 0x04 ∧
    (off + 2 ≤ (bufMem b l.slot).size →
      exec (.decId b n off) s = .next (s.withLink n l s.effects
        (.id (ord16 s.cfg.byteOrder ((bufMem b l.slot).read off) ((bufMem b l.slot).read (off + 1)))))) ∧
    ((bufMem b l.slot).size < off + 2 → exec (.decId b n off) s = .fault (.precondition (bufName b n) off 2))

/-- R126: `DEC.I16` returns the value of frame bytes 2 and 3, changes nothing, and faults outside the buffer. -/
def Obligations.DecI16ReadsValue : Prop :=
  ∀ (s : State) (n : Nat) (l : Link) (b : Buf) (off : Nat), s.links[n]? = some l →
    codeSelector (encode s.cfg.startSeq (.decI16 b n off)) = some 0x05 ∧
    (off + 4 ≤ (bufMem b l.slot).size →
      exec (.decI16 b n off) s = .next (s.withLink n l s.effects
        (.value (.i16 (ord16 s.cfg.byteOrder ((bufMem b l.slot).read (off + 2)) ((bufMem b l.slot).read (off + 3))))))) ∧
    ((bufMem b l.slot).size < off + 4 → exec (.decI16 b n off) s = .fault (.precondition (bufName b n) (off + 2) 2))

/-- R127: `DEC.I32` returns the value of frame bytes 2 to 5, changes nothing, and faults outside the buffer. -/
def Obligations.DecI32ReadsValue : Prop :=
  ∀ (s : State) (n : Nat) (l : Link) (b : Buf) (off : Nat), s.links[n]? = some l →
    codeSelector (encode s.cfg.startSeq (.decI32 b n off)) = some 0x06 ∧
    (off + 6 ≤ (bufMem b l.slot).size →
      exec (.decI32 b n off) s = .next (s.withLink n l s.effects
        (.value (.i32 (ord32 s.cfg.byteOrder
          ⟨(bufMem b l.slot).read (off + 2), (bufMem b l.slot).read (off + 3), (bufMem b l.slot).read (off + 4),
            (bufMem b l.slot).read (off + 5)⟩))))) ∧
    ((bufMem b l.slot).size < off + 6 → exec (.decI32 b n off) s = .fault (.precondition (bufName b n) (off + 2) 4))

/-- R128: `DEC.F32` returns the bit pattern of frame bytes 2 to 5, changes nothing, and faults outside the buffer. -/
def Obligations.DecF32ReadsPattern : Prop :=
  ∀ (s : State) (n : Nat) (l : Link) (b : Buf) (off : Nat), s.links[n]? = some l →
    codeSelector (encode s.cfg.startSeq (.decF32 b n off)) = some 0x07 ∧
    (off + 6 ≤ (bufMem b l.slot).size →
      exec (.decF32 b n off) s = .next (s.withLink n l s.effects
        (.value (.f32 (ord32 s.cfg.byteOrder
          ⟨(bufMem b l.slot).read (off + 2), (bufMem b l.slot).read (off + 3), (bufMem b l.slot).read (off + 4),
            (bufMem b l.slot).read (off + 5)⟩))))) ∧
    ((bufMem b l.slot).size < off + 6 → exec (.decF32 b n off) s = .fault (.precondition (bufName b n) (off + 2) 4))

/-- What is encoded decodes to the same id and value, for every type, id, value, buffer and offset (the spec's own
derivation R129, a law of the codec on the buffer it is given; the buffer that a request reaches is log 42). -/
def Obligations.EncodeThenDecodeRoundTrip : Prop :=
  ∀ (s : State) (n : Nat) (l : Link) (b : TxBuf) (off : Nat) (id : Id), s.links[n]? = some l →
    off + 9 ≤ (txBufMem b l.slot).size →
    (∀ v : BitVec 16, ∃ t, exec (.encI16 b n off id v) s = .next t ∧
      NextWith (exec (.decId (txAsBuf b) n off) t) (fun u => u.result = .id id) ∧
      NextWith (exec (.decI16 (txAsBuf b) n off) t) (fun u => u.result = .value (.i16 v))) ∧
    (∀ v : Word32, ∃ t, exec (.encI32 b n off id v) s = .next t ∧
      NextWith (exec (.decId (txAsBuf b) n off) t) (fun u => u.result = .id id) ∧
      NextWith (exec (.decI32 (txAsBuf b) n off) t) (fun u => u.result = .value (.i32 v))) ∧
    ∀ w : Word32, ∃ t, exec (.encF32 b n off id w) s = .next t ∧
      NextWith (exec (.decId (txAsBuf b) n off) t) (fun u => u.result = .id id) ∧
      NextWith (exec (.decF32 (txAsBuf b) n off) t) (fun u => u.result = .value (.f32 w))

/-- A request to decode from another buffer than the receive buffer is refused, since R48 has each memory reachable only by the
operations listed and lists `DEC.*` for `rx_buf` alone (that the fetch makes this check is log 42). A request to decode from
the receive buffer with a type that is not the one declared for the frame's id is refused, and with the declared type it is
performed (R130; that the fetch makes this check, for declared ids, is the model's choice, log 17); a `DEC.ID` from it is always
performed. -/
def Obligations.WrongTypeDecodeIsRefused : Prop :=
  ∀ (s : State) (w : List Byte) (rest : List Event) (i : Instr) (b : Buf) (n off : Nat) (t : Option ValueType),
    s.events = .request w :: rest → decode s.cfg.startSeq (.opsel w) = .ok i → decodeCall i = some (b, n, off, t) →
    (b ≠ .rx → step s = .refused (.notReachable (bufName b n))) ∧
    (b = .rx → t = none → step s = exec i (s.begin rest)) ∧
    ∀ (u v : ValueType) (l : Link), b = .rx → t = some v → s.links[n]? = some l → off + 2 ≤ l.slot.rxBuf.size →
      declaredType s.cfg.vtypes (idOf s.cfg.byteOrder (l.slot.rxBuf.pairAt off)) = some u →
      step s = if v = u then exec i (s.begin rest)
        else .refused (.wrongType (idOf s.cfg.byteOrder (l.slot.rxBuf.pairAt off)))

/-! ## Synchronization Engine -/

/-- R142: `R.ADV` echoes the matching probe byte and advances `sync_pos` by one. -/
def Obligations.RAdvAdvances : Prop :=
  ∀ (s : State) (p : Nat) (l : Link) (rx : Byte), s.links[p]? = some l → l.slot.restartLine = false →
    l.resp.sSync = .unsynchronized → l.resp.syncPos ≠ 8 → rx = l.respCfg.startSeq.get l.resp.syncPos →
    Keyed l p rx (.rAdv p l.resp.syncPos rx) ∧ (l.resp.syncPos + 1).val = l.resp.syncPos.val + 1 ∧
    exec (.rAdv p l.resp.syncPos rx) s =
      .next (s.withLink p { l with resp := { l.resp with syncPos := l.resp.syncPos + 1, txReg := rx } } s.effects (.reply rx))

/-- R143: `R.FIN` makes the responder Synchronized, clears `sync_pos` and replies `0x00`. -/
def Obligations.RFinSynchronizes : Prop :=
  ∀ (s : State) (p : Nat) (l : Link), s.links[p]? = some l → l.slot.restartLine = false →
    l.resp.sSync = .unsynchronized → l.resp.syncPos = 8 →
    Keyed l p 0xFF (.rFin p 0xFF) ∧
    exec (.rFin p 0xFF) s =
      .next (s.withLink p { l with resp := { l.resp with sSync := .synchronized, syncPos := 0, txReg := 0x00 } } s.effects
        (.reply 0x00))

/-- R144: `R.MISS` drops the byte, clears `sync_pos` and replies `0x00`, whatever the byte is. -/
def Obligations.RMissRestartsMatching : Prop :=
  ∀ (s : State) (p : Nat) (l : Link) (rx : Byte), s.links[p]? = some l → l.slot.restartLine = false →
    l.resp.sSync = .unsynchronized → rx ≠ l.respCfg.startSeq.get l.resp.syncPos →
    Keyed l p rx (.rMiss p l.resp.syncPos rx) ∧
    exec (.rMiss p l.resp.syncPos rx) s =
      .next (s.withLink p { l with resp := { l.resp with syncPos := 0, txReg := 0x00 } } s.effects (.reply 0x00))

/-- R146: `I.PROBE` on an unsynchronized slot takes START_SEQUENCE as the transmit buffer and touches nothing else. -/
def Obligations.IProbeSelectsProbe : Prop :=
  ∀ (s : State) (n : Nat) (l : Link), s.links[n]? = some l → l.slot.mSync = .unsynchronized →
    codeSelector (encode s.cfg.startSeq (.iProbe n)) = some 0x08 ∧
    ∃ m, exec (.iProbe n) s = .next (s.withLink n { l with slot := { l.slot with tx := m } } s.effects .none) ∧
      m.size = 9 ∧ m.Holds 0 s.cfg.startSeq.bytes ∧ m.wf = true

/-- `I.CHECK`, as in R147, passes exactly when `rx[1..9)` is `S[0..8)`, sets `m_sync[s]` on a pass, changes nothing on a fail,
and faults when the receive buffer is shorter than 9 bytes. R147 performs it directly after the probe transfer; that a request
at any other time compares whatever the receive buffer holds is the model's choice, log 14. -/
def Obligations.ICheckComparesEchoes : Prop :=
  ∀ (s : State) (n : Nat) (l : Link), s.links[n]? = some l → l.slot.mSync = .unsynchronized →
    codeSelector (encode s.cfg.startSeq (.iCheck n)) = some 0x09 ∧
    (9 ≤ l.slot.rxBuf.size →
      ((∀ k : Fin 8, l.slot.rxBuf.read (k.val + 1) = s.cfg.startSeq.get k.castSucc) →
        exec (.iCheck n) s = .next (s.withLink n { l with slot := { l.slot with mSync := .synchronized } } s.effects
          (.check true))) ∧
      (∀ k : Fin 8, l.slot.rxBuf.read (k.val + 1) ≠ s.cfg.startSeq.get k.castSucc →
        exec (.iCheck n) s = .next (s.withLink n l s.effects (.check false)))) ∧
    (l.slot.rxBuf.size < 9 → ∃ a m, exec (.iCheck n) s = .fault (.precondition (.rx n) a m))

/-- The model's choice of log 14: `I.PROBE` and `I.CHECK` on a synchronized slot, and `S.DISPATCH` with nothing pending,
change nothing. -/
def Obligations.UnmetConditionsChangeNothing : Prop :=
  ∀ (s : State) (n : Nat) (l : Link), s.links[n]? = some l →
    (l.slot.mSync = .synchronized →
      exec (.iProbe n) s = .next (s.withLink n l s.effects .none) ∧
      exec (.iCheck n) s = .next (s.withLink n l s.effects .none)) ∧
    (l.resp.pending = [] → exec (.sDispatch n) s = .next (s.withLink n l s.effects .none))

/-- Nine byte clocks from the start position synchronize a responder exactly when they bring the nine bytes of
START_SEQUENCE (the spec's own derivation in R148), whatever START_SEQUENCE is. -/
def Obligations.OnlyTheProbeSynchronizes : Prop :=
  ∀ (s : State) (p : Nat) (l : Link) (bs : List Byte), s.links[p]? = some l → l.slot.restartLine = false →
    l.resp.sSync = .unsynchronized → l.resp.syncPos = 0 → bs.length = 9 →
    ∃ t l', Host.Core.run Sys2Proof.core 9 { s with events := bs.map (Event.byteClock p) } = .next t ∧
      t.links[p]? = some l' ∧ (l'.resp.sSync = .synchronized ↔ bs = l.respCfg.startSeq.bytes)

/-- On an ideal bus a probe tick synchronizes both sides if the responder waits for the first probe byte (the spec's own
derivation in R149), for every START_SEQUENCE the two sides share; the whole next state is given. Only the responder's main
loop may have dispatched some of the pending signals meanwhile (log 22). -/
def Obligations.ProbeTickSynchronizes : Prop :=
  ∀ (s : State) (n : Nat) (l : Link), s.links[n]? = some l → l.Undisturbed → l.slot.mSync = .unsynchronized →
    l.resp.sSync = .unsynchronized → l.resp.syncPos = 0 → l.respCfg.startSeq = s.cfg.startSeq → 9 ≤ l.slot.rxBuf.size →
    ∃ m k, exec (.tTick n) s =
        .next (s.withLink n
          { l.dropTurns 10 with
            slot := { l.slot with mSync := .synchronized, tx := probeBuf s.cfg, rxBuf := m, failRun := 0 }
            resp := { l.resp with sSync := .synchronized, syncPos := 0, txReg := 0x00, pending := l.resp.pending.drop k } }
          (s.effects ++ deliveries n l.respCfg (l.resp.pending.take k)) .none) ∧
      m.Holds 0 (probeReplyBytes s.cfg.startSeq l.resp.txReg) ∧ l.slot.rxBuf.SameOutside m 0 9

/-- On an ideal bus with the default START_SEQUENCE, at most two probe transactions synchronize both sides at a frame
boundary, from every responder state that satisfies R29 (the spec's own derivation R152), wherever the responder's main loop
runs in between (log 22). -/
def Obligations.TwoProbesResynchronize : Prop :=
  ∀ (s : State) (n : Nat) (l : Link) (turns turns' : List (List Turn)), s.links[n]? = some l → l.Undisturbed →
    Powered turns → Powered turns' → l.resp.Inv →
    l.slot.mSync = .unsynchronized → s.cfg.startSeq = StartSeq.default → l.respCfg.startSeq = StartSeq.default →
    9 ≤ l.slot.rxBuf.size →
    ∃ t l', execAll (probeTransaction n turns) s = .next t ∧ t.links[n]? = some l' ∧
      (l'.Aligned ∨
        ∃ u l'', execAll (probeTransaction n turns') t = .next u ∧ u.links[n]? = some l'' ∧ l''.Aligned)

/-- If the check of a probe transaction passes, the responder is synchronized at a frame boundary, on an ideal bus with the
default START_SEQUENCE; and if a responder that was unsynchronized ends the transaction synchronized, the check passes, which
it does if the responder waited for the first probe byte (the spec's own derivation R151, with its converse), wherever the
responder's main loop runs in between (log 22). -/
def Obligations.PassingCheckMeansAgreement : Prop :=
  ∀ (s t : State) (n : Nat) (l l' : Link) (turns : List (List Turn)), s.links[n]? = some l → l.Undisturbed →
    Powered turns → l.resp.Inv →
    l.slot.mSync = .unsynchronized → s.cfg.startSeq = StartSeq.default → l.respCfg.startSeq = StartSeq.default →
    execAll (probeTransaction n turns) s = .next t → t.links[n]? = some l' →
    (t.result = .check true → l'.Aligned) ∧
    (l.resp.sSync = .unsynchronized → l'.resp.sSync = .synchronized → t.result = .check true) ∧
    (l.resp.sSync = .unsynchronized → l.resp.syncPos = 0 → t.result = .check true)

/-! ## Slave Frame Interpreter -/

/-- R162: `S.ID` captures and echoes an Id byte and advances `frame_pos`. -/
def Obligations.SIdCapturesAndEchoes : Prop :=
  ∀ (s : State) (p : Nat) (l : Link) (rx : Byte), s.links[p]? = some l → l.slot.restartLine = false →
    l.resp.sSync = .synchronized →
    (l.resp.framePos = 0 → Keyed l p rx (.sId p 0 rx) ∧
      exec (.sId p 0 rx) s = .next (s.withLink p
        { l with resp := { l.resp with idBytes := { l.resp.idBytes with b0 := rx }, txReg := rx, framePos := 1 } }
        s.effects (.reply rx))) ∧
    (l.resp.framePos = 1 → Keyed l p rx (.sId p 1 rx) ∧
      exec (.sId p 1 rx) s = .next (s.withLink p
        { l with resp := { l.resp with idBytes := { l.resp.idBytes with b1 := rx }, txReg := rx, framePos := 2 } }
        s.effects (.reply rx)))

/-- R164: `S.SEL` looks the staged id up in `PULL_S`: a claimed id queries the pull source once, loads its four bytes and
replies the first, under no law; any other id is a push, whose byte is captured and echoed. -/
def Obligations.SSelLooksUpTheId : Prop :=
  ∀ (s : State) (p : Nat) (l : Link) (rx : Byte), s.links[p]? = some l → l.slot.restartLine = false →
    l.resp.sSync = .synchronized → l.resp.framePos = 2 →
    Keyed l p rx (.sSel p rx) ∧
    (ord16 l.respCfg.byteOrder l.resp.idBytes.b0 l.resp.idBytes.b1 ∈ l.respCfg.pullS →
      ∃ pv env, exec (.sSel p rx) s = .next (s.withLink p
          { l with
            resp := { l.resp with isPull := true, valueBytes := pv, txReg := pv.b0, framePos := 3 }
            env := env }
          (s.effects ++ [.pullQuery p (ord16 l.respCfg.byteOrder l.resp.idBytes.b0 l.resp.idBytes.b1)])
          (.reply pv.b0)) ∧
        env.bus = l.env.bus ∧ env.values = l.env.values ∧ env.turns = l.env.turns) ∧
    (ord16 l.respCfg.byteOrder l.resp.idBytes.b0 l.resp.idBytes.b1 ∉ l.respCfg.pullS →
      exec (.sSel p rx) s = .next (s.withLink p
        { l with resp := { l.resp with isPull := false, valueBytes := { l.resp.valueBytes with b0 := rx }, txReg := rx,
                                       framePos := 3 } }
        s.effects (.reply rx)))

/-- R165: `S.VAL` replies the stored byte of a pull, or captures and echoes the byte of a push, at positions 3, 4, 5. -/
def Obligations.SValRepliesOrCaptures : Prop :=
  ∀ (s : State) (p : Nat) (l : Link) (pos : Fin 9) (rx : Byte), s.links[p]? = some l → l.slot.restartLine = false →
    l.resp.sSync = .synchronized → l.resp.framePos = pos → (pos = 3 ∨ pos = 4 ∨ pos = 5) →
    Keyed l p rx (.sVal p pos rx) ∧ (pos + 1).val = pos.val + 1 ∧
    (l.resp.isPull = true →
      exec (.sVal p pos rx) s = .next (s.withLink p
        { l with resp := { l.resp with
            txReg := if pos = 3 then l.resp.valueBytes.b1 else if pos = 4 then l.resp.valueBytes.b2
              else l.resp.valueBytes.b3
            framePos := pos + 1 } }
        s.effects
        (.reply (if pos = 3 then l.resp.valueBytes.b1 else if pos = 4 then l.resp.valueBytes.b2
          else l.resp.valueBytes.b3)))) ∧
    (l.resp.isPull = false →
      exec (.sVal p pos rx) s = .next (s.withLink p
        { l with resp := { l.resp with
            valueBytes := if pos = 3 then { l.resp.valueBytes with b1 := rx }
              else if pos = 4 then { l.resp.valueBytes with b2 := rx } else { l.resp.valueBytes with b3 := rx }
            txReg := rx
            framePos := pos + 1 } }
        s.effects (.reply rx)))

/-- R173: `S.ACK` replies the stored id bytes, in arrival order, at positions 6 and 7. -/
def Obligations.SAckRepliesStoredId : Prop :=
  ∀ (s : State) (p : Nat) (l : Link), s.links[p]? = some l → l.slot.restartLine = false →
    l.resp.sSync = .synchronized →
    (l.resp.framePos = 6 → Keyed l p 0xFF (.sAck p 6 0xFF) ∧
      exec (.sAck p 6 0xFF) s = .next (s.withLink p
        { l with resp := { l.resp with txReg := l.resp.idBytes.b0, framePos := 7 } } s.effects
        (.reply l.resp.idBytes.b0))) ∧
    (l.resp.framePos = 7 → Keyed l p 0xFF (.sAck p 7 0xFF) ∧
      exec (.sAck p 7 0xFF) s = .next (s.withLink p
        { l with resp := { l.resp with txReg := l.resp.idBytes.b1, framePos := 8 } } s.effects
        (.reply l.resp.idBytes.b1)))

/-- R174: `S.DESYNC` clears `frame_pos` and `s_sync` and replies `0x00`; the staged bytes stay and no frame is completed. -/
def Obligations.SDesyncDropsSynchronization : Prop :=
  ∀ (s : State) (p : Nat) (l : Link) (rx : Byte), s.links[p]? = some l → l.slot.restartLine = false →
    l.resp.sSync = .synchronized → (l.resp.framePos = 6 ∨ l.resp.framePos = 7) → rx ≠ 0xFF →
    Keyed l p rx (.sDesync p l.resp.framePos rx) ∧
    exec (.sDesync p l.resp.framePos rx) s = .next (s.withLink p
      { l with resp := { l.resp with framePos := 0, sSync := .unsynchronized, txReg := 0x00 } } s.effects (.reply 0x00))

/-- R175: `S.END` ignores the byte, replies `0x00`, clears `frame_pos` and signals `FrameComplete` with a snapshot, which
waits for `S.DISPATCH` behind the earlier ones. -/
def Obligations.SEndCompletesFrame : Prop :=
  ∀ (s : State) (p : Nat) (l : Link) (rx : Byte), s.links[p]? = some l → l.slot.restartLine = false →
    l.resp.sSync = .synchronized → l.resp.framePos = 8 →
    Keyed l p rx (.sEnd p rx) ∧
    exec (.sEnd p rx) s = .next (s.withLink p
      { l with resp := { l.resp with
          txReg := 0x00
          framePos := 0
          pending := l.resp.pending ++ [⟨l.resp.idBytes, l.resp.valueBytes, l.resp.isPull⟩] } }
      (s.effects ++ [.frameComplete p ⟨l.resp.idBytes, l.resp.valueBytes, l.resp.isPull⟩]) (.reply 0x00))

/-- `S.DISPATCH` consumes the oldest pending signal and delivers its id and bytes if it was a push, as R176 says; the flag
in the delivery that tells whether a sink claims the id is the model's choice, log 19. -/
def Obligations.SDispatchDeliversPush : Prop :=
  ∀ (s : State) (p : Nat) (l : Link) (snap : Snapshot) (rest : List Snapshot), s.links[p]? = some l →
    l.resp.pending = snap :: rest →
    codeSelector (encode s.cfg.startSeq (.sDispatch p)) = some 0x10 ∧
    (snap.isPull = false →
      exec (.sDispatch p) s = .next (s.withLink p { l with resp := { l.resp with pending := rest } }
        (s.effects ++ [.pushDeliver p (ord16 l.respCfg.byteOrder snap.idBytes.b0 snap.idBytes.b1) snap.valueBytes
          (decide (ord16 l.respCfg.byteOrder snap.idBytes.b0 snap.idBytes.b1 ∈ l.respCfg.pushS))]) .none)) ∧
    (snap.isPull = true →
      exec (.sDispatch p) s = .next (s.withLink p { l with resp := { l.resp with pending := rest } } s.effects .none))

/-- R18 and R160: a byte clock on a selected responder always gives one next state and one reply, which it stages; no
buffer, no configuration and no other link changes, whatever the responder's state and the byte. -/
def Obligations.ByteClockAlwaysAnswers : Prop :=
  ∀ (s : State) (p : Nat) (rx : Byte) (rest : List Event) (l : Link), s.events = .byteClock p rx :: rest →
    s.links[p]? = some l → l.slot.restartLine = false →
    ∃ r env fx, step s = .next ((s.begin rest).withLink p { l with resp := r, env := env } fx (.reply r.txReg))

/-! ## Master Transaction Validator -/

/-- The verdict of `V.SLOT` as in R192 and R193, by cases on the two echoed ids, the id range, the pull table and the echoed
value; its warning and its delivery; nothing else changes; outside a buffer it faults. That a frame of id -1 with one matching
echo is IdRange, as in R193's pseudocode and U4, and not IdAckMismatch, as in R196 and R248, is log 7; that all this
holds on a slot with `m_sync[s] = 0` too, where R190 runs no validator, is log 38's, and at any other time than directly after
the transaction, on the buffers as they stand, log 41's. -/
def Obligations.VSlotVerdict : Prop :=
  ∀ (s : State) (n k : Nat) (l : Link), s.links[n]? = some l →
    let tx := l.slot.tx
    let rx := l.slot.rxBuf
    let o := 9 * k
    let txId1 := ord16 s.cfg.byteOrder (tx.read o) (tx.read (o + 1))
    let txId2 := ord16 s.cfg.byteOrder (tx.read (o + 6)) (tx.read (o + 7))
    let rxId1 := ord16 s.cfg.byteOrder (rx.read (o + 1)) (rx.read (o + 2))
    let rxId2 := ord16 s.cfg.byteOrder (rx.read (o + 7)) (rx.read (o + 8))
    let inRange := 1 ≤ txId1.toInt ∧ txId1.toInt ≤ s.cfg.maxId
    let warned := s.effects ++ (if txId2.toInt = -1 then [] else [Effect.warnTxAck n])
    let value := valueOf s.cfg.byteOrder (vtype s.cfg.vtypes txId1)
      ⟨rx.read (o + 3), rx.read (o + 4), rx.read (o + 5), rx.read (o + 6)⟩
    let echoed := ∀ j : Fin 4, rx.read (o + 3 + j.val) = tx.read (o + 2 + j.val)
    codeSelector (encode s.cfg.startSeq (.vSlot n k)) = some 0x0A ∧
    (o + 9 ≤ tx.size → o + 9 ≤ rx.size →
      (txId1.toInt ≠ -1 → (rxId1 = txId1 ↔ ¬rxId2 = txId1) →
        exec (.vSlot n k) s = .next (s.withLink n l warned (.verdict (.fail .idAckMismatch)))) ∧
      ((txId1.toInt = -1 ∨ (rxId1 = txId1 ↔ rxId2 = txId1)) → ¬(rxId1 = txId1 ∧ inRange) →
        exec (.vSlot n k) s = .next (s.withLink n l warned (.verdict (.fail .idRange)))) ∧
      (rxId1 = txId1 → rxId2 = txId1 → inRange → txId1 ∈ l.slotCfg.pullM →
        exec (.vSlot n k) s =
          .next (s.withLink n l (warned ++ [.pullDeliver n txId1 value]) (.verdict (.okPull value)))) ∧
      (rxId1 = txId1 → rxId2 = txId1 → inRange → txId1 ∉ l.slotCfg.pullM → echoed →
        exec (.vSlot n k) s = .next (s.withLink n l warned (.verdict .okPush))) ∧
      (rxId1 = txId1 → rxId2 = txId1 → inRange → txId1 ∉ l.slotCfg.pullM → ¬echoed →
        exec (.vSlot n k) s = .next (s.withLink n l warned (.verdict (.fail .staleEcho))))) ∧
    (tx.size < o + 9 ∨ rx.size < o + 9 → ∃ b a m, exec (.vSlot n k) s = .fault (.precondition b a m))

/-- `V.TXN`, as in R191 and R200, examines every frame slot as `V.SLOT` does and keeps all their effects; it answers ok exactly
when every one passes; a failure clears `m_sync[s]` and nothing else; outside a buffer it faults. That it does so on a slot
with `m_sync[s] = 0` too, where R190 and R261 have no transaction to validate, is the model's choice, log 38, and so is it at any
other time than directly after the transaction, for any `N`, log 41. -/
def Obligations.VTxnExaminesEverySlot : Prop :=
  ∀ (s : State) (n count : Nat) (l : Link), s.links[n]? = some l →
    codeSelector (encode s.cfg.startSeq (.vTxn n count)) = some 0x0B ∧
    (9 * count ≤ l.slot.tx.size → 9 * count ≤ l.slot.rxBuf.size →
      ∃ (ok : Bool) (slotEffects : Nat → List Effect) (verdict : Nat → Verdict),
        (∀ k < count, exec (.vSlot n k) { s with effects := [] } =
          .next (s.withLink n l (slotEffects k) (.verdict (verdict k)))) ∧
        (ok = true ↔ ∀ k < count, ∀ cause, verdict k ≠ .fail cause) ∧
        exec (.vTxn n count) s = .next (s.withLink n
          (if ok then l else { l with slot := { l.slot with mSync := .unsynchronized } })
          (s.effects ++ (List.range count).flatMap slotEffects) (.txn ok))) ∧
    (l.slot.tx.size < 9 * count ∨ l.slot.rxBuf.size < 9 * count →
      ∃ b a m, exec (.vTxn n count) s = .fault (.precondition b a m))

/-- A responder that stays unsynchronized while a frame is exchanged never lets its transaction pass: the frame goes out,
`V.TXN` fails and the slot falls back to probing (the spec's own derivation R202; ideal bus, default START_SEQUENCE). The
frame goes out by `FRAME` as an instruction, the model's choice of log 15, with the responder's main loop between its byte
steps (log 22); that `V.TXN` runs if `m_sync[s]` was 0 already is log 38's choice. -/
def Obligations.UnsynchronizedResponderFailsFrame : Prop :=
  ∀ (s : State) (n : Nat) (l : Link) (id : Pair) (v : Quad), s.links[n]? = some l → l.Undisturbed →
    l.resp.sSync = .unsynchronized → l.resp.Inv → l.respCfg.startSeq = StartSeq.default → 9 ≤ l.slot.rxBuf.size →
    ∃ t l', exec (.frame n id v) s = .next t ∧ t.links[n]? = some l' ∧
      (l'.resp.sSync = .unsynchronized →
        ∃ u l'', exec (.vTxn n 1) t = .next u ∧ u.result = .txn false ∧ u.links[n]? = some l'' ∧
          l''.slot.mSync = .unsynchronized)

/-- The validator's blind spot: a corrupted second ack-id probe in the last frame is accepted although the responder
desynchronized and completed no frame, for a push and for a pull, in either byte order, if the second id byte is zero (the
spec's own derivation R179, R297). The frame goes out by `FRAME` as an instruction, the model's choice of log 15, with
the responder's main loop between its byte steps (log 22); that `V.TXN` runs if `m_sync[s]` is 0 is log 38's choice. -/
def Obligations.BlindSpotOfTheValidator : Prop :=
  ∀ (s : State) (n : Nat) (l : Link) (b0 bad : Byte) (v : Quad), s.links[n]? = some l →
    l.slot.restartLine = false → Powered l.env.turns → l.resp.sSync = .synchronized → l.resp.framePos = 0 →
    l.resp.syncPos = 0 →
    l.env.bus = List.replicate 7 Disturbance.ideal ++ [{ Disturbance.ideal with toResponder := some bad }] → bad ≠ 0xFF →
    9 ≤ l.slot.rxBuf.size → 1 ≤ (idOf s.cfg.byteOrder ⟨b0, 0⟩).toInt → (idOf s.cfg.byteOrder ⟨b0, 0⟩).toInt ≤ s.cfg.maxId →
    (idOf s.cfg.byteOrder ⟨b0, 0⟩ ∈ l.slotCfg.pullM ∨ idOf l.respCfg.byteOrder ⟨b0, 0⟩ ∉ l.respCfg.pullS) →
    ∃ t l' fx k, exec (.frame n ⟨b0, 0⟩ v) s = .next t ∧ t.links[n]? = some l' ∧ t.effects = s.effects ++ fx ∧
      (∀ snap, .frameComplete n snap ∉ fx) ∧ l'.resp.sSync = .unsynchronized ∧
      l'.resp.pending = l.resp.pending.drop k ∧
      ∃ u, exec (.vTxn n 1) t = .next u ∧ u.result = .txn true ∧ u.links[n]? = some l'

/-- A push frame to a synchronized, aligned responder on an ideal bus: the responder completes it and echoes it as R91 says,
the validator accepts it, both sides stay aligned, and the main loop's dispatches, during the transfer (`k` of them) and
after it, deliver every pending push and this one once each, in order (R203, R176, for every id and value bytes). The frame
goes out by `FRAME` as an instruction, the model's choice of log 15; the flag of a delivery is log 19's, the place of the dispatches
log 22's. -/
def Obligations.PushFrameIsDeliveredAndAccepted : Prop :=
  ∀ (s : State) (n : Nat) (l : Link) (id : Pair) (v : Quad), s.links[n]? = some l → l.Undisturbed → l.Aligned →
    9 ≤ l.slot.rxBuf.size → idOf l.respCfg.byteOrder id ∉ l.respCfg.pullS → idOf s.cfg.byteOrder id ∉ l.slotCfg.pullM →
    1 ≤ (idOf s.cfg.byteOrder id).toInt → (idOf s.cfg.byteOrder id).toInt ≤ s.cfg.maxId →
    let signals : List Snapshot := l.resp.pending ++ [⟨id, v, false⟩]
    ∃ t l' fx k, exec (.frame n id v) s = .next t ∧ t.links[n]? = some l' ∧ t.effects = s.effects ++ fx ∧
      fx.filter (fun e => !e.isDelivery) = [.frameComplete n ⟨id, v, false⟩] ∧
      fx.filter Effect.isDelivery = deliveries n l.respCfg (signals.take k) ∧ l'.resp.pending = signals.drop k ∧
      l'.slot.rxBuf.Holds 0 (replyBytes l.resp.txReg id v id) ∧ l'.Aligned ∧
      exec (.vTxn n 1) t = .next (t.withLink n l' t.effects (.txn true)) ∧
      execAll (List.replicate l'.resp.pending.length (.sDispatch n)) t =
        .next (t.withLink n { l' with resp := { l'.resp with pending := [] } }
          (t.effects ++ deliveries n l.respCfg l'.resp.pending) .none)

/-- A pull frame to a synchronized, aligned responder on an ideal bus: the pull source is queried once, its four bytes come
back as R91 says, and the validator delivers their value exactly once (R203, for every id and answer: the next answer that the
environment has chosen, or free bytes, log 9). Signals that were pending may be dispatched meanwhile (log 22). The frame goes out by
`FRAME` as an instruction, the model's choice of log 15. -/
def Obligations.PullFrameDeliversTheAnswer : Prop :=
  ∀ (s : State) (n : Nat) (l : Link) (id : Pair) (v : Quad), s.links[n]? = some l →
    l.Undisturbed → l.Aligned → 9 ≤ l.slot.rxBuf.size →
    idOf l.respCfg.byteOrder id ∈ l.respCfg.pullS → idOf s.cfg.byteOrder id ∈ l.slotCfg.pullM →
    1 ≤ (idOf s.cfg.byteOrder id).toInt → (idOf s.cfg.byteOrder id).toInt ≤ s.cfg.maxId →
    ∃ t l' fx k pv, exec (.frame n id v) s = .next t ∧ t.links[n]? = some l' ∧ t.effects = s.effects ++ fx ∧
      (∀ q rest, l.env.answers = q :: rest → pv = q) ∧
      fx.filter (fun e => !e.isDelivery) =
        [.pullQuery n (idOf l.respCfg.byteOrder id), .frameComplete n ⟨id, pv, true⟩] ∧
      fx.filter Effect.isDelivery = deliveries n l.respCfg ((l.resp.pending ++ [Snapshot.mk id pv true]).take k) ∧
      l'.resp.pending = (l.resp.pending ++ [Snapshot.mk id pv true]).drop k ∧
      l'.slot.rxBuf.Holds 0 (replyBytes l.resp.txReg id pv id) ∧ l'.Aligned ∧
      exec (.vTxn n 1) t = .next (t.withLink n l'
        (t.effects ++ [.pullDeliver n (idOf s.cfg.byteOrder id)
          (valueOf s.cfg.byteOrder (vtype s.cfg.vtypes (idOf s.cfg.byteOrder id)) pv)]) (.txn true))

/-! ## Liveness Watchdog -/

/-- R212: `W.INC` adds one to `wd_counter` and saturates at `2^WD_WIDTH - 1`. -/
def Obligations.WIncCountsAndSaturates : Prop :=
  ∀ s : State, codeSelector (encode s.cfg.startSeq .wInc) = some 0x0C ∧
    (s.wdCounter < 2 ^ s.cfg.wdWidth - 1 →
      exec .wInc s = .next { s with wdCounter := s.wdCounter + 1, result := .none }) ∧
    (2 ^ s.cfg.wdWidth - 1 ≤ s.wdCounter → exec .wInc s = .next { s with result := .none })

/-- R213: `W.CHECK` trips and invokes the safety callback once below the threshold, arms otherwise, and clears the counter
in both cases. -/
def Obligations.WCheckTripsBelowThreshold : Prop :=
  ∀ s : State, codeSelector (encode s.cfg.startSeq .wCheck) = some 0x0D ∧
    (s.wdCounter < s.cfg.wdThreshold →
      exec .wCheck s = .next { s with wdState := .tripped, wdCounter := 0, effects := s.effects ++ [.safety],
                                      result := .watchdog .tripped }) ∧
    (s.cfg.wdThreshold ≤ s.wdCounter →
      exec .wCheck s = .next { s with wdState := .armed, wdCounter := 0, result := .watchdog .armed })

/-- A period of the watchdog: any instructions without a check or a reset of everything, among them `k` increments, never
invoke the callback; the check after them trips exactly when `min(k, 2^WD_WIDTH - 1)` is below the threshold, invokes the
callback exactly once then and not at all otherwise, and leaves the counter 0 (the spec's own derivation R214; R250: raised only
by `W.CHECK`). -/
def Obligations.WatchdogPeriod : Prop :=
  ∀ (s t : State) (is : List Instr), s.wdCounter = 0 → (∀ i ∈ is, i ≠ .wCheck ∧ i ≠ .reset .all) →
    execAll is s = .next t →
    t.effects.count .safety = s.effects.count .safety ∧
    ∃ u, exec .wCheck t = .next u ∧ u.wdCounter = 0 ∧
      (min (is.count .wInc) (2 ^ s.cfg.wdWidth - 1) < s.cfg.wdThreshold →
        u.wdState = .tripped ∧ u.effects = t.effects ++ [.safety]) ∧
      (s.cfg.wdThreshold ≤ min (is.count .wInc) (2 ^ s.cfg.wdWidth - 1) →
        u.wdState = .armed ∧ u.effects = t.effects)

/-- R210: no operation of another unit, a reset of everything aside, changes the watchdog, and no operation of the watchdog changes a
link. The safety callback is invoked by `W.CHECK` alone (R39, R250). -/
def Obligations.WatchdogIsIndependent : Prop :=
  ∀ (s t : State) (i : Instr), exec i s = .next t →
    (i ≠ .wInc → i ≠ .wCheck → i ≠ .reset .all → t.wdCounter = s.wdCounter ∧ t.wdState = s.wdState) ∧
    (i ≠ .wCheck → t.effects.count .safety = s.effects.count .safety) ∧
    (i = .wInc ∨ i = .wCheck → t.links = s.links ∧ t.cfg = s.cfg ∧ t.events = s.events)

/-! ## Transaction Scheduler -/

/-- A tick of a slot whose buffers have their declared lengths always ends in a next state, on any bus, with any responder
and any answers; the buffers keep their lengths, and only this link changes (R227, R249, R296). -/
def Obligations.TickOfASizedSlotCompletes : Prop :=
  ∀ (s : State) (n : Nat) (l : Link), s.links[n]? = some l → l.Sized →
    codeSelector (encode s.cfg.startSeq (.tTick n)) = some 0x0E ∧
    ∃ l' fx, exec (.tTick n) s = .next (s.withLink n l' (s.effects ++ fx) .none) ∧ l'.Sized ∧
      l'.slotCfg = l.slotCfg ∧ l'.respCfg = l.respCfg ∧ l'.slot.pullBuf = l.slot.pullBuf

/-- The tick of an unsynchronized slot, as in R229, is a probe transaction; a pass clears `fail_run[s]`, a fail adds one to it
and performs `T.RESTART` if the policy says so. That the responder's own steps fall where the environment has them, at ten
places in the transaction and one before the pulse, is log 22's deduction from R77 and the model's choice there. -/
def Obligations.ProbeTickIsProbeTransaction : Prop :=
  ∀ (s : State) (n : Nat) (l : Link), s.links[n]? = some l → l.slot.mSync = .unsynchronized → 9 ≤ l.slot.rxBuf.size →
    ∃ u l' pass,
      execAll (probeTransaction n l.env.turns) (s.withLink n (l.dropTurns 10) s.effects .none) = .next u ∧
      u.links[n]? = some l' ∧ u.result = .check pass ∧
      (pass = true →
        exec (.tTick n) s = .next (u.withLink n { l' with slot := { l'.slot with failRun := 0 } } u.effects .none)) ∧
      (pass = false → restartDue s.cfg .probe (l.slot.failRun + 1) = false →
        exec (.tTick n) s =
          .next (u.withLink n { l' with slot := { l'.slot with failRun := l.slot.failRun + 1 } } u.effects .none)) ∧
      (pass = false → restartDue s.cfg .probe (l.slot.failRun + 1) = true →
        exec (.tTick n) s =
          execAll (turnOps n (l'.env.turns.headD []) ++ [.tRestart n])
            (u.withLink n { l'.dropTurns 1 with slot := { l'.slot with failRun := l.slot.failRun + 1 } } u.effects .none))

/-- A command tick along its plan, as in R230: an empty plan clears `fail_run[s]`; an empty buffer is skipped; otherwise the
buffer is prepared (the push buffer by the `ENC` operations of R228 on the supplied values, each at `9j`), transferred and
validated; after a passing transaction the tick goes on with the rest of the plan, and a failing one, wherever it stands in
the plan, ends it: `fail_run[s]` grows by one and the policy decides on a restart. A fill that faults, or a
transfer that does not fit the receive buffer, is a fault of the tick. That an empty buffer is skipped in every plan is the
model's choice, log 35; so are the supplied values as a list, log 9, the places of the responder's own steps, in the
transaction and before the pulse, log 22, and the data of the fault of a transfer that does not fit, log 31 (R65 raises
`Precondition` without data). -/
def Obligations.FailedTransactionEndsTick : Prop :=
  ∀ (s : State) (n : Nat) (l : Link), s.links[n]? = some l → l.slot.mSync = .synchronized →
    (l.slotCfg.tickPlan = [] →
      exec (.tTick n) s = .next (s.withLink n { l with slot := { l.slot with failRun := 0 } } s.effects .none)) ∧
    ∀ (b : TxBuf) (rest : List TxBuf), l.slotCfg.tickPlan = b :: rest →
      ((txBufMem b l.slot).size = 0 → TickGoesOn n s s (b :: rest) rest) ∧
      (∀ e, (txBufMem b l.slot).size ≠ 0 →
        execAll (prepareOps s.cfg n b l).1 (s.withLink n { l with env := (prepareOps s.cfg n b l).2 } s.effects .none) =
          .fault e → exec (.tTick n) s = .fault e) ∧
      (∀ (f : State) (m : Link), (txBufMem b l.slot).size ≠ 0 →
        execAll (prepareOps s.cfg n b l).1 (s.withLink n { l with env := (prepareOps s.cfg n b l).2 } s.effects .none) =
          .next f →
        f.links[n]? = some m → m.slot.rxBuf.size < (txBufMem b m.slot).size →
        exec (.tTick n) s = .fault (.precondition (.rx n) 0 (txBufMem b m.slot).size)) ∧
      ∀ (f u : State) (m l' : Link), (txBufMem b l.slot).size ≠ 0 →
        execAll (prepareOps s.cfg n b l).1 (s.withLink n { l with env := (prepareOps s.cfg n b l).2 } s.effects .none) =
          .next f →
        f.links[n]? = some m →
        execAll (commandTransaction n (txBufMem b m.slot).size m.env.turns)
          (f.withLink n
            { m.dropTurns ((txBufMem b m.slot).size + 1) with slot := { m.slot with tx := txBufMem b m.slot } }
            f.effects .none) = .next u →
        u.links[n]? = some l' →
        (u.result = .txn true → TickGoesOn n s u (b :: rest) rest) ∧
        (u.result = .txn false →
          exec (.tTick n) s =
            if restartDue s.cfg .command (l.slot.failRun + 1) then
              execAll (turnOps n (l'.env.turns.headD []) ++ [.tRestart n])
                (u.withLink n { l'.dropTurns 1 with slot := { l'.slot with failRun := l.slot.failRun + 1 } } u.effects .none)
            else .next (u.withLink n { l' with slot := { l'.slot with failRun := l.slot.failRun + 1 } } u.effects .none))

/-- A command tick passes on an ideal bus with an aligned responder: whatever the plan and the values, the slot stays
synchronized, the responder stays at a frame boundary and `fail_run[s]` is cleared, if the tables agree, every id is valid
and the pull buffer holds its frames (R230, R234). If the plan sends the push buffer, it holds a frame for every push command
of the slot, in order, and, if the plan sends it once, the values that the environment has supplied (R228; log 9). The responder's main loop runs where
the environment has it (log 22). -/
def Obligations.CommandTickPasses : Prop :=
  ∀ (s : State) (n : Nat) (l : Link), s.links[n]? = some l → l.Sized → l.Undisturbed → l.Aligned →
    s.cfg.byteOrder = l.respCfg.byteOrder → (∀ id, id ∈ l.slotCfg.pullM ↔ id ∈ l.respCfg.pullS) →
    (∀ id ∈ l.slotCfg.pushCmds ++ l.slotCfg.pullCmds, 1 ≤ id.toInt ∧ id.toInt ≤ s.cfg.maxId) →
    (∀ (j : Nat) (h : j < l.slotCfg.pullCmds.length),
      l.slot.pullBuf.Holds (9 * j) (bytes16 s.cfg.byteOrder l.slotCfg.pullCmds[j]) ∧
      l.slot.pullBuf.Holds (9 * j + 6) [0xFF, 0xFF]) →
    ∃ l' fx, exec (.tTick n) s = .next (s.withLink n l' (s.effects ++ fx) .none) ∧ l'.Aligned ∧ l'.slot.failRun = 0 ∧
      l'.Undisturbed ∧
      ∀ (j : Nat) (h : j < l.slotCfg.pushCmds.length),
        (.push ∈ l.slotCfg.tickPlan →
          l'.slot.pushBuf.Holds (9 * j) (bytes16 s.cfg.byteOrder l.slotCfg.pushCmds[j]) ∧
          l'.slot.pushBuf.Holds (9 * j + 6) [0xFF, 0xFF, 0xFF]) ∧
        ∀ h' : j < l.env.values.length, l.slotCfg.tickPlan.count .push = 1 →
          l'.slot.pushBuf.Holds (9 * j + 2) (valueBytesOf s.cfg.byteOrder
            (valueOfPattern (vtype s.cfg.vtypes l.slotCfg.pushCmds[j]) l.env.values[j]))

/-- R231 and R283: `T.RESTART` emits the pulse, gives the responder its reset values, and leaves the line deasserted,
`m_sync[s]` and `fail_run[s]` clear; the buffers and the configuration stay. The staging registers take free bytes (log 6). -/
def Obligations.TRestartResetsTheResponder : Prop :=
  ∀ (s : State) (n : Nat) (l : Link), s.links[n]? = some l →
    codeSelector (encode s.cfg.startSeq (.tRestart n)) = some 0x0F ∧
    ∃ r k, exec (.tRestart n) s = .next (s.withLink n
        { l with
          slot := { l.slot with restartLine := false, mSync := .unsynchronized, failRun := 0 }
          resp := r
          env := { l.env with draws := k } }
        (s.effects ++ [.restartPulse n]) .none) ∧ r.AtReset

/-! ## Bus -/

/-- An exchange on an ideal bus, as in R62: it hands the staged reply to the initiator and the transmitted byte to the
responder, which performs its byte step on it; only byte `i` of the receive buffer changes; outside a buffer it faults. A
responder held in reset takes no byte step and the initiator receives a free byte (R63, R296; log 20). That a lone `B.XCHG`
request is performed, for any `i`, is the model's choice, log 37. -/
def Obligations.IdealExchange : Prop :=
  ∀ (s : State) (n i : Nat) (l : Link), s.links[n]? = some l → l.env.bus = [] →
    codeSelector (encode s.cfg.startSeq (.bXchg n i)) = some 0x11 ∧
    (i < l.slot.tx.size → i < l.slot.rxBuf.size → l.slot.restartLine = false →
      ∃ m r env fx, exec (.bXchg n i) s = .next (s.withLink n
          { l with slot := { l.slot with rxBuf := m }, resp := r, env := env } fx .none) ∧
        m.read i = l.resp.txReg ∧ l.slot.rxBuf.SameOutside m i 1 ∧
        exec (selected l.respCfg l.resp n (l.slot.tx.read i)) s =
          .next (s.withLink n { l with resp := r, env := env } fx (.reply r.txReg))) ∧
    (i < l.slot.tx.size → i < l.slot.rxBuf.size → l.slot.restartLine = true →
      ∃ m, exec (.bXchg n i) s = .next (s.withLink n
          { l with slot := { l.slot with rxBuf := m }, env := { l.env with draws := l.env.draws + 1 } } s.effects .none) ∧
        m.read i = Config.freeByte n l.env.draws ∧ l.slot.rxBuf.SameOutside m i 1) ∧
    (l.slot.tx.size ≤ i ∨ l.slot.rxBuf.size ≤ i → ∃ b a m, exec (.bXchg n i) s = .fault (.precondition b a m))

/-- A disturbed exchange, as in R64: the bus may replace either byte, drop the byte clock or add byte clocks; the responder
performs its ordinary byte steps on the bytes as received, with all their effects, and its own steps before each added clock
(R77, log 22); a responder held in reset takes none (R63, log 20). That added clocks come after the exchange is log 21's
choice; that a lone `B.XCHG` request is performed, for any `i`, is log 37's. -/
def Obligations.DisturbedExchange : Prop :=
  ∀ (s : State) (n i : Nat) (l : Link) (d : Disturbance) (rest : List Disturbance), s.links[n]? = some l →
    l.env.bus = d :: rest → i < l.slot.tx.size → i < l.slot.rxBuf.size →
    let intended := if d.dropClock then [] else [AddedClock.mk [] (d.toResponder.getD (l.slot.tx.read i))]
    (l.slot.restartLine = false →
      ∃ u l' m, clockSteps n (intended ++ d.extraClocks)
          (s.withLink n { l with env := { l.env with bus := rest } } s.effects .none) = .next u ∧
        u.links[n]? = some l' ∧
        exec (.bXchg n i) s = .next (u.withLink n { l' with slot := { l.slot with rxBuf := m } } u.effects .none) ∧
        m.read i = d.toInitiator.getD l.resp.txReg ∧ l.slot.rxBuf.SameOutside m i 1) ∧
    (l.slot.restartLine = true →
      ∃ m, exec (.bXchg n i) s = .next (s.withLink n
          { l with slot := { l.slot with rxBuf := m }, env := { l.env with bus := rest, draws := l.env.draws + 1 } }
          s.effects .none) ∧
        m.read i = d.toInitiator.getD (Config.freeByte n l.env.draws) ∧ l.slot.rxBuf.SameOutside m i 1)

/-- R63 and R268: an operation on one link leaves every other link, the configuration, the watchdog and the events alone. -/
def Obligations.OtherLinksUntouched : Prop :=
  ∀ (s t : State) (i : Instr) (n k : Nat), linkOf i = some n → exec i s = .next t → k ≠ n →
    t.links[k]? = s.links[k]? ∧ t.links.length = s.links.length ∧ t.cfg = s.cfg ∧ t.wdCounter = s.wdCounter ∧
      t.wdState = s.wdState ∧ t.events = s.events

/-- What an operation on one link does there depends on no other link, on no watchdog register and on no event (R3, R233,
R301). -/
def Obligations.LinkOutcomeIsItsOwn : Prop :=
  ∀ (s s' t : State) (i : Instr) (n : Nat), linkOf i = some n → s'.cfg = s.cfg → s'.links[n]? = s.links[n]? →
    s'.effects = s.effects → exec i s = .next t →
    ∃ t', exec i s' = .next t' ∧ t'.links[n]? = t.links[n]? ∧ t'.effects = t.effects ∧ t'.result = t.result

/-! ## Reset, invariants, configuration -/

/-- R281 and R283: `RESET all` gives every responder, every slot and the watchdog the reset values of their registers and
discards the pending signals; the boot that follows then encodes every pull frame once, with value 0 (R228, R282; as events,
log 23); `RESET p` does so for responder `p` alone; the configuration stays. The staging registers take free bytes (log 6);
the value of `tx`, that the events from outside stay and that an unfinished boot is given up are the model's (logs 8 and 25).
-/
def Obligations.ResetRestoresResetValues : Prop :=
  ∀ s : State, (∀ target, codeSelector (encode s.cfg.startSeq (.reset target)) = some 0x12) ∧
    (∃ t, exec (.reset .all) s = .next t ∧ t.cfg = s.cfg ∧ t.wdCounter = 0 ∧ t.wdState = .armed ∧
      t.events = bootEvents 0 s.links ++ s.events.filter (fun e => !e.isBoot) ∧ t.effects = s.effects ∧ t.links.length = s.links.length ∧
      (∀ (n : Nat) (l : Link), s.links[n]? = some l →
        ∃ l', t.links[n]? = some l' ∧ l'.slotCfg = l.slotCfg ∧ l'.respCfg = l.respCfg ∧ l'.resp.AtReset ∧
          l'.slot.mSync = .unsynchronized ∧ l'.slot.failRun = 0 ∧ l'.slot.restartLine = false ∧
          l'.slot.pushBuf = Memory.zero (9 * l.slotCfg.pushCmds.length) ∧
          l'.slot.pullBuf = Memory.zero (9 * l.slotCfg.pullCmds.length) ∧
          l'.slot.rxBuf = Memory.zero l.slotCfg.rxLen) ∧
      ∃ u, Host.Core.run Sys2Proof.core (bootEvents 0 s.links).length t = .next u ∧
        u.events = s.events.filter (fun e => !e.isBoot) ∧
        ∀ (n : Nat) (l : Link), s.links[n]? = some l →
          ∃ l', u.links[n]? = some l' ∧ l'.slot.pullBuf.size = 9 * l.slotCfg.pullCmds.length ∧
            ∀ (j : Nat) (h : j < l.slotCfg.pullCmds.length), l'.slot.pullBuf.Holds (9 * j)
              (bytes16 s.cfg.byteOrder l.slotCfg.pullCmds[j] ++ [0x00, 0x00, 0x00, 0x00, 0xFF, 0xFF, 0xFF])) ∧
    ∀ (p : Nat) (l : Link), s.links[p]? = some l →
      ∃ r k, exec (.reset (.responder p)) s =
        .next (s.withLink p { l with resp := r, env := { l.env with draws := k } } s.effects .none) ∧ r.AtReset

/-- The state after reset holds the values R21 to R38 give, satisfies the invariant, and is a configured machine (its
configuration is log 3's; the staging bytes, `tx` and the model's own fields are the choices of logs 6, 8, 9, 10 and 18; what
is still to come is the boot's encoding of the pull frames, log 23). -/
def Obligations.ResetStateIsGood : Prop :=
  (∃ l, State.reset.links = [l] ∧ l.resp.AtReset ∧ l.slot.mSync = .unsynchronized ∧ l.slot.failRun = 0 ∧
    l.slot.restartLine = false ∧ l.slot.pushBuf = Memory.zero 9 ∧ l.slot.pullBuf = Memory.zero 9 ∧
    l.slot.rxBuf = Memory.zero 9) ∧
  State.reset.wdCounter = 0 ∧ State.reset.wdState = .armed ∧ State.reset.events = bootEvents 0 State.reset.links ∧
  State.reset.Inv ∧ State.reset.Configured

/-- R29, with the canonical form of every buffer, the deasserted restart line and the bound of `wd_counter`: every step keeps
the invariant, from every state that has it. -/
def Obligations.StepKeepsTheInvariant : Prop := ∀ s t : State, s.Inv → step s = .next t → t.Inv

/-- R290: no step changes a constant or a table. -/
def Obligations.ConfigurationIsConstant : Prop :=
  ∀ s t : State, step s = .next t →
    t.cfg = s.cfg ∧ t.links.map Link.slotCfg = s.links.map Link.slotCfg ∧
      t.links.map Link.respCfg = s.links.map Link.respCfg

/-- Who writes the two synchronization bits. `m_sync[s]` becomes 1 only by a check of that slot, alone or within its tick, and
0 only by the validation of a transaction, a tick or a restart of that slot, or a reset of everything (R30). Outside the
operations that carry byte steps over the bus (`B.XCHG`, `T.TICK`, and the four formats, log 15), `s_sync` becomes 1 only by `R.FIN` and 0 only by `S.DESYNC` or a reset (R21). -/
def Obligations.WhoWritesTheSyncBits : Prop :=
  ∀ (s t : State) (i : Instr) (n : Nat) (l l' : Link), exec i s = .next t → s.links[n]? = some l →
    t.links[n]? = some l' →
    (l.slot.mSync = .unsynchronized → l'.slot.mSync = .synchronized → i = .iCheck n ∨ i = .tTick n) ∧
    (l.slot.mSync = .synchronized → l'.slot.mSync = .unsynchronized →
      (∃ count, i = .vTxn n count) ∨ i = .tTick n ∨ i = .tRestart n ∨ i = .reset .all) ∧
    ((∀ k, i ≠ .bXchg n k) → i ≠ .tTick n → (∀ id v, i ≠ .frame n id v) → i ≠ .probe n →
      (∀ prev id v ack, i ≠ .reply n prev id v ack) → (∀ prev, i ≠ .probeReply n prev) →
      (l.resp.sSync = .unsynchronized → l'.resp.sSync = .synchronized → ∃ rx, i = .rFin n rx) ∧
      (l.resp.sSync = .synchronized → l'.resp.sSync = .unsynchronized →
        (∃ pos rx, i = .sDesync n pos rx) ∨ i = .tRestart n ∨ i = .reset .all ∨ i = .reset (.responder n)))

/-- What the model refuses to perform: an operation on a slot or responder that does not exist (R226, log 27), and a byte
operation that the responder's key does not select or whose responder is held in reset (R105, R63, log 13). -/
def Obligations.RefusalsOfExec : Prop :=
  ∀ (s : State) (i : Instr) (n : Nat), linkOf i = some n →
    (s.links[n]? = none → exec i s = .refused (.noSuchSlot n)) ∧
    ∀ (l : Link) (pos : Fin 9) (rx : Byte), s.links[n]? = some l →
      (i = .rAdv n pos rx ∨ i = .rFin n rx ∨ i = .rMiss n pos rx ∨ i = .sId n pos rx ∨ i = .sSel n rx ∨
        i = .sVal n pos rx ∨ i = .sAck n pos rx ∨ i = .sDesync n pos rx ∨ i = .sEnd n rx) →
      (l.slot.restartLine = true ∨ ¬Keyed l n rx i) → exec i s = .refused .notSelected

/-! ## Wire formats (the meanings of log 15) -/

/-- `FRAME` and `PROBE`, the model's choice of log 15: the nine bytes are the transmit buffer, and the nine exchanges of R65
are performed in order, with the responder's own steps where the environment has them (R77, log 22). They complete in any responder
state, on any bus and whatever `m_sync[s]` is, where R261 and R266 have an unsynchronized slot send probes only and a
synchronized one commands only (log 15); nothing else of the slot changes. -/
def Obligations.SentFormatsComplete : Prop :=
  ∀ (s : State) (n : Nat) (l : Link), s.links[n]? = some l → 9 ≤ l.slot.rxBuf.size →
    (∀ id v,
      exec (.frame n id v) s = execAll (transferOps n 9 0 l.env.turns) (s.withLink n
        { l.dropTurns 10 with slot := { l.slot with tx := Memory.ofBytes (frameBytes id v) } } s.effects .none) ∧
      ∃ m r env fx, exec (.frame n id v) s = .next (s.withLink n
        { l with slot := { l.slot with tx := Memory.ofBytes (frameBytes id v), rxBuf := m }, resp := r, env := env }
        (s.effects ++ fx) .none) ∧ l.slot.rxBuf.SameOutside m 0 9) ∧
    exec (.probe n) s = execAll (transferOps n 9 0 l.env.turns) (s.withLink n
      { l.dropTurns 10 with slot := { l.slot with tx := Memory.ofBytes s.cfg.startSeq.bytes } } s.effects .none) ∧
    ∃ m r env fx, exec (.probe n) s = .next (s.withLink n
        { l with slot := { l.slot with tx := Memory.ofBytes s.cfg.startSeq.bytes, rxBuf := m }, resp := r, env := env }
        (s.effects ++ fx) .none) ∧ l.slot.rxBuf.SameOutside m 0 9

/-- `REPLY` and `PROBE_REPLY`, the model's choice of log 15: the transmit buffer's first nine bytes are transferred, and the
bytes received, which are then the first nine of the receive buffer, are those of R91 and R93; a shorter buffer faults. -/
def Obligations.ReceivedFormatsArrive : Prop :=
  ∀ (s : State) (n : Nat) (l : Link) (i : Instr) (w : List Byte), s.links[n]? = some l →
    (∃ prev, (i = .probeReply n prev ∧ w = prev :: s.cfg.startSeq.bytes.take 8) ∨
      ∃ id v ack, i = .reply n prev id v ack ∧ w = [prev, id.b0, id.b1, v.b0, v.b1, v.b2, v.b3, ack.b0, ack.b1]) →
    (9 ≤ l.slot.tx.size → 9 ≤ l.slot.rxBuf.size →
      exec i s = execAll (transferOps n 9 0 l.env.turns) (s.withLink n
        { l with env := { (l.dropTurns 10).env with bus := received w l.env.bus } } s.effects .none) ∧
      ∃ m r env fx, exec i s = .next (s.withLink n
          { l with slot := { l.slot with rxBuf := m }, resp := r, env := env } (s.effects ++ fx) .none) ∧
        m.Holds 0 w ∧ l.slot.rxBuf.SameOutside m 0 9) ∧
    (l.slot.tx.size < 9 ∨ l.slot.rxBuf.size < 9 → ∃ b a k, exec i s = .fault (.precondition b a k))

end
end

