-- ==== Sys2Proof/Laws/Memory.lean ====
section
/-! SUPPORT. Laws of the buffers: what a read gives after a write, and that every memory operation keeps the canonical
form and the length. -/

namespace Sys2Proof
namespace Machine

/-! ## Cells -/

theorem cellsRead_erase (cells : List Host.Cell) (a x : Nat) :
    cellsRead (cellsErase cells a) x = if x = a then 0x00 else cellsRead cells x := by
  induction cells with
  | nil => simp [cellsErase, cellsRead]
  | cons c rest ih =>
    obtain ⟨k, y⟩ := c
    by_cases hk : k = a
    · subst hk
      by_cases hx : x = k
      · subst hx; simpa [cellsErase] using ih
      · simpa [cellsErase, hx, cellsRead, Ne.symm hx] using ih
    · by_cases hx : k = x
      · subst hx; simp [cellsErase, hk, cellsRead]
      · simp [cellsErase, hk, cellsRead, hx, ih]

theorem cellsRead_insert (cells : List Host.Cell) (a x : Nat) (b : Byte) (hne : ∀ c ∈ cells, c.1 ≠ a) :
    cellsRead (cellsInsert cells a b) x = if x = a then b else cellsRead cells x := by
  induction cells with
  | nil => by_cases hx : a = x <;> simp [cellsInsert, cellsRead, hx, eq_comm]
  | cons c rest ih =>
    obtain ⟨k, y⟩ := c
    have hk : k ≠ a := hne (k, y) (by simp)
    have ih := ih (fun c hc => hne c (List.mem_cons_of_mem _ hc))
    by_cases hlt : a < k
    · by_cases hx : a = x
      · subst hx; simp [cellsInsert, hlt, cellsRead]
      · simp [cellsInsert, hlt, cellsRead, hx, Ne.symm hx]
    · by_cases hx : k = x
      · subst hx; simp [cellsInsert, hlt, cellsRead, hk]
      · simp [cellsInsert, hlt, cellsRead, hx, ih]

theorem cellsErase_ne (cells : List Host.Cell) (a : Nat) : ∀ c ∈ cellsErase cells a, c.1 ≠ a := by
  induction cells with
  | nil => simp [cellsErase]
  | cons c rest ih =>
    obtain ⟨k, y⟩ := c
    by_cases hk : k = a
    · simpa [cellsErase, hk] using ih
    · intro c hc
      simp only [cellsErase, hk, if_false, List.mem_cons] at hc
      rcases hc with rfl | hc
      · exact hk
      · exact ih c hc

/-- Reading after a write: the written offset gives the byte, every other offset what it gave. -/
theorem cellsRead_write (cells : List Host.Cell) (a x : Nat) (b : Byte) :
    cellsRead (cellsWrite cells a b) x = if x = a then b else cellsRead cells x := by
  unfold cellsWrite
  by_cases hb : b = 0x00
  · simp [hb, cellsRead_erase]
  · rw [if_neg hb, cellsRead_insert _ _ _ _ (cellsErase_ne cells a), cellsRead_erase]
    by_cases hx : x = a <;> simp [hx]

/-! ## Canonical form of cells -/

theorem cellsWf_mono {lo lo' size : Nat} {cells : List Host.Cell} (h : cellsWf lo size cells = true) (hle : lo' ≤ lo) :
    cellsWf lo' size cells = true := by
  cases cells with
  | nil => rfl
  | cons c rest =>
    obtain ⟨k, y⟩ := c
    simp only [cellsWf, Bool.and_eq_true, decide_eq_true_eq] at h ⊢
    exact ⟨⟨by omega, h.1.2⟩, h.2⟩

theorem cellsWf_erase {lo size : Nat} {cells : List Host.Cell} (a : Nat) (h : cellsWf lo size cells = true) :
    cellsWf lo size (cellsErase cells a) = true := by
  induction cells generalizing lo with
  | nil => rfl
  | cons c rest ih =>
    obtain ⟨k, y⟩ := c
    simp only [cellsWf, Bool.and_eq_true, decide_eq_true_eq] at h
    by_cases hk : k = a
    · simp only [cellsErase, hk, if_true]
      exact ih (cellsWf_mono h.2 (by omega))
    · simp only [cellsErase, hk, if_false, cellsWf, Bool.and_eq_true, decide_eq_true_eq]
      exact ⟨h.1, ih h.2⟩

theorem cellsWf_insert {lo size a : Nat} {b : Byte} {cells : List Host.Cell} (h : cellsWf lo size cells = true)
    (hlo : lo ≤ a) (ha : a < size) (hb : b ≠ 0x00) (hne : ∀ c ∈ cells, c.1 ≠ a) :
    cellsWf lo size (cellsInsert cells a b) = true := by
  induction cells generalizing lo with
  | nil =>
    have hb : ¬b = 0#8 := hb
    simp [cellsInsert, cellsWf, hlo, ha, hb]
  | cons c rest ih =>
    obtain ⟨k, y⟩ := c
    have hk : k ≠ a := hne (k, y) (by simp)
    simp only [cellsWf, Bool.and_eq_true, decide_eq_true_eq] at h
    by_cases hlt : a < k
    · simp only [cellsInsert, hlt, if_true, cellsWf, Bool.and_eq_true, decide_eq_true_eq]
      exact ⟨⟨hlo, ha, hb⟩, ⟨by omega, h.1.2⟩, h.2⟩
    · simp only [cellsInsert, hlt, if_false, cellsWf, Bool.and_eq_true, decide_eq_true_eq]
      exact ⟨h.1, ih h.2 (by omega) (fun c hc => hne c (List.mem_cons_of_mem _ hc))⟩

/-! ## Memory -/

@[simp] theorem Memory.size_write (m : Memory) (a : Nat) (b : Byte) : (m.write a b).size = m.size := by
  unfold Memory.write; split <;> rfl

@[simp] theorem Memory.size_writeBytes (m : Memory) (a : Nat) (bs : List Byte) : (m.writeBytes a bs).size = m.size := by
  induction bs generalizing m a with
  | nil => rfl
  | cons b rest ih => simp [Memory.writeBytes, ih]

@[simp] theorem Memory.size_zero (n : Nat) : (Memory.zero n).size = n := rfl

@[simp] theorem Memory.read_zero (n x : Nat) : (Memory.zero n).read x = 0x00 := rfl

@[simp] theorem Memory.wf_zero (n : Nat) : (Memory.zero n).wf = true := rfl

/-- Read after write, at an offset inside the memory. -/
theorem Memory.read_write {m : Memory} {a : Nat} (h : a < m.size) (b : Byte) (x : Nat) :
    (m.write a b).read x = if x = a then b else m.read x := by
  simp [Memory.write, h, Memory.read, cellsRead_write]

/-- A write leaves every other offset alone, wherever it goes. -/
theorem Memory.read_write_ne {m : Memory} {a x : Nat} (h : x ≠ a) (b : Byte) : (m.write a b).read x = m.read x := by
  unfold Memory.write
  split
  · simp [Memory.read, cellsRead_write, h]
  · rfl

/-- Every write keeps the canonical form. -/
theorem Memory.wf_write {m : Memory} (h : m.wf = true) (a : Nat) (b : Byte) : (m.write a b).wf = true := by
  unfold Memory.write
  split
  · rename_i ha
    simp only [Memory.wf, cellsWrite] at h ⊢
    split
    · exact cellsWf_erase a h
    · rename_i hb
      exact cellsWf_insert (cellsWf_erase a h) (Nat.zero_le a) ha hb (cellsErase_ne _ _)
  · exact h

/-- Writing several bytes keeps the canonical form. -/
theorem Memory.wf_writeBytes {m : Memory} (h : m.wf = true) (a : Nat) (bs : List Byte) : (m.writeBytes a bs).wf = true := by
  induction bs generalizing m a with
  | nil => exact h
  | cons b rest ih => exact ih (Memory.wf_write h a b) (a + 1)

/-- Writing several bytes leaves every offset outside them alone. -/
theorem Memory.read_writeBytes_ne (m : Memory) (a : Nat) (bs : List Byte) {x : Nat} (h : x < a ∨ a + bs.length ≤ x) :
    (m.writeBytes a bs).read x = m.read x := by
  induction bs generalizing m a with
  | nil => rfl
  | cons b rest ih =>
    simp only [List.length_cons] at h
    rw [Memory.writeBytes, ih (m.write a b) (a + 1) (by omega), Memory.read_write_ne (by omega)]

/-- Writing several bytes inside the memory puts them there. -/
theorem Memory.holds_writeBytes (m : Memory) (a : Nat) (bs : List Byte) (h : a + bs.length ≤ m.size) :
    (m.writeBytes a bs).Holds a bs := by
  induction bs generalizing m a with
  | nil => intro i hi; simp at hi
  | cons b rest ih =>
    simp only [List.length_cons] at h
    intro i hi
    cases i with
    | zero =>
      rw [Memory.writeBytes, Memory.read_writeBytes_ne _ _ _ (Or.inl (by omega)), Memory.read_write (by omega)]
      simp
    | succ i =>
      have := ih (m.write a b) (a + 1) (by simp; omega) i (by simpa using hi)
      rw [Memory.writeBytes, show a + (i + 1) = a + 1 + i by omega, this]
      rfl

/-! ## A memory given by its bytes -/

theorem zipCells_read (w : List Byte) (k x : Nat) :
    cellsRead (((List.range' k w.length).zip w).filter (fun c => decide (c.2 ≠ 0))) (k + x) = w.getD x 0 := by
  induction w generalizing k x with
  | nil => simp [cellsRead]
  | cons b rest ih =>
    have later : ∀ c ∈ ((List.range' (k + 1) rest.length).zip rest).filter (fun c => decide (c.2 ≠ 0)), c.1 ≠ k := by
      intro c hc
      have := List.of_mem_zip (List.mem_of_mem_filter hc)
      have := List.mem_range'_1.mp this.1
      omega
    have skip : ∀ cells : List Host.Cell, (∀ c ∈ cells, c.1 ≠ k) → cellsRead cells k = 0x00 := by
      intro cells hcells
      induction cells with
      | nil => rfl
      | cons c cs ih2 =>
        obtain ⟨u, y⟩ := c
        have := hcells (u, y) (by simp)
        simp only [ne_eq] at this
        simp [cellsRead, this, ih2 (fun c hc => hcells c (List.mem_cons_of_mem _ hc))]
    by_cases hb : b = 0#8
    · cases x with
      | zero => simpa [List.range'_succ, hb] using skip _ later
      | succ x =>
        have := ih (k + 1) x
        simpa [List.range'_succ, hb, show k + (x + 1) = k + 1 + x by omega] using this
    · cases x with
      | zero => simp [List.range'_succ, hb, cellsRead]
      | succ x =>
        have := ih (k + 1) x
        simpa [List.range'_succ, hb, cellsRead, show k + (x + 1) = k + 1 + x by omega,
          show k ≠ k + 1 + x by omega] using this

@[simp] theorem Memory.size_ofBytes (w : List Byte) : (Memory.ofBytes w).size = w.length := rfl

/-- Reading a memory given by its bytes. -/
@[simp] theorem Memory.read_ofBytes (w : List Byte) (x : Nat) : (Memory.ofBytes w).read x = w.getD x 0 := by
  have := zipCells_read w 0 x
  simpa [Memory.read, Memory.ofBytes, List.range_eq_range'] using this

theorem zipCells_wf (w : List Byte) (k size : Nat) (h : k + w.length ≤ size) :
    cellsWf k size (((List.range' k w.length).zip w).filter (fun c => decide (c.2 ≠ 0))) = true := by
  induction w generalizing k with
  | nil => simp [cellsWf]
  | cons b rest ih =>
    simp only [List.length_cons] at h
    have := ih (k + 1) (by omega)
    by_cases hb : b = 0
    · simpa [List.range'_succ, hb] using cellsWf_mono this (Nat.le_succ k)
    · simp only [List.length_cons, List.range'_succ, List.zip_cons_cons, ne_eq, hb, not_false_eq_true, decide_true,
        List.filter_cons_of_pos, cellsWf, Bool.and_eq_true, decide_eq_true_eq]
      exact ⟨⟨Nat.le_refl k, by omega, trivial⟩, by simpa using this⟩

/-- A memory given by its bytes is in canonical form. -/
@[simp] theorem Memory.wf_ofBytes (w : List Byte) : (Memory.ofBytes w).wf = true := by
  have := zipCells_wf w 0 w.length (by omega)
  simpa [Memory.wf, Memory.ofBytes, List.range_eq_range'] using this

end Machine
end Sys2Proof
end

