-- ==== Sys2Proof/Laws/State.lean ====
section
/-! SUPPORT. One lemma per field per update, true by rfl, so that no proof unfolds a record update. -/

namespace Sys2Proof
namespace Machine

/-! ## `Act.emit`, `Act.setResp`, `Act.setSlot`, `Act.setEnv` -/

@[simp] theorem Act.emit_link (e : Effect) (a : Act) : (a.emit e).link = a.link := rfl
@[simp] theorem Act.emit_fx (e : Effect) (a : Act) : (a.emit e).fx = a.fx ++ [e] := rfl

@[simp] theorem Act.setResp_resp (r : Responder) (a : Act) : (a.setResp r).link.resp = r := rfl
@[simp] theorem Act.setResp_slot (r : Responder) (a : Act) : (a.setResp r).link.slot = a.link.slot := rfl
@[simp] theorem Act.setResp_env (r : Responder) (a : Act) : (a.setResp r).link.env = a.link.env := rfl
@[simp] theorem Act.setResp_slotCfg (r : Responder) (a : Act) : (a.setResp r).link.slotCfg = a.link.slotCfg := rfl
@[simp] theorem Act.setResp_respCfg (r : Responder) (a : Act) : (a.setResp r).link.respCfg = a.link.respCfg := rfl
@[simp] theorem Act.setResp_fx (r : Responder) (a : Act) : (a.setResp r).fx = a.fx := rfl

@[simp] theorem Act.setSlot_resp (t : Slot) (a : Act) : (a.setSlot t).link.resp = a.link.resp := rfl
@[simp] theorem Act.setSlot_slot (t : Slot) (a : Act) : (a.setSlot t).link.slot = t := rfl
@[simp] theorem Act.setSlot_env (t : Slot) (a : Act) : (a.setSlot t).link.env = a.link.env := rfl
@[simp] theorem Act.setSlot_slotCfg (t : Slot) (a : Act) : (a.setSlot t).link.slotCfg = a.link.slotCfg := rfl
@[simp] theorem Act.setSlot_respCfg (t : Slot) (a : Act) : (a.setSlot t).link.respCfg = a.link.respCfg := rfl
@[simp] theorem Act.setSlot_fx (t : Slot) (a : Act) : (a.setSlot t).fx = a.fx := rfl

@[simp] theorem Act.setEnv_resp (e : Inputs) (a : Act) : (a.setEnv e).link.resp = a.link.resp := rfl
@[simp] theorem Act.setEnv_slot (e : Inputs) (a : Act) : (a.setEnv e).link.slot = a.link.slot := rfl
@[simp] theorem Act.setEnv_env (e : Inputs) (a : Act) : (a.setEnv e).link.env = e := rfl
@[simp] theorem Act.setEnv_slotCfg (e : Inputs) (a : Act) : (a.setEnv e).link.slotCfg = a.link.slotCfg := rfl
@[simp] theorem Act.setEnv_respCfg (e : Inputs) (a : Act) : (a.setEnv e).link.respCfg = a.link.respCfg := rfl
@[simp] theorem Act.setEnv_fx (e : Inputs) (a : Act) : (a.setEnv e).fx = a.fx := rfl

/-! ## `State.begin` -/

@[simp] theorem State.begin_cfg (es : List Event) (s : State) : (s.begin es).cfg = s.cfg := rfl
@[simp] theorem State.begin_links (es : List Event) (s : State) : (s.begin es).links = s.links := rfl
@[simp] theorem State.begin_wdCounter (es : List Event) (s : State) : (s.begin es).wdCounter = s.wdCounter := rfl
@[simp] theorem State.begin_wdState (es : List Event) (s : State) : (s.begin es).wdState = s.wdState := rfl
@[simp] theorem State.begin_events (es : List Event) (s : State) : (s.begin es).events = es := rfl
@[simp] theorem State.begin_effects (es : List Event) (s : State) : (s.begin es).effects = [] := rfl
@[simp] theorem State.begin_result (es : List Event) (s : State) : (s.begin es).result = .none := rfl

/-! ## `State.withLink` -/

section
variable (s : State) (n : Nat) (l : Link) (fx : List Effect) (r : Result)

@[simp] theorem State.withLink_cfg : (s.withLink n l fx r).cfg = s.cfg := rfl
@[simp] theorem State.withLink_links : (s.withLink n l fx r).links = s.links.set n l := rfl
@[simp] theorem State.withLink_wdCounter : (s.withLink n l fx r).wdCounter = s.wdCounter := rfl
@[simp] theorem State.withLink_wdState : (s.withLink n l fx r).wdState = s.wdState := rfl
@[simp] theorem State.withLink_events : (s.withLink n l fx r).events = s.events := rfl
@[simp] theorem State.withLink_effects : (s.withLink n l fx r).effects = fx := rfl
@[simp] theorem State.withLink_result : (s.withLink n l fx r).result = r := rfl
end

/-! ## `Link.dropTurns`, `State.withPlan` -/

@[simp] theorem Link.dropTurns_slot (k : Nat) (l : Link) : (l.dropTurns k).slot = l.slot := rfl
@[simp] theorem Link.dropTurns_resp (k : Nat) (l : Link) : (l.dropTurns k).resp = l.resp := rfl
@[simp] theorem Link.dropTurns_slotCfg (k : Nat) (l : Link) : (l.dropTurns k).slotCfg = l.slotCfg := rfl
@[simp] theorem Link.dropTurns_respCfg (k : Nat) (l : Link) : (l.dropTurns k).respCfg = l.respCfg := rfl
@[simp] theorem Link.dropTurns_turns (k : Nat) (l : Link) : (l.dropTurns k).env.turns = l.env.turns.drop k := rfl

/-- On a slot that exists, `withPlan` changes the plan of that slot. -/
theorem State.withPlan_some {s : State} {n : Nat} {l : Link} (plan : List TxBuf) (h : s.links[n]? = some l) :
    s.withPlan n plan =
      { s with links := s.links.set n { l with slotCfg := { l.slotCfg with tickPlan := plan } } } := by
  simp [State.withPlan, h]

/-! ## Buffers of a slot -/

@[simp] theorem txBufMem_setTxBuf (b : TxBuf) (m : Memory) (t : Slot) : txBufMem b (setTxBuf b m t) = m := by
  cases b <;> rfl
@[simp] theorem setTxBuf_mSync (b : TxBuf) (m : Memory) (t : Slot) : (setTxBuf b m t).mSync = t.mSync := by cases b <;> rfl
@[simp] theorem setTxBuf_rxBuf (b : TxBuf) (m : Memory) (t : Slot) : (setTxBuf b m t).rxBuf = t.rxBuf := by cases b <;> rfl
@[simp] theorem setTxBuf_tx (b : TxBuf) (m : Memory) (t : Slot) : (setTxBuf b m t).tx = t.tx := by cases b <;> rfl
@[simp] theorem setTxBuf_failRun (b : TxBuf) (m : Memory) (t : Slot) : (setTxBuf b m t).failRun = t.failRun := by
  cases b <;> rfl
@[simp] theorem setTxBuf_restartLine (b : TxBuf) (m : Memory) (t : Slot) :
    (setTxBuf b m t).restartLine = t.restartLine := by cases b <;> rfl

/-! ## Register arrays -/

@[simp] theorem pairGet_set (b : Pair) (i : Nat) (v : Byte) : pairGet (pairSet b i v) i = v := by
  match i with
  | 0 => rfl
  | _ + 1 => rfl

@[simp] theorem quadGet_set (q : Quad) (i : Nat) (v : Byte) : quadGet (quadSet q i v) i = v := by
  match i with
  | 0 => rfl
  | 1 => rfl
  | 2 => rfl
  | _ + 3 => rfl

end Machine
end Sys2Proof
end

