-- ==== Sys2Proof/Laws/Ops.lean ====
section
/-! SUPPORT. For each shared operation, once, everything it can do: what a proof cites instead of unfolding it. -/

namespace Sys2Proof
namespace Machine

/-! ## Bounds (R249) -/

theorem checkBounds_ok {name : BufName} {m : Memory} {a n : Nat} (h : a + n ≤ m.size) : checkBounds name m a n = .ok () :=
  if_pos h

theorem checkBounds_error {name : BufName} {m : Memory} {a n : Nat} (h : m.size < a + n) :
    checkBounds name m a n = .error (.precondition name a n) := if_neg (by omega)

theorem checkBounds_cases (name : BufName) (m : Memory) (a n : Nat) :
    (a + n ≤ m.size ∧ checkBounds name m a n = .ok ()) ∨
      (m.size < a + n ∧ checkBounds name m a n = .error (.precondition name a n)) := by
  by_cases h : a + n ≤ m.size
  · exact .inl ⟨h, checkBounds_ok h⟩
  · exact .inr ⟨by omega, checkBounds_error (by omega)⟩

/-! ## Operations on one link -/

/-- An operation on a link that exists and that answers: the next state. -/
theorem onLink_next {s : State} {n : Nat} {l : Link} {f : Act → Except Fault (Result × Act)} {r : Result} {a : Act}
    (hl : s.links[n]? = some l) (hf : f ⟨l, s.effects⟩ = .ok (r, a)) :
    s.onLink n f = .next (s.withLink n a.link a.fx r) := by
  simp [State.onLink, hl, hf, State.withLink]

/-- An operation on a link that exists and that faults. -/
theorem onLink_fault {s : State} {n : Nat} {l : Link} {f : Act → Except Fault (Result × Act)} {e : Fault}
    (hl : s.links[n]? = some l) (hf : f ⟨l, s.effects⟩ = .error e) : s.onLink n f = .fault e := by
  simp [State.onLink, hl, hf]

/-- If an operation on a link answers a next state, the link exists, the operation answered, and only the link, the
effects and the result have changed. -/
theorem onLink_cases {s t : State} {n : Nat} {f : Act → Except Fault (Result × Act)} (h : s.onLink n f = .next t) :
    ∃ l r a, s.links[n]? = some l ∧ f ⟨l, s.effects⟩ = .ok (r, a) ∧ t = s.withLink n a.link a.fx r := by
  unfold State.onLink at h
  split at h
  · cases h
  · rename_i l hl
    split at h
    · cases h
    · rename_i r a hf
      cases h
      exact ⟨l, r, a, hl, hf, rfl⟩

/-- A byte operation that is selected, on a responder that is not held in reset, is performed. -/
theorem byteOperation_next {i : Instr} {p : Nat} {rx : Byte} {op : Act → Act} {s : State} {l : Link}
    (hl : s.links[p]? = some l) (hr : l.slot.restartLine = false) (hs : selected l.respCfg l.resp p rx = i) :
    byteOperation i p rx op s =
      .next (s.withLink p (op ⟨l, s.effects⟩).link (op ⟨l, s.effects⟩).fx
        (.reply (op ⟨l, s.effects⟩).link.resp.txReg)) := by
  simp [byteOperation, hl, hr, hs, State.onLink, State.withLink]

/-- If a byte operation answers a next state, it was selected and performed. -/
theorem byteOperation_cases {i : Instr} {p : Nat} {rx : Byte} {op : Act → Act} {s t : State}
    (h : byteOperation i p rx op s = .next t) :
    ∃ l, s.links[p]? = some l ∧ l.slot.restartLine = false ∧ selected l.respCfg l.resp p rx = i ∧
      t = s.withLink p (op ⟨l, s.effects⟩).link (op ⟨l, s.effects⟩).fx (.reply (op ⟨l, s.effects⟩).link.resp.txReg) := by
  unfold byteOperation at h
  split at h
  · cases h
  · rename_i l hl
    split at h
    · rename_i hc
      obtain ⟨l', r, a, hl', hf, ht⟩ := onLink_cases h
      cases hl.symm.trans hl'
      cases hf
      exact ⟨l, hl, hc.1, hc.2, ht⟩
    · cases h

/-! ## The byte step (R160) -/

/-- A byte step changes the responder's registers and the environment's choices, emits effects, and touches nothing else:
no buffer, no configuration. -/
theorem byteStep_frame (p : Nat) (rx : Byte) (a : Act) :
    ∃ r e fx, byteStep p rx a = { link := { a.link with resp := r, env := e }, fx := a.fx ++ fx } := by
  have keep : ∀ r : Responder, ∃ r' e fx, a.setResp r = { link := { a.link with resp := r', env := e }, fx := a.fx ++ fx } :=
    fun r => ⟨r, a.link.env, [], by simp [Act.setResp]⟩
  unfold byteStep responderStep
  simp only
  split
  · split
    · split
      · exact keep _
      · exact keep _
    · exact keep _
  · split
    · exact keep _
    · split
      · unfold selectValue
        split
        · exact ⟨_, _, [_], rfl⟩
        · exact keep _
      · split
        · unfold furtherValue
          simp only
          split
          · exact keep _
          · exact keep _
        · split
          · split
            · exact keep _
            · exact keep _
          · exact ⟨_, _, [_], rfl⟩

@[simp] theorem byteStep_slot (p : Nat) (rx : Byte) (a : Act) : (byteStep p rx a).link.slot = a.link.slot := by
  obtain ⟨r, e, fx, h⟩ := byteStep_frame p rx a
  rw [h]

@[simp] theorem byteStep_slotCfg (p : Nat) (rx : Byte) (a : Act) : (byteStep p rx a).link.slotCfg = a.link.slotCfg := by
  obtain ⟨r, e, fx, h⟩ := byteStep_frame p rx a
  rw [h]

@[simp] theorem byteStep_respCfg (p : Nat) (rx : Byte) (a : Act) : (byteStep p rx a).link.respCfg = a.link.respCfg := by
  obtain ⟨r, e, fx, h⟩ := byteStep_frame p rx a
  rw [h]

/-! ## The responder's own steps (R77, R176, R283) -/

/-- A dispatch takes the oldest pending signal and emits at most its delivery; it touches nothing else (R176). -/
theorem dispatchFrame_frame (p : Nat) (a : Act) :
    ∃ fx, dispatchFrame p a =
      { link := { a.link with resp := { a.link.resp with pending := a.link.resp.pending.tail } }, fx := a.fx ++ fx } := by
  obtain ⟨⟨sc, rc, t, ⟨ss, sp, fp, ib, vb, ip, tr, pend⟩, e⟩, fx⟩ := a
  cases pend with
  | nil => exact ⟨[], by simp [dispatchFrame]⟩
  | cons snap rest =>
    unfold dispatchFrame
    simp only [List.tail_cons]
    split
    · exact ⟨[], by simp [Act.setResp]⟩
    · exact ⟨_, rfl⟩

/-- What a responder does on its own changes its registers and the environment's choices and emits effects. -/
theorem takeTurns_frame (p : Nat) (ts : List Turn) (a : Act) :
    ∃ r e fx, takeTurns p ts a = { link := { a.link with resp := r, env := e }, fx := a.fx ++ fx } := by
  induction ts generalizing a with
  | nil => exact ⟨a.link.resp, a.link.env, [], by simp [takeTurns]⟩
  | cons t rest ih =>
    have one : ∃ r e fx, takeTurn p t a = { link := { a.link with resp := r, env := e }, fx := a.fx ++ fx } := by
      cases t with
      | dispatch =>
        obtain ⟨fx, h⟩ := dispatchFrame_frame p a
        exact ⟨_, _, fx, h⟩
      | powerCycle => exact ⟨_, _, [], by simp [takeTurn, resetResponder, Act.setEnv, Act.setResp]; exact ⟨rfl, rfl⟩⟩
    obtain ⟨r, e, fx, h⟩ := one
    obtain ⟨r', e', fx', h'⟩ := ih (takeTurn p t a)
    exact ⟨r', e', fx ++ fx', by rw [takeTurns, h', h]; simp⟩

/-- Added byte clocks, with the responder's own steps between them, change what one byte step may change. -/
theorem byteSteps_frame (p : Nat) (cs : List AddedClock) (a : Act) :
    ∃ r e fx, byteSteps p cs a = { link := { a.link with resp := r, env := e }, fx := a.fx ++ fx } := by
  induction cs generalizing a with
  | nil => exact ⟨a.link.resp, a.link.env, [], by simp [byteSteps]⟩
  | cons c rest ih =>
    obtain ⟨r, e, fx, h⟩ := takeTurns_frame p c.turns a
    obtain ⟨r', e', fx', h'⟩ := byteStep_frame p c.rx (takeTurns p c.turns a)
    obtain ⟨r'', e'', fx'', h''⟩ := ih (byteStep p c.rx (takeTurns p c.turns a))
    exact ⟨r'', e'', fx ++ fx' ++ fx'', by rw [byteSteps, h'', h', h]; simp⟩

/-- A place for the responder's own steps changes its registers and the environment's choices and emits effects. -/
theorem pause_frame (p : Nat) (a : Act) :
    ∃ r e fx, pause p a = { link := { a.link with resp := r, env := e }, fx := a.fx ++ fx } := by
  unfold pause
  split
  · exact ⟨a.link.resp, a.link.env, [], by simp⟩
  · obtain ⟨r, e, fx, h⟩ := takeTurns_frame p _ (a.setEnv _)
    exact ⟨r, e, fx, h⟩

@[simp] theorem pause_slot (p : Nat) (a : Act) : (pause p a).link.slot = a.link.slot := by
  obtain ⟨r, e, fx, h⟩ := pause_frame p a
  rw [h]

@[simp] theorem pause_slotCfg (p : Nat) (a : Act) : (pause p a).link.slotCfg = a.link.slotCfg := by
  obtain ⟨r, e, fx, h⟩ := pause_frame p a
  rw [h]

@[simp] theorem pause_respCfg (p : Nat) (a : Act) : (pause p a).link.respCfg = a.link.respCfg := by
  obtain ⟨r, e, fx, h⟩ := pause_frame p a
  rw [h]

/-- Without a choice of the environment nothing happens at a place. -/
theorem pause_none {p : Nat} {a : Act} (h : a.link.env.turns = []) : pause p a = a := by simp [pause, h]

/-! ## The exchange and the transfer (R62 to R65) -/

/-- An exchange inside both buffers is performed: it writes byte `i` of the receive buffer, changes the responder's
registers and the environment's choices, emits effects, and touches nothing else. -/
theorem exchange_frame {s i : Nat} {a : Act} (htx : i < a.link.slot.tx.size) (hrx : i < a.link.slot.rxBuf.size) :
    ∃ b r e fx, exchange s i a =
      .ok { link := { a.link with resp := r, env := e, slot := { a.link.slot with rxBuf := a.link.slot.rxBuf.write i b } },
            fx := a.fx ++ fx } := by
  unfold exchange
  rw [checkBounds_ok (by omega), checkBounds_ok (by omega)]
  simp only
  split
  · exact ⟨_, a.link.resp, _, [], by simp only [List.append_nil]; rfl⟩
  · unfold exchangeBytes
    simp only
    split
    · obtain ⟨r, e, fx, h⟩ := byteSteps_frame s a.link.env.disturbance.1.extraClocks
        ((a.setEnv a.link.env.disturbance.2).setSlot { a.link.slot with
          rxBuf := a.link.slot.rxBuf.write i (a.link.env.disturbance.1.toInitiator.getD a.link.resp.txReg) })
      exact ⟨_, r, e, fx, by simp only [Act.setEnv_slot]; rw [h]; rfl⟩
    · obtain ⟨r, e, fx, h⟩ := byteStep_frame s
        (a.link.env.disturbance.1.toResponder.getD (a.link.slot.tx.read i))
        ((a.setEnv a.link.env.disturbance.2).setSlot { a.link.slot with
          rxBuf := a.link.slot.rxBuf.write i (a.link.env.disturbance.1.toInitiator.getD a.link.resp.txReg) })
      obtain ⟨r', e', fx', h'⟩ := byteSteps_frame s a.link.env.disturbance.1.extraClocks
        { link := { a.link with slot := { a.link.slot with
            rxBuf := a.link.slot.rxBuf.write i (a.link.env.disturbance.1.toInitiator.getD a.link.resp.txReg) },
                                resp := r, env := e }, fx := a.fx ++ fx }
      refine ⟨a.link.env.disturbance.1.toInitiator.getD a.link.resp.txReg, r', e', fx ++ fx', ?_⟩
      simp only [Act.setEnv_slot]
      rw [h]
      simp only [Act.setEnv, Act.setSlot]
      rw [h']
      simp

/-- An exchange outside a buffer faults (R65, R249). -/
theorem exchange_cases {s i : Nat} {a b : Act} (h : exchange s i a = .ok b) :
    i < a.link.slot.tx.size ∧ i < a.link.slot.rxBuf.size := by
  unfold exchange at h
  rcases checkBounds_cases (.tx s) a.link.slot.tx i 1 with ⟨h1, e1⟩ | ⟨-, e1⟩ <;> rw [e1] at h
  · rcases checkBounds_cases (.rx s) a.link.slot.rxBuf i 1 with ⟨h2, e2⟩ | ⟨-, e2⟩ <;> rw [e2] at h
    · exact ⟨by omega, by omega⟩
    · cases h
  · cases h

/-- Exchanges inside both buffers are performed: the receive buffer keeps its length, its canonical form and every byte
outside them; the other buffers and registers of the slot stay. -/
theorem exchanges_frame {s n i : Nat} {a : Act} (htx : i + n ≤ a.link.slot.tx.size) (hrx : i + n ≤ a.link.slot.rxBuf.size) :
    ∃ m r e fx, exchanges s n i a =
        .ok { link := { a.link with resp := r, env := e, slot := { a.link.slot with rxBuf := m } }, fx := a.fx ++ fx } ∧
      a.link.slot.rxBuf.SameOutside m i n ∧ (a.link.slot.rxBuf.wf = true → m.wf = true) := by
  induction n generalizing i a with
  | zero =>
    obtain ⟨r, e, fx, h⟩ := pause_frame s a
    exact ⟨a.link.slot.rxBuf, r, e, fx, by rw [exchanges, h], ⟨rfl, fun _ _ => rfl⟩, id⟩
  | succ n ih =>
    obtain ⟨r0, e0, fx0, h0⟩ := pause_frame s a
    obtain ⟨b, r, e, fx, h⟩ := exchange_frame (s := s) (i := i)
      (a := { link := { a.link with resp := r0, env := e0 }, fx := a.fx ++ fx0 })
      (by simpa using (by omega)) (by simpa using (by omega))
    obtain ⟨m, r', e', fx', h', ⟨hs, hr⟩, hw⟩ := ih (i := i + 1)
      (a := { link := { a.link with resp := r, env := e, slot := { a.link.slot with rxBuf := a.link.slot.rxBuf.write i b } },
              fx := a.fx ++ fx0 ++ fx }) (by simpa using (by omega)) (by simpa using (by omega))
    refine ⟨m, r', e', fx0 ++ fx ++ fx', ?_, ⟨by simpa using hs, ?_⟩, fun hwf => hw (Memory.wf_write hwf i b)⟩
    · simp only [exchanges, h0, h]
      rw [h']
      simp
    · intro x hx
      rw [hr x (by omega)]
      exact Memory.read_write_ne (by omega) b

/-- A transfer inside both buffers is performed, with the frame of its exchanges (R65). -/
theorem transfer_frame {s len : Nat} {a : Act} (htx : len ≤ a.link.slot.tx.size) (hrx : len ≤ a.link.slot.rxBuf.size) :
    ∃ m r e fx, transfer s len a =
        .ok { link := { a.link with resp := r, env := e, slot := { a.link.slot with rxBuf := m } }, fx := a.fx ++ fx } ∧
      a.link.slot.rxBuf.SameOutside m 0 len ∧ (a.link.slot.rxBuf.wf = true → m.wf = true) := by
  unfold transfer
  rw [checkBounds_ok (by omega), checkBounds_ok (by omega)]
  exact exchanges_frame (by omega) (by omega)

/-- A transfer that answers was inside both buffers. -/
theorem transfer_cases {s len : Nat} {a b : Act} (h : transfer s len a = .ok b) :
    len ≤ a.link.slot.tx.size ∧ len ≤ a.link.slot.rxBuf.size := by
  unfold transfer at h
  rcases checkBounds_cases (.tx s) a.link.slot.tx 0 len with ⟨h1, e1⟩ | ⟨-, e1⟩ <;> rw [e1] at h
  · rcases checkBounds_cases (.rx s) a.link.slot.rxBuf 0 len with ⟨h2, e2⟩ | ⟨-, e2⟩ <;> rw [e2] at h
    · exact ⟨by omega, by omega⟩
    · cases h
  · cases h

/-! ## The codec (R121) -/

/-- An encode inside the buffer writes its fields; it keeps the length, the canonical form and every byte outside the
nine (R121). -/
theorem encodeFrame_frame {name : BufName} {o : ByteOrder} {off : Nat} {id : Id} {vb : List Byte} {m : Memory}
    (h : off + 9 ≤ m.size) (hv : vb.length ≤ 4) :
    ∃ m', encodeFrame name o off id vb m = .ok m' ∧ m.SameOutside m' off 9 ∧ (m.wf = true → m'.wf = true) := by
  refine ⟨_, by rw [encodeFrame, checkBounds_ok h], ⟨by simp, ?_⟩, ?_⟩
  · intro x hx
    have : (bytes16 o id).length = 2 := by cases o <;> rfl
    rw [Memory.read_writeBytes_ne _ _ _ (by simp; omega), Memory.read_writeBytes_ne _ _ _ (by simp; omega),
      Memory.read_writeBytes_ne _ _ _ (by omega), Memory.read_writeBytes_ne _ _ _ (by omega)]
  · intro hw
    exact Memory.wf_writeBytes (Memory.wf_writeBytes (Memory.wf_writeBytes (Memory.wf_writeBytes hw _ _) _ _) _ _) _ _

/-- An encode outside the buffer faults and writes nothing (R121, R249). -/
theorem encodeFrame_error {name : BufName} {o : ByteOrder} {off : Nat} {id : Id} {vb : List Byte} {m : Memory}
    (h : m.size < off + 9) : encodeFrame name o off id vb m = .error (.precondition name off 9) := by
  rw [encodeFrame, checkBounds_error h]

/-! ## The validator (R191, R193) -/

/-- The effects of validating one frame slot: the warning, then the delivery of an accepted pull (R194, R198). -/
def slotEffects (c : Cfg) (s : Nat) (pullM : List Id) (e : Extracted) : List Effect :=
  (if txAckWrong e then [.warnTxAck s] else []) ++
    (match frameVerdict c pullM e with
      | .okPull v => [.pullDeliver s e.txId1 v]
      | .okPush => []
      | .fail _ => [])

/-- Validating a frame slot inside both buffers gives a verdict, emits its effects, and changes no register (R193). -/
theorem validateSlot_frame {c : Cfg} {s k : Nat} {a : Act} (htx : 9 * k + 9 ≤ a.link.slot.tx.size)
    (hrx : 9 * k + 9 ≤ a.link.slot.rxBuf.size) :
    validateSlot c s k a =
      .ok (frameVerdict c a.link.slotCfg.pullM (extract c.byteOrder a.link.slot.tx a.link.slot.rxBuf k),
        { a with fx := a.fx ++ slotEffects c s a.link.slotCfg.pullM
                                 (extract c.byteOrder a.link.slot.tx a.link.slot.rxBuf k) }) := by
  unfold validateSlot slotEffects
  rw [checkBounds_ok htx, checkBounds_ok hrx]
  simp only
  cases frameVerdict c a.link.slotCfg.pullM (extract c.byteOrder a.link.slot.tx a.link.slot.rxBuf k) <;>
    cases txAckWrong (extract c.byteOrder a.link.slot.tx a.link.slot.rxBuf k) <;>
    simp [Act.emit]

/-- Validating frame slots inside both buffers examines every one, changes no register, and reports whether one fails. -/
theorem validateSlots_frame {c : Cfg} {s n k : Nat} {failed : Bool} {a : Act} (htx : 9 * (k + n) ≤ a.link.slot.tx.size)
    (hrx : 9 * (k + n) ≤ a.link.slot.rxBuf.size) :
    validateSlots c s n k failed a =
      .ok (failed || (List.range' k n).any (fun j =>
        (frameVerdict c a.link.slotCfg.pullM (extract c.byteOrder a.link.slot.tx a.link.slot.rxBuf j)).failed),
        { a with fx := a.fx ++ (List.range' k n).flatMap (fun j =>
          slotEffects c s a.link.slotCfg.pullM (extract c.byteOrder a.link.slot.tx a.link.slot.rxBuf j)) }) := by
  induction n generalizing k failed a with
  | zero => simp [validateSlots]
  | succ n ih =>
    have ih := ih (k := k + 1)
      (failed := failed || (frameVerdict c a.link.slotCfg.pullM
        (extract c.byteOrder a.link.slot.tx a.link.slot.rxBuf k)).failed)
      (a := { a with fx := a.fx ++ slotEffects c s a.link.slotCfg.pullM
                                     (extract c.byteOrder a.link.slot.tx a.link.slot.rxBuf k) })
      (by simpa using (by omega)) (by simpa using (by omega))
    simp only [validateSlots, validateSlot_frame (c := c) (s := s) (k := k) (a := a) (by omega) (by omega)]
    rw [ih]
    simp [List.range'_succ, Bool.or_assoc]

/-- Validating a transaction inside both buffers: every frame slot's effects are emitted, ok leaves every register, fail
clears `m_sync[s]` alone (R191, R200). -/
theorem validateTxn_frame {c : Cfg} {s n : Nat} {a : Act} (htx : 9 * n ≤ a.link.slot.tx.size)
    (hrx : 9 * n ≤ a.link.slot.rxBuf.size) :
    let slotAt := extract c.byteOrder a.link.slot.tx a.link.slot.rxBuf
    let done : Act := { a with fx := a.fx ++ (List.range' 0 n).flatMap (fun j => slotEffects c s a.link.slotCfg.pullM (slotAt j)) }
    (validateTxn c s n a = .ok (true, done) ∧ ∀ j < n, (frameVerdict c a.link.slotCfg.pullM (slotAt j)).failed = false) ∨
      (validateTxn c s n a = .ok (false, invalidate done) ∧
        ∃ j < n, (frameVerdict c a.link.slotCfg.pullM (slotAt j)).failed = true) := by
  intro slotAt done
  have h := validateSlots_frame (c := c) (s := s) (n := n) (k := 0) (failed := false) (a := a) (by omega) (by omega)
  unfold validateTxn
  rw [checkBounds_ok (by omega), checkBounds_ok (by omega), h]
  simp only [Bool.false_or]
  cases hb : (List.range' 0 n).any (fun j => (frameVerdict c a.link.slotCfg.pullM (slotAt j)).failed)
  · refine .inl ⟨rfl, fun j hj => ?_⟩
    have := List.any_eq_false.mp hb j (List.mem_range'_1.mpr ⟨Nat.zero_le j, by omega⟩)
    simpa using this
  · obtain ⟨j, hj, hf⟩ := List.any_eq_true.mp hb
    exact .inr ⟨rfl, j, by have := List.mem_range'_1.mp hj; omega, hf⟩

/-! ## Restart (R231, R283) -/

/-- A restart pulse resets the responder, deasserts the line, forgets synchronization and failures, and reports itself. -/
theorem restartPulse_frame (s : Nat) (a : Act) :
    ∃ idb vb e, restartPulse s a =
      { link := { a.link with
          slot := { a.link.slot with restartLine := false, mSync := .unsynchronized, failRun := 0 }
          resp := Responder.reset idb vb
          env := e }
        fx := a.fx ++ [.restartPulse s] } :=
  ⟨_, _, _, rfl⟩

end Machine
end Sys2Proof
end

