-- ==== Sys2Proof/Laws/Effects.lean ====
section
/-! SUPPORT. The safety callback is invoked by `W.CHECK` alone (10_state.md R39, 60_exceptions.md R250): no shared operation on
a link emits `Safety`. -/

namespace Sys2Proof
namespace Machine

/-- How often `Safety` stands in the effects emitted so far. -/
def Act.alarms (a : Act) : Nat := a.fx.count .safety

theorem Act.alarms_emit {e : Effect} (h : e ≠ .safety) (a : Act) : (a.emit e).alarms = a.alarms := by
  simp [alarms, Act.emit, h]

@[simp] theorem Act.alarms_setResp (r : Responder) (a : Act) : (a.setResp r).alarms = a.alarms := rfl
@[simp] theorem Act.alarms_setSlot (t : Slot) (a : Act) : (a.setSlot t).alarms = a.alarms := rfl
@[simp] theorem Act.alarms_setEnv (e : Inputs) (a : Act) : (a.setEnv e).alarms = a.alarms := rfl
@[simp] theorem alarms_selectTx (m : Memory) (a : Act) : (selectTx m a).alarms = a.alarms := rfl
@[simp] theorem alarms_invalidate (a : Act) : (invalidate a).alarms = a.alarms := rfl
@[simp] theorem alarms_tickPassed (a : Act) : (tickPassed a).alarms = a.alarms := rfl

/-! ## The responder -/

@[simp] theorem alarms_selectValue (p : Nat) (rx : Byte) (a : Act) : (selectValue p rx a).alarms = a.alarms := by
  unfold selectValue
  split
  · exact Act.alarms_emit (e := .pullQuery _ _) (by simp) a
  · rfl

@[simp] theorem alarms_furtherValue (rx : Byte) (a : Act) : (furtherValue rx a).alarms = a.alarms := by
  simp only [furtherValue]
  split <;> rfl

@[simp] theorem alarms_completeFrame (p : Nat) (a : Act) : (completeFrame p a).alarms = a.alarms :=
  Act.alarms_emit (e := .frameComplete _ _) (by simp) a

@[simp] theorem alarms_responderStep (rx : Byte) (a : Act) : (responderStep rx a).alarms = a.alarms := by
  simp only [responderStep]
  split
  · split <;> rfl
  · rfl

@[simp] theorem alarms_byteStep (p : Nat) (rx : Byte) (a : Act) : (byteStep p rx a).alarms = a.alarms := by
  simp only [byteStep]
  repeat' split
  · simp
  · rfl
  · simp
  · simp
  · rfl
  · rfl
  · simp

@[simp] theorem alarms_dispatchFrame (p : Nat) (a : Act) : (dispatchFrame p a).alarms = a.alarms := by
  unfold dispatchFrame
  split
  · rfl
  · simp only
    split
    · rfl
    · rw [Act.alarms_emit (by simp)]
      rfl

@[simp] theorem alarms_resetResponder (p : Nat) (a : Act) : (resetResponder p a).alarms = a.alarms := rfl

@[simp] theorem alarms_takeTurns (p : Nat) (ts : List Turn) (a : Act) : (takeTurns p ts a).alarms = a.alarms := by
  induction ts generalizing a with
  | nil => rfl
  | cons t rest ih => cases t <;> simp [takeTurns, takeTurn, ih]

@[simp] theorem alarms_byteSteps (p : Nat) (cs : List AddedClock) (a : Act) : (byteSteps p cs a).alarms = a.alarms := by
  induction cs generalizing a with
  | nil => rfl
  | cons c rest ih => simp [byteSteps, ih]

@[simp] theorem alarms_pause (p : Nat) (a : Act) : (pause p a).alarms = a.alarms := by
  unfold pause
  split <;> simp

/-! ## The bus -/

theorem alarms_exchange {s i : Nat} {a b : Act} (h : exchange s i a = .ok b) : b.alarms = a.alarms := by
  unfold exchange at h
  split at h
  · cases h
  · split at h
    · cases h
    · simp only at h
      split at h <;> cases h
      · rfl
      · simp only [exchangeBytes, alarms_byteSteps]
        split <;> simp

theorem alarms_exchanges {s n i : Nat} {a b : Act} (h : exchanges s n i a = .ok b) : b.alarms = a.alarms := by
  induction n generalizing i a with
  | zero => cases h; simp
  | succ n ih =>
    unfold exchanges at h
    split at h
    · cases h
    · rename_i c hc
      rw [ih h, alarms_exchange hc, alarms_pause]

theorem alarms_transfer {s len : Nat} {a b : Act} (h : transfer s len a = .ok b) : b.alarms = a.alarms := by
  unfold transfer at h
  split at h
  · cases h
  · split at h
    · cases h
    · exact alarms_exchanges h

/-! ## Check, validation, ticks -/

theorem alarms_checkProbe {c : Cfg} {s : Nat} {a b : Act} {pass : Bool} (h : checkProbe c s a = .ok (pass, b)) :
    b.alarms = a.alarms := by
  unfold checkProbe at h
  split at h
  · cases h
  · split at h <;> cases h <;> rfl

theorem alarms_validateSlot {c : Cfg} {s k : Nat} {a b : Act} {v : Verdict} (h : validateSlot c s k a = .ok (v, b)) :
    b.alarms = a.alarms := by
  have warned : ∀ e : Extracted, (if txAckWrong e then a.emit (.warnTxAck s) else a).alarms = a.alarms := fun e => by
    split
    · exact Act.alarms_emit (by simp) a
    · rfl
  unfold validateSlot at h
  split at h
  · cases h
  · split at h
    · cases h
    · simp only at h
      split at h <;> cases h
      · rw [Act.alarms_emit (by simp), warned]
      · exact warned _
      · exact warned _

theorem alarms_validateSlots {c : Cfg} {s n k : Nat} {failed r : Bool} {a b : Act}
    (h : validateSlots c s n k failed a = .ok (r, b)) : b.alarms = a.alarms := by
  induction n generalizing k failed a with
  | zero => cases h; rfl
  | succ n ih =>
    unfold validateSlots at h
    split at h
    · cases h
    · rename_i v d hv
      rw [ih h, alarms_validateSlot hv]

theorem alarms_validateTxn {c : Cfg} {s n : Nat} {r : Bool} {a b : Act} (h : validateTxn c s n a = .ok (r, b)) :
    b.alarms = a.alarms := by
  unfold validateTxn at h
  split at h
  · cases h
  · split at h
    · cases h
    · split at h
      · cases h
      · rename_i d hd
        cases h
        simpa using alarms_validateSlots hd
      · rename_i d hd
        cases h
        exact alarms_validateSlots hd

@[simp] theorem alarms_restartPulse (s : Nat) (a : Act) : (restartPulse s a).alarms = a.alarms :=
  Act.alarms_emit (e := .restartPulse s) (by simp) a

@[simp] theorem alarms_tickFailed (c : Cfg) (n : Nat) (kind : TickKind) (a : Act) : (tickFailed c n kind a).alarms = a.alarms := by
  simp only [tickFailed]
  split <;> simp

theorem alarms_fillPush {c : Cfg} {n j : Nat} {ids : List Id} {a b : Act} (h : fillPush c n j ids a = .ok b) :
    b.alarms = a.alarms := by
  induction ids generalizing j a with
  | nil => cases h; rfl
  | cons id rest ih =>
    simp only [fillPush] at h
    split at h
    · cases h
    · rw [ih h]
      rfl

theorem alarms_transact {c : Cfg} {n : Nat} {b : TxBuf} {a d : Act} {r : Bool} (h : transact c n b a = .ok (r, d)) :
    d.alarms = a.alarms := by
  unfold transact at h
  split at h
  · cases h
  · rename_i a1 h1
    simp only at h
    split at h
    · cases h
    · rename_i a2 h2
      have prepared : a1.alarms = a.alarms := by
        cases b with
        | push => exact alarms_fillPush h1
        | pull => cases h1; rfl
      rw [alarms_validateTxn h, alarms_transfer h2, alarms_selectTx, prepared]

theorem alarms_commandTick {c : Cfg} {n : Nat} {plan : List TxBuf} {a b : Act} (h : commandTick c n plan a = .ok b) :
    b.alarms = a.alarms := by
  induction plan generalizing a with
  | nil => cases h; simp
  | cons buf rest ih =>
    unfold commandTick at h
    split at h
    · exact ih h
    · split at h
      · cases h
      · rename_i d hd
        rw [ih h, alarms_transact hd]
      · rename_i d hd
        cases h
        rw [alarms_tickFailed, alarms_transact hd]

theorem alarms_probeTick {c : Cfg} {n : Nat} {a b : Act} (h : probeTick c n a = .ok b) : b.alarms = a.alarms := by
  unfold probeTick at h
  split at h
  · cases h
  · rename_i a1 h1
    have h1 := alarms_transfer h1
    split at h
    · cases h
    · rename_i a2 h2
      cases h
      simpa [alarms_checkProbe h2] using h1
    · rename_i a2 h2
      cases h
      simpa [alarms_checkProbe h2] using h1

/-- A tick emits no `Safety` (R210). -/
theorem alarms_slotTick {c : Cfg} {n : Nat} {a b : Act} (h : slotTick c n a = .ok b) : b.alarms = a.alarms := by
  unfold slotTick at h
  split at h
  · exact alarms_probeTick h
  · exact alarms_commandTick h

end Machine
end Sys2Proof
end

