-- ==== Sys2Proof/Laws/PerInstr.lean ====
section
/-! SUPPORT. One law per instruction: the code words of a well-formed instruction are those of its row of
opcode_table.json, with the row's mask and match (30_encoding.md R108). -/

namespace Sys2Proof
namespace Laws

/-- A row of the opcode table, by its format. -/
inductive RowKind where
  /-- Format `OPSEL`: the code. -/
  | opsel (code : Byte)
  /-- Format `SKEY`: the mask and match pairs of the mnemonic's rows. -/
  | skey (rows : List (BitVec 6 × BitVec 6))
  | frame
  | reply
  | probe
  | probeReply
deriving DecidableEq, Repr

/-- The row of an instruction. -/
def rowOf (i : Instr) : RowKind :=
  match i with
  | .encI16 .. => .opsel 0x01
  | .encI32 .. => .opsel 0x02
  | .encF32 .. => .opsel 0x03
  | .decId .. => .opsel 0x04
  | .decI16 .. => .opsel 0x05
  | .decI32 .. => .opsel 0x06
  | .decF32 .. => .opsel 0x07
  | .rAdv .. => .skey [(0x31, 0x01)]
  | .rFin .. => .skey [(0x3F, 0x11)]
  | .rMiss .. => .skey [(0x31, 0x00), (0x3F, 0x10)]
  | .iProbe .. => .opsel 0x08
  | .iCheck .. => .opsel 0x09
  | .sId .. => .skey [(0x3C, 0x20)]
  | .sSel .. => .skey [(0x3E, 0x24)]
  | .sVal .. => .skey [(0x3E, 0x26), (0x3C, 0x28)]
  | .sAck .. => .skey [(0x3D, 0x2D)]
  | .sDesync .. => .skey [(0x3D, 0x2C)]
  | .sEnd .. => .skey [(0x3E, 0x30)]
  | .sDispatch .. => .opsel 0x10
  | .vSlot .. => .opsel 0x0A
  | .vTxn .. => .opsel 0x0B
  | .wInc => .opsel 0x0C
  | .wCheck => .opsel 0x0D
  | .tTick .. => .opsel 0x0E
  | .tRestart .. => .opsel 0x0F
  | .bXchg .. => .opsel 0x11
  | .reset .. => .opsel 0x12
  | .frame .. => .frame
  | .reply .. => .reply
  | .probe .. => .probe
  | .probeReply .. => .probeReply

/-- Code words belong to a row: a request with its code and its 13 bytes or more, a key that one of its patterns selects, nine
transmitted bytes that end in the constants of R90 or are the probe, nine received bytes. -/
def InRow (S : StartSeq) (r : RowKind) (c : Code) : Prop :=
  match r, c with
  | .opsel code, .opsel w => 13 ≤ w.length ∧ w.head? = some code
  | .skey rows, .skey key _ _ => ∃ x ∈ rows, key &&& x.1 = x.2
  | .frame, .sent _ w => w.length = 9 ∧ w.drop 6 = [0xFF, 0xFF, 0xFF] ∧ w ≠ S.bytes
  | .reply, .received _ w => w.length = 9
  | .probe, .sent _ w => w = S.bytes
  | .probeReply, .received _ w => w.length = 9 ∧ w.drop 1 = S.bytes.take 8
  | _, _ => False

/-- The code words of a well-formed instruction are those of its row. -/
def TableRow.Statement (i : Instr) : Prop := ∀ S : StartSeq, i.wf S = true → InRow S (rowOf i) (encode S i)

/-- A request has its 13 bytes, whatever its extension adds. -/
theorem toBytes_length (r : Request) : 13 ≤ r.toBytes.length := by simp [Request.toBytes]

/-- The keys of one row, checked for every position and every value of the `m` bit. -/
theorem keys_in_rows :
    (∀ pos : Fin 9, pos ≠ 8 → mkKey false pos true &&& 0x31 = 0x01) ∧
    (∀ pos : Fin 9, mkKey false pos false &&& 0x31 = 0x00 ∨ mkKey false pos false &&& 0x3F = 0x10) ∧
    (∀ (pos : Fin 9) (m : Bool), pos.val < 2 → mkKey true pos m &&& 0x3C = 0x20) ∧
    (∀ (pos : Fin 9) (m : Bool), 3 ≤ pos.val ∧ pos.val < 6 →
      mkKey true pos m &&& 0x3E = 0x26 ∨ mkKey true pos m &&& 0x3C = 0x28) ∧
    (∀ pos : Fin 9, 6 ≤ pos.val ∧ pos.val < 8 → mkKey true pos true &&& 0x3D = 0x2D) ∧
    (∀ pos : Fin 9, 6 ≤ pos.val ∧ pos.val < 8 → mkKey true pos false &&& 0x3D = 0x2C) ∧
    (∀ m : Bool, mkKey true 2 m &&& 0x3E = 0x24) ∧ ∀ m : Bool, mkKey true 8 m &&& 0x3E = 0x30 := by decide

theorem TableRow.encI16 (b : TxBuf) (s off : Nat) (id : Id) (v : BitVec 16) : TableRow.Statement (.encI16 b s off id v) := fun _ _ => ⟨toBytes_length _, rfl⟩

theorem TableRow.encI32 (b : TxBuf) (s off : Nat) (id : Id) (v : Word32) : TableRow.Statement (.encI32 b s off id v) := fun _ _ => ⟨toBytes_length _, rfl⟩

theorem TableRow.encF32 (b : TxBuf) (s off : Nat) (id : Id) (w : Word32) : TableRow.Statement (.encF32 b s off id w) := fun _ _ => ⟨toBytes_length _, rfl⟩

theorem TableRow.decId (b : Buf) (s off : Nat) : TableRow.Statement (.decId b s off) := fun _ _ => ⟨toBytes_length _, rfl⟩

theorem TableRow.decI16 (b : Buf) (s off : Nat) : TableRow.Statement (.decI16 b s off) := fun _ _ => ⟨toBytes_length _, rfl⟩

theorem TableRow.decI32 (b : Buf) (s off : Nat) : TableRow.Statement (.decI32 b s off) := fun _ _ => ⟨toBytes_length _, rfl⟩

theorem TableRow.decF32 (b : Buf) (s off : Nat) : TableRow.Statement (.decF32 b s off) := fun _ _ => ⟨toBytes_length _, rfl⟩

theorem TableRow.rAdv (p : Nat) (pos : Fin 9) (rx : Byte) : TableRow.Statement (.rAdv p pos rx) := fun _ h => by
  simp only [Instr.wf, decide_eq_true_eq] at h
  exact ⟨_, List.mem_singleton_self _, keys_in_rows.1 pos h.1⟩

theorem TableRow.rFin (p : Nat) (rx : Byte) : TableRow.Statement (.rFin p rx) := fun _ _ => ⟨_, List.mem_singleton_self _, by decide⟩

theorem TableRow.rMiss (p : Nat) (pos : Fin 9) (rx : Byte) : TableRow.Statement (.rMiss p pos rx) := fun _ _ => by
  rcases keys_in_rows.2.1 pos with h | h
  · exact ⟨(0x31, 0x00), by simp, h⟩
  · exact ⟨(0x3F, 0x10), by simp, h⟩

theorem TableRow.iProbe (s : Nat) : TableRow.Statement (.iProbe s) := fun _ _ => ⟨toBytes_length _, rfl⟩

theorem TableRow.iCheck (s : Nat) : TableRow.Statement (.iCheck s) := fun _ _ => ⟨toBytes_length _, rfl⟩

theorem TableRow.sId (p : Nat) (pos : Fin 9) (rx : Byte) : TableRow.Statement (.sId p pos rx) := fun _ h => by
  simp only [Instr.wf, decide_eq_true_eq] at h
  exact ⟨_, List.mem_singleton_self _, keys_in_rows.2.2.1 pos _ h⟩

theorem TableRow.sSel (p : Nat) (rx : Byte) : TableRow.Statement (.sSel p rx) := fun _ _ => ⟨_, List.mem_singleton_self _, keys_in_rows.2.2.2.2.2.2.1 _⟩

theorem TableRow.sVal (p : Nat) (pos : Fin 9) (rx : Byte) : TableRow.Statement (.sVal p pos rx) := fun _ h => by
  simp only [Instr.wf, decide_eq_true_eq] at h
  rcases keys_in_rows.2.2.2.1 pos (decide (rx = 0xFF)) h with h | h
  · exact ⟨(0x3E, 0x26), by simp, h⟩
  · exact ⟨(0x3C, 0x28), by simp, h⟩

theorem TableRow.sAck (p : Nat) (pos : Fin 9) (rx : Byte) : TableRow.Statement (.sAck p pos rx) := fun _ h => by
  simp only [Instr.wf, decide_eq_true_eq] at h
  exact ⟨_, List.mem_singleton_self _, keys_in_rows.2.2.2.2.1 pos h.1⟩

theorem TableRow.sDesync (p : Nat) (pos : Fin 9) (rx : Byte) : TableRow.Statement (.sDesync p pos rx) := fun _ h => by
  simp only [Instr.wf, decide_eq_true_eq] at h
  exact ⟨_, List.mem_singleton_self _, keys_in_rows.2.2.2.2.2.1 pos h.1⟩

theorem TableRow.sEnd (p : Nat) (rx : Byte) : TableRow.Statement (.sEnd p rx) := fun _ _ => ⟨_, List.mem_singleton_self _, keys_in_rows.2.2.2.2.2.2.2 _⟩

theorem TableRow.sDispatch (p : Nat) : TableRow.Statement (.sDispatch p) := fun _ _ => ⟨toBytes_length _, rfl⟩

theorem TableRow.vSlot (s k : Nat) : TableRow.Statement (.vSlot s k) := fun _ _ => ⟨toBytes_length _, rfl⟩

theorem TableRow.vTxn (s n : Nat) : TableRow.Statement (.vTxn s n) := fun _ _ => ⟨toBytes_length _, rfl⟩

theorem TableRow.wInc : TableRow.Statement (.wInc) := fun _ _ => ⟨toBytes_length _, rfl⟩

theorem TableRow.wCheck : TableRow.Statement (.wCheck) := fun _ _ => ⟨toBytes_length _, rfl⟩

theorem TableRow.tTick (s : Nat) : TableRow.Statement (.tTick s) := fun _ _ => ⟨toBytes_length _, rfl⟩

theorem TableRow.tRestart (s : Nat) : TableRow.Statement (.tRestart s) := fun _ _ => ⟨toBytes_length _, rfl⟩

theorem TableRow.bXchg (s i : Nat) : TableRow.Statement (.bXchg s i) := fun _ _ => ⟨toBytes_length _, rfl⟩

theorem TableRow.reset (t : ResetTarget) : TableRow.Statement (.reset t) := fun _ _ => ⟨toBytes_length _, rfl⟩

theorem TableRow.frame (s : Nat) (id : Pair) (v : Quad) : TableRow.Statement (.frame s id v) := fun _ h => by
  simp only [Instr.wf, decide_eq_true_eq] at h
  exact ⟨rfl, rfl, h⟩

theorem TableRow.reply (s : Nat) (prev : Byte) (id : Pair) (v : Quad) (ack : Pair) : TableRow.Statement (.reply s prev id v ack) := fun _ _ => rfl

theorem TableRow.probe (s : Nat) : TableRow.Statement (.probe s) := fun _ _ => rfl

theorem TableRow.probeReply (s : Nat) (prev : Byte) : TableRow.Statement (.probeReply s prev) := fun _ _ => ⟨rfl, rfl⟩

end Laws
end Sys2Proof
end

