-- ==== Sys2Proof/Laws/Request.lean ====
section
/-! SUPPORT. What the bytes of a request are: reading them gives the request back, whatever its numbers, and only the bytes
of a request are read as one (log 11; 10_state.md R48 "unbounded"). -/

namespace Sys2Proof

/-! ## The extension -/

/-- Reading an extension gives the numbers it was written for, however large they are. -/
theorem extensionOf_extensionBytes {fuel arg unit : Nat} (h : arg + unit ≤ fuel) :
    extensionOf (extensionBytes fuel arg unit) = .ok (arg, unit) := by
  induction fuel generalizing arg unit with
  | zero =>
    obtain ⟨rfl, rfl⟩ : arg = 0 ∧ unit = 0 := by omega
    rfl
  | succ fuel ih =>
    by_cases hz : arg = 0 ∧ unit = 0
    · simp [extensionBytes, extensionOf, hz]
    · have hne : ¬((BitVec.ofNat 8 arg = 0 ∧ BitVec.ofNat 8 unit = 0) ∧ arg / 2 ^ 8 = 0 ∧ unit / 2 ^ 8 = 0) := by
        rintro ⟨⟨ha, hu⟩, _, _⟩
        have ha := congrArg BitVec.toNat ha
        have hu := congrArg BitVec.toNat hu
        simp at ha hu
        omega
      have hrec : extensionOf (extensionBytes fuel (arg / 2 ^ 8) (unit / 2 ^ 8)) = .ok (arg / 2 ^ 8, unit / 2 ^ 8) :=
        ih (by omega)
      simp only [extensionBytes, if_neg hz, extensionOf, hrec, and_assoc] at hne ⊢
      rw [if_neg hne]
      simp only [BitVec.toNat_ofNat, Nat.mod_add_div]

/-- An extension that is read is the one written for its numbers: no two extensions stand for the same numbers. -/
theorem extensionBytes_extensionOf {w : List Byte} {arg unit : Nat} (h : extensionOf w = .ok (arg, unit)) {fuel : Nat}
    (hf : arg + unit ≤ fuel) : extensionBytes fuel arg unit = w := by
  induction w using extensionOf.induct generalizing arg unit fuel with
  | case1 =>
    obtain ⟨rfl, rfl⟩ : 0 = arg ∧ 0 = unit := by simpa [extensionOf] using h
    cases fuel <;> simp [extensionBytes]
  | case2 => simp [extensionOf] at h
  | case3 a u rest e he ih => simp [extensionOf, he] at h
  | case4 a u rest x y hxy hz ih => simp [extensionOf, hxy, hz] at h
  | case5 a u rest x y hxy hz ih =>
    simp only [extensionOf, hxy, if_neg hz, Except.ok.injEq, Prod.mk.injEq] at h
    obtain ⟨rfl, rfl⟩ := h
    have hpos : ¬(a.toNat + 2 ^ 8 * x = 0 ∧ u.toNat + 2 ^ 8 * y = 0) := by
      rintro ⟨h1, h2⟩
      exact hz ⟨BitVec.eq_of_toNat_eq (by simp; omega), BitVec.eq_of_toNat_eq (by simp; omega), by omega, by omega⟩
    have byte : ∀ (b : Byte) (n : Nat), BitVec.ofNat 8 (b.toNat + 2 ^ 8 * n) = b ∧ (b.toNat + 2 ^ 8 * n) / 2 ^ 8 = n :=
      fun b n => ⟨BitVec.eq_of_toNat_eq (by simp; omega), by omega⟩
    match fuel with
    | 0 => omega
    | fuel + 1 =>
      simp only [extensionBytes, if_neg hpos, (byte a x).1, (byte a x).2, (byte u y).1, (byte u y).2]
      rw [ih hxy (by omega)]

/-! ## Four bytes -/

/-- Four bytes of a number stand for it, what lies above 32 bits aside. -/
theorem natOfBytes4_ofNat (n : Nat) :
    natOfBytes4 (BitVec.ofNat 8 n) (BitVec.ofNat 8 (n / 2 ^ 8)) (BitVec.ofNat 8 (n / 2 ^ 16)) (BitVec.ofNat 8 (n / 2 ^ 24)) =
      n % 2 ^ 32 := by
  simp only [natOfBytes4, BitVec.toNat_ofNat]
  omega

/-- The bytes of the number that four bytes stand for are those bytes, whatever stands above 32 bits. -/
theorem bytes_natOfBytes4 (a b c d : Byte) (n : Nat) :
    BitVec.ofNat 8 (natOfBytes4 a b c d + 2 ^ 32 * n) = a ∧ BitVec.ofNat 8 ((natOfBytes4 a b c d + 2 ^ 32 * n) / 2 ^ 8) = b ∧
      BitVec.ofNat 8 ((natOfBytes4 a b c d + 2 ^ 32 * n) / 2 ^ 16) = c ∧
      BitVec.ofNat 8 ((natOfBytes4 a b c d + 2 ^ 32 * n) / 2 ^ 24) = d ∧ (natOfBytes4 a b c d + 2 ^ 32 * n) / 2 ^ 32 = n := by
  have := a.isLt
  have := b.isLt
  have := c.isLt
  have := d.isLt
  refine ⟨?_, ?_, ?_, ?_, ?_⟩ <;> (try apply BitVec.eq_of_toNat_eq) <;> simp only [natOfBytes4, BitVec.toNat_ofNat] <;> omega

/-! ## Requests -/

/-- Reading the bytes of a request gives it back, whatever its unit and its argument. -/
theorem Request.ofBytes_toBytes (r : Request) (hs : r.sel < 2 ^ 8) (hk : r.kind < 2 ^ 8) :
    Request.ofBytes r.toBytes = .ok r := by
  obtain ⟨sel, unit, kind, arg, id, value⟩ := r
  have hid : natOfBytes4 (BitVec.ofNat 8 id.toNat) (BitVec.ofNat 8 (id.toNat / 2 ^ 8)) 0 0 = id.toNat := by
    have := id.isLt
    have : (0 : Byte).toNat = 0 := rfl
    simp only [natOfBytes4, BitVec.toNat_ofNat, this]
    omega
  have hv : value.toNat % 2 ^ 32 = value.toNat := Nat.mod_eq_of_lt value.isLt
  simp only [Request.toBytes, Request.ofBytes, List.cons_append, List.nil_append, extensionOf_extensionBytes (Nat.le_refl _),
    natOfBytes4_ofNat, hid, hv, BitVec.toNat_ofNat, Nat.mod_add_div, Nat.mod_eq_of_lt hs, Nat.mod_eq_of_lt hk]
  simp only [BitVec.ofNat_toNat, BitVec.setWidth_eq]

/-- Bytes that are read as a request are the bytes of that request, and its selector and buffer kind are bytes. -/
theorem Request.toBytes_ofBytes {w : List Byte} {r : Request} (h : Request.ofBytes w = .ok r) :
    r.toBytes = w ∧ r.sel < 2 ^ 8 ∧ r.kind < 2 ^ 8 := by
  unfold Request.ofBytes at h
  split at h
  · rename_i sel unit kind a0 a1 a2 a3 i0 i1 v0 v1 v2 v3 rest
    split at h
    · cases h
    · rename_i x y hxy
      cases h
      obtain ⟨ha0, ha1, ha2, ha3, hx⟩ := bytes_natOfBytes4 a0 a1 a2 a3 x
      obtain ⟨hv0, hv1, hv2, hv3, -⟩ := bytes_natOfBytes4 v0 v1 v2 v3 0
      obtain ⟨hi0, hi1, -⟩ := bytes_natOfBytes4 i0 i1 0 0 0
      have hid : natOfBytes4 i0 i1 0 0 % 2 ^ 16 = natOfBytes4 i0 i1 0 0 := by
        simp only [natOfBytes4]; have := i0.isLt; have := i1.isLt; simp; omega
      have hval : natOfBytes4 v0 v1 v2 v3 % 2 ^ 32 = natOfBytes4 v0 v1 v2 v3 := by
        simp only [natOfBytes4]; have := v0.isLt; have := v1.isLt; have := v2.isLt; have := v3.isLt; omega
      have hu : (unit.toNat + 2 ^ 8 * y) / 2 ^ 8 = y ∧ BitVec.ofNat 8 (unit.toNat + 2 ^ 8 * y) = unit := by
        have := unit.isLt
        exact ⟨by omega, BitVec.eq_of_toNat_eq (by simp only [BitVec.toNat_ofNat]; omega)⟩
      refine ⟨?_, sel.isLt, kind.isLt⟩
      simp only [Nat.mul_zero, Nat.add_zero] at hv0 hv1 hv2 hv3 hi0 hi1
      simp only [Request.toBytes, BitVec.toNat_ofNat, hid, hval, ha0, ha1, ha2, ha3, hx, hu.1, hu.2, hv0, hv1, hv2, hv3, hi0,
        hi1, BitVec.ofNat_toNat, BitVec.setWidth_eq, extensionBytes_extensionOf hxy (Nat.le_refl _), List.cons_append,
        List.nil_append]
  · cases h

end Sys2Proof
end

