-- ==== Sys2Proof/Tests/Slice0.lean ====
section
/-! SUPPORT. The model's own tests: ill-formed terms that WellFormed refuses, words written out from the spec's encodings,
single steps whose results are the spec's vectors (95_test_vectors.md, named in the comments), and for every statement with
hypotheses a state and operands that meet them. -/

namespace Sys2Proof
namespace Tests

open Sys2Proof.Machine

/- The tests are checked one after the other: many kernel evaluations waiting at once would take a thread each. -/
set_option Elab.async false

/-! ## WellFormed smoke tests: one ill-formed term per check; a request has no check, its operands are unbounded (R48) -/

theorem test_wf_unbounded_operands :
    (Instr.encI32 .push 256 (2 ^ 32) 1 0).wf StartSeq.default = true ∧ (Instr.bXchg 256 (2 ^ 64)).wf StartSeq.default = true := by
  decide
theorem test_wf_rAdv_last : (Instr.rAdv 0 8 0xFF).wf StartSeq.default = false := by decide
theorem test_wf_rAdv_byte : (Instr.rAdv 0 3 0x55).wf StartSeq.default = false := by decide
theorem test_wf_rFin_byte : (Instr.rFin 0 0xFE).wf StartSeq.default = false := by decide
theorem test_wf_rMiss_byte : (Instr.rMiss 0 3 0x05).wf StartSeq.default = false := by decide
theorem test_wf_sId_position : (Instr.sId 0 2 0).wf StartSeq.default = false := by decide
theorem test_wf_sVal_position : (Instr.sVal 0 6 0).wf StartSeq.default = false := by decide
theorem test_wf_sAck_position : (Instr.sAck 0 5 0xFF).wf StartSeq.default = false := by decide
theorem test_wf_sAck_byte : (Instr.sAck 0 6 0x7F).wf StartSeq.default = false := by decide
theorem test_wf_sDesync_byte : (Instr.sDesync 0 6 0xFF).wf StartSeq.default = false := by decide
theorem test_wf_sDesync_position : (Instr.sDesync 0 8 0).wf StartSeq.default = false := by decide
/-- Frame bytes that are the probe's belong to the format PROBE, for a pattern that ends in `FF FF FF`. -/
theorem test_wf_frame_is_probe : (Instr.frame 0 ⟨1, 2⟩ ⟨3, 4, 5, 6⟩).wf ⟨1, 2, 3, 4, 5, 6, 0xFF, 0xFF⟩ = false := by decide
theorem test_wf_reply_is_probe_reply : (Instr.reply 0 0 ⟨8, 7⟩ ⟨6, 5, 4, 3⟩ ⟨2, 1⟩).wf StartSeq.default = false := by
  decide

/-! ## Decoding: words written out bit by bit (R104, R105, R90 to R93; operand bytes by log 11) -/

/-- A request with a unit and nothing else. -/
def bareRequest (sel unit : Byte) : Code := .opsel [sel, unit, 0, 0, 0, 0, 0, 0, 0, 0, 0, 0, 0]

/-- R122's example at offset 9 of the push buffer: id 2, value -120 = 0xFF88. -/
theorem test_decode_encI16 :
    decode StartSeq.default (.opsel [0b00001, 0, 0, 9, 0, 0, 0, 2, 0, 0x88, 0xFF, 0, 0]) = .ok (.encI16 .push 0 9 2 0xFF88) := by
  decide
/-- R123's example: id 1, value 1000 = 0x3E8, into the pull buffer of slot 1. -/
theorem test_decode_encI32 :
    decode StartSeq.default (.opsel [0b00010, 1, 1, 0, 0, 0, 0, 1, 0, 0xE8, 0x03, 0, 0]) = .ok (.encI32 .pull 1 0 1 1000) := by
  decide
/-- R124's example: id 5, 37.5 = 0x42160000. -/
theorem test_decode_encF32 :
    decode StartSeq.default (.opsel [0b00011, 0, 1, 0, 0, 0, 0, 5, 0, 0, 0, 0x16, 0x42]) =
      .ok (.encF32 .pull 0 0 5 0x42160000) := by decide
theorem test_decode_decId :
    decode StartSeq.default (.opsel [0b00100, 0, 0, 1, 0, 0, 0, 0, 0, 0, 0, 0, 0]) = .ok (.decId .rx 0 1) := by decide
theorem test_decode_decI16 :
    decode StartSeq.default (.opsel [0b00101, 0, 3, 0, 1, 0, 0, 0, 0, 0, 0, 0, 0]) = .ok (.decI16 .tx 0 256) := by decide
theorem test_decode_decI32 :
    decode StartSeq.default (.opsel [0b00110, 0, 1, 0, 0, 1, 0, 0, 0, 0, 0, 0, 0]) = .ok (.decI32 .push 0 65536) := by decide
theorem test_decode_decF32 :
    decode StartSeq.default (.opsel [0b00111, 0, 2, 0, 0, 0, 1, 0, 0, 0, 0, 0, 0]) = .ok (.decF32 .pull 0 16777216) := by
  decide
theorem test_decode_iProbe : decode StartSeq.default (bareRequest 0b01000 2) = .ok (.iProbe 2) := by decide
theorem test_decode_iCheck : decode StartSeq.default (bareRequest 0b01001 1) = .ok (.iCheck 1) := by decide
theorem test_decode_vSlot :
    decode StartSeq.default (.opsel [0b01010, 1, 0, 3, 0, 0, 0, 0, 0, 0, 0, 0, 0]) = .ok (.vSlot 1 3) := by decide
theorem test_decode_vTxn :
    decode StartSeq.default (.opsel [0b01011, 0, 0, 2, 0, 0, 0, 0, 0, 0, 0, 0, 0]) = .ok (.vTxn 0 2) := by decide
theorem test_decode_wInc : decode StartSeq.default (bareRequest 0b01100 0) = .ok .wInc := by decide
theorem test_decode_wCheck : decode StartSeq.default (bareRequest 0b01101 0) = .ok .wCheck := by decide
theorem test_decode_tTick : decode StartSeq.default (bareRequest 0b01110 1) = .ok (.tTick 1) := by decide
theorem test_decode_tRestart : decode StartSeq.default (bareRequest 0b01111 1) = .ok (.tRestart 1) := by decide
theorem test_decode_sDispatch : decode StartSeq.default (bareRequest 0b10000 1) = .ok (.sDispatch 1) := by decide
theorem test_decode_bXchg :
    decode StartSeq.default (.opsel [0b10001, 0, 0, 8, 0, 0, 0, 0, 0, 0, 0, 0, 0]) = .ok (.bXchg 0 8) := by decide
theorem test_decode_reset_all : decode StartSeq.default (bareRequest 0b10010 0) = .ok (.reset .all) := by decide
theorem test_decode_reset_one : decode StartSeq.default (bareRequest 0b10010 1) = .ok (.reset (.responder 0)) := by decide
/-- T10, first row: `0 0011 1`. -/
theorem test_decode_rAdv : decode StartSeq.default (.skey 0b000111 0 0x05) = .ok (.rAdv 0 3 0x05) := by decide
/-- T10, fourth row: `0 1000 1`. -/
theorem test_decode_rFin : decode StartSeq.default (.skey 0b010001 0 0xFF) = .ok (.rFin 0 0xFF) := by decide
/-- T10, second and fifth rows: `0 0011 0`, `0 1000 0`. -/
theorem test_decode_rMiss :
    decode StartSeq.default (.skey 0b000110 0 0x55) = .ok (.rMiss 0 3 0x55) ∧
      decode StartSeq.default (.skey 0b010000 0 0xFE) = .ok (.rMiss 0 8 0xFE) := by decide
theorem test_decode_sId : decode StartSeq.default (.skey 0b100010 0 0x02) = .ok (.sId 0 1 0x02) := by decide
theorem test_decode_sSel : decode StartSeq.default (.skey 0b100101 0 0xFF) = .ok (.sSel 0 0xFF) := by decide
theorem test_decode_sVal :
    decode StartSeq.default (.skey 0b100110 0 0x88) = .ok (.sVal 0 3 0x88) ∧
      decode StartSeq.default (.skey 0b101011 0 0xFF) = .ok (.sVal 0 5 0xFF) := by decide
theorem test_decode_sAck : decode StartSeq.default (.skey 0b101111 0 0xFF) = .ok (.sAck 0 7 0xFF) := by decide
theorem test_decode_sDesync : decode StartSeq.default (.skey 0b101100 0 0x7F) = .ok (.sDesync 0 6 0x7F) := by decide
theorem test_decode_sEnd : decode StartSeq.default (.skey 0b110000 0 0x08) = .ok (.sEnd 0 0x08) := by decide
/-- The frame of T17. -/
theorem test_decode_frame :
    decode StartSeq.default (.sent 0 [0x02, 0x00, 0x88, 0xFF, 0x00, 0x00, 0xFF, 0xFF, 0xFF]) =
      .ok (.frame 0 ⟨0x02, 0x00⟩ ⟨0x88, 0xFF, 0x00, 0x00⟩) := by decide
/-- The reply of T17. -/
theorem test_decode_reply :
    decode StartSeq.default (.received 0 [0x00, 0x02, 0x00, 0x88, 0xFF, 0x00, 0x00, 0x02, 0x00]) =
      .ok (.reply 0 0x00 ⟨0x02, 0x00⟩ ⟨0x88, 0xFF, 0x00, 0x00⟩ ⟨0x02, 0x00⟩) := by decide
theorem test_decode_probe :
    decode StartSeq.default (.sent 0 [0x08, 0x07, 0x06, 0x05, 0x04, 0x03, 0x02, 0x01, 0xFF]) = .ok (.probe 0) := by decide
/-- The reply of T1. -/
theorem test_decode_probeReply :
    decode StartSeq.default (.received 0 [0x00, 0x08, 0x07, 0x06, 0x05, 0x04, 0x03, 0x02, 0x01]) = .ok (.probeReply 0 0x00) := by
  decide
/-- R105, U14: a key with `pppp = 9` is refused. -/
theorem test_decode_illegal_key :
    decode StartSeq.default (.skey 0b010010 0 0x00) = .error (.illegalKey 0b010010) := by decide
/-- Selector bytes that no row of R104 has are refused by name. -/
theorem test_decode_reserved_opsel :
    decode StartSeq.default (bareRequest 0x13 0) = .error (.reservedOpsel 0x13) ∧
      decode StartSeq.default (bareRequest 0x00 0) = .error (.reservedOpsel 0x00) := by decide
theorem test_decode_truncated :
    decode StartSeq.default (.opsel [0x0C]) = .error .truncated ∧
      decode StartSeq.default (.opsel [0x0C, 0, 0, 0, 0, 0, 0, 0, 0, 0, 0, 0, 0, 0]) = .error .truncated := by decide
/-- R48, log 11: slot 300 = 0x012C and offset 2^40 + 5 go beyond the 13 bytes: two pairs, of an offset and a slot byte each. -/
theorem test_decode_wide_operands :
    decode StartSeq.default (.opsel [0x04, 0x2C, 0, 5, 0, 0, 0, 0, 0, 0, 0, 0, 0, 0x00, 0x01, 0x01, 0x00]) =
      .ok (.decId .rx 300 (2 ^ 40 + 5)) ∧
    encode StartSeq.default (.decId .rx 300 (2 ^ 40 + 5)) =
      .opsel [0x04, 0x2C, 0, 5, 0, 0, 0, 0, 0, 0, 0, 0, 0, 0x00, 0x01, 0x01, 0x00] := by decide
/-- An extension that extends nothing is no second form of a request (log 11). -/
theorem test_decode_trailing :
    decode StartSeq.default (.opsel [0x04, 0, 0, 5, 0, 0, 0, 0, 0, 0, 0, 0, 0, 0, 0]) = .error .trailing ∧
      decode StartSeq.default (.opsel [0x04, 0, 0, 5, 0, 0, 0, 0, 0, 0, 0, 0, 0, 1, 0, 0, 0]) = .error .trailing := by decide

/-- The host's words: a request, a key, a frame, the probe. -/
theorem test_table_words :
    decodeTableWord 8 0x0C = some .wInc ∧ decodeTableWord 8 0x2D = some (.sAck 0 6 0xFF) ∧
      decodeTableWord 72 0x01020304050607FFFFFF = some (.frame 0 ⟨0x02, 0x03⟩ ⟨0x04, 0x05, 0x06, 0x07⟩) ∧
      decodeTableWord 72 0x0807060504030201FF = some (.probe 0) := by decide

/-! ## Fixtures -/

/-- The state after an outcome, if it is a next state. -/
def nextOf (o : Host.Outcome State Fault Refusal) : Option State :=
  match o with
  | .next t => some t
  | _ => none

/-- The fault of an outcome. -/
def faultOf (o : Host.Outcome State Fault Refusal) : Option Fault :=
  match o with
  | .fault e => some e
  | _ => none

/-- The refusal of an outcome. -/
def refusalOf (o : Host.Outcome State Fault Refusal) : Option Refusal :=
  match o with
  | .refused r => some r
  | _ => none

/-- The first `n` bytes of a memory. -/
def bytesOf (m : Memory) (n : Nat) : List Byte := (List.range n).map m.read

/-- The link of `State.reset`. -/
def link0 : Link :=
  { slotCfg := SlotCfg.default
    respCfg := RespCfg.default
    slot := Slot.reset Cfg.default SlotCfg.default
    resp := Responder.reset ⟨0, 0⟩ ⟨0, 0, 0, 0⟩
    env := Inputs.none }

/-- `State.reset` with another link, and the boot done. -/
def stateOf (l : Link) : State := { State.reset with links := [l], events := [] }

/-- An unsynchronized responder at `sync_pos`. -/
def probing (pos : Fin 9) : Link := { link0 with resp := { link0.resp with syncPos := pos } }

/-- A responder inside a frame with these staged bytes. -/
def framing (pos : Fin 9) (idb : Pair) (vb : Quad) (isPull : Bool) : Link :=
  { link0 with resp := { link0.resp with sSync := .synchronized, framePos := pos, idBytes := idb, valueBytes := vb,
                                         isPull := isPull } }

/-- Both sides synchronized, as at the end of T1; `bus` and `answers` are the environment's choices. -/
def synced (bus : List Disturbance) (answers : List Quad) : Link :=
  { link0 with
    slot := { link0.slot with mSync := .synchronized }
    resp := { link0.resp with sSync := .synchronized }
    env := { Inputs.none with bus := bus, answers := answers } }

/-- A link whose transaction was these transmitted and received bytes. -/
def exchanged (tx rx : List Byte) : Link :=
  { link0 with slot := { link0.slot with mSync := .synchronized, tx := Memory.ofBytes tx, rxBuf := Memory.ofBytes rx } }

/-- What one instruction leaves of the link, with its effects and result. -/
def after (i : Instr) (l : Link) : Option (Link × List Effect × Result) :=
  match nextOf (exec i (stateOf l)) with
  | some t => (t.links[0]?).map (fun l' => (l', t.effects, t.result))
  | none => none

/-! ## Single steps: the spec's vectors -/

/-- T2: `ENC.I16 buf, 0, 2, -120` in either byte order. -/
theorem test_encI16 :
    (after (.encI16 .push 0 0 2 0xFF88) link0).map (fun x => bytesOf x.1.slot.pushBuf 9) =
      some [0x02, 0x00, 0x88, 0xFF, 0x00, 0x00, 0xFF, 0xFF, 0xFF] ∧
    (nextOf (exec (.encI16 .push 0 0 2 0xFF88) { State.reset with cfg := { Cfg.default with byteOrder := .be } })).map
        (fun t => t.links.map (fun l => bytesOf l.slot.pushBuf 9)) =
      some [[0x00, 0x02, 0xFF, 0x88, 0x00, 0x00, 0xFF, 0xFF, 0xFF]] := by decide +kernel

/-- T2: bytes 4 and 5 of a buffer of `AA` are not written; T5: one byte too far faults. -/
theorem test_encI16_unwritten_and_bounds :
    (after (.encI16 .push 0 0 3 0xFFFF)
        { link0 with slot := { link0.slot with pushBuf := Memory.ofBytes (List.replicate 9 0xAA) } }).map
        (fun x => bytesOf x.1.slot.pushBuf 9) = some [0x03, 0x00, 0xFF, 0xFF, 0xAA, 0xAA, 0xFF, 0xFF, 0xFF] ∧
    faultOf (exec (.encI16 .push 0 1 2 0xFF88) State.reset) = some (.precondition (.push 0) 1 9) := by decide +kernel

/-- T3: `ENC.I32 buf, 9, 1, 1000` leaves bytes 0 to 8 alone. -/
theorem test_encI32 :
    (after (.encI32 .push 0 9 1 1000) { link0 with slot := { link0.slot with pushBuf := Memory.zero 18 } }).map
        (fun x => bytesOf x.1.slot.pushBuf 18) =
      some [0, 0, 0, 0, 0, 0, 0, 0, 0, 0x01, 0x00, 0xE8, 0x03, 0x00, 0x00, 0xFF, 0xFF, 0xFF] := by decide +kernel

/-- T4: the NaN with payload 1 keeps it. -/
theorem test_encF32 :
    (after (.encF32 .pull 0 0 5 0x7FC00001) link0).map (fun x => bytesOf x.1.slot.pullBuf 9) =
      some [0x05, 0x00, 0x01, 0x00, 0xC0, 0x7F, 0xFF, 0xFF, 0xFF] := by decide +kernel

/-- T2: `DEC.ID` on `08 07` gives 1800 (LE); T5: on one byte it faults. -/
theorem test_decId :
    (after (.decId .rx 0 0) (exchanged [] [0x08, 0x07])).map (fun x => x.2.2) = some (.id 1800) ∧
      faultOf (exec (.decId .rx 0 0) (stateOf (exchanged [] [0x08]))) = some (.precondition (.rx 0) 0 2) := by
  decide +kernel

/-- T2: `DEC.I16` does not read bytes 4 and 5. -/
theorem test_decI16 :
    (after (.decI16 .rx 0 0) (exchanged [] [0x02, 0x00, 0x88, 0xFF, 0x12, 0x34, 0xFF, 0xFF, 0xFF])).map (fun x => x.2.2) =
      some (.value (.i16 (-120))) := by decide +kernel

/-- T3: `DEC.I32` on the same frame gives the pattern `0x3412FF88`. -/
theorem test_decI32 :
    (after (.decI32 .rx 0 0) (exchanged [] [0x02, 0x00, 0x88, 0xFF, 0x12, 0x34, 0xFF, 0xFF, 0xFF])).map (fun x => x.2.2) =
      some (.value (.i32 0x3412FF88)) := by decide +kernel

/-- T4: `DEC.F32 rx, 1` reads `rx[3..7)`. -/
theorem test_decF32 :
    (after (.decF32 .rx 0 1) (exchanged [] [0x00, 0x05, 0x00, 0x00, 0x00, 0x16, 0x42, 0x05, 0x00])).map (fun x => x.2.2) =
      some (.value (.f32 0x42160000)) := by decide +kernel

/-- T10: `(0, 3)` on `05`. -/
theorem test_rAdv :
    (after (.rAdv 0 3 0x05) (probing 3)).map (fun x => (x.1.resp.syncPos, x.1.resp.sSync, x.2.2)) =
      some (4, .unsynchronized, .reply 0x05) := by decide +kernel

/-- T10: `(0, 8)` on `FF`. -/
theorem test_rFin :
    (after (.rFin 0 0xFF) (probing 8)).map (fun x => (x.1.resp.syncPos, x.1.resp.sSync, x.2.2)) =
      some (0, .synchronized, .reply 0x00) := by decide +kernel

/-- T10: `(0, 2)` on `08`, which is not taken as a new start. -/
theorem test_rMiss :
    (after (.rMiss 0 2 0x08) (probing 2)).map (fun x => (x.1.resp.syncPos, x.1.resp.sSync, x.2.2)) =
      some (0, .unsynchronized, .reply 0x00) := by decide +kernel

/-- R146. -/
theorem test_iProbe :
    (after (.iProbe 0) { link0 with slot := { link0.slot with tx := Memory.zero 0 } }).map
        (fun x => bytesOf x.1.slot.tx 9) = some [8, 7, 6, 5, 4, 3, 2, 1, 0xFF] := by decide +kernel

/-- T15, second and fourth rows. -/
theorem test_iCheck :
    (after (.iCheck 0) { link0 with slot := { link0.slot with rxBuf := Memory.ofBytes [0xA5, 8, 7, 6, 5, 4, 3, 2, 1] } }).map
        (fun x => (x.1.slot.mSync, x.2.2)) = some (.synchronized, .check true) ∧
    (after (.iCheck 0) { link0 with slot := { link0.slot with rxBuf := Memory.ofBytes [0, 8, 7, 6, 5, 4, 3, 2, 0xFF] } }).map
        (fun x => (x.1.slot.mSync, x.2.2)) = some (.unsynchronized, .check false) := by decide +kernel

/-- R162's example. -/
theorem test_sId :
    (after (.sId 0 0 0x02) (framing 0 ⟨0, 0⟩ ⟨0, 0, 0, 0⟩ false)).map
        (fun x => (x.1.resp.idBytes, x.1.resp.framePos, x.2.2)) = some (⟨0x02, 0⟩, 1, .reply 0x02) := by decide +kernel

/-- R164's first example: id 5 is claimed and the source answers `00 00 16 42`. -/
theorem test_sSel_pull :
    (after (.sSel 0 0x00)
        { framing 2 ⟨0x05, 0⟩ ⟨0, 0, 0, 0⟩ false with env := { Inputs.none with answers := [⟨0, 0, 0x16, 0x42⟩] } }).map
        (fun x => (x.1.resp.valueBytes, x.1.resp.isPull, x.1.resp.framePos, x.2)) =
      some (⟨0, 0, 0x16, 0x42⟩, true, 3, [.pullQuery 0 5], .reply 0x00) := by decide +kernel

/-- R164's second example: id 2 is not claimed. -/
theorem test_sSel_push :
    (after (.sSel 0 0x88) (framing 2 ⟨0x02, 0⟩ ⟨0, 0, 0, 0⟩ true)).map
        (fun x => (x.1.resp.valueBytes, x.1.resp.isPull, x.1.resp.framePos, x.2)) =
      some (⟨0x88, 0, 0, 0⟩, false, 3, [], .reply 0x88) := by decide +kernel

/-- R165's two examples. -/
theorem test_sVal :
    (after (.sVal 0 4 0x00) (framing 4 ⟨0x05, 0⟩ ⟨0, 0, 0x16, 0x42⟩ true)).map (fun x => (x.1.resp.framePos, x.2.2)) =
      some (5, .reply 0x16) ∧
    (after (.sVal 0 3 0xFF) (framing 3 ⟨0x02, 0⟩ ⟨0x88, 0, 0, 0⟩ false)).map
        (fun x => (x.1.resp.valueBytes, x.1.resp.framePos, x.2.2)) = some (⟨0x88, 0xFF, 0, 0⟩, 4, .reply 0xFF) := by
  decide +kernel

/-- R173's example, second ack-id probe. -/
theorem test_sAck :
    (after (.sAck 0 7 0xFF) (framing 7 ⟨0x02, 0x01⟩ ⟨0, 0, 0, 0⟩ false)).map (fun x => (x.1.resp.framePos, x.2.2)) =
      some (8, .reply 0x01) := by decide +kernel

/-- T19: `7F` at `frame_pos = 6`. -/
theorem test_sDesync :
    (after (.sDesync 0 6 0x7F) (framing 6 ⟨0x02, 0⟩ ⟨0x88, 0xFF, 0, 0⟩ false)).map
        (fun x => (x.1.resp.framePos, x.1.resp.sSync, x.1.resp.idBytes, x.2)) =
      some (0, .unsynchronized, ⟨0x02, 0⟩, [], .reply 0x00) := by decide +kernel

/-- T17, last row, with a Sentinel that is not `FF` (T22). -/
theorem test_sEnd :
    (after (.sEnd 0 0x08) (framing 8 ⟨0x02, 0⟩ ⟨0x88, 0xFF, 0, 0⟩ false)).map (fun x => (x.1.resp.framePos, x.2)) =
      some (0, [.frameComplete 0 ⟨⟨0x02, 0⟩, ⟨0x88, 0xFF, 0, 0⟩, false⟩], .reply 0x00) := by decide +kernel

/-- R176's example: the push of T17; a pull delivers nothing. -/
theorem test_sDispatch :
    (after (.sDispatch 0) { link0 with resp := { link0.resp with
        pending := [⟨⟨0x02, 0⟩, ⟨0x88, 0xFF, 0, 0⟩, false⟩, ⟨⟨0x05, 0⟩, ⟨0, 0, 0x16, 0x42⟩, true⟩] } }).map
        (fun x => (x.1.resp.pending.length, x.2.1)) = some (1, [.pushDeliver 0 2 ⟨0x88, 0xFF, 0, 0⟩ true]) ∧
    (after (.sDispatch 0) { link0 with resp := { link0.resp with
        pending := [⟨⟨0x05, 0⟩, ⟨0, 0, 0x16, 0x42⟩, true⟩] } }).map (fun x => (x.1.resp.pending.length, x.2.1)) =
      some (0, []) := by decide +kernel

/-- R193's example, T17. -/
theorem test_vSlot_push :
    (after (.vSlot 0 0) (exchanged [2, 0, 0x88, 0xFF, 0, 0, 0xFF, 0xFF, 0xFF] [0, 2, 0, 0x88, 0xFF, 0, 0, 2, 0])).map
        (fun x => x.2) = some ([], .verdict .okPush) := by decide +kernel

/-- T18: the pull of 37.5, delivered exactly once. -/
theorem test_vSlot_pull :
    (after (.vSlot 0 0) (exchanged [5, 0, 0, 0, 0, 0, 0xFF, 0xFF, 0xFF] [0, 5, 0, 0, 0, 0x16, 0x42, 5, 0])).map
        (fun x => x.2) = some ([.pullDeliver 0 5 (.f32 0x42160000)], .verdict (.okPull (.f32 0x42160000))) := by
  decide +kernel

/-- T19: the transaction fails and only `m_sync[0]` is cleared. -/
theorem test_vTxn_fail :
    (after (.vTxn 0 1) (exchanged [2, 0, 0x88, 0xFF, 0, 0, 0xFF, 0xFF, 0xFF] [0, 2, 0, 0x88, 0xFF, 0, 0, 0, 0])).map
        (fun x => (x.1.slot.mSync, x.2)) = some (.unsynchronized, [], .txn false) := by decide +kernel

/-- R191: no frame slots, nothing touched. -/
theorem test_vTxn_empty :
    (after (.vTxn 0 0) (exchanged [] [])).map (fun x => (x.1.slot.mSync, x.2)) = some (.synchronized, [], .txn true) := by
  decide +kernel

/-- R212: the example, and saturation at width 2. -/
theorem test_wInc :
    (nextOf (exec .wInc { State.reset with wdCounter := 4 })).map State.wdCounter = some 5 ∧
      (nextOf (exec .wInc { State.reset with wdCounter := 3, cfg := { Cfg.default with wdWidth := 2 } })).map
        State.wdCounter = some 3 := by decide +kernel

/-- T27, T28: threshold 3, counts 2 and 3. -/
theorem test_wCheck :
    (nextOf (exec .wCheck { State.reset with wdCounter := 2 })).map (fun t => (t.wdState, t.wdCounter, t.effects)) =
      some (.tripped, 0, [.safety]) ∧
    (nextOf (exec .wCheck { State.reset with wdCounter := 3, wdState := .tripped })).map
        (fun t => (t.wdState, t.wdCounter, t.effects)) = some (.armed, 0, []) := by decide +kernel

/-- T1 as a tick: both sides synchronized, `rx_buf[0] = 00 08 07 06 05 04 03 02 01`. -/
theorem test_tTick_probe :
    (after (.tTick 0) link0).map (fun x => (x.1.slot.mSync, x.1.resp.sSync, bytesOf x.1.slot.rxBuf 9)) =
      some (.synchronized, .synchronized, [0, 8, 7, 6, 5, 4, 3, 2, 1]) := by decide +kernel

/-- T17 as a tick with plan `push`: value -120 supplied, the frame completed and accepted. -/
theorem test_tTick_push :
    (after (.tTick 0)
        { synced [] [] with
          slotCfg := { SlotCfg.default with tickPlan := [.push] }
          env := { Inputs.none with values := [0xFF88] } }).map
        (fun x => (x.1.slot.mSync, x.2.1, bytesOf x.1.slot.rxBuf 9)) =
      some (.synchronized, [.frameComplete 0 ⟨⟨2, 0⟩, ⟨0x88, 0xFF, 0, 0⟩, false⟩], [0, 2, 0, 0x88, 0xFF, 0, 0, 2, 0]) := by
  decide +kernel

/-- R231. -/
theorem test_tRestart :
    (after (.tRestart 0) { synced [] [] with slot := { (synced [] []).slot with failRun := 2 } }).map
        (fun x => (x.1.slot.mSync, x.1.slot.failRun, x.1.slot.restartLine, x.1.resp.sSync, x.2.1)) =
      some (.unsynchronized, 0, false, .unsynchronized, [.restartPulse 0]) := by decide +kernel

/-- T1, exchange 1: `07` goes out, the reply to `08` comes in. -/
theorem test_bXchg :
    (after (.bXchg 0 1) { probing 1 with resp := { (probing 1).resp with txReg := 0x08 } }).map
        (fun x => (x.1.slot.rxBuf.read 1, x.1.resp.txReg, x.1.resp.syncPos)) = some (0x08, 0x07, 2) := by decide +kernel

/-- T12, exchange 3: the bus delivers `55` in place of `05`. -/
theorem test_bXchg_corrupted :
    (after (.bXchg 0 3)
        { probing 3 with env := { Inputs.none with bus := [{ Disturbance.ideal with toResponder := some 0x55 }] } }).map
        (fun x => (x.1.resp.txReg, x.1.resp.syncPos)) = some (0x00, 0) := by decide +kernel

/-- R77, D17: between two added byte clocks the main loop delivers the frame that the first of them has completed. -/
theorem test_dispatch_between_added_clocks :
    let d : Disturbance := { Disturbance.ideal with dropClock := true, extraClocks := [⟨[], 0xFF⟩, ⟨[.dispatch], 2⟩] }
    let l := { framing 8 ⟨2, 0⟩ ⟨0x88, 0xFF, 0, 0⟩ false with env := { Inputs.none with bus := [d] } }
    (after (.bXchg 0 0) l).map (fun x => (x.1.resp.pending.length, x.1.resp.framePos, x.1.resp.idBytes.b0)) =
      some (0, 1, 2) := by decide +kernel

/-- R283. -/
theorem test_reset_responder :
    (after (.reset (.responder 0)) (synced [] [])).map (fun x => (x.1.resp.sSync, x.1.slot.mSync)) =
      some (.unsynchronized, .synchronized) := by decide +kernel

/-- R281. -/
theorem test_reset_all :
    (nextOf (exec (.reset .all) { stateOf (synced [] []) with wdCounter := 7, wdState := .tripped })).map
        (fun t => (t.wdCounter, t.wdState, t.links.map (fun l => (l.resp.sSync, l.slot.mSync)))) =
      some (0, .armed, [(.unsynchronized, .unsynchronized)]) := by decide +kernel

/-- R298, policy "every failure": a value byte corrupted on the way to the responder has been delivered to the push sink when
the pulse discards what is pending. -/
theorem test_dispatch_inside_tick :
    let l := { synced [] [] with
               slotCfg := { SlotCfg.default with tickPlan := [.push] }
               env := { Inputs.none with
                 values := [0xFF88]
                 bus := [.ideal, .ideal, { Disturbance.ideal with toResponder := some 0x77 }]
                 turns := List.replicate 9 [] ++ [[.dispatch]] } }
    (nextOf (exec (.tTick 0) { stateOf l with cfg := { Cfg.default with restartPolicy := .everyFailure } })).map
        (fun t => (t.effects, t.links.map (fun l => l.resp.pending.length))) =
      some ([.frameComplete 0 ⟨⟨2, 0⟩, ⟨0x77, 0xFF, 0, 0⟩, false⟩, .pushDeliver 0 2 ⟨0x77, 0xFF, 0, 0⟩ true,
        .restartPulse 0], [0]) := by decide +kernel

/-- P1: from the reset state the boot encodes `pull_buf[0] = 05 00 00 00 00 00 FF FF FF`; then nothing is left to do. -/
theorem test_boot :
    (nextOf (step State.reset)).map (fun t => (t.events, t.links.map (fun l => bytesOf l.slot.pullBuf 9))) =
      some ([], [[5, 0, 0, 0, 0, 0, 0xFF, 0xFF, 0xFF]]) := by decide +kernel

/-- T17 as the format FRAME. -/
theorem test_frame :
    (after (.frame 0 ⟨2, 0⟩ ⟨0x88, 0xFF, 0, 0⟩) (synced [] [])).map (fun x => bytesOf x.1.slot.rxBuf 9) =
      some [0, 2, 0, 0x88, 0xFF, 0, 0, 2, 0] := by decide +kernel

/-- T14 as the format PROBE: a synchronized, idle responder desynchronizes. -/
theorem test_probe :
    (after (.probe 0) (synced [] [])).map (fun x => (x.1.resp.sSync, bytesOf x.1.slot.rxBuf 9)) =
      some (.unsynchronized, [0, 8, 7, 6, 5, 4, 3, 0, 0]) := by decide +kernel

/-- R91 and R93: the received bytes; the responder has taken the byte steps of the probe that goes out. -/
theorem test_received :
    (after (.reply 0 0 ⟨2, 0⟩ ⟨0x88, 0xFF, 0, 0⟩ ⟨2, 0⟩) link0).map (fun x => bytesOf x.1.slot.rxBuf 9) =
      some [0, 2, 0, 0x88, 0xFF, 0, 0, 2, 0] ∧
    (after (.probeReply 0 0xA5) link0).map (fun x => (bytesOf x.1.slot.rxBuf 9, x.1.resp.sSync)) =
      some ([0xA5, 8, 7, 6, 5, 4, 3, 2, 1], .synchronized) := by
  decide +kernel

/-- The host's word for `W.INC` is what the next step runs. -/
theorem test_withFetchWord : (nextOf (step (State.reset.withFetchWord 8 0x0C))).map State.wdCounter = some 1 := by
  decide +kernel

/-! ## Witnesses: for every statement with hypotheses, a state and operands that meet them, clause by clause

The name after `witness_` is the statement's. -/

/-- A next state with a decidable property, from the evaluated outcome. -/
theorem next_of_any {o : Host.Outcome State Fault Refusal} {P : State → Prop} [DecidablePred P]
    (h : (nextOf o).any (fun t => decide (P t)) = true) : ∃ t, o = .next t ∧ P t := by
  cases o with
  | next t => exact ⟨t, rfl, by simpa [nextOf] using h⟩
  | fault e => simp [nextOf] at h
  | refused r => simp [nextOf] at h

/-- `link0` with its restart line asserted. -/
def held : Link := { link0 with slot := { link0.slot with restartLine := true } }

/-- A state with one event to come. -/
def withEvent (e : Event) (l : Link) : State := { stateOf l with events := [e] }

theorem witness_StepRunsDecodedInstruction :
    (∃ w, (withEvent (.request w) link0).events = .request w :: [] ∧
      decode StartSeq.default (.opsel w) = .ok .wInc ∧ callRefusal .wInc (withEvent (.request w) link0) = none) ∧
    ((withEvent (.byteClock 0 8) link0).links[0]? = some link0 ∧ link0.slot.restartLine = false ∧
      decode StartSeq.default (.skey (skey link0.respCfg link0.resp 8) 0 8) = .ok (.rAdv 0 0 8)) ∧
    decode StartSeq.default (.sent 0 [8, 7, 6, 5, 4, 3, 2, 1, 0xFF]) = .ok (.probe 0) ∧
    decode StartSeq.default (.received 0 [0, 8, 7, 6, 5, 4, 3, 2, 1]) = .ok (.probeReply 0 0) ∧
    [1, 0].min? = some 0 ∧ [1, 0].erase 0 ≠ [] ∧ [0].min? = some 0 ∧ [0].erase 0 = [] ∧
    ((withEvent (.byteClock 0 8) held).links[0]? = some held ∧ held.slot.restartLine = true) ∧
    (State.reset.events = [.bootEncode 0 0] ∧ State.reset.links = [link0] ∧ link0.slotCfg.pullCmds[0]? = some 5) :=
  ⟨⟨[0x0C, 0, 0, 0, 0, 0, 0, 0, 0, 0, 0, 0, 0], by decide +kernel⟩, by decide +kernel⟩

theorem witness_DecodeInvertsEncode :
    (Instr.encI16 .pull 256 (2 ^ 32) 0xFFFF 0x8000).wf StartSeq.default = true ∧
      (Instr.rMiss 7 8 0xFE).wf StartSeq.default = true ∧ (Instr.reset (.responder 255)).wf StartSeq.default = true := by
  decide +kernel

theorem witness_EncodeInvertsDecode :
    decode StartSeq.default (.opsel [0x01, 255, 1, 255, 255, 255, 255, 255, 255, 0, 0x80, 0, 0]) =
      .ok (.encI16 .pull 255 (2 ^ 32 - 1) 0xFFFF 0x8000) := by decide

theorem witness_ByteClockSelectsByTable :
    ((probing 7).resp.sSync = .unsynchronized ∧ (0x01 : Byte) = StartSeq.default.get 7 ∧ (probing 7).resp.syncPos ≠ 8) ∧
    ((probing 8).resp.sSync = .unsynchronized ∧ (0xFF : Byte) = StartSeq.default.get 8 ∧ (probing 8).resp.syncPos = 8) ∧
    (0xFE : Byte) ≠ StartSeq.default.get 8 ∧
    (∀ pos : Fin 9, (framing pos ⟨0, 0⟩ ⟨0, 0, 0, 0⟩ false).resp.sSync = .synchronized ∧
      (framing pos ⟨0, 0⟩ ⟨0, 0, 0, 0⟩ false).resp.framePos = pos) ∧
    ((probing 7).slot.restartLine = false ∧ (withEvent (.byteClock 0 0x01) (probing 7)).events = .byteClock 0 0x01 :: [] ∧
      (withEvent (.byteClock 0 0x01) (probing 7)).links[0]? = some (probing 7)) ∧
    9 ≤ (0b010010 : BitVec 6).toNat / 2 % 16 ∧ 9 ≤ (0b111111 : BitVec 6).toNat / 2 % 16 := by decide +kernel

/-- Nine bytes fit a buffer of nine at offset 0 and not at offset 1. -/
theorem witness_EncI16WritesFrame :
    (stateOf link0).links[0]? = some link0 ∧ 0 + 9 ≤ (txBufMem .push link0.slot).size ∧
      (txBufMem .push link0.slot).size < 1 + 9 := by decide +kernel

theorem witness_EncI32WritesFrame :
    (stateOf link0).links[0]? = some link0 ∧ 0 + 9 ≤ (txBufMem .pull link0.slot).size ∧
      (txBufMem .pull link0.slot).size < 1 + 9 := by decide +kernel

theorem witness_EncF32WritesFrame :
    (stateOf link0).links[0]? = some link0 ∧ 0 + 9 ≤ (txBufMem .push link0.slot).size ∧
      (txBufMem .push link0.slot).size < 1 + 9 := by decide +kernel

theorem witness_DecIdReadsId :
    (stateOf link0).links[0]? = some link0 ∧ 7 + 2 ≤ (bufMem .rx link0.slot).size ∧
      (bufMem .rx link0.slot).size < 8 + 2 := by decide +kernel

theorem witness_DecI16ReadsValue :
    (stateOf link0).links[0]? = some link0 ∧ 5 + 4 ≤ (bufMem .tx link0.slot).size ∧
      (bufMem .tx link0.slot).size < 6 + 4 := by decide +kernel

theorem witness_DecI32ReadsValue :
    (stateOf link0).links[0]? = some link0 ∧ 3 + 6 ≤ (bufMem .push link0.slot).size ∧
      (bufMem .push link0.slot).size < 4 + 6 := by decide +kernel

theorem witness_DecF32ReadsPattern :
    (stateOf link0).links[0]? = some link0 ∧ 3 + 6 ≤ (bufMem .pull link0.slot).size ∧
      (bufMem .pull link0.slot).size < 4 + 6 := by decide +kernel

theorem witness_EncodeThenDecodeRoundTrip :
    (stateOf link0).links[0]? = some link0 ∧ 0 + 9 ≤ (txBufMem .pull link0.slot).size := by decide +kernel

/-- A request to decode the frame of T17 as an `I32`, where `VTYPE(2)` is `I16`; and as an `I16`. -/
theorem witness_WrongTypeDecodeIsRefused :
    let l := exchanged [] [2, 0, 0x88, 0xFF, 0, 0, 0xFF, 0xFF, 0xFF]
    (∀ sel ∈ [(0x06 : Byte), 0x05],
      let w := [sel, 0, 0, 0, 0, 0, 0, 0, 0, 0, 0, 0, 0]
      (withEvent (.request w) l).events = .request w :: [] ∧ (withEvent (.request w) l).links[0]? = some l) ∧
    decode StartSeq.default (.opsel [0x06, 0, 0, 0, 0, 0, 0, 0, 0, 0, 0, 0, 0]) = .ok (.decI32 .rx 0 0) ∧
    decodeCall (.decI32 .rx 0 0) = some (.rx, 0, 0, some .i32) ∧
    decode StartSeq.default (.opsel [0x05, 0, 0, 0, 0, 0, 0, 0, 0, 0, 0, 0, 0]) = .ok (.decI16 .rx 0 0) ∧
    decodeCall (.decI16 .rx 0 0) = some (.rx, 0, 0, some .i16) ∧ 0 + 2 ≤ (bufMem .rx l.slot).size ∧
    declaredType Cfg.default.vtypes (idOf .le ((bufMem .rx l.slot).pairAt 0)) = some .i16 := by decide +kernel

/-- A `DEC.ID` request for the receive buffer and one for the push buffer. -/
theorem witness_WrongTypeDecodeIsRefused_reach :
    decode StartSeq.default (.opsel [0x04, 0, 0, 0, 0, 0, 0, 0, 0, 0, 0, 0, 0]) = .ok (.decId .rx 0 0) ∧
    decodeCall (.decId .rx 0 0) = some (.rx, 0, 0, none) ∧
    decode StartSeq.default (.opsel [0x04, 0, 1, 0, 0, 0, 0, 0, 0, 0, 0, 0, 0]) = .ok (.decId .push 0 0) ∧
    decodeCall (.decId .push 0 0) = some (.push, 0, 0, none) ∧ Buf.push ≠ .rx := by decide

/-- R48: a request decodes from the receive buffer, and none from a transmit buffer. -/
theorem test_decode_reach :
    (nextOf (step (withEvent (.request [0x04, 0, 0, 0, 0, 0, 0, 0, 0, 0, 0, 0, 0]) link0))).map State.result = some (.id 0) ∧
    refusalOf (step (withEvent (.request [0x04, 0, 1, 0, 0, 0, 0, 0, 0, 0, 0, 0, 0]) link0)) = some (.notReachable (.push 0)) :=
  by decide +kernel

theorem witness_RAdvAdvances :
    (stateOf (probing 7)).links[0]? = some (probing 7) ∧ (probing 7).slot.restartLine = false ∧
      (probing 7).resp.sSync = .unsynchronized ∧ (probing 7).resp.syncPos ≠ 8 ∧
      (0x01 : Byte) = (probing 7).respCfg.startSeq.get (probing 7).resp.syncPos := by decide +kernel

theorem witness_RFinSynchronizes :
    (stateOf (probing 8)).links[0]? = some (probing 8) ∧ (probing 8).slot.restartLine = false ∧
      (probing 8).resp.sSync = .unsynchronized ∧ (probing 8).resp.syncPos = 8 := by decide +kernel

theorem witness_RMissRestartsMatching :
    (stateOf (probing 8)).links[0]? = some (probing 8) ∧ (probing 8).slot.restartLine = false ∧
      (probing 8).resp.sSync = .unsynchronized ∧
      (0x08 : Byte) ≠ (probing 8).respCfg.startSeq.get (probing 8).resp.syncPos := by decide +kernel

theorem witness_IProbeSelectsProbe :
    (stateOf link0).links[0]? = some link0 ∧ link0.slot.mSync = .unsynchronized := by decide +kernel

/-- A pass, a fail in the last compared byte alone, and a receive buffer of eight bytes. -/
theorem witness_ICheckComparesEchoes :
    let good := Memory.ofBytes [0xA5, 8, 7, 6, 5, 4, 3, 2, 1]
    let bad := Memory.ofBytes [0, 8, 7, 6, 5, 4, 3, 2, 0xFF]
    link0.slot.mSync = .unsynchronized ∧ 9 ≤ good.size ∧
      (∀ k : Fin 8, good.read (k.val + 1) = StartSeq.default.get k.castSucc) ∧ 9 ≤ bad.size ∧
      bad.read ((7 : Fin 8).val + 1) ≠ StartSeq.default.get (7 : Fin 8).castSucc ∧ (Memory.zero 8).size < 9 := by decide +kernel

theorem witness_UnmetConditionsChangeNothing :
    (stateOf (synced [] [])).links[0]? = some (synced [] []) ∧ (synced [] []).slot.mSync = .synchronized ∧
      (synced [] []).resp.pending = [] := by decide +kernel

theorem witness_OnlyTheProbeSynchronizes :
    (stateOf link0).links[0]? = some link0 ∧ link0.slot.restartLine = false ∧ link0.resp.sSync = .unsynchronized ∧
      link0.resp.syncPos = 0 ∧ StartSeq.default.bytes.length = 9 ∧ (List.replicate 9 (0 : Byte)).length = 9 := by decide +kernel

theorem witness_ProbeTickSynchronizes :
    (stateOf link0).links[0]? = some link0 ∧ link0.Undisturbed ∧ link0.slot.mSync = .unsynchronized ∧
      link0.resp.sSync = .unsynchronized ∧ link0.resp.syncPos = 0 ∧ link0.respCfg.startSeq = Cfg.default.startSeq ∧
      9 ≤ link0.slot.rxBuf.size := by decide +kernel

/-- The responder of T22, caught at `frame_pos = 8`; its main loop runs inside the second transaction. -/
theorem witness_TwoProbesResynchronize :
    let l := framing 8 ⟨2, 0⟩ ⟨0x88, 0xFF, 0, 0⟩ false
    (stateOf l).links[0]? = some l ∧ l.Undisturbed ∧ Powered [] ∧ Powered [[], [.dispatch, .dispatch]] ∧ l.resp.Inv ∧
      l.slot.mSync = .unsynchronized ∧
      (stateOf l).cfg.startSeq = StartSeq.default ∧ l.respCfg.startSeq = StartSeq.default ∧ 9 ≤ l.slot.rxBuf.size := by
  decide +kernel

/-- A probe transaction whose check passes exists, from the reset state. -/
theorem witness_PassingCheckMeansAgreement :
    ((stateOf link0).links[0]? = some link0 ∧ link0.Undisturbed ∧ link0.resp.Inv ∧ link0.slot.mSync = .unsynchronized ∧
      (stateOf link0).cfg.startSeq = StartSeq.default ∧ link0.respCfg.startSeq = StartSeq.default ∧
      link0.resp.sSync = .unsynchronized ∧ link0.resp.syncPos = 0 ∧ Powered [[.dispatch]]) ∧
    ∃ t, execAll (probeTransaction 0 [[.dispatch]]) (stateOf link0) = .next t ∧
      ((t.links.getD 0 held).resp.sSync = .synchronized ∧ t.result = .check true) :=
  ⟨by decide +kernel, next_of_any (by decide +kernel)⟩

theorem witness_SIdCapturesAndEchoes :
    ∀ pos ∈ [(0 : Fin 9), 1], let l := framing pos ⟨0, 0⟩ ⟨0, 0, 0, 0⟩ false
      (stateOf l).links[0]? = some l ∧ l.slot.restartLine = false ∧ l.resp.sSync = .synchronized ∧
        l.resp.framePos = pos := by decide +kernel

/-- Id 5 is claimed, with and without an answer waiting; id 2 is not. -/
theorem witness_SSelLooksUpTheId :
    let l := framing 2 ⟨5, 0⟩ ⟨0, 0, 0, 0⟩ false
    let k := framing 2 ⟨2, 0⟩ ⟨0, 0, 0, 0⟩ false
    ((stateOf l).links[0]? = some l ∧ l.slot.restartLine = false ∧ l.resp.sSync = .synchronized ∧ l.resp.framePos = 2 ∧
      ord16 l.respCfg.byteOrder l.resp.idBytes.b0 l.resp.idBytes.b1 ∈ l.respCfg.pullS ∧ l.env.answers = []) ∧
    (synced [] [⟨1, 2, 3, 4⟩]).env.answers = ⟨1, 2, 3, 4⟩ :: [] ∧
    ((stateOf k).links[0]? = some k ∧ k.resp.framePos = 2 ∧
      ord16 k.respCfg.byteOrder k.resp.idBytes.b0 k.resp.idBytes.b1 ∉ k.respCfg.pullS) := by decide +kernel

theorem witness_SValRepliesOrCaptures :
    ∀ pull : Bool, ∀ pos ∈ [(3 : Fin 9), 4, 5], let l := framing pos ⟨5, 0⟩ ⟨0, 0, 0x16, 0x42⟩ pull
      (stateOf l).links[0]? = some l ∧ l.slot.restartLine = false ∧ l.resp.sSync = .synchronized ∧
        l.resp.framePos = pos ∧ l.resp.isPull = pull := by decide +kernel

theorem witness_SAckRepliesStoredId :
    ∀ pos ∈ [(6 : Fin 9), 7], let l := framing pos ⟨2, 0⟩ ⟨0, 0, 0, 0⟩ false
      (stateOf l).links[0]? = some l ∧ l.slot.restartLine = false ∧ l.resp.sSync = .synchronized ∧
        l.resp.framePos = pos := by decide +kernel

theorem witness_SDesyncDropsSynchronization :
    ∀ pos ∈ [(6 : Fin 9), 7], let l := framing pos ⟨2, 0⟩ ⟨0, 0, 0, 0⟩ false
      (stateOf l).links[0]? = some l ∧ l.slot.restartLine = false ∧ l.resp.sSync = .synchronized ∧
        (l.resp.framePos = 6 ∨ l.resp.framePos = 7) ∧ (0xFE : Byte) ≠ 0xFF := by decide +kernel

theorem witness_SEndCompletesFrame :
    let l := framing 8 ⟨2, 0⟩ ⟨0x88, 0xFF, 0, 0⟩ false
    (stateOf l).links[0]? = some l ∧ l.slot.restartLine = false ∧ l.resp.sSync = .synchronized ∧ l.resp.framePos = 8 := by
  decide +kernel

theorem witness_SDispatchDeliversPush :
    ∀ pull : Bool,
      let l := { link0 with resp := { link0.resp with pending := [⟨⟨2, 0⟩, ⟨0x88, 0xFF, 0, 0⟩, pull⟩] } }
      (stateOf l).links[0]? = some l ∧ l.resp.pending = ⟨⟨2, 0⟩, ⟨0x88, 0xFF, 0, 0⟩, pull⟩ :: [] := by decide +kernel

theorem witness_ByteClockAlwaysAnswers :
    (withEvent (.byteClock 0 0xFF) link0).events = .byteClock 0 0xFF :: [] ∧
      (withEvent (.byteClock 0 0xFF) link0).links[0]? = some link0 ∧ link0.slot.restartLine = false := by decide +kernel

/-- The five verdicts: T19 (one echo matches), both echoes missing and id 6 > MAX_ID, T18 (pull), T17 (push), a push with a
changed value byte, and id -1 with one echo missing; then buffers one byte too short. -/
theorem witness_VSlotVerdict :
    let o := ByteOrder.le
    (ord16 o 2 0).toInt ≠ -1 ∧ (ord16 o 2 0 = ord16 o 2 0 ↔ ¬ord16 o 0 0 = ord16 o 2 0) ∧
    (ord16 o 0 0 = ord16 o 2 0 ↔ ord16 o 0 0 = ord16 o 2 0) ∧
    ¬(ord16 o 6 0 = ord16 o 6 0 ∧ 1 ≤ (ord16 o 6 0).toInt ∧ (ord16 o 6 0).toInt ≤ Cfg.default.maxId) ∧
    (1 ≤ (ord16 o 5 0).toInt ∧ (ord16 o 5 0).toInt ≤ Cfg.default.maxId ∧ ord16 o 5 0 ∈ SlotCfg.default.pullM) ∧
    (1 ≤ (ord16 o 1 0).toInt ∧ (ord16 o 1 0).toInt ≤ Cfg.default.maxId ∧ ord16 o 1 0 ∉ SlotCfg.default.pullM) ∧
    (ord16 o 0xFF 0xFF).toInt = -1 ∧
    (let l := exchanged [2, 0, 0x88, 0xFF, 0, 0, 0xFF, 0xFF, 0xFF] [0, 2, 0, 0x88, 0xFF, 0, 0, 2, 0]
     (stateOf l).links[0]? = some l ∧ 9 * 0 + 9 ≤ l.slot.tx.size ∧ 9 * 0 + 9 ≤ l.slot.rxBuf.size ∧
       (∀ j : Fin 4, l.slot.rxBuf.read (3 + j.val) = l.slot.tx.read (2 + j.val)) ∧
       l.slot.tx.size < 9 * 1 + 9) ∧
    (let l := exchanged [2, 0, 0x88, 0xFF, 0, 0, 0xFF, 0xFF, 0xFF] [0, 2, 0, 0x88, 0xFF, 0, 1, 2]
     ¬(∀ j : Fin 4, l.slot.rxBuf.read (3 + j.val) = l.slot.tx.read (2 + j.val)) ∧ 9 * 0 + 9 ≤ l.slot.tx.size ∧
       l.slot.rxBuf.size < 9 * 0 + 9) := by decide +kernel

theorem witness_VTxnExaminesEverySlot :
    (stateOf link0).links[0]? = some link0 ∧ 9 * 1 ≤ link0.slot.tx.size ∧ 9 * 1 ≤ link0.slot.rxBuf.size ∧
      9 * 0 ≤ link0.slot.tx.size ∧ link0.slot.tx.size < 9 * 2 ∧ (Memory.zero 8).size < 9 * 1 := by decide +kernel

/-- T24: the slot is synchronized, the responder is not, and the frame of T17 leaves it so. -/
theorem witness_UnsynchronizedResponderFailsFrame :
    let l : Link := { link0 with slot := { link0.slot with mSync := .synchronized } }
    ((stateOf l).links[0]? = some l ∧ l.Undisturbed ∧ l.resp.sSync = .unsynchronized ∧ l.resp.Inv ∧
      l.respCfg.startSeq = StartSeq.default ∧ 9 ≤ l.slot.rxBuf.size) ∧
    ∃ t, exec (.frame 0 ⟨2, 0⟩ ⟨0x88, 0xFF, 0, 0⟩) (stateOf l) = .next t ∧
      (t.links.getD 0 held).resp.sSync = .unsynchronized :=
  ⟨by decide +kernel, next_of_any (by decide +kernel)⟩

/-- T16: byte 7 of the frame of T17 arrives as `00`; then the pull of id 5, and id 256 in big-endian order. -/
theorem witness_BlindSpotOfTheValidator :
    let l := synced (List.replicate 7 Disturbance.ideal ++ [{ Disturbance.ideal with toResponder := some 0x00 }]) []
    (stateOf l).links[0]? = some l ∧ l.slot.restartLine = false ∧ Powered l.env.turns ∧ l.resp.sSync = .synchronized ∧
      l.resp.framePos = 0 ∧ l.resp.syncPos = 0 ∧
      l.env.bus = List.replicate 7 Disturbance.ideal ++ [{ Disturbance.ideal with toResponder := some 0x00 }] ∧
      (0x00 : Byte) ≠ 0xFF ∧ 9 ≤ l.slot.rxBuf.size ∧
      (1 ≤ (idOf .le ⟨2, 0⟩).toInt ∧ (idOf .le ⟨2, 0⟩).toInt ≤ (stateOf l).cfg.maxId ∧ idOf .le ⟨2, 0⟩ ∉ l.respCfg.pullS) ∧
      (1 ≤ (idOf .le ⟨5, 0⟩).toInt ∧ (idOf .le ⟨5, 0⟩).toInt ≤ (stateOf l).cfg.maxId ∧ idOf .le ⟨5, 0⟩ ∈ l.slotCfg.pullM) ∧
      (1 ≤ (idOf .be ⟨1, 0⟩).toInt ∧ (idOf .be ⟨1, 0⟩).toInt ≤ 256) := by decide +kernel

theorem witness_PushFrameIsDeliveredAndAccepted :
    let l := synced [] []
    (stateOf l).links[0]? = some l ∧ l.Undisturbed ∧ l.Aligned ∧ 9 ≤ l.slot.rxBuf.size ∧
      idOf l.respCfg.byteOrder ⟨1, 0⟩ ∉ l.respCfg.pullS ∧ idOf (stateOf l).cfg.byteOrder ⟨1, 0⟩ ∉ l.slotCfg.pullM ∧
      1 ≤ (idOf (stateOf l).cfg.byteOrder ⟨1, 0⟩).toInt ∧
      (idOf (stateOf l).cfg.byteOrder ⟨1, 0⟩).toInt ≤ (stateOf l).cfg.maxId := by decide +kernel

theorem witness_PullFrameDeliversTheAnswer :
    let l := synced [] [⟨0, 0, 0x16, 0x42⟩]
    (stateOf l).links[0]? = some l ∧ l.Undisturbed ∧ l.Aligned ∧ 9 ≤ l.slot.rxBuf.size ∧
      l.env.answers = ⟨0, 0, 0x16, 0x42⟩ :: [] ∧
      idOf l.respCfg.byteOrder ⟨5, 0⟩ ∈ l.respCfg.pullS ∧ idOf (stateOf l).cfg.byteOrder ⟨5, 0⟩ ∈ l.slotCfg.pullM ∧
      1 ≤ (idOf (stateOf l).cfg.byteOrder ⟨5, 0⟩).toInt ∧
      (idOf (stateOf l).cfg.byteOrder ⟨5, 0⟩).toInt ≤ (stateOf l).cfg.maxId := by decide +kernel

/-- The saturation boundary, for width 32 and for width 0. -/
theorem witness_WIncCountsAndSaturates :
    2 ^ 32 - 2 < 2 ^ Cfg.default.wdWidth - 1 ∧ 2 ^ Cfg.default.wdWidth - 1 ≤ 2 ^ 32 - 1 ∧ 2 ^ 0 - 1 ≤ 0 := by decide

/-- Counts 2 and 3 against the threshold 3. -/
theorem witness_WCheckTripsBelowThreshold : 2 < Cfg.default.wdThreshold ∧ Cfg.default.wdThreshold ≤ 3 := by decide

/-- Two and three increments, with an operation of another unit among them. -/
theorem witness_WatchdogPeriod :
    (stateOf link0).wdCounter = 0 ∧
    (∀ i ∈ [Instr.wInc, .iProbe 0, .wInc], i ≠ .wCheck ∧ i ≠ .reset .all) ∧
    (∃ t, execAll [.wInc, .iProbe 0, .wInc] (stateOf link0) = .next t ∧ t.wdCounter = 2) ∧
    min ([Instr.wInc, .iProbe 0, .wInc].count .wInc) (2 ^ Cfg.default.wdWidth - 1) < Cfg.default.wdThreshold ∧
    Cfg.default.wdThreshold ≤ min ([Instr.wInc, .wInc, .wInc].count .wInc) (2 ^ Cfg.default.wdWidth - 1) :=
  ⟨by decide, by decide, next_of_any (by decide +kernel), by decide⟩

theorem witness_WatchdogIsIndependent :
    (∃ t, exec (.tTick 0) (stateOf link0) = .next t ∧ t.wdCounter = 0) ∧
    (∃ t, exec .wInc (stateOf link0) = .next t ∧ t.wdCounter = 1) ∧
    Instr.tTick 0 ≠ .wInc ∧ Instr.tTick 0 ≠ .wCheck ∧ Instr.tTick 0 ≠ .reset .all :=
  ⟨next_of_any (by decide +kernel), next_of_any (by decide +kernel), by decide +kernel⟩

theorem witness_TickOfASizedSlotCompletes : (stateOf link0).links[0]? = some link0 ∧ link0.Sized := by decide +kernel

/-- A passing probe, a failing one under the policy `after 3`, and a failing one under the policy `every failure`. -/
theorem witness_ProbeTickIsProbeTransaction :
    ((stateOf link0).links[0]? = some link0 ∧ link0.slot.mSync = .unsynchronized ∧ 9 ≤ link0.slot.rxBuf.size) ∧
    (∃ u, execAll (probeTransaction 0 []) ((stateOf link0).withLink 0 (link0.dropTurns 10) [] .none) = .next u ∧
      u.result = .check true) ∧
    (∃ u, execAll (probeTransaction 0 []) ((stateOf (probing 3)).withLink 0 ((probing 3).dropTurns 10) [] .none) = .next u ∧ u.result = .check false) ∧
    restartDue { Cfg.default with restartPolicy := .afterConsecutive 3 } .probe (0 + 1) = false ∧
    restartDue { Cfg.default with restartPolicy := .everyFailure } .probe (0 + 1) = true :=
  ⟨by decide +kernel, next_of_any (by decide +kernel), next_of_any (by decide +kernel), by decide +kernel, by decide +kernel⟩

/-- A slot with the default plan, whose responder has lost synchronization. -/
def lostPush : Link :=
  { link0 with slot := { link0.slot with mSync := .synchronized }, env := { Inputs.none with values := [0xFF88] } }

/-- A slot whose responder is synchronized; -120 is supplied. -/
def goodPush : Link := { synced [] [] with env := { Inputs.none with values := [0xFF88] } }

/-- The state in which the push transaction of a slot starts: the buffer is filled and selected. -/
def pushStart (l : Link) : Option State :=
  match execAll (prepareOps Cfg.default 0 .push l).1
      ((stateOf l).withLink 0 { l with env := (prepareOps Cfg.default 0 .push l).2 } [] .none) with
  | .next f => (f.links[0]?).map (fun m => f.withLink 0 { m.dropTurns 10 with slot := { m.slot with tx := m.slot.pushBuf } } [] .none)
  | _ => none

/-- A receive buffer of eight bytes, and a push buffer of eight bytes. -/
def unfit : Link :=
  { synced [] [] with
    slotCfg := { SlotCfg.default with tickPlan := [.pull] }
    slot := { (synced [] []).slot with rxBuf := Memory.zero 8 } }

def short : Link :=
  { synced [] [] with
    slotCfg := { SlotCfg.default with tickPlan := [.push] }
    slot := { (synced [] []).slot with pushBuf := Memory.zero 8 } }

/-- A failing and a passing push transaction at the head of the plan; a transfer and a fill that fault; an empty plan; a plan
with an empty buffer. -/
theorem witness_FailedTransactionEndsTick :
    ((stateOf lostPush).links[0]? = some lostPush ∧ lostPush.slot.mSync = .synchronized ∧
      lostPush.slotCfg.tickPlan = .push :: [.pull] ∧ (txBufMem .push lostPush.slot).size = 9) ∧
    ((stateOf goodPush).links[0]? = some goodPush ∧ goodPush.slot.mSync = .synchronized ∧
      goodPush.slotCfg.tickPlan = .push :: [.pull]) ∧
    ((pushStart lostPush).map (fun s => execAll (commandTransaction 0 9 []) s)).bind (fun o => (nextOf o).map State.result) =
      some (.txn false) ∧
    ((pushStart goodPush).map (fun s => execAll (commandTransaction 0 9 []) s)).bind (fun o => (nextOf o).map State.result) =
      some (.txn true) ∧
    ((stateOf unfit).links[0]? = some unfit ∧ unfit.slot.mSync = .synchronized ∧ unfit.slotCfg.tickPlan = .pull :: [] ∧
      unfit.slot.rxBuf.size < (txBufMem .pull unfit.slot).size) ∧
    ((stateOf short).links[0]? = some short ∧ short.slotCfg.tickPlan = .push :: [] ∧ short.slot.mSync = .synchronized ∧ (txBufMem .push short.slot).size ≠ 0 ∧
      faultOf (execAll (prepareOps Cfg.default 0 .push short).1
        ((stateOf short).withLink 0 { short with env := (prepareOps Cfg.default 0 .push short).2 } [] .none)) =
          some (.precondition (.push 0) 0 9)) ∧
    { SlotCfg.default with tickPlan := [] }.tickPlan = [] ∧ (txBufMem .push { lostPush.slot with pushBuf := .zero 0 }).size = 0 := by
  decide +kernel

/-- A synchronized link whose pull buffer holds its frame. -/
def readyLink : Link :=
  { synced [] [] with
    slot := { (synced [] []).slot with pullBuf := Memory.ofBytes [5, 0, 0, 0, 0, 0, 0xFF, 0xFF, 0xFF] } }

theorem witness_CommandTickPasses :
    ((stateOf readyLink).links[0]? = some readyLink ∧ readyLink.Sized ∧ readyLink.Undisturbed ∧ readyLink.Aligned ∧
      (stateOf readyLink).cfg.byteOrder = readyLink.respCfg.byteOrder ∧
      readyLink.slotCfg.pullM = readyLink.respCfg.pullS) ∧
    (readyLink.slotCfg.pushCmds ++ readyLink.slotCfg.pullCmds = [2, 5] ∧ (stateOf readyLink).cfg.maxId = 5 ∧
      (2 : Id).toInt = 2 ∧ (5 : Id).toInt = 5) ∧
    (readyLink.slotCfg.pullCmds = [5] ∧ readyLink.slotCfg.tickPlan.count .push = 1 ∧ goodPush.env.values.length = 1) ∧
    bytesOf readyLink.slot.pullBuf 2 = bytes16 .le 5 ∧
    [readyLink.slot.pullBuf.read 6, readyLink.slot.pullBuf.read 7] = [0xFF, 0xFF] :=
  ⟨by decide +kernel, by decide, by decide, by decide +kernel, by decide +kernel⟩

theorem witness_TRestartResetsTheResponder : (stateOf (synced [] [])).links[0]? = some (synced [] []) := by decide +kernel

/-- Exchange 8 is the last of nine, exchange 9 lies outside, and a receive buffer may be shorter than the other. -/
theorem witness_IdealExchange :
    (stateOf link0).links[0]? = some link0 ∧ link0.env.bus = [] ∧ 8 < link0.slot.tx.size ∧ 8 < link0.slot.rxBuf.size ∧
      link0.slot.restartLine = false ∧ (stateOf held).links[0]? = some held ∧ held.env.bus = [] ∧
      8 < held.slot.tx.size ∧ 8 < held.slot.rxBuf.size ∧ held.slot.restartLine = true ∧
      link0.slot.tx.size ≤ 9 ∧ (Memory.zero 8).size ≤ 8 := by decide +kernel

theorem witness_DisturbedExchange :
    let d : Disturbance := { toResponder := some 1, toInitiator := some 2, dropClock := true, extraClocks := [⟨[], 3⟩, ⟨[.dispatch], 4⟩] }
    let l := synced [d, .ideal] []
    (stateOf l).links[0]? = some l ∧ l.slot.restartLine = false ∧ l.env.bus = d :: [.ideal] ∧ 8 < l.slot.tx.size ∧
      8 < l.slot.rxBuf.size ∧ ({ held with env := { Inputs.none with bus := [d] } } : Link).slot.restartLine = true := by
  decide +kernel

/-- Two links, of which the first is ticked. -/
theorem witness_OtherLinksUntouched :
    linkOf (.tTick 0) = some 0 ∧
    (∃ t, exec (.tTick 0) { State.reset with links := [link0, synced [] []] } = .next t ∧ t.links.length = 2) ∧ 1 ≠ 0 :=
  ⟨by decide +kernel, next_of_any (by decide +kernel), by decide +kernel⟩

theorem witness_LinkOutcomeIsItsOwn :
    let s := { State.reset with links := [link0, synced [] []] }
    let s' := { State.reset with links := [link0, held], wdCounter := 7 }
    linkOf (.tTick 0) = some 0 ∧ s'.cfg = s.cfg ∧ s'.links[0]? = s.links[0]? ∧ s'.effects = s.effects ∧
      ∃ t, exec (.tTick 0) s = .next t ∧ t.result = .none :=
  ⟨by decide +kernel, by decide +kernel, by decide +kernel, by decide +kernel, next_of_any (by decide +kernel)⟩

theorem witness_ResetRestoresResetValues : (stateOf (synced [] [])).links[0]? = some (synced [] []) := by decide +kernel

theorem witness_StepKeepsTheInvariant :
    State.Inv (withEvent (.ticksDue [0]) (synced [] [])) ∧
      ∃ t, step (withEvent (.ticksDue [0]) link0) = .next t ∧ t.links.length = 1 :=
  ⟨by decide +kernel, next_of_any (by decide +kernel)⟩

theorem witness_ConfigurationIsConstant :
    ∃ t, step (withEvent (.byteClock 0 8) link0) = .next t ∧ t.links.length = 1 := next_of_any (by decide +kernel)

/-- A link that has received the probe's echoes. -/
def echoedLink : Link :=
  { link0 with slot := { link0.slot with rxBuf := Memory.ofBytes [0, 8, 7, 6, 5, 4, 3, 2, 1] } }

/-- A check that sets `m_sync`, a validation that clears it, an `R.FIN` and an `S.DESYNC`. -/
theorem witness_WhoWritesTheSyncBits :
    (∃ t, exec (.iCheck 0) (stateOf echoedLink) = .next t ∧ (t.links.getD 0 held).slot.mSync = .synchronized) ∧
    (∃ t, exec (.vTxn 0 1) (stateOf (exchanged [2, 0, 0, 0, 0, 0, 0xFF, 0xFF, 0xFF] [0, 0, 0, 0, 0, 0, 0, 0, 0])) =
      .next t ∧ (t.links.getD 0 held).slot.mSync = .unsynchronized) ∧
    (∃ t, exec (.rFin 0 0xFF) (stateOf (probing 8)) = .next t ∧ (t.links.getD 0 held).resp.sSync = .synchronized) ∧
    ∃ t, exec (.sDesync 0 7 0) (stateOf (framing 7 ⟨2, 0⟩ ⟨0, 0, 0, 0⟩ false)) = .next t ∧
      (t.links.getD 0 held).resp.sSync = .unsynchronized :=
  ⟨next_of_any (by decide +kernel), next_of_any (by decide +kernel), next_of_any (by decide +kernel),
    next_of_any (by decide +kernel)⟩

/-- Slot 1 does not exist; responder 0 is held in reset; responder 0 at `sync_pos = 0` does not select `S.END`. -/
theorem witness_RefusalsOfExec :
    linkOf (.tTick 1) = some 1 ∧ (stateOf link0).links[1]? = none ∧ linkOf (.rAdv 0 0 8) = some 0 ∧
      (stateOf held).links[0]? = some held ∧ held.slot.restartLine = true ∧ linkOf (.sEnd 0 8) = some 0 ∧
      decode StartSeq.default (.skey (skey link0.respCfg link0.resp 8) 0 8) ≠ .ok (.sEnd 0 8) := by decide +kernel

theorem witness_SentFormatsComplete : (stateOf held).links[0]? = some held ∧ 9 ≤ held.slot.rxBuf.size := by decide +kernel

theorem witness_ReceivedFormatsArrive :
    (stateOf link0).links[0]? = some link0 ∧ 9 ≤ link0.slot.tx.size ∧ 9 ≤ link0.slot.rxBuf.size ∧
      (Memory.zero 8).size < 9 := by decide +kernel

end Tests
end Sys2Proof
end

section
/-! PROOFS. The byte step as the selector of R105 gives it, and operations on one link as functions of that link alone. -/

namespace Sys2Proof
namespace Machine

/-! ## The key of a byte step (R105) -/

@[simp] theorem mkKey_toNat (s : Bool) (pos : Fin 9) (m : Bool) :
    (mkKey s pos m).toNat = s.toNat * 32 + pos.val * 2 + m.toNat := by
  have hs := s.toNat_le
  have hm := m.toNat_le
  simp only [mkKey, BitVec.toNat_ofNat]
  omega

/-- Decoding a key that is formed from its three fields reads these fields back; what is left to check is the `m` bit. -/
theorem decodeKey_mkKey (S : StartSeq) (s : Bool) (pos : Fin 9) (m : Bool) (p : Nat) (rx : Byte) :
    decodeKey S (mkKey s pos m) p rx =
      if m = keyMatch S s pos rx then .ok (instrOfKey s pos m p rx) else .error (.keyMismatch (mkKey s pos m) rx) := by
  have hmle := m.toNat_le
  have hpos : (mkKey s pos m).toNat / 2 % 16 = pos.val := by rw [mkKey_toNat]; omega
  have hs : decide (32 ≤ (mkKey s pos m).toNat) = s := by
    rw [mkKey_toNat]
    cases s <;> simp only [Bool.toNat_true, Bool.toNat_false, decide_eq_true_eq, decide_eq_false_iff_not] <;> omega
  have hm : decide ((mkKey s pos m).toNat % 2 = 1) = m := by
    rw [mkKey_toNat]
    cases m <;> simp only [Bool.toNat_true, Bool.toNat_false, decide_eq_true_eq, decide_eq_false_iff_not] <;> omega
  have hfin : ∀ h : (mkKey s pos m).toNat / 2 % 16 < 9, (⟨(mkKey s pos m).toNat / 2 % 16, h⟩ : Fin 9) = pos :=
    fun _ => Fin.ext hpos
  simp only [decodeKey, hfin, hs, hm]
  exact dif_pos (by omega)

/-- The key a responder forms with a received byte decodes to the operation that the table of R105 selects. -/
theorem decode_skey (c : RespCfg) (r : Responder) (p : Nat) (rx : Byte) :
    decode c.startSeq (.skey (skey c r rx) p rx) = .ok (selected c r p rx) :=
  (decodeKey_mkKey ..).trans (if_pos rfl)

theorem selected_unsynchronized {c : RespCfg} {r : Responder} (h : r.sSync = .unsynchronized) (p : Nat) (rx : Byte) :
    selected c r p rx =
      if rx = c.startSeq.get r.syncPos then (if r.syncPos = 8 then .rFin p rx else .rAdv p r.syncPos rx)
      else .rMiss p r.syncPos rx := by
  by_cases hm : rx = c.startSeq.get r.syncPos <;> simp [selected, selSync, selPos, selMatch, keyMatch, instrOfKey, h, hm]

theorem selected_synchronized {c : RespCfg} {r : Responder} (h : r.sSync = .synchronized) (p : Nat) (rx : Byte) :
    selected c r p rx =
      if r.framePos.val < 2 then .sId p r.framePos rx
      else if r.framePos.val = 2 then .sSel p rx
      else if r.framePos.val < 6 then .sVal p r.framePos rx
      else if r.framePos.val < 8 then (if rx = 0xFF then .sAck p r.framePos rx else .sDesync p r.framePos rx)
      else .sEnd p rx := by
  have hsel : selected c r p rx = instrOfKey true r.framePos (decide (rx = 0xFF)) p rx := by
    simp [selected, selSync, selPos, selMatch, keyMatch, h]
  rw [hsel]
  generalize r.framePos = pos
  fin_cases pos <;> simp [instrOfKey]

/-- No key selects a decode, so the caller's checks of a decode (R130) concern no byte step. -/
theorem decodeCall_selected (c : RespCfg) (r : Responder) (p : Nat) (rx : Byte) : decodeCall (selected c r p rx) = none := by
  cases h : r.sSync with
  | unsynchronized => rw [selected_unsynchronized h]; split_ifs <;> rfl
  | synchronized => rw [selected_synchronized h]; split_ifs <;> rfl

/-! ## The byte step as the selected operation (R105, R160) -/

theorem byteStep_unsynchronized {a : Act} (h : a.link.resp.sSync = .unsynchronized) (p : Nat) (rx : Byte) :
    byteStep p rx a =
      if rx = a.link.respCfg.startSeq.get a.link.resp.syncPos then
        (if a.link.resp.syncPos = 8 then probeFinish a else probeAdvance a)
      else probeMiss a := if_pos h

theorem byteStep_synchronized {a : Act} (h : a.link.resp.sSync = .synchronized) (p : Nat) (rx : Byte) :
    byteStep p rx a =
      if a.link.resp.framePos.val < 2 then captureId rx a
      else if a.link.resp.framePos.val = 2 then selectValue p rx a
      else if a.link.resp.framePos.val < 6 then furtherValue rx a
      else if a.link.resp.framePos.val < 8 then (if rx = 0xFF then ackProbe a else desynchronize a)
      else completeFrame p a := if_neg (by simp [h])

/-- The operation that the responder's state and the received byte select is performed, and it is `ByteStep(rx)` of R160 with
the reply that it stages. -/
theorem exec_selected {s : State} {p : Nat} {l : Link} (rx : Byte) (hl : s.links[p]? = some l)
    (hr : l.slot.restartLine = false) :
    exec (selected l.respCfg l.resp p rx) s =
      .next (s.withLink p (byteStep p rx ⟨l, s.effects⟩).link (byteStep p rx ⟨l, s.effects⟩).fx
        (.reply (byteStep p rx ⟨l, s.effects⟩).link.resp.txReg)) := by
  suffices ∃ i op, selected l.respCfg l.resp p rx = i ∧ byteStep p rx ⟨l, s.effects⟩ = op ⟨l, s.effects⟩ ∧
      exec i s = byteOperation i p rx op s by
    obtain ⟨i, op, hsel, hstep, hexec⟩ := this
    rw [hsel, hstep, hexec, byteOperation_next hl hr hsel]
  cases hsync : l.resp.sSync with
  | unsynchronized =>
    have hsel := selected_unsynchronized (c := l.respCfg) hsync p rx
    have hstep : byteStep p rx ⟨l, s.effects⟩ = _ := byteStep_unsynchronized hsync p rx
    split_ifs at hsel hstep
    · exact ⟨_, probeFinish, hsel, hstep, rfl⟩
    · exact ⟨_, probeAdvance, hsel, hstep, rfl⟩
    · exact ⟨_, probeMiss, hsel, hstep, rfl⟩
  | synchronized =>
    have hsel := selected_synchronized (c := l.respCfg) hsync p rx
    have hstep : byteStep p rx ⟨l, s.effects⟩ = _ := byteStep_synchronized hsync p rx
    split_ifs at hsel hstep
    · exact ⟨_, captureId rx, hsel, hstep, rfl⟩
    · exact ⟨_, selectValue p rx, hsel, hstep, rfl⟩
    · exact ⟨_, furtherValue rx, hsel, hstep, rfl⟩
    · exact ⟨_, ackProbe, hsel, hstep, rfl⟩
    · exact ⟨_, desynchronize, hsel, hstep, rfl⟩
    · exact ⟨_, completeFrame p, hsel, hstep, rfl⟩

/-- A byte clock on a responder that is not held in reset runs the operation that R105 selects. -/
theorem step_byteClock {s : State} {p : Nat} {rx : Byte} {rest : List Event} {l : Link}
    (he : s.events = .byteClock p rx :: rest) (hl : s.links[p]? = some l) (hr : l.slot.restartLine = false) :
    step s = exec (selected l.respCfg l.resp p rx) (s.begin rest) := by
  have hcall : callRefusal (selected l.respCfg l.resp p rx) s = none := by simp [callRefusal, decodeCall_selected]
  have hfetch : fetchEvent (.byteClock p rx) s = .run (selected l.respCfg l.resp p rx) := by
    simp [fetchEvent, fetchCode, hl, hr, decode_skey, hcall]
  simp [step, he, hfetch, eventsAfter]

/-- Settles O33: the byte clock runs the selected operation, which is the byte step, and the byte step has its frame. -/
theorem byteClockAlwaysAnswers : Obligations.ByteClockAlwaysAnswers := by
  intro s p rx rest l he hl hr
  obtain ⟨r, env, fx, hframe⟩ := byteStep_frame p rx ⟨l, (s.begin rest).effects⟩
  refine ⟨r, env, (s.begin rest).effects ++ fx, ?_⟩
  rw [step_byteClock he hl hr, exec_selected (s := s.begin rest) rx hl hr, hframe]

/-! ## Operations on one link (R3, R233, R301) -/

/-- Whenever `g` answers, it replaces link `n`, the effects and the result, and the new values are the same in every state with
that configuration, that link and those effects. -/
def ActsOnLink (g : State → Host.Outcome State Fault Refusal) (n : Nat) : Prop :=
  ∀ s t, g s = .next t → ∃ l l' fx r, s.links[n]? = some l ∧ t = s.withLink n l' fx r ∧
    ∀ s' : State, s'.cfg = s.cfg → s'.links[n]? = some l → s'.effects = s.effects → g s' = .next (s'.withLink n l' fx r)

/-- An operation on link `n` that reads of the rest of the state the configuration alone. -/
theorem actsOnLink_of_eq_onLink {g : State → Host.Outcome State Fault Refusal} {n : Nat}
    {f : State → Act → Except Fault (Result × Act)} (hg : ∀ s, g s = s.onLink n (f s))
    (hf : ∀ s s', s'.cfg = s.cfg → f s' = f s) : ActsOnLink g n := by
  intro s t h
  rw [hg] at h
  obtain ⟨l, r, a, hl, hok, rfl⟩ := onLink_cases h
  refine ⟨l, a.link, a.fx, r, hl, rfl, fun s' hcfg hl' hfx => (hg s').trans (onLink_next hl' ?_)⟩
  rw [hf s s' hcfg, hfx, hok]

/-- A byte operation: whether it is selected depends on the link alone as well. -/
theorem actsOnLink_byteOperation (i : Instr) (p : Nat) (rx : Byte) (op : Act → Act) :
    ActsOnLink (byteOperation i p rx op) p := by
  intro s t h
  obtain ⟨l, hl, hr, hsel, rfl⟩ := byteOperation_cases h
  refine ⟨l, _, _, _, hl, rfl, fun s' _ hl' hfx => ?_⟩
  rw [byteOperation_next hl' hr hsel, hfx]

/-- Every one-link instruction acts on its link. Its arm is a byte operation, or an operation on one link that reads nothing
else, or one that reads the configuration too. -/
theorem exec_actsOnLink {i : Instr} {n : Nat} (h : linkOf i = some n) : ActsOnLink (exec i) n := by
  cases i with
  | wInc | wCheck => cases h
  | reset target =>
    cases target with
    | all => cases h
    | responder p =>
      cases h
      exact actsOnLink_of_eq_onLink (fun _ => by simp only [exec, execReset]; rfl) (fun _ _ _ => by rfl)
  | rAdv | rFin | rMiss | sId | sSel | sVal | sAck | sDesync | sEnd =>
    cases h
    exact actsOnLink_byteOperation _ _ _ _
  | sDispatch | bXchg | tRestart | frame | reply =>
    cases h
    exact actsOnLink_of_eq_onLink (fun _ => by simp only [exec, execFrame, execReply, sendNine, receiveNine]; rfl)
      (fun _ _ _ => by rfl)
  | encI16 | encI32 | encF32 =>
    cases h
    exact actsOnLink_of_eq_onLink (fun _ => by simp only [exec, execEncI16, execEncI32, execEncF32, encodeInto]; rfl)
      (fun _ _ hcfg => by rw [hcfg])
  | decId | decI16 | decI32 | decF32 =>
    cases h
    exact actsOnLink_of_eq_onLink (fun _ => by simp only [exec, execDecI16, execDecI32, execDecF32, decodeFrom]; rfl)
      (fun _ _ hcfg => by rw [hcfg])
  | iProbe | iCheck | vSlot | vTxn | tTick | probe | probeReply =>
    cases h
    exact actsOnLink_of_eq_onLink (fun _ => by simp only [exec, execProbe, execProbeReply, sendNine, receiveNine]; rfl)
      (fun _ _ hcfg => by rw [hcfg])

/-- Settles O52: both runs put the same link, effects and result into their states. -/
theorem linkOutcomeIsItsOwn : Obligations.LinkOutcomeIsItsOwn := by
  intro s s' t i n hi hcfg hlink hfx ht
  obtain ⟨l, l', fx, r, hl, rfl, hsame⟩ := exec_actsOnLink hi s t ht
  refine ⟨_, hsame s' hcfg (hlink.trans hl) hfx, ?_, rfl, rfl⟩
  simp only [State.withLink_links, List.getElem?_set_self', hlink]

end Machine
end Sys2Proof
end

section
/-! PROOFS. What every step keeps (R29, R37, R231), and who writes the two synchronization bits (R21, R30). -/

namespace Sys2Proof
namespace Machine

/-! ## What the operations do to a link -/

/-- A step idles, or it runs one instruction in the state without the event it takes. -/
theorem step_cases {s t : State} (h : step s = .next t) :
    ∃ es, t = s.begin es ∨ ∃ i, exec i (s.begin es) = .next t := by
  unfold step at h
  split at h
  · cases h
    exact ⟨[], .inl rfl⟩
  · rename_i e rest _
    refine ⟨eventsAfter e rest, ?_⟩
    split at h
    · cases h
      exact .inl rfl
    · exact .inr ⟨_, h⟩
    · cases h

/-- A byte operation that answers is the byte step of R160. -/
theorem byteOperation_byteStep {i : Instr} {p : Nat} {rx : Byte} {op : Act → Act} {s t : State}
    (hexec : exec i s = byteOperation i p rx op s) (h : byteOperation i p rx op s = .next t) :
    ∃ l r, s.links[p]? = some l ∧
      t = s.withLink p (byteStep p rx ⟨l, s.effects⟩).link (byteStep p rx ⟨l, s.effects⟩).fx r := by
  obtain ⟨l, hl, hr, hsel, -⟩ := byteOperation_cases h
  have hstep := exec_selected rx hl hr
  rw [hsel, hexec, h] at hstep
  exact ⟨l, _, hl, Host.Outcome.next.inj hstep⟩

/-- A dispatch leaves every register but the pending signals (R176). -/
theorem dispatchFrame_link (p : Nat) (a : Act) :
    (dispatchFrame p a).link =
      { a.link with resp := { a.link.resp with pending := a.link.resp.pending.tail } } := by
  obtain ⟨fx, h⟩ := dispatchFrame_frame p a
  rw [h]

/-- An exchange writes of the slot the receive buffer alone (R62). -/
theorem exchange_slot {s i : Nat} {a b : Act} (h : exchange s i a = .ok b) :
    ∃ m, b.link.slot = { a.link.slot with rxBuf := m } := by
  obtain ⟨htx, hrx⟩ := exchange_cases h
  obtain ⟨_, _, _, _, hok⟩ := exchange_frame (s := s) htx hrx
  cases h.symm.trans hok
  exact ⟨_, rfl⟩

/-- A transfer writes of the slot the receive buffer alone (R65). -/
theorem transfer_slot {s len : Nat} {a b : Act} (h : transfer s len a = .ok b) :
    ∃ m, b.link.slot = { a.link.slot with rxBuf := m } := by
  obtain ⟨htx, hrx⟩ := transfer_cases h
  obtain ⟨_, _, _, _, hok, -⟩ := transfer_frame (s := s) htx hrx
  cases h.symm.trans hok
  exact ⟨_, rfl⟩

/-- The check of a probe reply sets `m_sync[s]` where it passes and changes nothing where it fails (R147). -/
theorem checkProbe_cases {c : Cfg} {s : Nat} {a b : Act} {pass : Bool} (h : checkProbe c s a = .ok (pass, b)) :
    (pass = true ∧ b = a.setSlot { a.link.slot with mSync := .synchronized }) ∨ (pass = false ∧ b = a) := by
  unfold checkProbe at h
  split at h
  · cases h
  · split at h <;> cases h
    · exact .inl ⟨rfl, rfl⟩
    · exact .inr ⟨rfl, rfl⟩

/-- The validation of a frame slot emits effects and changes no register (R193). -/
theorem validateSlot_link {c : Cfg} {s k : Nat} {a b : Act} {v : Verdict} (h : validateSlot c s k a = .ok (v, b)) :
    b.link = a.link := by
  unfold validateSlot at h
  split at h
  · cases h
  · split at h
    · cases h
    · simp only at h
      split at h <;> cases h <;> split <;> rfl

theorem validateSlots_link {c : Cfg} {s n k : Nat} {failed r : Bool} {a b : Act}
    (h : validateSlots c s n k failed a = .ok (r, b)) : b.link = a.link := by
  induction n generalizing k failed a with
  | zero => cases h; rfl
  | succ n ih =>
    unfold validateSlots at h
    split at h
    · cases h
    · rename_i hv
      rw [ih h, validateSlot_link hv]

/-- The validation of a transaction changes no register where it accepts and clears `m_sync[s]` alone where it fails (R191,
R200). -/
theorem validateTxn_link {c : Cfg} {s n : Nat} {ok : Bool} {a b : Act} (h : validateTxn c s n a = .ok (ok, b)) :
    (ok = true ∧ b.link = a.link) ∨ (ok = false ∧ b.link = (invalidate a).link) := by
  unfold validateTxn at h
  split at h
  · cases h
  · split at h
    · cases h
    · split at h
      · cases h
      · rename_i d hd
        cases h
        exact .inr ⟨rfl, by simp only [invalidate, Act.setSlot, validateSlots_link hd]⟩
      · rename_i d hd
        cases h
        exact .inl ⟨rfl, validateSlots_link hd⟩

/-- Every link after `RESET all` is a link that was reset. -/
theorem mem_resetLinks {c : Cfg} {s : Nat} {ls : List Link} {l' : Link} (h : l' ∈ resetLinks c s ls) :
    ∃ n l, l' = resetLink c n l := by
  induction ls generalizing s with
  | nil => cases h
  | cons l rest ih =>
    rcases List.mem_cons.mp h with rfl | h
    · exact ⟨s, l, rfl⟩
    · exact ih h

/-! ## The invariant of a responder (R29) -/

theorem Responder.inv_unsynchronized {r : Responder} (hs : r.sSync = .unsynchronized) (hf : r.framePos = 0) : r.Inv :=
  ⟨fun _ => hf, fun h => by simp [hs] at h⟩

theorem Responder.inv_synchronized {r : Responder} (hs : r.sSync = .synchronized) (hp : r.syncPos = 0) : r.Inv :=
  ⟨fun h => by simp [hs] at h, fun _ => hp⟩

theorem Responder.inv_reset (idb : Pair) (vb : Quad) : (Responder.reset idb vb).Inv :=
  Responder.inv_unsynchronized rfl rfl

/-- A byte step keeps R29: `R.FIN` and `S.DESYNC`, which cross between the two states, clear the position of the state they
enter, and no other operation writes the position of the other state. -/
theorem byteStep_respInv {a : Act} (h : a.link.resp.Inv) (p : Nat) (rx : Byte) : (byteStep p rx a).link.resp.Inv := by
  obtain ⟨hframe, hsync⟩ := h
  cases hs : a.link.resp.sSync with
  | unsynchronized =>
    rw [byteStep_unsynchronized hs]
    split_ifs
    · exact Responder.inv_synchronized rfl rfl
    · exact Responder.inv_unsynchronized hs (hframe hs)
    · exact Responder.inv_unsynchronized hs (hframe hs)
  | synchronized =>
    rw [byteStep_synchronized hs]
    split_ifs
    · exact Responder.inv_synchronized hs (hsync hs)
    · unfold selectValue
      split
      · exact Responder.inv_synchronized hs (hsync hs)
      · exact Responder.inv_synchronized hs (hsync hs)
    · simp only [furtherValue]
      split
      · exact Responder.inv_synchronized hs (hsync hs)
      · exact Responder.inv_synchronized hs (hsync hs)
    · exact Responder.inv_synchronized hs (hsync hs)
    · exact Responder.inv_unsynchronized rfl rfl
    · exact Responder.inv_synchronized hs (hsync hs)

/-! ## The invariant of a link -/

/-- What `Link.Inv` says of the initiator's side: every buffer in canonical form, the restart line deasserted. -/
abbrev Slot.Inv (t : Slot) : Prop :=
  t.pushBuf.wf = true ∧ t.pullBuf.wf = true ∧ t.rxBuf.wf = true ∧ t.tx.wf = true ∧ t.restartLine = false

theorem Link.inv_iff (l : Link) : l.Inv ↔ l.resp.Inv ∧ l.slot.Inv := Iff.rfl

theorem Slot.inv_reset (c : Cfg) (k : SlotCfg) : (Slot.reset c k).Inv :=
  ⟨Memory.wf_zero _, Memory.wf_zero _, Memory.wf_zero _, Memory.wf_ofBytes _, rfl⟩

theorem Slot.inv_write_rxBuf {t : Slot} (h : t.Inv) (i : Nat) (b : Byte) : { t with rxBuf := t.rxBuf.write i b }.Inv := by
  obtain ⟨hpush, hpull, hrx, htx, hline⟩ := h
  exact ⟨hpush, hpull, Memory.wf_write hrx i b, htx, hline⟩

theorem wf_txBufMem {t : Slot} (h : t.Inv) (b : TxBuf) : (txBufMem b t).wf = true := by
  obtain ⟨hpush, hpull, -⟩ := h
  cases b with
  | push => exact hpush
  | pull => exact hpull

theorem inv_setTxBuf {t : Slot} (h : t.Inv) (b : TxBuf) {m : Memory} (hm : m.wf = true) : (setTxBuf b m t).Inv := by
  obtain ⟨hpush, hpull, hrest⟩ := h
  cases b with
  | push => exact ⟨hm, hpull, hrest⟩
  | pull => exact ⟨hpush, hm, hrest⟩

theorem inv_setResp {a : Act} (h : a.link.Inv) {r : Responder} (hr : r.Inv) : (a.setResp r).link.Inv := ⟨hr, h.right⟩

theorem inv_setSlot {a : Act} (h : a.link.Inv) {t : Slot} (ht : t.Inv) : (a.setSlot t).link.Inv := ⟨h.left, ht⟩

theorem inv_setEnv {a : Act} (h : a.link.Inv) (e : Inputs) : (a.setEnv e).link.Inv := h

theorem inv_selectTx {a : Act} (h : a.link.Inv) {m : Memory} (hm : m.wf = true) : (selectTx m a).link.Inv := by
  obtain ⟨hresp, hpush, hpull, hrx, -, hline⟩ := h
  exact ⟨hresp, hpush, hpull, hrx, hm, hline⟩

theorem wf_encodeFrame {name : BufName} {o : ByteOrder} {off : Nat} {id : Id} {vb : List Byte} {m m' : Memory}
    (h : encodeFrame name o off id vb m = .ok m') (hm : m.wf = true) : m'.wf = true := by
  unfold encodeFrame at h
  split at h
  · cases h
  · cases h
    exact Memory.wf_writeBytes (Memory.wf_writeBytes (Memory.wf_writeBytes (Memory.wf_writeBytes hm _ _) _ _) _ _) _ _

/-! ### The responder's side -/

theorem inv_byteStep {a : Act} (h : a.link.Inv) (p : Nat) (rx : Byte) : (byteStep p rx a).link.Inv :=
  (Link.inv_iff _).mpr ⟨byteStep_respInv h.left p rx, byteStep_slot p rx a ▸ h.right⟩

theorem inv_dispatchFrame {a : Act} (h : a.link.Inv) (p : Nat) : (dispatchFrame p a).link.Inv := by
  rw [dispatchFrame_link]
  exact h

theorem inv_resetResponder {a : Act} (h : a.link.Inv) (p : Nat) : (resetResponder p a).link.Inv :=
  ⟨Responder.inv_reset _ _, h.right⟩

theorem inv_takeTurns {a : Act} (h : a.link.Inv) (p : Nat) (ts : List Turn) : (takeTurns p ts a).link.Inv := by
  induction ts generalizing a with
  | nil => exact h
  | cons t rest ih =>
    cases t with
    | dispatch => exact ih (inv_dispatchFrame h p)
    | powerCycle => exact ih (inv_resetResponder h p)

theorem inv_byteSteps {a : Act} (h : a.link.Inv) (p : Nat) (cs : List AddedClock) : (byteSteps p cs a).link.Inv := by
  induction cs generalizing a with
  | nil => exact h
  | cons c rest ih => exact ih (inv_byteStep (inv_takeTurns h p c.turns) p c.rx)

theorem inv_pause {a : Act} (h : a.link.Inv) (p : Nat) : (pause p a).link.Inv := by
  unfold pause
  split
  · exact h
  · exact inv_takeTurns (inv_setEnv h _) p _

/-! ### The bus -/

theorem inv_exchangeBytes {a : Act} (h : a.link.Inv) (s i : Nat) (txByte out : Byte) (d : Disturbance) :
    (exchangeBytes s i txByte out d a).link.Inv := by
  have written := inv_setSlot h (Slot.inv_write_rxBuf h.right i (d.toInitiator.getD out))
  refine inv_byteSteps ?_ s d.extraClocks
  split
  · exact written
  · exact inv_byteStep written s _

theorem inv_exchange {s i : Nat} {a b : Act} (h : exchange s i a = .ok b) (ha : a.link.Inv) : b.link.Inv := by
  unfold exchange at h
  split at h
  · cases h
  · split at h
    · cases h
    · simp only at h
      split at h <;> cases h
      · exact inv_setSlot ha (Slot.inv_write_rxBuf ha.right i _)
      · exact inv_exchangeBytes (inv_setEnv ha _) s i _ _ _

theorem inv_exchanges {s n i : Nat} {a b : Act} (h : exchanges s n i a = .ok b) (ha : a.link.Inv) : b.link.Inv := by
  induction n generalizing i a with
  | zero =>
    cases h
    exact inv_pause ha s
  | succ n ih =>
    unfold exchanges at h
    split at h
    · cases h
    · rename_i hx
      exact ih h (inv_exchange hx (inv_pause ha s))

theorem inv_transfer {s len : Nat} {a b : Act} (h : transfer s len a = .ok b) (ha : a.link.Inv) : b.link.Inv := by
  unfold transfer at h
  split at h
  · cases h
  · split at h
    · cases h
    · exact inv_exchanges h ha

/-! ### Check, validation, ticks -/

theorem inv_checkProbe {c : Cfg} {s : Nat} {a b : Act} {pass : Bool} (h : checkProbe c s a = .ok (pass, b))
    (ha : a.link.Inv) : b.link.Inv := by
  rcases checkProbe_cases h with ⟨-, rfl⟩ | ⟨-, rfl⟩
  · exact ha
  · exact ha

theorem inv_validateTxn {c : Cfg} {s n : Nat} {ok : Bool} {a b : Act} (h : validateTxn c s n a = .ok (ok, b))
    (ha : a.link.Inv) : b.link.Inv := by
  rcases validateTxn_link h with ⟨-, hb⟩ | ⟨-, hb⟩ <;> rw [hb]
  · exact ha
  · exact ha

/-- The pulse deasserts the line it asserts, and the responder it resets has the invariant (R231, R283). -/
theorem inv_restartPulse {a : Act} (h : a.link.Inv) (s : Nat) : (restartPulse s a).link.Inv := by
  obtain ⟨idb, vb, e, hpulse⟩ := restartPulse_frame s a
  rw [hpulse]
  obtain ⟨-, hpush, hpull, hrx, htx, -⟩ := h
  exact ⟨Responder.inv_reset idb vb, hpush, hpull, hrx, htx, rfl⟩

theorem inv_tickFailed {a : Act} (h : a.link.Inv) (c : Cfg) (n : Nat) (kind : TickKind) :
    (tickFailed c n kind a).link.Inv := by
  simp only [tickFailed]
  split
  · refine inv_restartPulse (inv_pause ?_ n) n
    exact h
  · exact h

theorem inv_fillPush {c : Cfg} {n j : Nat} {ids : List Id} {a b : Act} (h : fillPush c n j ids a = .ok b)
    (ha : a.link.Inv) : b.link.Inv := by
  induction ids generalizing j a with
  | nil => cases h; exact ha
  | cons id rest ih =>
    simp only [fillPush] at h
    split at h
    · cases h
    · rename_i m hm
      exact ih h (inv_setSlot ha (inv_setTxBuf ha.right .push (wf_encodeFrame hm (wf_txBufMem ha.right .push))))

theorem inv_transact {c : Cfg} {n : Nat} {buf : TxBuf} {a b : Act} {ok : Bool} (h : transact c n buf a = .ok (ok, b))
    (ha : a.link.Inv) : b.link.Inv := by
  unfold transact at h
  split at h
  · cases h
  · rename_i a1 hprep
    simp only at h
    split at h
    · cases h
    · rename_i a2 htransfer
      have prepared : a1.link.Inv := by
        cases buf with
        | push => exact inv_fillPush hprep ha
        | pull => cases hprep; exact ha
      exact inv_validateTxn h (inv_transfer htransfer (inv_selectTx prepared (wf_txBufMem prepared.right buf)))

theorem inv_commandTick {c : Cfg} {n : Nat} {plan : List TxBuf} {a b : Act} (h : commandTick c n plan a = .ok b)
    (ha : a.link.Inv) : b.link.Inv := by
  induction plan generalizing a with
  | nil => cases h; exact ha
  | cons buf rest ih =>
    unfold commandTick at h
    split at h
    · exact ih h ha
    · split at h
      · cases h
      · rename_i htxn
        exact ih h (inv_transact htxn ha)
      · rename_i htxn
        cases h
        exact inv_tickFailed (inv_transact htxn ha) c n .command

theorem inv_probeTick {c : Cfg} {n : Nat} {a b : Act} (h : probeTick c n a = .ok b) (ha : a.link.Inv) : b.link.Inv := by
  unfold probeTick at h
  split at h
  · cases h
  · rename_i htransfer
    have sent := inv_transfer htransfer (inv_selectTx ha (Memory.wf_ofBytes _))
    split at h
    · cases h
    · rename_i hcheck
      cases h
      exact inv_setSlot (inv_checkProbe hcheck sent) (inv_checkProbe hcheck sent).right
    · rename_i hcheck
      cases h
      exact inv_tickFailed (inv_checkProbe hcheck sent) c n .probe

theorem inv_slotTick {c : Cfg} {n : Nat} {a b : Act} (h : slotTick c n a = .ok b) (ha : a.link.Inv) : b.link.Inv := by
  unfold slotTick at h
  split at h
  · exact inv_probeTick h ha
  · exact inv_commandTick h ha

/-! ### Reset (R281, R282) -/

theorem inv_resetLink (c : Cfg) (s : Nat) (l : Link) : (resetLink c s l).Inv :=
  ⟨Responder.inv_reset _ _, Slot.inv_reset c l.slotCfg⟩

/-! ## The invariant of the machine -/

theorem inv_withLink {s : State} (hs : s.Inv) {l' : Link} (hl' : l'.Inv) (n : Nat) (fx : List Effect) (r : Result) :
    (s.withLink n l' fx r).Inv := by
  refine ⟨fun l hl => ?_, hs.right⟩
  rcases List.mem_or_eq_of_mem_set hl with hl | rfl
  · exact hs.left l hl
  · exact hl'

/-- An operation on one link that keeps the link's invariant keeps the machine's. -/
theorem inv_onLink {s t : State} {n : Nat} {f : Act → Except Fault (Result × Act)} (h : s.onLink n f = .next t)
    (hs : s.Inv) (hf : ∀ a r b, f a = .ok (r, b) → a.link.Inv → b.link.Inv) : t.Inv := by
  obtain ⟨l, r, a, hl, hok, rfl⟩ := onLink_cases h
  exact inv_withLink hs (hf _ _ _ hok (hs.left l (List.mem_of_getElem? hl))) n a.fx r

theorem inv_byteOperation {i : Instr} {p : Nat} {rx : Byte} {op : Act → Act} {s t : State}
    (hexec : exec i s = byteOperation i p rx op s) (h : byteOperation i p rx op s = .next t) (hs : s.Inv) : t.Inv := by
  obtain ⟨l, r, hl, rfl⟩ := byteOperation_byteStep hexec h
  exact inv_withLink hs (inv_byteStep (hs.left l (List.mem_of_getElem? hl)) p rx) p _ r

theorem inv_encodeInto {b : TxBuf} {n off : Nat} {id : Id} {v : Value} {s t : State}
    (h : encodeInto b n off id v s = .next t) (hs : s.Inv) : t.Inv :=
  inv_onLink h hs fun a r d hf ha => by
    split at hf
    · cases hf
    · rename_i m hm
      cases hf
      exact inv_setSlot ha (inv_setTxBuf ha.right b (wf_encodeFrame hm (wf_txBufMem ha.right b)))

theorem inv_decodeFrom {b : Buf} {n off : Nat} {ty : ValueType} {s t : State} (h : decodeFrom b n off ty s = .next t)
    (hs : s.Inv) : t.Inv :=
  inv_onLink h hs fun a r d hf ha => by
    split at hf <;> cases hf
    exact ha

theorem inv_sendNine {n : Nat} {w : List Byte} {s t : State} (h : sendNine n w s = .next t) (hs : s.Inv) : t.Inv :=
  inv_onLink h hs fun a r d hf ha => by
    split at hf
    · cases hf
    · rename_i htransfer
      cases hf
      exact inv_transfer htransfer (inv_selectTx ha (Memory.wf_ofBytes w))

theorem inv_receiveNine {n : Nat} {w : List Byte} {s t : State} (h : receiveNine n w s = .next t) (hs : s.Inv) : t.Inv :=
  inv_onLink h hs fun a r d hf ha => by
    split at hf
    · cases hf
    · rename_i htransfer
      cases hf
      exact inv_transfer htransfer ha

theorem inv_resetAll {s : State} : (resetAll s).Inv := by
  refine ⟨fun l' hl' => ?_, Nat.zero_le _⟩
  obtain ⟨n, l, rfl⟩ := mem_resetLinks hl'
  exact inv_resetLink s.cfg n l

/-- The counter of `W.INC` saturates at its width (R37, R212). -/
theorem wdNext_le {c : Cfg} {n : Nat} (h : n ≤ wdMax c) : wdNext c n ≤ wdMax c := by
  unfold wdNext
  split
  · assumption
  · exact h

theorem inv_execDecId {b : Buf} {n off : Nat} {s t : State} (h : execDecId b n off s = .next t) (hs : s.Inv) : t.Inv :=
  inv_onLink h hs fun a r d hf ha => by
    split at hf <;> cases hf
    exact ha

theorem inv_execIProbe {n : Nat} {s t : State} (h : execIProbe n s = .next t) (hs : s.Inv) : t.Inv :=
  inv_onLink h hs fun a r d hf ha => by
    split at hf <;> cases hf
    · exact inv_selectTx ha (Memory.wf_ofBytes _)
    · exact ha

theorem inv_execICheck {n : Nat} {s t : State} (h : execICheck n s = .next t) (hs : s.Inv) : t.Inv :=
  inv_onLink h hs fun a r d hf ha => by
    split at hf
    · split at hf
      · cases hf
      · rename_i hcheck
        cases hf
        exact inv_checkProbe hcheck ha
    · cases hf
      exact ha

theorem inv_execSDispatch {p : Nat} {s t : State} (h : execSDispatch p s = .next t) (hs : s.Inv) : t.Inv :=
  inv_onLink h hs fun a r d hf ha => by
    cases hf
    exact inv_dispatchFrame ha p

theorem inv_execVSlot {n k : Nat} {s t : State} (h : execVSlot n k s = .next t) (hs : s.Inv) : t.Inv :=
  inv_onLink h hs fun a r d hf ha => by
    split at hf
    · cases hf
    · rename_i hslot
      cases hf
      exact validateSlot_link hslot ▸ ha

theorem inv_execVTxn {n count : Nat} {s t : State} (h : execVTxn n count s = .next t) (hs : s.Inv) : t.Inv :=
  inv_onLink h hs fun a r d hf ha => by
    split at hf
    · cases hf
    · rename_i htxn
      cases hf
      exact inv_validateTxn htxn ha

theorem inv_execTTick {n : Nat} {s t : State} (h : execTTick n s = .next t) (hs : s.Inv) : t.Inv :=
  inv_onLink h hs fun a r d hf ha => by
    split at hf
    · cases hf
    · rename_i htick
      cases hf
      exact inv_slotTick htick ha

theorem inv_execTRestart {n : Nat} {s t : State} (h : execTRestart n s = .next t) (hs : s.Inv) : t.Inv :=
  inv_onLink h hs fun a r d hf ha => by
    cases hf
    exact inv_restartPulse ha n

theorem inv_execBXchg {n k : Nat} {s t : State} (h : execBXchg n k s = .next t) (hs : s.Inv) : t.Inv :=
  inv_onLink h hs fun a r d hf ha => by
    split at hf
    · cases hf
    · rename_i hx
      cases hf
      exact inv_exchange hx ha

theorem inv_execReset {target : ResetTarget} {s t : State} (h : execReset target s = .next t) (hs : s.Inv) : t.Inv := by
  cases target with
  | all =>
    cases h
    exact inv_resetAll
  | responder p =>
    have h : s.onLink p (fun a => .ok (.none, resetResponder p a)) = .next t := h
    exact inv_onLink h hs fun a r d hf ha => by
      cases hf
      exact inv_resetResponder ha p

theorem inv_execWInc {s t : State} (h : execWInc s = .next t) (hs : s.Inv) : t.Inv := by
  cases h
  exact ⟨hs.left, wdNext_le hs.right⟩

theorem inv_execWCheck {s t : State} (h : execWCheck s = .next t) (hs : s.Inv) : t.Inv := by
  unfold execWCheck at h
  split at h <;> cases h
  · exact ⟨hs.left, Nat.zero_le _⟩
  · exact ⟨hs.left, Nat.zero_le _⟩

/-- Every instruction keeps the invariant. -/
theorem inv_exec {i : Instr} {s t : State} (h : exec i s = .next t) (hs : s.Inv) : t.Inv := by
  cases i with
  | encI16 | encI32 | encF32 => exact inv_encodeInto h hs
  | decI16 | decI32 | decF32 => exact inv_decodeFrom h hs
  | decId => exact inv_execDecId h hs
  | rAdv | rFin | rMiss | sId | sSel | sVal | sAck | sDesync | sEnd => exact inv_byteOperation rfl h hs
  | iProbe => exact inv_execIProbe h hs
  | iCheck => exact inv_execICheck h hs
  | sDispatch => exact inv_execSDispatch h hs
  | vSlot => exact inv_execVSlot h hs
  | vTxn => exact inv_execVTxn h hs
  | wInc => exact inv_execWInc h hs
  | wCheck => exact inv_execWCheck h hs
  | tTick => exact inv_execTTick h hs
  | tRestart => exact inv_execTRestart h hs
  | bXchg => exact inv_execBXchg h hs
  | reset => exact inv_execReset h hs
  | frame | probe => exact inv_sendNine h hs
  | reply | probeReply => exact inv_receiveNine h hs

/-- Settles O55: a step idles or runs one instruction, and every instruction keeps the invariant. -/
theorem stepKeepsTheInvariant : Obligations.StepKeepsTheInvariant := by
  intro s t hs h
  obtain ⟨es, rfl | ⟨i, hi⟩⟩ := step_cases h
  · exact hs
  · exact inv_exec hi hs

end Machine
end Sys2Proof
end

section
/-! PROOFS. Who writes the two synchronization bits (R21, R30). -/

namespace Sys2Proof
namespace Machine

/-! ## What an instruction may do to the two bits -/

/-- The operation carries byte steps of responder `n` over the bus (log 15). -/
def CarriesByteSteps (i : Instr) (n : Nat) : Prop :=
  (∃ k, i = .bXchg n k) ∨ i = .tTick n ∨ (∃ id v, i = .frame n id v) ∨ i = .probe n ∨
    (∃ prev id v ack, i = .reply n prev id v ack) ∨ ∃ prev, i = .probeReply n prev

/-- What instruction `i` may do to `m_sync[n]` (R30): keep it, set it by a check, clear it by one of the named operations, or
either by a tick. -/
def MSyncRule (i : Instr) (n : Nat) (l l' : Link) : Prop :=
  l'.slot.mSync = l.slot.mSync ∨ (i = .iCheck n ∧ l'.slot.mSync = .synchronized) ∨
    (((∃ count, i = .vTxn n count) ∨ i = .tRestart n ∨ i = .reset .all) ∧ l'.slot.mSync = .unsynchronized) ∨ i = .tTick n

/-- What instruction `i` may do to `s_sync` of responder `n` (R21): keep it, set it by `R.FIN`, clear it by `S.DESYNC` or a
reset, or either by a byte step that it carries. -/
def SSyncRule (i : Instr) (n : Nat) (l l' : Link) : Prop :=
  l'.resp.sSync = l.resp.sSync ∨ ((∃ rx, i = .rFin n rx) ∧ l'.resp.sSync = .synchronized) ∨
    (((∃ pos rx, i = .sDesync n pos rx) ∨ i = .tRestart n ∨ i = .reset .all ∨ i = .reset (.responder n)) ∧
      l'.resp.sSync = .unsynchronized) ∨ CarriesByteSteps i n

/-- Both rules. -/
def SyncRule (i : Instr) (n : Nat) (l l' : Link) : Prop := MSyncRule i n l l' ∧ SSyncRule i n l l'

/-- Both bits stay. -/
def KeepsSync (l l' : Link) : Prop := l'.slot.mSync = l.slot.mSync ∧ l'.resp.sSync = l.resp.sSync

theorem KeepsSync.refl (l : Link) : KeepsSync l l := ⟨rfl, rfl⟩

theorem KeepsSync.syncRule {l l' : Link} (h : KeepsSync l l') (i : Instr) (n : Nat) : SyncRule i n l l' :=
  ⟨.inl h.left, .inl h.right⟩

/-- `m_sync` stays. -/
def KeepsMSync (l l' : Link) : Prop := l'.slot.mSync = l.slot.mSync

theorem KeepsMSync.syncRule {l l' : Link} (h : KeepsMSync l l') {i : Instr} {n : Nat} (hi : CarriesByteSteps i n) :
    SyncRule i n l l' := ⟨.inl h, .inr (.inr (.inr hi))⟩

/-! ## Operations that keep both bits -/

theorem keepsSync_selectValue (p : Nat) (rx : Byte) (a : Act) : KeepsSync a.link (selectValue p rx a).link := by
  unfold selectValue
  split
  · exact ⟨rfl, rfl⟩
  · exact ⟨rfl, rfl⟩

theorem keepsSync_furtherValue (rx : Byte) (a : Act) : KeepsSync a.link (furtherValue rx a).link := by
  simp only [furtherValue]
  split
  · exact ⟨rfl, rfl⟩
  · exact ⟨rfl, rfl⟩

theorem keepsSync_dispatchFrame (p : Nat) (a : Act) : KeepsSync a.link (dispatchFrame p a).link := by
  rw [dispatchFrame_link]
  exact ⟨rfl, rfl⟩

theorem keepsSync_setTxBuf (b : TxBuf) (m : Memory) (a : Act) :
    KeepsSync a.link (a.setSlot (setTxBuf b m a.link.slot)).link := ⟨setTxBuf_mSync b m a.link.slot, rfl⟩

/-! ## Each instruction on its own link -/

/-- The run from `s` to `t` replaces link `n`, the effects and the result, and the old and the new link are in `P`. -/
def LinkRelated (P : Link → Link → Prop) (n : Nat) (s t : State) : Prop :=
  ∃ l l' fx r, s.links[n]? = some l ∧ t = s.withLink n l' fx r ∧ P l l'

theorem linkRelated_onLink {P : Link → Link → Prop} {s t : State} {n : Nat} {f : Act → Except Fault (Result × Act)}
    (h : s.onLink n f = .next t) (hf : ∀ a r b, f a = .ok (r, b) → P a.link b.link) : LinkRelated P n s t := by
  obtain ⟨l, r, a, hl, hok, ht⟩ := onLink_cases h
  exact ⟨l, a.link, a.fx, r, hl, ht, hf _ _ _ hok⟩

theorem linkRelated_byteOperation {P : Link → Link → Prop} {i : Instr} {p : Nat} {rx : Byte} {op : Act → Act} {s t : State}
    (h : byteOperation i p rx op s = .next t) (hop : ∀ a, P a.link (op a).link) : LinkRelated P p s t := by
  obtain ⟨l, hl, -, -, ht⟩ := byteOperation_cases h
  exact ⟨l, _, _, _, hl, ht, hop ⟨l, s.effects⟩⟩

theorem LinkRelated.imp {P Q : Link → Link → Prop} {n : Nat} {s t : State} (h : LinkRelated P n s t)
    (hPQ : ∀ l l', P l l' → Q l l') : LinkRelated Q n s t := by
  obtain ⟨l, l', fx, r, hl, ht, hP⟩ := h
  exact ⟨l, l', fx, r, hl, ht, hPQ l l' hP⟩

theorem keepsSync_encodeInto {b : TxBuf} {n off : Nat} {id : Id} {v : Value} {s t : State}
    (h : encodeInto b n off id v s = .next t) : LinkRelated KeepsSync n s t :=
  linkRelated_onLink h fun a r d hf => by
    split at hf <;> cases hf
    exact keepsSync_setTxBuf b _ a

theorem keepsSync_decodeFrom {b : Buf} {n off : Nat} {ty : ValueType} {s t : State}
    (h : decodeFrom b n off ty s = .next t) : LinkRelated KeepsSync n s t :=
  linkRelated_onLink h fun a r d hf => by
    split at hf <;> cases hf
    exact .refl _

theorem keepsSync_execDecId {b : Buf} {n off : Nat} {s t : State} (h : execDecId b n off s = .next t) :
    LinkRelated KeepsSync n s t :=
  linkRelated_onLink h fun a r d hf => by
    split at hf <;> cases hf
    exact .refl _

theorem keepsSync_execIProbe {n : Nat} {s t : State} (h : execIProbe n s = .next t) : LinkRelated KeepsSync n s t :=
  linkRelated_onLink h fun a r d hf => by
    split at hf <;> cases hf
    · exact ⟨rfl, rfl⟩
    · exact .refl _

theorem keepsSync_execSDispatch {p : Nat} {s t : State} (h : execSDispatch p s = .next t) :
    LinkRelated KeepsSync p s t :=
  linkRelated_onLink h fun a r d hf => by
    cases hf
    exact keepsSync_dispatchFrame p a

theorem keepsSync_execVSlot {n k : Nat} {s t : State} (h : execVSlot n k s = .next t) : LinkRelated KeepsSync n s t :=
  linkRelated_onLink h fun a r d hf => by
    split at hf
    · cases hf
    · rename_i hslot
      cases hf
      rw [validateSlot_link hslot]
      exact .refl _

theorem syncRule_execICheck {n : Nat} {s t : State} (h : execICheck n s = .next t) :
    LinkRelated (SyncRule (.iCheck n) n) n s t :=
  linkRelated_onLink h fun a r d hf => by
    split at hf
    · split at hf
      · cases hf
      · rename_i hcheck
        cases hf
        rcases checkProbe_cases hcheck with ⟨-, rfl⟩ | ⟨-, rfl⟩
        · exact ⟨.inr (.inl ⟨rfl, rfl⟩), .inl rfl⟩
        · exact (KeepsSync.refl _).syncRule _ _
    · cases hf
      exact (KeepsSync.refl _).syncRule _ _

theorem syncRule_execVTxn {n count : Nat} {s t : State} (h : execVTxn n count s = .next t) :
    LinkRelated (SyncRule (.vTxn n count) n) n s t :=
  linkRelated_onLink h fun a r d hf => by
    split at hf
    · cases hf
    · rename_i htxn
      cases hf
      rcases validateTxn_link htxn with ⟨-, hd⟩ | ⟨-, hd⟩ <;> rw [hd]
      · exact (KeepsSync.refl _).syncRule _ _
      · exact ⟨.inr (.inr (.inl ⟨.inl ⟨count, rfl⟩, rfl⟩)), .inl rfl⟩

theorem syncRule_execTRestart {n : Nat} {s t : State} (h : execTRestart n s = .next t) :
    LinkRelated (SyncRule (.tRestart n) n) n s t :=
  linkRelated_onLink h fun a r d hf => by
    cases hf
    exact ⟨.inr (.inr (.inl ⟨.inr (.inl rfl), rfl⟩)), .inr (.inr (.inl ⟨.inr (.inl rfl), rfl⟩))⟩

theorem syncRule_resetResponder {n : Nat} {s t : State} (h : exec (.reset (.responder n)) s = .next t) :
    LinkRelated (SyncRule (.reset (.responder n)) n) n s t :=
  linkRelated_onLink (f := fun a => .ok (.none, resetResponder n a)) h fun a r d hf => by
    cases hf
    exact ⟨.inl rfl, .inr (.inr (.inl ⟨.inr (.inr (.inr rfl)), rfl⟩))⟩

theorem syncRule_execTTick {n : Nat} {s t : State} (h : execTTick n s = .next t) :
    LinkRelated (SyncRule (.tTick n) n) n s t :=
  linkRelated_onLink h fun _ _ _ _ => ⟨.inr (.inr (.inr rfl)), .inr (.inr (.inr (.inr (.inl rfl))))⟩

theorem transfer_mSync {s len : Nat} {a b : Act} (h : transfer s len a = .ok b) :
    b.link.slot.mSync = a.link.slot.mSync := by
  obtain ⟨m, hslot⟩ := transfer_slot h
  rw [hslot]

theorem keepsMSync_execBXchg {n k : Nat} {s t : State} (h : execBXchg n k s = .next t) : LinkRelated KeepsMSync n s t :=
  linkRelated_onLink h fun a r d hf => by
    split at hf
    · cases hf
    · rename_i hx
      cases hf
      obtain ⟨m, hslot⟩ := exchange_slot hx
      rw [KeepsMSync, hslot]

theorem keepsMSync_sendNine {n : Nat} {w : List Byte} {s t : State} (h : sendNine n w s = .next t) :
    LinkRelated KeepsMSync n s t :=
  linkRelated_onLink h fun a r d hf => by
    split at hf
    · cases hf
    · rename_i htransfer
      cases hf
      exact (transfer_mSync htransfer).trans rfl

theorem keepsMSync_receiveNine {n : Nat} {w : List Byte} {s t : State} (h : receiveNine n w s = .next t) :
    LinkRelated KeepsMSync n s t :=
  linkRelated_onLink h fun a r d hf => by
    split at hf
    · cases hf
    · rename_i htransfer
      cases hf
      exact (transfer_mSync htransfer).trans rfl

/-- Every one-link instruction follows both rules on its link. -/
theorem syncRule_exec_own {i : Instr} {n : Nat} {s t : State} (hi : linkOf i = some n) (h : exec i s = .next t) :
    LinkRelated (SyncRule i n) n s t := by
  have kept : LinkRelated KeepsSync n s t → LinkRelated (SyncRule i n) n s t := fun hk => hk.imp fun _ _ h => h.syncRule i n
  have carried : CarriesByteSteps i n → LinkRelated KeepsMSync n s t → LinkRelated (SyncRule i n) n s t :=
    fun hc hk => hk.imp fun _ _ h => h.syncRule hc
  cases i with
  | wInc | wCheck => cases hi
  | encI16 | encI32 | encF32 => cases hi; exact kept (keepsSync_encodeInto h)
  | decI16 | decI32 | decF32 => cases hi; exact kept (keepsSync_decodeFrom h)
  | decId => cases hi; exact kept (keepsSync_execDecId h)
  | rAdv | rMiss | sId | sAck | sEnd => cases hi; exact kept (linkRelated_byteOperation h fun _ => ⟨rfl, rfl⟩)
  | sSel => cases hi; exact kept (linkRelated_byteOperation h (keepsSync_selectValue _ _))
  | sVal => cases hi; exact kept (linkRelated_byteOperation h (keepsSync_furtherValue _))
  | rFin p rx =>
    cases hi
    exact linkRelated_byteOperation h fun _ => ⟨.inl rfl, .inr (.inl ⟨⟨rx, rfl⟩, rfl⟩)⟩
  | sDesync p pos rx =>
    cases hi
    exact linkRelated_byteOperation h fun _ => ⟨.inl rfl, .inr (.inr (.inl ⟨.inl ⟨pos, rx, rfl⟩, rfl⟩))⟩
  | iProbe => cases hi; exact kept (keepsSync_execIProbe h)
  | iCheck => cases hi; exact syncRule_execICheck h
  | sDispatch => cases hi; exact kept (keepsSync_execSDispatch h)
  | vSlot => cases hi; exact kept (keepsSync_execVSlot h)
  | vTxn => cases hi; exact syncRule_execVTxn h
  | tTick => cases hi; exact syncRule_execTTick h
  | tRestart => cases hi; exact syncRule_execTRestart h
  | reset target =>
    cases target with
    | all => cases hi
    | responder p => cases hi; exact syncRule_resetResponder h
  | bXchg n k => cases hi; exact carried (.inl ⟨k, rfl⟩) (keepsMSync_execBXchg h)
  | frame n id v => cases hi; exact carried (.inr (.inr (.inl ⟨id, v, rfl⟩))) (keepsMSync_sendNine h)
  | probe => cases hi; exact carried (.inr (.inr (.inr (.inl rfl)))) (keepsMSync_sendNine h)
  | reply n prev id v ack =>
    cases hi
    exact carried (.inr (.inr (.inr (.inr (.inl ⟨prev, id, v, ack, rfl⟩))))) (keepsMSync_receiveNine h)
  | probeReply n prev =>
    cases hi
    exact carried (.inr (.inr (.inr (.inr (.inr ⟨prev, rfl⟩))))) (keepsMSync_receiveNine h)

/-! ## Every link -/

/-- An instruction leaves every link but its own; the watchdog's leave all of them, `RESET all` none. -/
theorem exec_links_of_ne {i : Instr} {n : Nat} {s t : State} (h : exec i s = .next t) (hi : linkOf i ≠ some n)
    (hall : i ≠ .reset .all) : t.links[n]? = s.links[n]? := by
  cases hm : linkOf i with
  | some m =>
    obtain ⟨l, l', fx, r, -, rfl, -⟩ := exec_actsOnLink hm s t h
    exact List.getElem?_set_ne fun hmn => hi (hm.trans (congrArg some hmn))
  | none =>
    cases i with
    | wInc => cases h; rfl
    | wCheck =>
      simp only [exec, execWCheck] at h
      split at h <;> cases h <;> rfl
    | reset target =>
      cases target with
      | all => exact absurd rfl hall
      | responder p => cases hm
    | _ => cases hm

/-- Every instruction follows both rules on every link. -/
theorem syncRule_exec {i : Instr} {n : Nat} {s t : State} {l l' : Link} (h : exec i s = .next t)
    (hl : s.links[n]? = some l) (hl' : t.links[n]? = some l') : SyncRule i n l l' := by
  by_cases hi : linkOf i = some n
  · obtain ⟨k, k', fx, r, hk, rfl, hrule⟩ := syncRule_exec_own hi h
    have hk' : (s.withLink n k' fx r).links[n]? = some k' := by simp [List.getElem?_set_self', hk]
    cases hl.symm.trans hk
    cases hl'.symm.trans hk'
    exact hrule
  · by_cases hall : i = .reset .all
    · subst hall
      cases h
      obtain ⟨j, k, rfl⟩ := mem_resetLinks (List.mem_of_getElem? hl')
      exact ⟨.inr (.inr (.inl ⟨.inr (.inr rfl), rfl⟩)), .inr (.inr (.inl ⟨.inr (.inr (.inl rfl)), rfl⟩))⟩
    · rw [exec_links_of_ne h hi hall] at hl'
      cases hl.symm.trans hl'
      exact (KeepsSync.refl l).syncRule i n

/-- Settles O57: a bit that has changed was not kept, and the rules name who else may have written it. -/
theorem whoWritesTheSyncBits : Obligations.WhoWritesTheSyncBits := by
  intro s t i n l l' h hl hl'
  obtain ⟨hm, hs⟩ := syncRule_exec h hl hl'
  refine ⟨fun h0 h1 => ?_, fun h1 h0 => ?_, fun hx ht hf hp hr hpr => ?_⟩
  · rcases hm with hkeep | ⟨hi, -⟩ | ⟨-, hclear⟩ | hi
    · simp [h0, h1] at hkeep
    · exact .inl hi
    · simp [h1] at hclear
    · exact .inr hi
  · rcases hm with hkeep | ⟨-, hset⟩ | ⟨hi, -⟩ | hi
    · simp [h0, h1] at hkeep
    · simp [h0] at hset
    · exact hi.imp_right .inr
    · exact .inr (.inl hi)
  · have hcarries : ¬ CarriesByteSteps i n := by
      rintro (⟨k, hi⟩ | hi | ⟨id, v, hi⟩ | hi | ⟨prev, id, v, ack, hi⟩ | ⟨prev, hi⟩)
      · exact hx k hi
      · exact ht hi
      · exact hf id v hi
      · exact hp hi
      · exact hr prev id v ack hi
      · exact hpr prev hi
    refine ⟨fun h0 h1 => ?_, fun h1 h0 => ?_⟩
    · rcases hs with hkeep | ⟨hi, -⟩ | ⟨-, hclear⟩ | hi
      · simp [h0, h1] at hkeep
      · exact hi
      · simp [h1] at hclear
      · exact absurd hi hcarries
    · rcases hs with hkeep | ⟨-, hset⟩ | ⟨hi, -⟩ | hi
      · simp [h0, h1] at hkeep
      · simp [h0] at hset
      · exact hi
      · exact absurd hi hcarries

end Machine
end Sys2Proof
end

section
/-! PROOFS. What an operation on one link leaves unchanged outside that link (R63, R268). -/

namespace Sys2Proof
namespace Machine

/-- Writing link `n` into the state leaves every other link in place. -/
theorem State.withLink_links_of_ne (s : State) {n k : Nat} (hk : k ≠ n) (l : Link) (fx : List Effect) (r : Result) :
    (s.withLink n l fx r).links[k]? = s.links[k]? :=
  List.getElem?_set_ne hk.symm

/-- Writing a link into the state neither adds nor removes one. -/
theorem State.withLink_links_length (s : State) (n : Nat) (l : Link) (fx : List Effect) (r : Result) :
    (s.withLink n l fx r).links.length = s.links.length :=
  List.length_set

/-- Settles O51: a one-link instruction that answers has written its own link, the effects and the result, and nothing else. -/
theorem otherLinksUntouched : Obligations.OtherLinksUntouched := by
  intro s t i n k hi ht hk
  obtain ⟨l, l', fx, r, -, rfl, -⟩ := exec_actsOnLink hi s t ht
  exact ⟨s.withLink_links_of_ne hk l' fx r, s.withLink_links_length n l' fx r, State.withLink_cfg .., State.withLink_wdCounter ..,
    State.withLink_wdState .., State.withLink_events ..⟩

end Machine
end Sys2Proof
end

section
/-! PROOFS. The byte step follows the table of R105, row by row. -/

namespace Sys2Proof
namespace Machine

/-- The operation that the table of R105 selects is the one that the byte step performs. -/
theorem byteStepPerforms_of_selected {l : Link} {p : Nat} {rx : Byte} {i : Instr}
    (h : selected l.respCfg l.resp p rx = i) : ByteStepPerforms l p rx i := by
  subst h
  exact ⟨decode_skey .., fun hr => ⟨fun _ _ he hl => step_byteClock he hl hr, fun _ hl => exec_selected rx hl hr⟩⟩

/-- The codes 9..15 of the field `pppp` name no position (R105). -/
theorem decode_skey_of_nine_le {key : BitVec 6} (h : 9 ≤ key.toNat / 2 % 16) (S : StartSeq) (p : Nat) (rx : Byte) :
    decode S (.skey key p rx) = .error (.illegalKey key) :=
  dif_neg (Nat.not_lt.mpr h)

/-- Settles O4: each row's state, position and byte single out one branch of the selector, and what the selector gives is what the
byte step performs. -/
theorem byteClockSelectsByTable : Obligations.ByteClockSelectsByTable := by
  refine ⟨fun l p rx => ⟨fun hs => ?unsynchronized, fun hs => ?synchronized⟩, fun S key p rx h => decode_skey_of_nine_le h S p rx⟩
  case unsynchronized =>
    have hsel := selected_unsynchronized (c := l.respCfg) hs p rx
    refine ⟨fun hrx hpos => ?adv, fun hrx hpos => ?fin, fun hrx => ?miss⟩ <;> refine byteStepPerforms_of_selected (hsel.trans ?_)
    case adv => rw [if_pos hrx, if_neg hpos]
    case fin => rw [if_pos hrx, if_pos hpos]
    case miss => rw [if_neg hrx]
  case synchronized =>
    have hsel := selected_synchronized (c := l.respCfg) hs p rx
    refine ⟨fun hpos => ?id, fun hpos => ?sel, fun hpos => ?val, fun hpos hrx => ?ack, fun hpos hrx => ?desync, fun hpos => ?done⟩ <;>
      refine byteStepPerforms_of_selected (hsel.trans ?_)
    case id => rw [if_pos (by omega)]
    case sel => rw [if_neg (by omega), if_pos hpos]
    case val => rw [if_neg (by omega), if_neg (by omega), if_pos (by omega)]
    case ack => rw [if_neg (by omega), if_neg (by omega), if_neg (by omega), if_pos (by omega), if_pos hrx]
    case desync => rw [if_neg (by omega), if_neg (by omega), if_neg (by omega), if_pos (by omega), if_neg hrx]
    case done => rw [if_neg (by omega), if_neg (by omega), if_neg (by omega), if_neg (by omega)]

end Machine
end Sys2Proof
end

section
/-! PROOFS. The Frame Codec: what an encode puts into a buffer, and that a decode reads it back (R120 to R131). -/

namespace Sys2Proof
namespace Machine

/-! ## Bytes that a memory holds -/

@[simp] theorem Memory.holds_nil (m : Memory) (a : Nat) : m.Holds a [] := fun _ h => absurd h (Nat.not_lt_zero _)

@[simp] theorem Memory.holds_cons {m : Memory} {a : Nat} {b : Byte} {bs : List Byte} :
    m.Holds a (b :: bs) ↔ m.read a = b ∧ m.Holds (a + 1) bs := by
  refine ⟨fun h => ⟨h 0 (Nat.succ_pos _), fun i hi => ?_⟩, fun ⟨hb, hbs⟩ i hi => ?_⟩
  · rw [Nat.add_right_comm]
    exact h (i + 1) (Nat.succ_lt_succ hi)
  · cases i with
    | zero => exact hb
    | succ i =>
      rw [← Nat.add_assoc, Nat.add_right_comm]
      exact hbs i (Nat.lt_of_succ_lt_succ hi)

/-- Two fields that lie one behind the other. -/
theorem Memory.holds_append {m : Memory} {a : Nat} {bs cs : List Byte} :
    m.Holds a (bs ++ cs) ↔ m.Holds a bs ∧ m.Holds (a + bs.length) cs := by
  induction bs generalizing a with
  | nil => simp
  | cons b bs ih => simp [ih, and_assoc, Nat.add_assoc, Nat.add_comm 1]

/-- Writing bytes elsewhere keeps a field. -/
theorem Memory.Holds.writeBytes {m : Memory} {a c : Nat} {bs cs : List Byte} (h : m.Holds a bs)
    (hc : a + bs.length ≤ c ∨ c + cs.length ≤ a) : (m.writeBytes c cs).Holds a bs := by
  intro i hi
  rw [Memory.read_writeBytes_ne _ _ _ (by omega)]
  exact h i hi

/-! ## Byte order: a number and its bytes (R15) -/

@[simp] theorem length_bytes16 (o : ByteOrder) (v : BitVec 16) : (bytes16 o v).length = 2 := by cases o <;> rfl

@[simp] theorem length_bytes32 (o : ByteOrder) (v : Word32) : (bytes32 o v).length = 4 := by cases o <;> rfl

/-- A 32-bit pattern is its four bytes, the highest one first. -/
theorem append_bytes_eq_self (v : Word32) :
    v.extractLsb' 24 8 ++ v.extractLsb' 16 8 ++ v.extractLsb' 8 8 ++ v.extractLsb' 0 8 = v := by
  rw [BitVec.extractLsb'_append_extractLsb'_eq_extractLsb' (show 24 = 16 + 8 from rfl),
    BitVec.extractLsb'_append_extractLsb'_eq_extractLsb' (show 16 = 8 + 8 from rfl)]
  exact BitVec.extractLsb'_append_extractLsb' (w := 24) (len := 8)

/-- A 16-bit number is read back from its two bytes, in either byte order. -/
theorem ord16_of_holds {m : Memory} {a : Nat} {o : ByteOrder} {v : BitVec 16} (h : m.Holds a (bytes16 o v)) :
    ord16 o (m.read a) (m.read (a + 1)) = v := by
  cases o <;>
  · simp only [bytes16, Memory.holds_cons] at h
    obtain ⟨h0, h1, -⟩ := h
    simp only [ord16, h0, h1]
    exact BitVec.extractLsb'_append_extractLsb' (w := 8) (len := 8)

/-- A 32-bit pattern is read back from its four bytes, in either byte order. -/
theorem ord32_of_holds {m : Memory} {a : Nat} {o : ByteOrder} {v : Word32} (h : m.Holds a (bytes32 o v)) :
    ord32 o (m.quadAt a) = v := by
  cases o <;>
  · simp only [bytes32, Memory.holds_cons] at h
    obtain ⟨h0, h1, h2, h3, -⟩ := h
    simp only [ord32, Memory.quadAt, h0, h1, h2, h3, append_bytes_eq_self]

/-- The type of a value (R95). -/
def Value.type : Value → ValueType
  | .i16 _ => .i16
  | .i32 _ => .i32
  | .f32 _ => .f32

theorem length_valueBytesOf (o : ByteOrder) (v : Value) : (valueBytesOf o v).length = valueSize v.type := by
  cases v <;> simp [valueBytesOf, valueSize, Value.type]

theorem valueSize_le (t : ValueType) : valueSize t ≤ 4 := by cases t <;> decide

/-- A value is read back, with its type, from the bytes that an encode writes for it. -/
theorem valueOf_of_holds {m : Memory} {a : Nat} {o : ByteOrder} {v : Value} (h : m.Holds a (valueBytesOf o v)) :
    valueOf o v.type (m.quadAt a) = v := by
  cases v with
  | i16 v => exact congrArg Value.i16 (ord16_of_holds h)
  | i32 v => exact congrArg Value.i32 (ord32_of_holds h)
  | f32 w => exact congrArg Value.f32 (ord32_of_holds h)

/-! ## The encode operations (R121 to R124) -/

/-- `m'` is `m` with a frame at `off` whose Value field starts with the bytes `vb`: the fields of R121, frame bytes that `vb`
does not reach as in `m`, and everything outside the nine bytes as in `m`. -/
structure FrameWritten (o : ByteOrder) (off : Nat) (id : Id) (vb : List Byte) (m m' : Memory) : Prop where
  id : m'.Holds off (bytes16 o id)
  value : m'.Holds (off + 2) vb
  constants : m'.Holds (off + 6) [0xFF, 0xFF, 0xFF]
  unwritten : ∀ x, off + 2 + vb.length ≤ x → x < off + 6 → m'.read x = m.read x
  outside : m.SameOutside m' off 9

/-- An encode inside the buffer writes the frame (R121): each of its four writes puts its field there and leaves the other fields
alone. -/
theorem encodeFrame_written {name : BufName} {o : ByteOrder} {off : Nat} {id : Id} {vb : List Byte} {m : Memory}
    (h : off + 9 ≤ m.size) (hv : vb.length ≤ 4) :
    ∃ m', encodeFrame name o off id vb m = .ok m' ∧ FrameWritten o off id vb m m' := by
  obtain ⟨m', hm', outside, -⟩ := encodeFrame_frame (name := name) (o := o) (id := id) h hv
  refine ⟨m', hm', ?_⟩
  rw [encodeFrame, checkBounds_ok h] at hm'
  cases hm'
  exact
    { id := (((Memory.holds_writeBytes m off _ (by simp; omega)).writeBytes (.inl (by simp))).writeBytes
        (.inl (by simp))).writeBytes (.inl (by simp))
      value := ((Memory.holds_writeBytes _ (off + 2) vb (by simp; omega)).writeBytes (.inl (by omega))).writeBytes
        (.inl (by omega))
      constants := (Memory.holds_append (bs := [0xFF, 0xFF])).mpr
        ⟨(Memory.holds_writeBytes _ (off + 6) _ (by simp; omega)).writeBytes (.inl (by simp)),
          Memory.holds_writeBytes _ (off + 8) _ (by simp; omega)⟩
      unwritten := fun x hx hx6 => by
        rw [Memory.read_writeBytes_ne _ _ _ (.inl (by omega)), Memory.read_writeBytes_ne _ _ _ (.inl hx6),
          Memory.read_writeBytes_ne _ _ _ (.inr hx), Memory.read_writeBytes_ne _ _ _ (.inr (by simp; omega))]
      outside }

/-- Id and Value lie one behind the other. -/
theorem FrameWritten.holds_id_value {o : ByteOrder} {off : Nat} {id : Id} {vb : List Byte} {m m' : Memory}
    (h : FrameWritten o off id vb m m') : m'.Holds off (bytes16 o id ++ vb) :=
  Memory.holds_append.mpr ⟨h.id, by simpa using h.value⟩

/-- A Value of four bytes fills the frame. -/
theorem FrameWritten.holds_frame {o : ByteOrder} {off : Nat} {id : Id} {vb : List Byte} {m m' : Memory}
    (h : FrameWritten o off id vb m m') (h4 : vb.length = 4) : m'.Holds off (bytes16 o id ++ vb ++ [0xFF, 0xFF, 0xFF]) :=
  Memory.holds_append.mpr ⟨h.holds_id_value, by simpa [h4] using h.constants⟩

section
variable {s : State} {n : Nat} {l : Link} {b : TxBuf} {off : Nat} {id : Id} {v : Value}

/-- An encode inside the buffer writes the frame there and changes nothing else of the state. -/
theorem encodeInto_next (hl : s.links[n]? = some l) (h : off + 9 ≤ (txBufMem b l.slot).size) :
    ∃ m, encodeInto b n off id v s = .next (s.withLink n { l with slot := setTxBuf b m l.slot } s.effects .none) ∧
      FrameWritten s.cfg.byteOrder off id (valueBytesOf s.cfg.byteOrder v) (txBufMem b l.slot) m := by
  have hv : (valueBytesOf s.cfg.byteOrder v).length ≤ 4 := by
    rw [length_valueBytesOf]
    exact valueSize_le v.type
  obtain ⟨m, hm, written⟩ := encodeFrame_written (name := txBufName b n) (o := s.cfg.byteOrder) (id := id) h hv
  exact ⟨m, onLink_next (a := (⟨l, s.effects⟩ : Act).setSlot (setTxBuf b m l.slot)) hl (by simp only [hm]), written⟩

/-- An encode of a four-byte value inside the buffer writes all nine bytes of the frame and nothing else. -/
theorem encodeInto_next_of_four_bytes (hl : s.links[n]? = some l) (h4 : valueSize v.type = 4)
    (h : off + 9 ≤ (txBufMem b l.slot).size) :
    ∃ m, encodeInto b n off id v s = .next (s.withLink n { l with slot := setTxBuf b m l.slot } s.effects .none) ∧
      m.Holds off (bytes16 s.cfg.byteOrder id ++ valueBytesOf s.cfg.byteOrder v ++ [0xFF, 0xFF, 0xFF]) ∧
      (txBufMem b l.slot).SameOutside m off 9 := by
  obtain ⟨m, hm, written⟩ := encodeInto_next hl h
  exact ⟨m, hm, written.holds_frame ((length_valueBytesOf _ v).trans h4), written.outside⟩

/-- An encode outside the buffer faults (R121, R249). -/
theorem encodeInto_fault (hl : s.links[n]? = some l) (h : (txBufMem b l.slot).size < off + 9) :
    encodeInto b n off id v s = .fault (.precondition (txBufName b n) off 9) :=
  onLink_fault hl (by simp only [encodeFrame_error h])

end

/-! ## The decode operations (R125 to R128) -/

section
variable {s : State} {n : Nat} {l : Link} {b : Buf} {off : Nat} {t : ValueType}

/-- `DEC.ID` inside the buffer (R125). -/
theorem execDecId_next (hl : s.links[n]? = some l) (h : off + 2 ≤ (bufMem b l.slot).size) :
    execDecId b n off s =
      .next (s.withLink n l s.effects (.id (idOf s.cfg.byteOrder ((bufMem b l.slot).pairAt off)))) :=
  onLink_next (a := ⟨l, s.effects⟩) hl (by simp only [decodeId, checkBounds_ok h])

/-- `DEC.ID` outside the buffer: the fault is about the two bytes it reads (R125, R249). -/
theorem execDecId_fault (hl : s.links[n]? = some l) (h : (bufMem b l.slot).size < off + 2) :
    execDecId b n off s = .fault (.precondition (bufName b n) off 2) :=
  onLink_fault hl (by simp only [decodeId, checkBounds_error h])

/-- The decode of a value whose bytes lie inside the buffer (R126 to R128). -/
theorem decodeFrom_next (hl : s.links[n]? = some l) (h : off + 2 + valueSize t ≤ (bufMem b l.slot).size) :
    decodeFrom b n off t s =
      .next (s.withLink n l s.effects (.value (valueOf s.cfg.byteOrder t ((bufMem b l.slot).quadAt (off + 2))))) :=
  onLink_next (a := ⟨l, s.effects⟩) hl (by simp only [decodeValue, checkBounds_ok h])

/-- The decode of a value that reaches outside the buffer: the fault is about the Value bytes, not the frame (R126 to R128). -/
theorem decodeFrom_fault (hl : s.links[n]? = some l) (h : (bufMem b l.slot).size < off + 2 + valueSize t) :
    decodeFrom b n off t s = .fault (.precondition (bufName b n) (off + 2) (valueSize t)) :=
  onLink_fault hl (by simp only [decodeValue, checkBounds_error h])

end

/-! ## The round trip (R129) -/

/-- The decode operations read a transmit buffer as the encode operations wrote it. -/
@[simp] theorem bufMem_txAsBuf (b : TxBuf) (t : Slot) : bufMem (txAsBuf b) t = txBufMem b t := by cases b <;> rfl

/-- After an encode inside the buffer, the buffer of the link holds the frame. -/
theorem encodeInto_link {s : State} {n : Nat} {l : Link} {b : TxBuf} {off : Nat} (hl : s.links[n]? = some l)
    (h : off + 9 ≤ (txBufMem b l.slot).size) (id : Id) (v : Value) :
    ∃ t l', encodeInto b n off id v s = .next t ∧ t.links[n]? = some l' ∧ t.cfg = s.cfg ∧
      FrameWritten s.cfg.byteOrder off id (valueBytesOf s.cfg.byteOrder v) (txBufMem b l.slot) (txBufMem b l'.slot) := by
  obtain ⟨m, hm, written⟩ := encodeInto_next (id := id) (v := v) hl h
  refine ⟨_, { l with slot := setTxBuf b m l.slot }, hm, ?_, rfl, by rwa [txBufMem_setTxBuf]⟩
  rw [State.withLink_links, List.getElem?_set_self', hl]
  rfl

/-- The id and the value of an encode are what `DEC.ID` and the decode of the value's type read from the buffer afterwards. -/
theorem encodeInto_roundTrip {s : State} {n : Nat} {l : Link} {b : TxBuf} {off : Nat} (hl : s.links[n]? = some l)
    (h : off + 9 ≤ (txBufMem b l.slot).size) (id : Id) (v : Value) :
    ∃ t, encodeInto b n off id v s = .next t ∧
      NextWith (execDecId (txAsBuf b) n off t) (fun u => u.result = .id id) ∧
      NextWith (decodeFrom (txAsBuf b) n off v.type t) (fun u => u.result = .value v) := by
  obtain ⟨t, l', ht, hl', hcfg, written⟩ := encodeInto_link hl h id v
  have hsize : off + 9 ≤ (bufMem (txAsBuf b) l'.slot).size := by rwa [bufMem_txAsBuf, written.outside.left]
  have hv := valueSize_le v.type
  refine ⟨t, ht, ⟨_, execDecId_next hl' (by omega), congrArg Result.id ?id⟩,
    ⟨_, decodeFrom_next hl' (by omega), congrArg Result.value ?value⟩⟩
  case id =>
    rw [hcfg, bufMem_txAsBuf]
    exact ord16_of_holds written.id
  case value =>
    rw [hcfg, bufMem_txAsBuf]
    exact valueOf_of_holds written.value

/-! ## The obligations -/

/-- The first byte of a request is its selector (log 11). -/
theorem codeSelector_toBytes (r : Request) : codeSelector (.opsel r.toBytes) = some (BitVec.ofNat 8 r.sel) := rfl

/-- Settles O14: the general round trip at each of the three types. -/
theorem encodeThenDecodeRoundTrip : Obligations.EncodeThenDecodeRoundTrip := by
  intro s n l b off id hl h
  exact ⟨fun v => encodeInto_roundTrip hl h id (.i16 v), fun v => encodeInto_roundTrip hl h id (.i32 v),
    fun w => encodeInto_roundTrip hl h id (.f32 w)⟩

/-- Settles O7: the two bytes of an `I16` leave frame bytes 4 and 5 unwritten. -/
theorem encI16WritesFrame : Obligations.EncI16WritesFrame := by
  intro s n l b off id v hl
  refine ⟨codeSelector_toBytes _, fun h => ?_, fun h => encodeInto_fault hl h⟩
  obtain ⟨m, hm, written⟩ := encodeInto_next (id := id) (v := .i16 v) hl h
  have unwritten : ∀ x, off + 4 ≤ x → x < off + 6 → m.read x = (txBufMem b l.slot).read x := by
    simpa [valueBytesOf] using written.unwritten
  exact ⟨m, hm, written.holds_id_value, written.constants, unwritten _ (by omega) (by omega),
    unwritten _ (by omega) (by omega), written.outside⟩

/-- Settles O8: a four-byte value fills the frame. -/
theorem encI32WritesFrame : Obligations.EncI32WritesFrame := by
  intro s n l b off id v hl
  exact ⟨codeSelector_toBytes _, fun h => encodeInto_next_of_four_bytes (v := .i32 v) hl rfl h,
    fun h => encodeInto_fault hl h⟩

/-- Settles O9: the pattern of an `F32` is a four-byte value as well. -/
theorem encF32WritesFrame : Obligations.EncF32WritesFrame := by
  intro s n l b off id w hl
  exact ⟨codeSelector_toBytes _, fun h => encodeInto_next_of_four_bytes (v := .f32 w) hl rfl h,
    fun h => encodeInto_fault hl h⟩

/-- Settles O10: the id is that of the pair of bytes at the offset. -/
theorem decIdReadsId : Obligations.DecIdReadsId := by
  intro s n l b off hl
  exact ⟨codeSelector_toBytes _, fun h => execDecId_next hl h, fun h => execDecId_fault hl h⟩

/-- Settles O11: the value of an `I16` lies in the first two Value bytes. -/
theorem decI16ReadsValue : Obligations.DecI16ReadsValue := by
  intro s n l b off hl
  exact ⟨codeSelector_toBytes _, fun h => decodeFrom_next (t := .i16) hl h, fun h => decodeFrom_fault (t := .i16) hl h⟩

/-- Settles O12: the value of an `I32` lies in all four Value bytes. -/
theorem decI32ReadsValue : Obligations.DecI32ReadsValue := by
  intro s n l b off hl
  exact ⟨codeSelector_toBytes _, fun h => decodeFrom_next (t := .i32) hl h, fun h => decodeFrom_fault (t := .i32) hl h⟩

/-- Settles O13: the pattern of an `F32` lies in all four Value bytes. -/
theorem decF32ReadsPattern : Obligations.DecF32ReadsPattern := by
  intro s n l b off hl
  exact ⟨codeSelector_toBytes _, fun h => decodeFrom_next (t := .f32) hl h, fun h => decodeFrom_fault (t := .f32) hl h⟩

end Machine
end Sys2Proof
end

section
/-! PROOFS. The operations of the Synchronization Engine one by one: the three byte operations of an unsynchronized responder
and what nine of them amount to (R142 to R144, R148), and the selection of the probe (R146). -/

namespace Sys2Proof
namespace Machine

/-- A link that is replaced is the link that is found. -/
theorem State.withLink_links_self {s : State} {n : Nat} {l : Link} (hl : s.links[n]? = some l) (l' : Link)
    (fx : List Effect) (r : Result) : (s.withLink n l' fx r).links[n]? = some l' := by
  rw [State.withLink_links, List.getElem?_set_self', hl]
  rfl

/-! ## The byte operations of an unsynchronized responder (R141 to R144) -/

theorem StartSeq.get_eight (S : StartSeq) : S.get 8 = 0xFF := rfl

/-- A match before the last position. -/
theorem byteStep_match {a : Act} (h : a.link.resp.sSync = .unsynchronized) (h8 : a.link.resp.syncPos ≠ 8) (p : Nat) :
    byteStep p (a.link.respCfg.startSeq.get a.link.resp.syncPos) a = probeAdvance a := by
  rw [byteStep_unsynchronized h, if_pos rfl, if_neg h8]

/-- The match at the last position. -/
theorem byteStep_lastMatch {a : Act} (h : a.link.resp.sSync = .unsynchronized) (h8 : a.link.resp.syncPos = 8) (p : Nat) :
    byteStep p 0xFF a = probeFinish a := by
  rw [byteStep_unsynchronized h, h8, StartSeq.get_eight, if_pos rfl, if_pos rfl]

/-- A mismatch, at any position. -/
theorem byteStep_mismatch {a : Act} (h : a.link.resp.sSync = .unsynchronized) {rx : Byte}
    (hrx : rx ≠ a.link.respCfg.startSeq.get a.link.resp.syncPos) (p : Nat) : byteStep p rx a = probeMiss a := by
  rw [byteStep_unsynchronized h, if_neg hrx]

/-- Settles O16: the match before the last position selects `R.ADV`. -/
theorem rAdvAdvances : Obligations.RAdvAdvances := by
  intro s p l rx hl hr hs h8 hrx
  subst hrx
  have hsel : selected l.respCfg l.resp p (l.respCfg.startSeq.get l.resp.syncPos) = _ := selected_unsynchronized hs p _
  rw [if_pos rfl, if_neg h8] at hsel
  refine ⟨hsel ▸ decode_skey .., Fin.val_add_one_of_lt (Fin.lt_last_iff_ne_last.mpr h8), ?_⟩
  rw [← hsel, exec_selected _ hl hr, byteStep_match (a := ⟨l, s.effects⟩) hs h8]
  rfl

/-- Settles O17: the match at the last position selects `R.FIN`. -/
theorem rFinSynchronizes : Obligations.RFinSynchronizes := by
  intro s p l hl hr hs h8
  have hsel : selected l.respCfg l.resp p 0xFF = _ := selected_unsynchronized hs p _
  rw [h8, StartSeq.get_eight, if_pos rfl, if_pos rfl] at hsel
  refine ⟨hsel ▸ decode_skey .., ?_⟩
  rw [← hsel, exec_selected _ hl hr, byteStep_lastMatch (a := ⟨l, s.effects⟩) hs h8]
  rfl

/-- Settles O18: a mismatch selects `R.MISS`, at every position. -/
theorem rMissRestartsMatching : Obligations.RMissRestartsMatching := by
  intro s p l rx hl hr hs hrx
  have hsel : selected l.respCfg l.resp p rx = _ := selected_unsynchronized hs p _
  rw [if_neg hrx] at hsel
  refine ⟨hsel ▸ decode_skey .., ?_⟩
  rw [← hsel, exec_selected _ hl hr, byteStep_mismatch (a := ⟨l, s.effects⟩) hs hrx]
  rfl

/-! ## The selection of the probe (R146) -/

@[simp] theorem probeBuf_size (c : Cfg) : (probeBuf c).size = 9 := rfl

theorem probeBuf_holds (c : Cfg) : (probeBuf c).Holds 0 c.startSeq.bytes := by
  intro i hi
  simp [probeBuf, hi]

theorem execIProbe_next {s : State} {n : Nat} {l : Link} (hl : s.links[n]? = some l)
    (hm : l.slot.mSync = .unsynchronized) :
    execIProbe n s = .next (s.withLink n (selectTx (probeBuf s.cfg) ⟨l, s.effects⟩).link s.effects .none) :=
  onLink_next (a := selectTx (probeBuf s.cfg) ⟨l, s.effects⟩) hl (if_pos hm)

/-- Settles O19: the transmit buffer becomes the memory of START_SEQUENCE. -/
theorem iProbeSelectsProbe : Obligations.IProbeSelectsProbe := by
  intro s n l hl hm
  exact ⟨codeSelector_toBytes _, probeBuf s.cfg, execIProbe_next hl hm, probeBuf_size s.cfg, probeBuf_holds s.cfg,
    Memory.wf_ofBytes _⟩

/-! ## Consecutive byte clocks (R148) -/

/-- A link after these bytes have been clocked into its responder. -/
def clocked (p : Nat) (bs : List Byte) (l : Link) : Link := bs.foldl (fun l rx => (byteStep p rx ⟨l, []⟩).link) l

@[simp] theorem clocked_nil (p : Nat) (l : Link) : clocked p [] l = l := rfl

@[simp] theorem clocked_cons (p : Nat) (rx : Byte) (bs : List Byte) (l : Link) :
    clocked p (rx :: bs) l = clocked p bs (byteStep p rx ⟨l, []⟩).link := rfl

theorem run_succ_of_step {s t : State} (h : step s = .next t) (k : Nat) :
    Host.Core.run Sys2Proof.core (k + 1) s = Host.Core.run Sys2Proof.core k t := by
  simp only [Host.Core.run, Sys2Proof.core, h]

/-- A run over byte clocks of a responder that is not held in reset takes their byte steps, one a step. -/
theorem run_byteClocks {s : State} {p : Nat} {l : Link} (bs : List Byte) (hl : s.links[p]? = some l)
    (hr : l.slot.restartLine = false) :
    ∃ t, Host.Core.run Sys2Proof.core bs.length { s with events := bs.map (Event.byteClock p) } = .next t ∧
      t.links[p]? = some (clocked p bs l) := by
  induction bs generalizing s l with
  | nil => exact ⟨_, rfl, hl⟩
  | cons rx rest ih =>
    let l' := (byteStep p rx ⟨l, []⟩).link
    have hr' : l'.slot.restartLine = false := by rw [byteStep_slot]; exact hr
    obtain ⟨t, hrun, ht⟩ := ih (s := s.withLink p l' (byteStep p rx ⟨l, []⟩).fx (.reply l'.resp.txReg))
      (State.withLink_links_self hl ..) hr'
    refine ⟨t, ?_, ht⟩
    let s0 : State := { s with events := (rx :: rest).map (Event.byteClock p) }
    have hstep : step s0 = .next _ :=
      (step_byteClock (s := s0) rfl hl hr).trans (exec_selected (s := s0.begin _) rx hl hr)
    exact (run_succ_of_step hstep rest.length).trans hrun

theorem StartSeq.drop_bytes (S : StartSeq) (pos : Fin 9) :
    S.bytes.drop pos = S.get pos :: S.bytes.drop (pos + 1) := by
  fin_cases pos <;> rfl

/-- An unsynchronized responder at `pos` is synchronized by at most `9 - pos` bytes exactly when they are the bytes of
START_SEQUENCE from `pos` on: after a mismatch too few bytes are left for the whole sequence. -/
theorem clocked_synchronized_iff {p : Nat} {l : Link} {bs : List Byte} (hs : l.resp.sSync = .unsynchronized)
    (hlen : bs.length + l.resp.syncPos ≤ 9) :
    (clocked p bs l).resp.sSync = .synchronized ↔ bs = l.respCfg.startSeq.bytes.drop l.resp.syncPos := by
  induction bs generalizing l with
  | nil => simp [hs, StartSeq.drop_bytes]
  | cons rx rest ih =>
    rw [clocked_cons, StartSeq.drop_bytes, List.cons.injEq]
    rw [List.length_cons] at hlen
    by_cases hrx : rx = l.respCfg.startSeq.get l.resp.syncPos
    · by_cases h8 : l.resp.syncPos = 8
      · have h8' : l.resp.syncPos.val = 8 := congrArg Fin.val h8
        have hnil : rest = [] := List.length_eq_zero_iff.mp (by omega)
        rw [hrx, h8, hnil, StartSeq.get_eight, byteStep_lastMatch (a := ⟨l, []⟩) hs h8]
        simp [probeFinish, StartSeq.bytes]
      · have hpos : (l.resp.syncPos + 1).val = l.resp.syncPos.val + 1 :=
          Fin.val_add_one_of_lt (Fin.lt_last_iff_ne_last.mpr h8)
        have hnext := ih (l := (probeAdvance ⟨l, []⟩).link) hs
          (show rest.length + (l.resp.syncPos + 1).val ≤ 9 by omega)
        rw [hrx, byteStep_match (a := ⟨l, []⟩) hs h8, hnext]
        simp [probeAdvance, hpos]
    · have hnext := ih (l := (probeMiss ⟨l, []⟩).link) hs (show rest.length + 0 ≤ 9 by omega)
      have htooShort : rest ≠ l.respCfg.startSeq.bytes := fun h => by
        have : rest.length = 9 := congrArg List.length h
        omega
      rw [byteStep_mismatch (a := ⟨l, []⟩) hs hrx, hnext]
      simp [hrx, probeMiss, htooShort]

/-- Settles O22: from the start position the nine bytes have to be the whole of START_SEQUENCE. -/
theorem onlyTheProbeSynchronizes : Obligations.OnlyTheProbeSynchronizes := by
  intro s p l bs hl hr hs h0 hlen
  obtain ⟨t, hrun, ht⟩ := run_byteClocks bs hl hr
  have hiff := clocked_synchronized_iff (p := p) (bs := bs) hs (by rw [hlen, h0]; rfl)
  rw [h0] at hiff
  exact ⟨t, _, hlen ▸ hrun, ht, hiff⟩

end Machine
end Sys2Proof
end

section
/-! PROOFS. A transfer on the ideal bus (R62, R65) as a function of what the responder does on its own between the exchanges
(R77): the one form of the exchanges of a tick, whose main-loop steps the environment chooses, and of the exchanges of a list of
operations, which names these steps. -/

namespace Sys2Proof
namespace Machine

/-! ## The choices of the bus and of the main loop (log 9) -/

/-- The same link with other choices still to come of the bus and of the responder's own steps. -/
def Act.schedule (bus : List Disturbance) (turns : List (List Turn)) (a : Act) : Act :=
  a.setEnv { a.link.env with bus := bus, turns := turns }

@[simp] theorem Act.schedule_slot (bus : List Disturbance) (turns : List (List Turn)) (a : Act) :
    (a.schedule bus turns).link.slot = a.link.slot := rfl

theorem selectValue_schedule (p : Nat) (rx : Byte) (bus : List Disturbance) (turns : List (List Turn)) (a : Act) :
    selectValue p rx (a.schedule bus turns) = (selectValue p rx a).schedule bus turns := by
  have pull : selectPull p (a.schedule bus turns) = (selectPull p a).schedule bus turns := by
    obtain ⟨⟨sc, rc, t, r, ⟨b, answers, values, ts, draws⟩⟩, fx⟩ := a
    cases answers with
    | nil => rfl
    | cons q rest => rfl
  unfold selectValue
  rw [pull, apply_ite (Act.schedule bus turns)]
  rfl

theorem furtherValue_schedule (rx : Byte) (bus : List Disturbance) (turns : List (List Turn)) (a : Act) :
    furtherValue rx (a.schedule bus turns) = (furtherValue rx a).schedule bus turns := by
  unfold furtherValue
  rw [apply_ite (Act.schedule bus turns)]
  rfl

/-- A byte step neither reads nor takes any of these choices. -/
theorem byteStep_schedule (p : Nat) (rx : Byte) (bus : List Disturbance) (turns : List (List Turn)) (a : Act) :
    byteStep p rx (a.schedule bus turns) = (byteStep p rx a).schedule bus turns := by
  cases hs : a.link.resp.sSync with
  | unsynchronized =>
    rw [byteStep_unsynchronized hs, byteStep_unsynchronized (a := a.schedule bus turns) hs]
    simp only [apply_ite (Act.schedule bus turns)]
    rfl
  | synchronized =>
    rw [byteStep_synchronized hs, byteStep_synchronized (a := a.schedule bus turns) hs, selectValue_schedule,
      furtherValue_schedule]
    simp only [apply_ite (Act.schedule bus turns)]
    rfl

theorem takeTurn_schedule (p : Nat) (t : Turn) (bus : List Disturbance) (turns : List (List Turn)) (a : Act) :
    takeTurn p t (a.schedule bus turns) = (takeTurn p t a).schedule bus turns := by
  cases t with
  | dispatch =>
    obtain ⟨⟨sc, rc, t, ⟨ss, sp, fp, ib, vb, ip, tr, pending⟩, e⟩, fx⟩ := a
    cases pending with
    | nil => rfl
    | cons snap rest =>
      simp only [takeTurn, dispatchFrame, Act.schedule, Act.setEnv]
      split_ifs <;> rfl
  | powerCycle => rfl

theorem takeTurns_schedule (p : Nat) (ts : List Turn) (bus : List Disturbance) (turns : List (List Turn)) (a : Act) :
    takeTurns p ts (a.schedule bus turns) = (takeTurns p ts a).schedule bus turns := by
  induction ts generalizing a with
  | nil => rfl
  | cons t rest ih => rw [takeTurns, takeTurn_schedule, ih, takeTurns]

theorem byteStep_bus (p : Nat) (rx : Byte) (a : Act) : (byteStep p rx a).link.env.bus = a.link.env.bus := by
  have h := byteStep_schedule p rx a.link.env.bus a.link.env.turns a
  have hbus := congrArg (fun b : Act => b.link.env.bus) h
  exact hbus

theorem takeTurns_bus (p : Nat) (ts : List Turn) (a : Act) : (takeTurns p ts a).link.env.bus = a.link.env.bus := by
  have h := takeTurns_schedule p ts a.link.env.bus a.link.env.turns a
  have hbus := congrArg (fun b : Act => b.link.env.bus) h
  exact hbus

@[simp] theorem takeTurns_slot (p : Nat) (ts : List Turn) (a : Act) : (takeTurns p ts a).link.slot = a.link.slot := by
  obtain ⟨r, e, fx, h⟩ := takeTurns_frame p ts a
  rw [h]

/-- A place for the responder's own steps takes the first of the lists that are still to come. -/
theorem pause_schedule (p : Nat) (bus : List Disturbance) (turns : List (List Turn)) (a : Act) :
    pause p (a.schedule bus turns) = (takeTurns p (turns.headD []) a).schedule bus turns.tail := by
  cases turns with
  | nil => rfl
  | cons ts rest => exact takeTurns_schedule p ts bus rest a

/-! ## The exchange and the transfer of the ideal bus (R62, R65) -/

/-- The initiator receives the staged reply as byte `i`. -/
def Act.receive (i : Nat) (a : Act) : Act :=
  a.setSlot { a.link.slot with rxBuf := a.link.slot.rxBuf.write i a.link.resp.txReg }

@[simp] theorem Act.receive_resp (i : Nat) (a : Act) : (a.receive i).link.resp = a.link.resp := rfl
@[simp] theorem Act.receive_respCfg (i : Nat) (a : Act) : (a.receive i).link.respCfg = a.link.respCfg := rfl

/-- The exchange of byte `i` on the ideal bus: the initiator receives the staged reply, the responder the byte sent. -/
def idealExchange (p i : Nat) (a : Act) : Act := byteStep p (a.link.slot.tx.read i) (a.receive i)

/-- Exchanges `i, i+1, …`, `len` of them, on the ideal bus, with what the responder does on its own before each of them and after
the last one. -/
def idealExchanges (p len i : Nat) (turns : List (List Turn)) (a : Act) : Act :=
  match len with
  | 0 => takeTurns p (turns.headD []) a
  | len + 1 => idealExchanges p len (i + 1) turns.tail (idealExchange p i (takeTurns p (turns.headD []) a))

/-- The responder is not held in reset, and `n` bytes fit into both buffers. -/
structure Slot.Carries (n : Nat) (t : Slot) : Prop where
  line : t.restartLine = false
  tx : n ≤ t.tx.size
  rx : n ≤ t.rxBuf.size

theorem idealExchange_slot (p i : Nat) (a : Act) :
    (idealExchange p i a).link.slot = { a.link.slot with rxBuf := a.link.slot.rxBuf.write i a.link.resp.txReg } := by
  rw [idealExchange, byteStep_slot, Act.receive, Act.setSlot_slot]

theorem idealExchange_schedule (p i : Nat) (bus : List Disturbance) (turns : List (List Turn)) (a : Act) :
    idealExchange p i (a.schedule bus turns) = (idealExchange p i a).schedule bus turns :=
  byteStep_schedule p _ bus turns (a.receive i)

theorem idealExchange_bus (p i : Nat) (a : Act) : (idealExchange p i a).link.env.bus = a.link.env.bus := byteStep_bus ..

theorem Slot.Carries.idealExchange {n : Nat} {a : Act} (h : a.link.slot.Carries n) (p i : Nat) :
    (idealExchange p i a).link.slot.Carries n := by
  rw [idealExchange_slot]
  exact ⟨h.line, h.tx, by simpa using h.rx⟩

theorem exchange_ideal {p i n : Nat} {a : Act} (hbus : a.link.env.bus = []) (h : a.link.slot.Carries n) (hi : i < n) :
    exchange p i a = .ok (idealExchange p i a) := by
  have := h.tx
  have := h.rx
  have henv : a.link.env.disturbance = (Disturbance.ideal, a.link.env) := by simp only [Inputs.disturbance, hbus]
  simp only [exchange, checkBounds_ok (show i + 1 ≤ a.link.slot.tx.size by omega),
    checkBounds_ok (show i + 1 ≤ a.link.slot.rxBuf.size by omega), henv, h.line]
  rfl

/-- The exchanges of a transfer take the responder's own steps from the environment. -/
theorem exchanges_ideal {p len i : Nat} {turns : List (List Turn)} {a : Act} (h : a.link.slot.Carries (i + len)) :
    exchanges p len i (a.schedule [] turns) = .ok ((idealExchanges p len i turns a).schedule [] (turns.drop (len + 1))) := by
  induction len generalizing i turns a with
  | zero => rw [exchanges, pause_schedule, idealExchanges, List.drop_one]
  | succ len ih =>
    let b := takeTurns p (turns.headD []) a
    have hb : b.link.slot.Carries (i + (len + 1)) := by rwa [takeTurns_slot]
    have hxchg : exchange p i (b.schedule [] turns.tail) = .ok ((idealExchange p i b).schedule [] turns.tail) := by
      rw [exchange_ideal (n := i + (len + 1)) rfl (by simpa using hb) (by omega), idealExchange_schedule]
    have hnext := ih (i := i + 1) (turns := turns.tail) (a := idealExchange p i b)
      (by rw [Nat.add_right_comm]; exact hb.idealExchange p i)
    rw [exchanges, pause_schedule, hxchg]
    simp only [hnext, idealExchanges, List.drop_tail]
    rfl

/-- A transfer inside both buffers on the ideal bus. -/
theorem transfer_ideal {p len : Nat} {a : Act} (hbus : a.link.env.bus = []) (h : a.link.slot.Carries len) :
    transfer p len a =
      .ok ((idealExchanges p len 0 a.link.env.turns a).schedule [] (a.link.env.turns.drop (len + 1))) := by
  have hself : a.schedule [] a.link.env.turns = a := by
    rw [← hbus]
    rfl
  have hexchanges := exchanges_ideal (p := p) (i := 0) (turns := a.link.env.turns) (a := a) (by rwa [Nat.zero_add])
  rw [hself] at hexchanges
  rw [transfer, checkBounds_ok (by simpa using h.tx), checkBounds_ok (by simpa using h.rx)]
  exact hexchanges

theorem powered_head {turns : List (List Turn)} (h : Powered turns) : Turn.powerCycle ∉ turns.headD [] := by
  cases turns with
  | nil => exact List.not_mem_nil
  | cons ts rest => exact h ts List.mem_cons_self

theorem powered_tail {turns : List (List Turn)} (h : Powered turns) : Powered turns.tail :=
  fun ts hts => h ts (List.mem_of_mem_tail hts)

/-- What a dispatch keeps, the main loop keeps. -/
theorem takeTurns_induction {p : Nat} {P : Act → Prop} (dispatch : ∀ a, P a → P (dispatchFrame p a)) {ts : List Turn}
    {a : Act} (hts : Turn.powerCycle ∉ ts) (ha : P a) : P (takeTurns p ts a) := by
  induction ts generalizing a with
  | nil => exact ha
  | cons t rest ih =>
    obtain ⟨ht, hrest⟩ := not_or.mp (mt List.mem_cons.mpr hts)
    cases t with
    | dispatch => exact ih hrest (dispatch a ha)
    | powerCycle => exact absurd rfl ht

/-- What the main loop's dispatches and the exchanges below `n` keep, a transfer keeps. -/
theorem idealExchanges_induction {p n : Nat} {P : Nat → Act → Prop}
    (dispatch : ∀ i a, P i a → P i (dispatchFrame p a))
    (xchg : ∀ i a, i < n → P i a → P (i + 1) (idealExchange p i a))
    {len i : Nat} {turns : List (List Turn)} {a : Act} (hlen : i + len = n) (hturns : Powered turns) (ha : P i a) :
    P n (idealExchanges p len i turns a) := by
  induction len generalizing i turns a with
  | zero =>
    subst hlen
    exact takeTurns_induction (dispatch i) (powered_head hturns) ha
  | succ len ih =>
    have paused := takeTurns_induction (dispatch i) (powered_head hturns) ha
    exact ih (by omega) (powered_tail hturns) (xchg i _ (by omega) paused)

/-! ## The same as lists of operations (R107) -/

/-- The operations turn the link and the effects of `a` on link `n` into those of `b`, and touch nothing else but the result. -/
def Performs (is : List Instr) (n : Nat) (a b : Act) : Prop :=
  ∀ s : State, s.links[n]? = some a.link → s.effects = a.fx → ∃ r, execAll is s = .next (s.withLink n b.link b.fx r)

theorem State.withLink_self {s : State} {n : Nat} {l : Link} (hl : s.links[n]? = some l) :
    s.withLink n l s.effects s.result = s := by
  obtain ⟨hn, rfl⟩ := List.getElem?_eq_some_iff.mp hl
  simp [State.withLink]

theorem State.withLink_withLink (s : State) (n : Nat) (l l' : Link) (fx fx' : List Effect) (r r' : Result) :
    (s.withLink n l fx r).withLink n l' fx' r' = s.withLink n l' fx' r' := by
  simp [State.withLink]

theorem execAll_cons {i : Instr} {s t : State} (h : exec i s = .next t) (is : List Instr) :
    execAll (i :: is) s = execAll is t := by
  simp only [execAll, h]

theorem execAll_append {is js : List Instr} {s t : State} (h : execAll is s = .next t) :
    execAll (is ++ js) s = execAll js t := by
  induction is generalizing s with
  | nil => cases h; rfl
  | cons i is ih =>
    simp only [execAll, List.cons_append] at h ⊢
    split at h
    · exact ih h
    · cases h
    · cases h

theorem Performs.nil (n : Nat) (a : Act) : Performs [] n a a := by
  intro s hl hfx
  exact ⟨s.result, by rw [← hfx, State.withLink_self hl]; rfl⟩

theorem Performs.append {is js : List Instr} {n : Nat} {a b c : Act} (h : Performs is n a b) (h' : Performs js n b c) :
    Performs (is ++ js) n a c := by
  intro s hl hfx
  obtain ⟨r, hr⟩ := h s hl hfx
  obtain ⟨r', hr'⟩ := h' (s.withLink n b.link b.fx r) (State.withLink_links_self hl ..) rfl
  exact ⟨r', by rw [execAll_append hr, hr', State.withLink_withLink]⟩

theorem Performs.cons {i : Instr} {is : List Instr} {n : Nat} {a b c : Act} (h : Performs [i] n a b)
    (h' : Performs is n b c) : Performs (i :: is) n a c := h.append h'

/-- An operation on one link that answers. -/
theorem performs_onLink {i : Instr} {n : Nat} {a b : Act} {r : Result} {f : Act → Except Fault (Result × Act)}
    (hexec : ∀ s, exec i s = s.onLink n f) (hf : f a = .ok (r, b)) : Performs [i] n a b := by
  intro s hl hfx
  have hnext : exec i s = .next _ := (hexec s).trans (onLink_next hl (by rw [hfx]; exact hf))
  exact ⟨r, execAll_cons hnext []⟩

theorem performs_turnOps (n : Nat) (ts : List Turn) (a : Act) : Performs (turnOps n ts) n a (takeTurns n ts a) := by
  induction ts generalizing a with
  | nil => exact Performs.nil n a
  | cons t rest ih =>
    refine Performs.cons ?_ (ih (takeTurn n t a))
    cases t with
    | dispatch => exact performs_onLink (f := fun a => .ok (.none, dispatchFrame n a)) (fun _ => rfl) rfl
    | powerCycle => exact performs_onLink (f := fun a => .ok (.none, resetResponder n a)) (fun _ => rfl) rfl

theorem performs_bXchg {n i : Nat} {a b : Act} (h : exchange n i a = .ok b) : Performs [.bXchg n i] n a b :=
  performs_onLink (r := .none) (f := fun a =>
    match exchange n i a with
    | .error e => .error e
    | .ok a => .ok (.none, a)) (fun _ => rfl) (by simp only [h])

/-- The operations of a transfer on the ideal bus are its exchanges. -/
theorem performs_transferOps {n len i : Nat} {turns : List (List Turn)} {a : Act} (hbus : a.link.env.bus = [])
    (h : a.link.slot.Carries (i + len)) :
    Performs (transferOps n len i turns) n a (idealExchanges n len i turns a) := by
  induction len generalizing i turns a with
  | zero => exact performs_turnOps n _ a
  | succ len ih =>
    let b := takeTurns n (turns.headD []) a
    have hb : b.link.slot.Carries (i + (len + 1)) := by rwa [takeTurns_slot]
    have hbus' : b.link.env.bus = [] := by rw [takeTurns_bus, hbus]
    have hxchg : exchange n i b = .ok (idealExchange n i b) := exchange_ideal hbus' hb (by omega)
    exact (performs_turnOps n _ a).append
      ((performs_bXchg hxchg).cons (ih (by rw [idealExchange_bus, hbus'])
        (by rw [Nat.add_right_comm]; exact hb.idealExchange n i)))

/-! ## What a run of the operations shows (R62, R249) -/

theorem execAll_cons_cases {i : Instr} {is : List Instr} {s t : State} (h : execAll (i :: is) s = .next t) :
    ∃ u, exec i s = .next u ∧ execAll is u = .next t := by
  simp only [execAll] at h
  split at h
  · exact ⟨_, ‹_›, h⟩
  · cases h
  · cases h

theorem execAll_append_cases {is js : List Instr} {s t : State} (h : execAll (is ++ js) s = .next t) :
    ∃ u, execAll is s = .next u ∧ execAll js u = .next t := by
  induction is generalizing s with
  | nil => exact ⟨s, rfl, h⟩
  | cons i is ih =>
    obtain ⟨u, hu, hrest⟩ := execAll_cons_cases h
    obtain ⟨v, hv, hjs⟩ := ih hrest
    exact ⟨v, (execAll_cons hu is).trans hv, hjs⟩

/-- An exchange that answers writes inside the receive buffer, whose length stays. -/
theorem exchange_rx_size {s i : Nat} {a b : Act} (h : exchange s i a = .ok b) :
    i < a.link.slot.rxBuf.size ∧ b.link.slot.rxBuf.size = a.link.slot.rxBuf.size := by
  obtain ⟨htx, hrx⟩ := exchange_cases h
  obtain ⟨_, _, _, _, hok⟩ := exchange_frame (s := s) htx hrx
  cases h.symm.trans hok
  exact ⟨hrx, Memory.size_write ..⟩

theorem execBXchg_cases {n i : Nat} {l : Link} {s u : State} (hl : s.links[n]? = some l)
    (h : execBXchg n i s = .next u) :
    ∃ b, exchange n i ⟨l, s.effects⟩ = .ok b ∧ u.links[n]? = some b.link := by
  obtain ⟨l', r, b, hl', hok, rfl⟩ := onLink_cases h
  cases hl.symm.trans hl'
  split at hok
  · cases hok
  · cases hok
    exact ⟨b, ‹_›, State.withLink_links_self hl ..⟩

/-- The first exchange of a transfer that runs to its end was inside the receive buffer, and the rest of it runs on a receive
buffer of the same length. -/
theorem execAll_transferOps_succ_cases {n len i : Nat} {turns : List (List Turn)} {l : Link} {s t : State}
    (hl : s.links[n]? = some l) (h : execAll (transferOps n (len + 1) i turns) s = .next t) :
    i < l.slot.rxBuf.size ∧ ∃ u l', u.links[n]? = some l' ∧ l'.slot.rxBuf.size = l.slot.rxBuf.size ∧
      execAll (transferOps n len (i + 1) turns.tail) u = .next t := by
  obtain ⟨r, hturns⟩ := performs_turnOps n (turns.headD []) ⟨l, s.effects⟩ s hl rfl
  rw [transferOps, execAll_append hturns] at h
  obtain ⟨u, hu, hrest⟩ := execAll_cons_cases h
  obtain ⟨b, hb, hlink⟩ := execBXchg_cases (State.withLink_links_self hl ..) hu
  have hsize := exchange_rx_size hb
  rw [takeTurns_slot] at hsize
  exact ⟨hsize.left, u, b.link, hlink, hsize.right, hrest⟩

/-- A transfer that runs to its end fits into the receive buffer. -/
theorem rx_size_of_execAll_transferOps {n len i : Nat} {turns : List (List Turn)} {l : Link} {s t : State}
    (hl : s.links[n]? = some l) (h : execAll (transferOps n (len + 1) i turns) s = .next t) :
    i + len < l.slot.rxBuf.size := by
  induction len generalizing i turns l s with
  | zero => exact (execAll_transferOps_succ_cases hl h).left
  | succ len ih =>
    obtain ⟨-, u, l', hl', hsize, hrest⟩ := execAll_transferOps_succ_cases hl h
    rw [← hsize, ← Nat.add_assoc, Nat.add_right_comm]
    exact ih hl' hrest

end Machine
end Sys2Proof
end

section
/-! PROOFS. Probe transactions on the ideal bus (R145 to R152): a responder that waits for the first probe byte is synchronized
by one, and any other one is left waiting by it and fails its check. -/

namespace Sys2Proof
namespace Machine

/-! ## The check (R147) -/

theorem probeEchoed_iff (S : StartSeq) (rx : Nat → Byte) :
    probeEchoed S rx = true ↔ ∀ k : Fin 8, rx (k.val + 1) = S.get k.castSucc := by
  simp [probeEchoed, Fin.forall_fin_succ, StartSeq.get]

/-- Of a probe reply the check does not see the byte that was staged before the probe. -/
theorem probeEchoed_of_holds {S : StartSeq} {prev : Byte} {m : Memory} (h : m.Holds 0 (probeReplyBytes S prev)) :
    probeEchoed S m.read = true := by
  simp only [probeReplyBytes, Memory.holds_cons] at h
  obtain ⟨-, h1, h2, h3, h4, h5, h6, h7, h8, -⟩ := h
  exact decide_eq_true ⟨h1, h2, h3, h4, h5, h6, h7, h8⟩

theorem StartSeq.default_get_ne_zero : ∀ pos : Fin 9, StartSeq.default.get pos ≠ 0x00 := by decide

/-- The default START_SEQUENCE has no `0x00`, so a zero among the eight echoes fails the check. -/
theorem probeEchoed_of_zero {rx : Nat → Byte} {k : Nat} (h0 : 0 < k) (h9 : k < 9) (hk : rx k = 0x00) :
    probeEchoed StartSeq.default rx = false := by
  rw [← Bool.not_eq_true, probeEchoed_iff]
  intro h
  have hecho := h ⟨k - 1, by omega⟩
  rw [show k - 1 + 1 = k by omega, hk] at hecho
  exact StartSeq.default_get_ne_zero _ hecho.symm

theorem checkProbe_eq {c : Cfg} {n : Nat} {a : Act} (h : 9 ≤ a.link.slot.rxBuf.size) :
    checkProbe c n a =
      .ok (if probeEchoed c.startSeq a.link.slot.rxBuf.read then
          (true, a.setSlot { a.link.slot with mSync := .synchronized }) else (false, a)) := by
  unfold checkProbe
  rw [checkBounds_ok h]
  simp only
  split <;> rfl

theorem execICheck_next {s : State} {n : Nat} {a b : Act} {pass : Bool} (hl : s.links[n]? = some a.link)
    (hfx : s.effects = a.fx) (hm : a.link.slot.mSync = .unsynchronized)
    (hcheck : checkProbe s.cfg n a = .ok (pass, b)) :
    execICheck n s = .next (s.withLink n b.link b.fx (.check pass)) :=
  onLink_next (r := .check pass) (a := b) hl (by simp only [hfx, if_pos hm, hcheck])

/-- The check passes on a probe reply. -/
theorem checkProbe_of_holds {c : Cfg} {n : Nat} {a : Act} {prev : Byte} (h : 9 ≤ a.link.slot.rxBuf.size)
    (hreply : a.link.slot.rxBuf.Holds 0 (probeReplyBytes c.startSeq prev)) :
    checkProbe c n a = .ok (true, a.setSlot { a.link.slot with mSync := .synchronized }) := by
  rw [checkProbe_eq h, if_pos (probeEchoed_of_holds hreply)]

/-! ## The probe transaction as operations (R107) -/

/-- A link on which a probe is due and can be carried: what a failed probe transaction leaves as it was. -/
structure Link.AwaitsProbe (S : StartSeq) (l : Link) : Prop where
  bus : l.env.bus = []
  line : l.slot.restartLine = false
  mSync : l.slot.mSync = .unsynchronized
  startSeq : l.respCfg.startSeq = S
  rx : 9 ≤ l.slot.rxBuf.size

/-- The probe is the transmit buffer of a link on which a probe is due. -/
structure Act.SendsProbe (c : Cfg) (a : Act) : Prop where
  due : a.link.AwaitsProbe c.startSeq
  tx : a.link.slot.tx = probeBuf c

theorem Link.AwaitsProbe.selectTx {c : Cfg} {l : Link} (h : l.AwaitsProbe c.startSeq) (fx : List Effect) :
    (selectTx (probeBuf c) ⟨l, fx⟩).SendsProbe c := ⟨⟨h.bus, h.line, h.mSync, h.startSeq, h.rx⟩, rfl⟩

theorem Act.SendsProbe.carries {c : Cfg} {a : Act} (h : a.SendsProbe c) : a.link.slot.Carries 9 :=
  ⟨h.due.line, by rw [h.tx, probeBuf_size], h.due.rx⟩

/-- Byte `i` of the transmit buffer is byte `i` of the probe. -/
theorem Act.SendsProbe.tx_read {c : Cfg} {a : Act} (h : a.SendsProbe c) (i : Fin 9) :
    a.link.slot.tx.read i = c.startSeq.get i := by
  rw [h.tx]
  have hread := probeBuf_holds c i i.isLt
  rw [Nat.zero_add] at hread
  rw [hread]
  fin_cases i <;> rfl

theorem Act.SendsProbe.dispatchFrame {c : Cfg} {a : Act} (h : a.SendsProbe c) (p : Nat) :
    (dispatchFrame p a).SendsProbe c := by
  obtain ⟨⟨bus, line, mSync, startSeq, rx⟩, tx⟩ := h
  constructor
  · rw [dispatchFrame_link]
    exact ⟨bus, line, mSync, startSeq, rx⟩
  · rw [dispatchFrame_link]
    exact tx

theorem idealExchange_respCfg (p i : Nat) (a : Act) : (idealExchange p i a).link.respCfg = a.link.respCfg :=
  byteStep_respCfg ..

theorem Act.SendsProbe.idealExchange {c : Cfg} {a : Act} (h : a.SendsProbe c) (p i : Nat) :
    (idealExchange p i a).SendsProbe c := by
  obtain ⟨⟨bus, line, mSync, startSeq, rx⟩, tx⟩ := h
  refine ⟨⟨by rw [idealExchange_bus, bus], ?_, ?_, by rw [idealExchange_respCfg, startSeq], ?_⟩, ?_⟩
  · rw [idealExchange_slot]
    exact line
  · rw [idealExchange_slot]
    exact mSync
  · rw [idealExchange_slot]
    simpa using rx
  · rw [idealExchange_slot]
    exact tx

/-- A probe transaction on the ideal bus transfers the probe and checks what has come back. -/
theorem execAll_probeTransaction {s : State} {n : Nat} {l : Link} {turns : List (List Turn)} {a b : Act} {pass : Bool}
    (hl : s.links[n]? = some l) (h : l.AwaitsProbe s.cfg.startSeq)
    (ha : idealExchanges n 9 0 turns (selectTx (probeBuf s.cfg) ⟨l, s.effects⟩) = a)
    (hcheck : checkProbe s.cfg n a = .ok (pass, b)) (hm : a.link.slot.mSync = .unsynchronized) :
    execAll (probeTransaction n turns) s = .next (s.withLink n b.link b.fx (.check pass)) := by
  let a0 := selectTx (probeBuf s.cfg) ⟨l, s.effects⟩
  have hsends : a0.SendsProbe s.cfg := h.selectTx s.effects
  have hprobe : exec (.iProbe n) s = .next (s.withLink n a0.link s.effects .none) := execIProbe_next hl h.mSync
  obtain ⟨r, htransfer⟩ := performs_transferOps (len := 9) (i := 0) (turns := turns) hsends.due.bus hsends.carries
    (s.withLink n a0.link s.effects .none) (State.withLink_links_self hl ..) rfl
  rw [ha, State.withLink_withLink] at htransfer
  have hcheck' : exec (.iCheck n) (s.withLink n a.link a.fx r) = .next _ :=
    execICheck_next (State.withLink_links_self hl ..) rfl hm hcheck
  rw [State.withLink_withLink] at hcheck'
  rw [probeTransaction, List.cons_append, execAll_cons hprobe, execAll_append htransfer, execAll_cons hcheck']
  rfl

/-! ## A waiting responder echoes the probe and is synchronized (R149) -/

/-- The responder waits for the first probe byte. -/
structure Responder.Waits (r : Responder) : Prop where
  sSync : r.sSync = .unsynchronized
  syncPos : r.syncPos = 0

/-- The registers that `i` bytes of the probe leave in the responder `r` that waited for the first; after the ninth it is
synchronized, `sync_pos` is 0 again, and the staged reply is the `0x00` behind the echoes. -/
def Responder.echoing (S : StartSeq) (r : Responder) (i : Nat) : Responder :=
  { r with
    sSync := if i < 9 then .unsynchronized else .synchronized
    syncPos := Fin.ofNat 9 i
    txReg := (probeReplyBytes S r.txReg).getD i 0x00 }

theorem Responder.echoing_zero {r : Responder} (h : r.Waits) (S : StartSeq) : r.echoing S 0 = r := by
  obtain ⟨ss, sp, fp, ib, vb, ip, tr, pend⟩ := r
  obtain ⟨rfl, rfl⟩ := h
  rfl

/-- The next probe byte takes an echoing responder one byte further, whatever signals are pending. -/
theorem byteStep_echoing {S : StartSeq} {r : Responder} {i : Fin 9} {a : Act} {pend : List Snapshot}
    (hS : a.link.respCfg.startSeq = S) (hr : a.link.resp = { r.echoing S i with pending := pend }) (p : Nat) :
    byteStep p (S.get i) a = a.setResp { r.echoing S (i.val + 1) with pending := pend } := by
  have hs : a.link.resp.sSync = .unsynchronized := by
    rw [hr]
    exact if_pos i.isLt
  have hpos : a.link.resp.syncPos = i := by
    rw [hr]
    exact Fin.ofNat_val_eq_self i
  by_cases h8 : i = 8
  · rw [h8, StartSeq.get_eight, byteStep_lastMatch hs (hpos.trans h8), probeFinish, hr, h8]
    rfl
  · have hstep := byteStep_match hs (hpos ▸ h8) p
    rw [hS, hpos] at hstep
    rw [hstep, probeAdvance, hpos, hS, hr]
    obtain ⟨j, rfl⟩ := Fin.exists_castSucc_eq.mpr h8
    fin_cases j <;> rfl

/-- The effects and the registers of a dispatch, as those of the obligations (R176). -/
theorem dispatchFrame_eq (p : Nat) (a : Act) :
    dispatchFrame p a =
      { link := { a.link with resp := { a.link.resp with pending := a.link.resp.pending.drop 1 } }
        fx := a.fx ++ deliveries p a.link.respCfg (a.link.resp.pending.take 1) } := by
  obtain ⟨⟨sc, rc, t, ⟨ss, sp, fp, ib, vb, ip, tr, pend⟩, e⟩, fx⟩ := a
  cases pend with
  | nil => simp [dispatchFrame, deliveries]
  | cons snap rest =>
    cases h : snap.isPull <;> simp [dispatchFrame, deliveries, h, Act.setResp, Act.emit]

theorem deliveries_append (p : Nat) (k : RespCfg) (xs ys : List Snapshot) :
    deliveries p k (xs ++ ys) = deliveries p k xs ++ deliveries p k ys := List.flatMap_append

/-- Where a probe transfer that started in `a0` with a waiting responder stands before exchange `i`: the responder has echoed `i`
bytes, `m` is the receive buffer, and `k` signals have been dispatched. -/
structure Echoed (c : Cfg) (p : Nat) (a0 : Act) (m : Memory) (k i : Nat) (a : Act) : Prop where
  eq : a =
    { link := { a0.link with
        slot := { a0.link.slot with rxBuf := m }
        resp := { a0.link.resp.echoing c.startSeq i with pending := a0.link.resp.pending.drop k } }
      fx := a0.fx ++ deliveries p a0.link.respCfg (a0.link.resp.pending.take k) }
  holds : m.Holds 0 ((probeReplyBytes c.startSeq a0.link.resp.txReg).take i)
  outside : a0.link.slot.rxBuf.SameOutside m 0 i

theorem Echoed.dispatchFrame {c : Cfg} {p k i : Nat} {a0 a : Act} {m : Memory} (h : Echoed c p a0 m k i a) :
    Echoed c p a0 m (k + 1) i (dispatchFrame p a) := by
  refine ⟨?_, h.holds, h.outside⟩
  rw [dispatchFrame_eq, h.eq, List.take_add, deliveries_append, ← List.drop_drop, ← List.append_assoc]

/-- One more exchange: the reply staged for it is the next byte of the probe reply. -/
theorem Echoed.idealExchange {c : Cfg} {p k : Nat} {i : Fin 9} {a0 a : Act} {m : Memory} (h0 : a0.SendsProbe c)
    (h : Echoed c p a0 m k i a) :
    Echoed c p a0 (m.write i ((probeReplyBytes c.startSeq a0.link.resp.txReg).getD i 0x00)) k (i + 1)
      (idealExchange p i a) := by
  obtain ⟨heq, holds, hsize, hread⟩ := h
  have hi := i.isLt
  have hrx := h0.due.rx
  refine ⟨?eq, ?holds, by simpa using hsize, ?outside⟩
  case eq =>
    have hcfg : a.link.respCfg.startSeq = c.startSeq := by
      rw [heq]
      exact h0.due.startSeq
    have hresp : a.link.resp = { a0.link.resp.echoing c.startSeq i with pending := a0.link.resp.pending.drop k } := by
      rw [heq]
    have htx : a.link.slot.tx.read i = c.startSeq.get i := by
      rw [heq]
      exact h0.tx_read i
    rw [Machine.idealExchange, htx, byteStep_echoing (a := a.receive i) hcfg hresp, heq]
    rfl
  case holds =>
    have hlen : (probeReplyBytes c.startSeq a0.link.resp.txReg).length = 9 := rfl
    rw [List.take_add_one, List.getElem?_eq_getElem (by omega), Memory.holds_append]
    refine ⟨holds.writeBytes (cs := [_]) (.inl (by simp)), ?_⟩
    simp [hlen, Memory.read_write (m := m) (a := i) (by omega)]
  case outside =>
    intro x hx
    rw [Memory.read_write_ne (by omega), hread x (by omega)]

/-- A whole probe transfer with a waiting responder. -/
theorem echoed_idealExchanges {c : Cfg} {p : Nat} {turns : List (List Turn)} {a : Act} (ha : a.SendsProbe c)
    (hw : a.link.resp.Waits) (hturns : Powered turns) :
    ∃ m k, Echoed c p a m k 9 (idealExchanges p 9 0 turns a) := by
  refine idealExchanges_induction (P := fun i b => ∃ m k, Echoed c p a m k i b) ?dispatch ?xchg (Nat.zero_add 9) hturns
    ⟨a.link.slot.rxBuf, 0, ?start⟩
  case dispatch =>
    rintro i b ⟨m, k, h⟩
    exact ⟨m, k + 1, h.dispatchFrame⟩
  case xchg =>
    rintro i b hi ⟨m, k, h⟩
    exact ⟨_, k, h.idealExchange (i := ⟨i, hi⟩) ha⟩
  case start =>
    refine ⟨?_, Memory.holds_nil _ _, rfl, fun _ _ => rfl⟩
    simp [Responder.echoing_zero hw, deliveries]

theorem execTTick_next {s : State} {n : Nat} {l : Link} {a : Act} (hl : s.links[n]? = some l)
    (h : slotTick s.cfg n ⟨l, s.effects⟩ = .ok a) : execTTick n s = .next (s.withLink n a.link a.fx .none) :=
  onLink_next (r := .none) (a := a) hl (by simp only [h])

/-- Settles O23: the tick is the probe transfer of a waiting responder, with the main loop's dispatches from the environment. -/
theorem probeTickSynchronizes : Obligations.ProbeTickSynchronizes := by
  rintro s n l hl ⟨hbus, hline, hturns⟩ hm hs hpos hS hrx
  let a0 := selectTx (probeBuf s.cfg) ⟨l, s.effects⟩
  have h0 : a0.SendsProbe s.cfg := Link.AwaitsProbe.selectTx ⟨hbus, hline, hm, hS, hrx⟩ s.effects
  obtain ⟨m, k, hecho⟩ := echoed_idealExchanges (p := n) h0 ⟨hs, hpos⟩ hturns
  refine ⟨m, k, ?tick, hecho.holds, hecho.outside⟩
  case tick =>
    let b := (idealExchanges n 9 0 l.env.turns a0).schedule [] (l.env.turns.drop 10)
    have htransfer : transfer n 9 a0 = .ok b := transfer_ideal hbus h0.carries
    have hslot : b.link.slot = { a0.link.slot with rxBuf := m } := by rw [Act.schedule_slot, hecho.eq]
    have hcheck : checkProbe s.cfg n b = .ok (true, b.setSlot { b.link.slot with mSync := .synchronized }) := by
      refine checkProbe_of_holds (prev := l.resp.txReg) ?_ ?_
      · rw [hslot]
        exact hecho.outside.left ▸ hrx
      · rw [hslot]
        exact hecho.holds
    have htick : slotTick s.cfg n ⟨l, s.effects⟩ =
        .ok (tickPassed (b.setSlot { b.link.slot with mSync := .synchronized })) := by
      simp only [slotTick, if_pos hm, probeTick]
      rw [show transfer n 9 (selectTx _ _) = _ from htransfer]
      simp only [hcheck]
    refine (execTTick_next hl htick).trans ?_
    simp only [b, hecho.eq, Link.dropTurns, ← hbus]
    rfl

/-! ## A responder that does not wait (R150 to R152) -/

/-- Where an echo of the probe was due a `0x00` has come, before exchange `i`: the initiator has received it, or it is staged. -/
def Link.Silent (i : Nat) (l : Link) : Prop :=
  (∃ k, 0 < k ∧ k < i ∧ l.slot.rxBuf.read k = 0x00) ∨ (0 < i ∧ i < 9 ∧ l.resp.txReg = 0x00)

theorem Link.silent_of_txReg {i : Nat} {l : Link} (h0 : 0 < i) (h9 : i < 9) (h : l.resp.txReg = 0x00) : l.Silent i :=
  .inr ⟨h0, h9, h⟩

/-- The exchange of byte `i` keeps such a byte. -/
theorem Link.Silent.idealExchange {i : Nat} {a : Act} (h : a.link.Silent i) (hrx : i < a.link.slot.rxBuf.size) (p : Nat) :
    (idealExchange p i a).link.Silent (i + 1) := by
  left
  rw [idealExchange_slot]
  obtain ⟨k, h0, hk, hread⟩ | ⟨h0, -, hreg⟩ := h
  · exact ⟨k, h0, by omega, (Memory.read_write_ne (by omega) _).trans hread⟩
  · exact ⟨i, h0, by omega, (Memory.read_write hrx _ _).trans ((if_pos rfl).trans hreg)⟩

/-- Where a probe transfer stands before exchange `i` if the responder did not wait for its first byte: that byte is still to be
missed; or a byte was missed and the responder waits from then on; or it reads the probe as a frame, which it had begun when the
probe came, or which began with the second byte of the probe. -/
inductive Astray (i : Nat) (l : Link) : Prop where
  | misaligned (hs : l.resp.sSync = .unsynchronized) (hi : i = 0) (hpos : l.resp.syncPos ≠ 0)
  | missed (hw : l.resp.Waits) (hi : i ≠ 0) (silent : l.Silent i)
  | reading (hs : l.resp.sSync = .synchronized) (hpos : i ≤ l.resp.framePos.val) (hlast : 7 ≤ l.resp.framePos.val → i = 0)
  | nextFrame (hs : l.resp.sSync = .synchronized) (hpos : i = l.resp.framePos.val + 1) (hlast : l.resp.framePos.val < 7)
      (silent : l.Silent i)

theorem astray_zero {l : Link} (h : ¬l.resp.Waits) : Astray 0 l := by
  cases hs : l.resp.sSync with
  | unsynchronized => exact .misaligned hs rfl (fun hpos => h ⟨hs, hpos⟩)
  | synchronized => exact .reading hs (Nat.zero_le _) (fun _ => rfl)

theorem Astray.dispatchFrame {i : Nat} {a : Act} (h : Astray i a.link) (p : Nat) : Astray i (dispatchFrame p a).link := by
  rw [dispatchFrame_link]
  cases h with
  | misaligned hs hi hpos => exact .misaligned hs hi hpos
  | missed hw hi silent => exact .missed ⟨hw.sSync, hw.syncPos⟩ hi silent
  | reading hs hpos hlast => exact .reading hs hpos hlast
  | nextFrame hs hpos hlast silent => exact .nextFrame hs hpos hlast silent

/-- The default START_SEQUENCE holds its first byte only once (R153). -/
theorem StartSeq.default_get_eq_first : ∀ pos : Fin 9, StartSeq.default.get pos = StartSeq.default.get 0 → pos = 0 := by
  decide

/-- The default START_SEQUENCE holds `0xFF` only at its end (R153). -/
theorem StartSeq.default_get_eq_last : ∀ pos : Fin 9, StartSeq.default.get pos = 0xFF → pos = 8 := by decide

/-- Before position 6 a synchronized responder takes any byte and goes on to the next position. -/
theorem byteStep_reading {a : Act} (hs : a.link.resp.sSync = .synchronized) (h6 : a.link.resp.framePos.val < 6) (p : Nat)
    (rx : Byte) :
    (byteStep p rx a).link.resp.sSync = .synchronized ∧
      (byteStep p rx a).link.resp.framePos.val = a.link.resp.framePos.val + 1 := by
  have hnext : (a.link.resp.framePos + 1).val = a.link.resp.framePos.val + 1 :=
    Fin.val_add_one_of_lt (Fin.lt_def.mpr (by simp; omega))
  rw [byteStep_synchronized hs, if_pos h6]
  split_ifs with h2 h3
  · exact ⟨hs, hnext⟩
  · unfold selectValue
    split_ifs
    · exact ⟨hs, h3 ▸ rfl⟩
    · exact ⟨hs, h3 ▸ rfl⟩
  · simp only [furtherValue]
    split_ifs
    · exact ⟨hs, hnext⟩
    · exact ⟨hs, hnext⟩

theorem idealExchange_reading {a : Act} (hs : a.link.resp.sSync = .synchronized) (h6 : a.link.resp.framePos.val < 6)
    (p i : Nat) :
    (idealExchange p i a).link.resp.sSync = .synchronized ∧
      (idealExchange p i a).link.resp.framePos.val = a.link.resp.framePos.val + 1 :=
  byteStep_reading (a := a.receive i) hs h6 p _

theorem byteStep_desynchronizes {a : Act} (hs : a.link.resp.sSync = .synchronized) (h6 : 6 ≤ a.link.resp.framePos.val)
    (h8 : a.link.resp.framePos.val < 8) {rx : Byte} (hrx : rx ≠ 0xFF) (p : Nat) :
    byteStep p rx a = desynchronize a := by
  rw [byteStep_synchronized hs, if_neg (by omega), if_neg (by omega), if_neg (by omega), if_pos h8, if_neg hrx]

theorem byteStep_completes {a : Act} (hs : a.link.resp.sSync = .synchronized) (h8 : 8 ≤ a.link.resp.framePos.val) (p : Nat)
    (rx : Byte) : byteStep p rx a = completeFrame p a := by
  rw [byteStep_synchronized hs, if_neg (by omega), if_neg (by omega), if_neg (by omega), if_neg (by omega)]

theorem idealExchange_respInv {a : Act} (h : a.link.resp.Inv) (p i : Nat) : (idealExchange p i a).link.resp.Inv :=
  byteStep_respInv (a := a.receive i) h p _

section
variable {c : Cfg} {p : Nat} {i : Fin 9} {a : Act}

/-- The byte that an exchange of the default probe brings the responder. -/
theorem Act.SendsProbe.idealExchange_default (ha : a.SendsProbe c) (hc : c.startSeq = StartSeq.default) :
    Machine.idealExchange p i a = byteStep p (StartSeq.default.get i) (a.receive i) := by
  rw [Machine.idealExchange, ha.tx_read, hc]

/-- A probe byte that an unsynchronized responder does not expect leaves it waiting. -/
theorem waits_of_mismatch (ha : a.SendsProbe c) (hc : c.startSeq = StartSeq.default)
    (hs : a.link.resp.sSync = .unsynchronized)
    (hne : StartSeq.default.get i ≠ StartSeq.default.get a.link.resp.syncPos) :
    (Machine.idealExchange p i a).link.resp.Waits ∧ (Machine.idealExchange p i a).link.resp.txReg = 0x00 := by
  have hne' : StartSeq.default.get i ≠ (a.receive i).link.respCfg.startSeq.get (a.receive i).link.resp.syncPos := by
    rwa [Act.receive_respCfg, Act.receive_resp, ha.due.startSeq, hc]
  rw [ha.idealExchange_default hc, byteStep_mismatch (a := a.receive i) hs hne']
  exact ⟨⟨hs, rfl⟩, rfl⟩

/-- At positions 6 and 7 every probe byte but the last one desynchronizes, and the responder waits. -/
theorem waits_of_desynchronization (ha : a.SendsProbe c) (hc : c.startSeq = StartSeq.default) (hinv : a.link.resp.Inv)
    (hs : a.link.resp.sSync = .synchronized) (h6 : 6 ≤ a.link.resp.framePos.val) (h8 : a.link.resp.framePos.val < 8)
    (hi : i.val < 8) :
    (Machine.idealExchange p i a).link.resp.Waits ∧ (Machine.idealExchange p i a).link.resp.txReg = 0x00 := by
  have hff : StartSeq.default.get i ≠ 0xFF := fun h =>
    absurd (congrArg Fin.val (StartSeq.default_get_eq_last i h)) (Nat.ne_of_lt hi)
  rw [ha.idealExchange_default hc, byteStep_desynchronizes (a := a.receive i) hs h6 h8 hff]
  exact ⟨⟨rfl, hinv.right hs⟩, rfl⟩

/-- One more exchange of the default probe. The responder cannot be at positions 6 or 7 when the probe's one `0xFF`, its last
byte, comes, so a frame that it reads ends in a desynchronization. -/
theorem Astray.idealExchange (ha : a.SendsProbe c) (hc : c.startSeq = StartSeq.default) (hinv : a.link.resp.Inv)
    (h : Astray i a.link) : Astray (i + 1) (idealExchange p i a).link := by
  have hi := i.isLt
  have hrx : i.val < a.link.slot.rxBuf.size := Nat.lt_of_lt_of_le hi ha.due.rx
  have desync (hs : a.link.resp.sSync = .synchronized) (h6 : 6 ≤ a.link.resp.framePos.val)
      (h8 : a.link.resp.framePos.val < 8) (hlt : i.val < 8) : Astray (i + 1) (Machine.idealExchange p i a).link := by
    obtain ⟨hw, hreg⟩ := waits_of_desynchronization (p := p) ha hc hinv hs h6 h8 hlt
    exact .missed hw (Nat.succ_ne_zero _) (Link.silent_of_txReg (Nat.succ_pos _) (by omega) hreg)
  cases h with
  | misaligned hs hi0 hpos =>
    obtain rfl : i = 0 := Fin.ext hi0
    obtain ⟨hw, hreg⟩ := waits_of_mismatch (p := p) ha hc hs
      (fun h => hpos (StartSeq.default_get_eq_first _ h.symm))
    exact .missed hw (Nat.succ_ne_zero _) (Link.silent_of_txReg (Nat.succ_pos _) (by omega) hreg)
  | missed hw hi0 silent =>
    have hne : StartSeq.default.get i ≠ StartSeq.default.get a.link.resp.syncPos := by
      rw [hw.syncPos]
      exact fun h => hi0 (congrArg Fin.val (StartSeq.default_get_eq_first i h))
    obtain ⟨hw', -⟩ := waits_of_mismatch (p := p) ha hc hw.sSync hne
    exact .missed hw' (Nat.succ_ne_zero _) (silent.idealExchange hrx p)
  | reading hs hpos hlast =>
    by_cases h6 : a.link.resp.framePos.val < 6
    · obtain ⟨hs', hpos'⟩ := idealExchange_reading hs h6 p i
      exact .reading hs' (by omega) (by omega)
    · by_cases h8 : a.link.resp.framePos.val < 8
      · exact desync hs (by omega) h8 (by omega)
      · rw [Machine.idealExchange, byteStep_completes (a := a.receive i) hs (Nat.le_of_not_lt h8)]
        exact .nextFrame hs (congrArg Nat.succ (hlast (by omega))) (Nat.zero_lt_succ 6)
          (Link.silent_of_txReg (Nat.succ_pos _) (by omega) rfl)
  | nextFrame hs hpos hlast silent =>
    by_cases h6 : a.link.resp.framePos.val < 6
    · obtain ⟨hs', hpos'⟩ := idealExchange_reading hs h6 p i
      exact .nextFrame hs' (by omega) (by omega) (silent.idealExchange hrx p)
    · exact desync hs (by omega) (by omega) (by omega)

end

/-- After all nine bytes of the default probe a responder that did not wait for the first of them waits, and one of the eight
echoes is missing. -/
theorem Astray.waits {l : Link} (h : Astray 9 l) : l.resp.Waits ∧ ∃ k, 0 < k ∧ k < 9 ∧ l.slot.rxBuf.read k = 0x00 := by
  cases h with
  | misaligned _ hi => cases hi
  | missed hw _ silent => exact ⟨hw, silent.resolve_right (fun h => Nat.lt_irrefl 9 h.right.left)⟩
  | reading _ hpos => omega
  | nextFrame _ hpos => omega

/-! ## The two outcomes of a probe transaction (R149, R151, R152) -/

section
variable {s : State} {n : Nat} {l : Link} {turns : List (List Turn)}

/-- With a waiting responder the check passes, and both sides are synchronized at a frame boundary. -/
theorem probeTransaction_of_waits (hl : s.links[n]? = some l) (h : l.AwaitsProbe s.cfg.startSeq) (hinv : l.resp.Inv)
    (hw : l.resp.Waits) (hturns : Powered turns) :
    ∃ t l', execAll (probeTransaction n turns) s = .next t ∧ t.links[n]? = some l' ∧ t.result = .check true ∧
      l'.Aligned := by
  have h0 := h.selectTx s.effects
  obtain ⟨m, k, hecho⟩ := echoed_idealExchanges (p := n) h0 hw hturns
  have hcheck := checkProbe_of_holds (c := s.cfg) (n := n) (prev := l.resp.txReg)
    (a := idealExchanges n 9 0 turns (selectTx (probeBuf s.cfg) ⟨l, s.effects⟩))
    (by rw [hecho.eq]; exact hecho.outside.left ▸ h.rx) (by rw [hecho.eq]; exact hecho.holds)
  refine ⟨_, _, execAll_probeTransaction hl h rfl hcheck (by rw [hecho.eq]; exact h.mSync),
    State.withLink_links_self hl .., rfl, ?_⟩
  rw [hecho.eq]
  exact ⟨rfl, rfl, hinv.left hw.sSync, rfl⟩

/-- With a responder that does not wait for the default probe the check fails, and the next probe finds it waiting. -/
theorem probeTransaction_of_not_waits (hl : s.links[n]? = some l) (h : l.AwaitsProbe s.cfg.startSeq)
    (hc : s.cfg.startSeq = StartSeq.default) (hinv : l.resp.Inv) (hw : ¬l.resp.Waits) (hturns : Powered turns) :
    ∃ t l', execAll (probeTransaction n turns) s = .next t ∧ t.links[n]? = some l' ∧ t.result = .check false ∧
      t.cfg = s.cfg ∧ l'.AwaitsProbe s.cfg.startSeq ∧ l'.resp.Inv ∧ l'.resp.Waits := by
  obtain ⟨hsends, hinv', hastray⟩ :=
    idealExchanges_induction (p := n) (n := 9) (P := fun i a => a.SendsProbe s.cfg ∧ a.link.resp.Inv ∧ Astray i a.link)
      (dispatch := fun i a ⟨hsends, hinv, hastray⟩ =>
        ⟨hsends.dispatchFrame n, by rw [dispatchFrame_link]; exact hinv, hastray.dispatchFrame n⟩)
      (xchg := fun i a hi ⟨hsends, hinv, hastray⟩ =>
        ⟨hsends.idealExchange n i, idealExchange_respInv hinv n i, hastray.idealExchange (i := ⟨i, hi⟩) hsends hc hinv⟩)
      (Nat.zero_add 9) hturns ⟨h.selectTx s.effects, hinv, astray_zero hw⟩
  obtain ⟨hwaits, k, h0, h9, hzero⟩ := hastray.waits
  have hcheck := checkProbe_eq (c := s.cfg) (n := n) hsends.due.rx
  rw [hc, probeEchoed_of_zero h0 h9 hzero] at hcheck
  exact ⟨_, _, execAll_probeTransaction hl h rfl hcheck hsends.due.mSync, State.withLink_links_self hl .., rfl, rfl,
    hsends.due, hinv', hwaits⟩

end

theorem Link.awaitsProbe_of_default {s : State} {l : Link} (hu : l.Undisturbed) (hm : l.slot.mSync = .unsynchronized)
    (hc : s.cfg.startSeq = StartSeq.default) (hr : l.respCfg.startSeq = StartSeq.default) (hrx : 9 ≤ l.slot.rxBuf.size) :
    l.AwaitsProbe s.cfg.startSeq := ⟨hu.left, hu.right.left, hm, hr.trans hc.symm, hrx⟩

/-- Settles O24: the first transaction aligns both sides or leaves the responder waiting for the second. -/
theorem twoProbesResynchronize : Obligations.TwoProbesResynchronize := by
  intro s n l turns turns' hl hu hturns hturns' hinv hm hc hr hrx
  have h := Link.awaitsProbe_of_default hu hm hc hr hrx
  by_cases hw : l.resp.Waits
  · obtain ⟨t, l', ht, hl', -, aligned⟩ := probeTransaction_of_waits hl h hinv hw hturns
    exact ⟨t, l', ht, hl', .inl aligned⟩
  · obtain ⟨t, l', ht, hl', -, hcfg, h', hinv', hw'⟩ := probeTransaction_of_not_waits hl h hc hinv hw hturns
    obtain ⟨u, l'', hu, hl'', -, aligned⟩ := probeTransaction_of_waits hl' (hcfg ▸ h') hinv' hw' hturns'
    exact ⟨t, l', ht, hl', .inr ⟨u, l'', hu, hl'', aligned⟩⟩

/-- A probe transaction that runs to its end fits into the receive buffer. -/
theorem rx_size_of_execAll_probeTransaction {s t : State} {n : Nat} {l : Link} {turns : List (List Turn)}
    (hl : s.links[n]? = some l) (hm : l.slot.mSync = .unsynchronized)
    (h : execAll (probeTransaction n turns) s = .next t) : 9 ≤ l.slot.rxBuf.size := by
  have hprobe : exec (.iProbe n) s = .next _ := execIProbe_next hl hm
  rw [probeTransaction, List.cons_append, execAll_cons hprobe] at h
  obtain ⟨u, hu, -⟩ := execAll_append_cases h
  have hsize := rx_size_of_execAll_transferOps (len := 8) (State.withLink_links_self hl ..) hu
  rwa [Nat.zero_add] at hsize

/-- Settles O25: the check passes exactly with a responder that waited, and that one alone ends synchronized. -/
theorem passingCheckMeansAgreement : Obligations.PassingCheckMeansAgreement := by
  intro s t n l l' turns hl hu hturns hinv hm hc hr ht hl'
  have h := Link.awaitsProbe_of_default hu hm hc hr (rx_size_of_execAll_probeTransaction hl hm ht)
  by_cases hw : l.resp.Waits
  · obtain ⟨u, k, hrun, hk, hpass, aligned⟩ := probeTransaction_of_waits hl h hinv hw hturns
    cases ht.symm.trans hrun
    cases hl'.symm.trans hk
    exact ⟨fun _ => aligned, fun _ _ => hpass, fun _ _ => hpass⟩
  · obtain ⟨u, k, hrun, hk, hfail, -, -, -, hwaits⟩ := probeTransaction_of_not_waits hl h hc hinv hw hturns
    cases ht.symm.trans hrun
    cases hl'.symm.trans hk
    refine ⟨fun hpass => ?_, fun _ hsync => ?_, fun hs hpos => absurd ⟨hs, hpos⟩ hw⟩
    · cases hfail.symm.trans hpass
    · cases hwaits.sSync.symm.trans hsync

end Machine
end Sys2Proof
end

section
/-! PROOFS. The six byte operations of the Slave Frame Interpreter one by one (R162 to R175): the table of R105 keys each of
them, and a keyed operation answers what its operation on the link computes. -/

namespace Sys2Proof
namespace Machine

/-! ## From the key to the next state (R105) -/

/-- A key decodes to nothing but the operation that the selector gives. -/
theorem Keyed.selected_eq {l : Link} {p : Nat} {rx : Byte} {i : Instr} (h : Keyed l p rx i) :
    selected l.respCfg l.resp p rx = i := Except.ok.inj ((decode_skey ..).symm.trans h)

/-- A keyed byte operation, on a responder that is not held in reset, gives the link and the effects that it computes, and replies
the byte that it stages. -/
theorem Keyed.exec_next {s : State} {p : Nat} {l : Link} {rx : Byte} {i : Instr} {op : Act → Act} {b : Act}
    (h : Keyed l p rx i) (hl : s.links[p]? = some l) (hr : l.slot.restartLine = false)
    (hexec : exec i s = byteOperation i p rx op s) (hop : op ⟨l, s.effects⟩ = b) :
    exec i s = .next (s.withLink p b.link b.fx (.reply b.link.resp.txReg)) := by
  rw [hexec, byteOperation_next hl hr h.selected_eq, hop]

/-! ## The keys of a synchronized responder: the rows of the table, by position (R105) -/

section
variable {l : Link} {pos : Fin 9}

theorem keyed_sId (hs : l.resp.sSync = .synchronized) (hpos : l.resp.framePos = pos) (h : pos = 0 ∨ pos = 1) (p : Nat)
    (rx : Byte) : Keyed l p rx (.sId p pos rx) := by
  obtain ⟨id, -⟩ := (byteClockSelectsByTable.left l p rx).right hs
  subst hpos
  exact (id (h.imp (congrArg Fin.val) (congrArg Fin.val))).left

theorem keyed_sSel (hs : l.resp.sSync = .synchronized) (hpos : l.resp.framePos = 2) (p : Nat) (rx : Byte) :
    Keyed l p rx (.sSel p rx) := by
  obtain ⟨-, sel, -⟩ := (byteClockSelectsByTable.left l p rx).right hs
  exact (sel (congrArg Fin.val hpos)).left

theorem keyed_sVal (hs : l.resp.sSync = .synchronized) (hpos : l.resp.framePos = pos) (h : pos = 3 ∨ pos = 4 ∨ pos = 5)
    (p : Nat) (rx : Byte) : Keyed l p rx (.sVal p pos rx) := by
  obtain ⟨-, -, val, -⟩ := (byteClockSelectsByTable.left l p rx).right hs
  subst hpos
  exact (val (h.imp (congrArg Fin.val) (Or.imp (congrArg Fin.val) (congrArg Fin.val)))).left

theorem keyed_sAck (hs : l.resp.sSync = .synchronized) (hpos : l.resp.framePos = pos) (h : pos = 6 ∨ pos = 7) (p : Nat) :
    Keyed l p 0xFF (.sAck p pos 0xFF) := by
  obtain ⟨-, -, -, ack, -⟩ := (byteClockSelectsByTable.left l p 0xFF).right hs
  subst hpos
  exact (ack (h.imp (congrArg Fin.val) (congrArg Fin.val)) rfl).left

theorem keyed_sDesync (hs : l.resp.sSync = .synchronized) (h : l.resp.framePos = 6 ∨ l.resp.framePos = 7) {rx : Byte}
    (hrx : rx ≠ 0xFF) (p : Nat) : Keyed l p rx (.sDesync p l.resp.framePos rx) := by
  obtain ⟨-, -, -, -, desync, -⟩ := (byteClockSelectsByTable.left l p rx).right hs
  exact (desync (h.imp (congrArg Fin.val) (congrArg Fin.val)) hrx).left

theorem keyed_sEnd (hs : l.resp.sSync = .synchronized) (hpos : l.resp.framePos = 8) (p : Nat) (rx : Byte) :
    Keyed l p rx (.sEnd p rx) := by
  obtain ⟨-, -, -, -, -, done⟩ := (byteClockSelectsByTable.left l p rx).right hs
  exact (done (congrArg Fin.val hpos)).left

end

/-! ## What the operations compute at each position -/

/-- The two Id bytes go to `id_bytes[0]` and `id_bytes[1]` (R162). -/
theorem captureId_zero {a : Act} (h : a.link.resp.framePos = 0) (rx : Byte) :
    captureId rx a = a.setResp { a.link.resp with
      idBytes := { a.link.resp.idBytes with b0 := rx }, txReg := rx, framePos := 1 } := by
  rw [captureId, h]
  rfl

theorem captureId_one {a : Act} (h : a.link.resp.framePos = 1) (rx : Byte) :
    captureId rx a = a.setResp { a.link.resp with
      idBytes := { a.link.resp.idBytes with b1 := rx }, txReg := rx, framePos := 2 } := by
  rw [captureId, h]
  rfl

/-- Answering a query leaves the other choices of the environment as they are (R44). -/
theorem Inputs.pullAnswer_frame (n : Nat) (e : Inputs) :
    (e.pullAnswer n).2.bus = e.bus ∧ (e.pullAnswer n).2.values = e.values ∧ (e.pullAnswer n).2.turns = e.turns := by
  obtain ⟨bus, answers, values, turns, draws⟩ := e
  cases answers with
  | nil => exact ⟨rfl, rfl, rfl⟩
  | cons q rest => exact ⟨rfl, rfl, rfl⟩

/-- Positions 3, 4, 5 stand for `value_bytes[1]`, `[2]`, `[3]` (R165). -/
theorem quadGet_valuePos {pos : Fin 9} (h : pos = 3 ∨ pos = 4 ∨ pos = 5) (q : Quad) :
    quadGet q (pos.val - 2) = if pos = 3 then q.b1 else if pos = 4 then q.b2 else q.b3 := by
  obtain rfl | rfl | rfl := h
  · rfl
  · rfl
  · rfl

theorem quadSet_valuePos {pos : Fin 9} (h : pos = 3 ∨ pos = 4 ∨ pos = 5) (q : Quad) (rx : Byte) :
    quadSet q (pos.val - 2) rx =
      if pos = 3 then { q with b1 := rx } else if pos = 4 then { q with b2 := rx } else { q with b3 := rx } := by
  obtain rfl | rfl | rfl := h
  · rfl
  · rfl
  · rfl

theorem furtherValue_pull {a : Act} (h : a.link.resp.isPull = true) (rx : Byte) :
    furtherValue rx a = a.setResp { a.link.resp with
      txReg := quadGet a.link.resp.valueBytes (a.link.resp.framePos.val - 2), framePos := a.link.resp.framePos + 1 } :=
  if_pos h

theorem furtherValue_push {a : Act} (h : a.link.resp.isPull = false) (rx : Byte) :
    furtherValue rx a = a.setResp { a.link.resp with
      valueBytes := quadSet a.link.resp.valueBytes (a.link.resp.framePos.val - 2) rx, txReg := rx,
      framePos := a.link.resp.framePos + 1 } := if_neg (by simp [h])

/-- Positions 6 and 7 stand for `id_bytes[0]` and `id_bytes[1]` (R173). -/
theorem ackProbe_six {a : Act} (h : a.link.resp.framePos = 6) :
    ackProbe a = a.setResp { a.link.resp with txReg := a.link.resp.idBytes.b0, framePos := 7 } := by
  rw [ackProbe, h]
  rfl

theorem ackProbe_seven {a : Act} (h : a.link.resp.framePos = 7) :
    ackProbe a = a.setResp { a.link.resp with txReg := a.link.resp.idBytes.b1, framePos := 8 } := by
  rw [ackProbe, h]
  rfl

/-! ## The statements -/

/-- Settles O26: positions 0 and 1 select `S.ID`. -/
theorem sIdCapturesAndEchoes : Obligations.SIdCapturesAndEchoes := by
  intro s p l rx hl hr hs
  refine ⟨fun hpos => ?first, fun hpos => ?second⟩
  case first =>
    have hkey := keyed_sId hs hpos (.inl rfl) p rx
    exact ⟨hkey, hkey.exec_next hl hr rfl (captureId_zero hpos rx)⟩
  case second =>
    have hkey := keyed_sId hs hpos (.inr rfl) p rx
    exact ⟨hkey, hkey.exec_next hl hr rfl (captureId_one hpos rx)⟩

/-- Settles O27: position 2 selects `S.SEL`, and the lookup of the staged id decides between its two branches. -/
theorem sSelLooksUpTheId : Obligations.SSelLooksUpTheId := by
  intro s p l rx hl hr hs hpos
  have hkey := keyed_sSel hs hpos p rx
  refine ⟨hkey, fun hmem => ?pull, fun hmem => ?push⟩
  case pull =>
    have hop : selectValue p rx ⟨l, s.effects⟩ = selectPull p ⟨l, s.effects⟩ := if_pos hmem
    exact ⟨_, _, hkey.exec_next hl hr rfl hop, l.env.pullAnswer_frame p⟩
  case push =>
    have hop : selectValue p rx ⟨l, s.effects⟩ = selectPush rx ⟨l, s.effects⟩ := if_neg hmem
    exact hkey.exec_next hl hr rfl hop

/-- Settles O28: positions 3, 4, 5 select `S.VAL`, and `is_pull` decides between its two branches. -/
theorem sValRepliesOrCaptures : Obligations.SValRepliesOrCaptures := by
  intro s p l pos rx hl hr hs hpos h
  have hkey := keyed_sVal hs hpos h p rx
  subst hpos
  refine ⟨hkey, Fin.val_add_one_of_lt ?notLast, fun hpull => ?pull, fun hpush => ?push⟩
  case notLast => obtain h | h | h := h <;> rw [h] <;> decide
  case pull =>
    rw [← quadGet_valuePos h]
    exact hkey.exec_next hl hr rfl (furtherValue_pull hpull rx)
  case push =>
    rw [← quadSet_valuePos h]
    exact hkey.exec_next hl hr rfl (furtherValue_push hpush rx)

/-- Settles O29: the constant byte at positions 6 and 7 selects `S.ACK`. -/
theorem sAckRepliesStoredId : Obligations.SAckRepliesStoredId := by
  intro s p l hl hr hs
  refine ⟨fun hpos => ?first, fun hpos => ?second⟩
  case first =>
    have hkey := keyed_sAck hs hpos (.inl rfl) p
    exact ⟨hkey, hkey.exec_next hl hr rfl (ackProbe_six hpos)⟩
  case second =>
    have hkey := keyed_sAck hs hpos (.inr rfl) p
    exact ⟨hkey, hkey.exec_next hl hr rfl (ackProbe_seven hpos)⟩

/-- Settles O30: any other byte at positions 6 and 7 selects `S.DESYNC`. -/
theorem sDesyncDropsSynchronization : Obligations.SDesyncDropsSynchronization := by
  intro s p l rx hl hr hs hpos hrx
  have hkey := keyed_sDesync hs hpos hrx p
  exact ⟨hkey, hkey.exec_next hl hr rfl (rfl : desynchronize ⟨l, s.effects⟩ = _)⟩

/-- Settles O31: position 8 selects `S.END`, whatever the byte. -/
theorem sEndCompletesFrame : Obligations.SEndCompletesFrame := by
  intro s p l rx hl hr hs hpos
  have hkey := keyed_sEnd hs hpos p rx
  exact ⟨hkey, hkey.exec_next hl hr rfl (rfl : completeFrame p ⟨l, s.effects⟩ = _)⟩

end Machine
end Sys2Proof
end

section
/-! PROOFS. The Liveness Watchdog (R210 to R214): what its two operations answer, that no other unit writes its registers or
invokes the safety callback, and the length of a period. -/

namespace Sys2Proof
namespace Machine

/-! ## The two operations (R212, R213) -/

theorem exec_wInc (s : State) :
    exec .wInc s = .next { s with wdCounter := wdNext s.cfg s.wdCounter, result := .none } := rfl

theorem exec_wCheck_of_lt {s : State} (h : s.wdCounter < s.cfg.wdThreshold) :
    exec .wCheck s = .next { s with wdState := .tripped, wdCounter := 0, effects := s.effects ++ [.safety],
                                    result := .watchdog .tripped } :=
  if_pos (decide_eq_true h)

theorem exec_wCheck_of_le {s : State} (h : s.cfg.wdThreshold ≤ s.wdCounter) :
    exec .wCheck s = .next { s with wdState := .armed, wdCounter := 0, result := .watchdog .armed } :=
  if_neg (by simpa [wdTrips] using h)

theorem wdNext_of_lt {c : Cfg} {n : Nat} (h : n < wdMax c) : wdNext c n = n + 1 := if_pos h

theorem wdNext_of_le {c : Cfg} {n : Nat} (h : wdMax c ≤ n) : wdNext c n = n := if_neg (Nat.not_lt.mpr h)

/-- Increments in a row count up to the largest value and stay there. -/
theorem wdNext_iterate {c : Cfg} {n : Nat} (h : n ≤ wdMax c) (k : Nat) : (wdNext c)^[k] n = min (n + k) (wdMax c) := by
  induction k with
  | zero => exact (Nat.min_eq_left h).symm
  | succ k ih =>
    rw [Function.iterate_succ_apply', ih]
    rcases Nat.lt_or_ge (n + k) (wdMax c) with hlt | hle
    · rw [Nat.min_eq_left hlt.le, wdNext_of_lt hlt]
      omega
    · rw [Nat.min_eq_right hle, wdNext_of_le le_rfl]
      omega

/-- Settles O40: below the largest value the increment adds one, at the largest value it stays. -/
theorem wIncCountsAndSaturates : Obligations.WIncCountsAndSaturates := fun s =>
  ⟨rfl, fun hlt => by rw [exec_wInc, wdNext_of_lt hlt], fun hle => by rw [exec_wInc, wdNext_of_le hle]⟩

/-- Settles O41: the code, and the two branches of the check. -/
theorem wCheckTripsBelowThreshold : Obligations.WCheckTripsBelowThreshold :=
  fun _ => ⟨rfl, exec_wCheck_of_lt, exec_wCheck_of_le⟩

/-! ## Who writes the watchdog's registers (R210) -/

/-- Every instruction works on one link, but for the watchdog's two and `RESET all`. -/
theorem linkOf_cases (i : Instr) : (∃ n, linkOf i = some n) ∨ i = .wInc ∨ i = .wCheck ∨ i = .reset .all := by
  cases i with
  | wInc => exact .inr (.inl rfl)
  | wCheck => exact .inr (.inr (.inl rfl))
  | reset target =>
    cases target with
    | all => exact .inr (.inr (.inr rfl))
    | responder p => exact .inl ⟨p, rfl⟩
  | _ => exact .inl ⟨_, rfl⟩

/-- A one-link instruction writes its link, the effects and the result into the state. -/
theorem exec_withLink {i : Instr} {n : Nat} {s t : State} (hi : linkOf i = some n) (h : exec i s = .next t) :
    ∃ l fx r, t = s.withLink n l fx r := by
  obtain ⟨-, l, fx, r, -, ht, -⟩ := exec_actsOnLink hi s t h
  exact ⟨l, fx, r, ht⟩

/-- The check writes the watchdog's registers, the effects and the result. -/
theorem exec_wCheck_cases {s t : State} (h : exec .wCheck s = .next t) :
    ∃ w fx, t = { s with wdState := w, wdCounter := 0, effects := fx, result := .watchdog w } := by
  rcases Nat.lt_or_ge s.wdCounter s.cfg.wdThreshold with hlt | hle
  · cases (exec_wCheck_of_lt hlt).symm.trans h
    exact ⟨_, _, rfl⟩
  · cases (exec_wCheck_of_le hle).symm.trans h
    exact ⟨_, _, rfl⟩

/-- No instruction changes the configuration (R290). -/
theorem exec_cfg {i : Instr} {s t : State} (h : exec i s = .next t) : t.cfg = s.cfg := by
  rcases linkOf_cases i with ⟨n, hi⟩ | rfl | rfl | rfl
  · obtain ⟨l, fx, r, rfl⟩ := exec_withLink hi h
    rfl
  · cases h
    rfl
  · obtain ⟨w, fx, rfl⟩ := exec_wCheck_cases h
    rfl
  · cases h
    rfl

/-- An operation of another unit, `RESET all` aside, leaves the watchdog's registers alone. -/
theorem exec_watchdog {i : Instr} {s t : State} (h : exec i s = .next t) (hinc : i ≠ .wInc) (hcheck : i ≠ .wCheck)
    (hall : i ≠ .reset .all) : t.wdCounter = s.wdCounter ∧ t.wdState = s.wdState := by
  rcases linkOf_cases i with ⟨n, hi⟩ | hi | hi | hi
  · obtain ⟨l, fx, r, rfl⟩ := exec_withLink hi h
    exact ⟨rfl, rfl⟩
  · exact absurd hi hinc
  · exact absurd hi hcheck
  · exact absurd hi hall

/-! ## Who invokes the safety callback (R39, R250) -/

/-- From `s` to `t` the safety callback is not invoked. -/
def KeepsAlarms (s t : State) : Prop := t.effects.count .safety = s.effects.count .safety

/-- An operation on one link that emits no `Safety`. -/
theorem keepsAlarms_onLink {s t : State} {n : Nat} {f : Act → Except Fault (Result × Act)} (h : s.onLink n f = .next t)
    (hf : ∀ a r b, f a = .ok (r, b) → b.alarms = a.alarms) : KeepsAlarms s t := by
  obtain ⟨l, r, a, -, hok, rfl⟩ := onLink_cases h
  exact hf _ _ _ hok

theorem keepsAlarms_byteOperation {i : Instr} {p : Nat} {rx : Byte} {op : Act → Act} {s t : State}
    (hexec : exec i s = byteOperation i p rx op s) (h : byteOperation i p rx op s = .next t) : KeepsAlarms s t := by
  obtain ⟨l, r, -, rfl⟩ := byteOperation_byteStep hexec h
  exact alarms_byteStep p rx ⟨l, s.effects⟩

theorem keepsAlarms_encodeInto {b : TxBuf} {n off : Nat} {id : Id} {v : Value} {s t : State}
    (h : encodeInto b n off id v s = .next t) : KeepsAlarms s t :=
  keepsAlarms_onLink h fun a r d hf => by
    split at hf <;> cases hf
    exact Act.alarms_setSlot _ a

theorem keepsAlarms_decodeFrom {b : Buf} {n off : Nat} {ty : ValueType} {s t : State}
    (h : decodeFrom b n off ty s = .next t) : KeepsAlarms s t :=
  keepsAlarms_onLink h fun a r d hf => by
    split at hf <;> cases hf
    rfl

theorem keepsAlarms_execDecId {b : Buf} {n off : Nat} {s t : State} (h : execDecId b n off s = .next t) : KeepsAlarms s t :=
  keepsAlarms_onLink h fun a r d hf => by
    split at hf <;> cases hf
    rfl

theorem keepsAlarms_execIProbe {n : Nat} {s t : State} (h : execIProbe n s = .next t) : KeepsAlarms s t :=
  keepsAlarms_onLink h fun a r d hf => by
    split at hf <;> cases hf
    · exact alarms_selectTx _ a
    · rfl

theorem keepsAlarms_execICheck {n : Nat} {s t : State} (h : execICheck n s = .next t) : KeepsAlarms s t :=
  keepsAlarms_onLink h fun a r d hf => by
    split at hf
    · split at hf <;> cases hf
      exact alarms_checkProbe ‹_›
    · cases hf
      rfl

theorem keepsAlarms_execSDispatch {p : Nat} {s t : State} (h : execSDispatch p s = .next t) : KeepsAlarms s t :=
  keepsAlarms_onLink h fun a r d hf => by
    cases hf
    exact alarms_dispatchFrame p a

theorem keepsAlarms_execVSlot {n k : Nat} {s t : State} (h : execVSlot n k s = .next t) : KeepsAlarms s t :=
  keepsAlarms_onLink h fun a r d hf => by
    split at hf <;> cases hf
    exact alarms_validateSlot ‹_›

theorem keepsAlarms_execVTxn {n count : Nat} {s t : State} (h : execVTxn n count s = .next t) : KeepsAlarms s t :=
  keepsAlarms_onLink h fun a r d hf => by
    split at hf <;> cases hf
    exact alarms_validateTxn ‹_›

theorem keepsAlarms_execTTick {n : Nat} {s t : State} (h : execTTick n s = .next t) : KeepsAlarms s t :=
  keepsAlarms_onLink h fun a r d hf => by
    split at hf <;> cases hf
    exact alarms_slotTick ‹_›

theorem keepsAlarms_execTRestart {n : Nat} {s t : State} (h : execTRestart n s = .next t) : KeepsAlarms s t :=
  keepsAlarms_onLink h fun a r d hf => by
    cases hf
    exact alarms_restartPulse n a

theorem keepsAlarms_execBXchg {n k : Nat} {s t : State} (h : execBXchg n k s = .next t) : KeepsAlarms s t :=
  keepsAlarms_onLink h fun a r d hf => by
    split at hf <;> cases hf
    exact alarms_exchange ‹_›

theorem keepsAlarms_execReset {target : ResetTarget} {s t : State} (h : execReset target s = .next t) : KeepsAlarms s t := by
  cases target with
  | all =>
    cases h
    rfl
  | responder p =>
    have h : s.onLink p (fun a => .ok (.none, resetResponder p a)) = .next t := h
    exact keepsAlarms_onLink h fun a r d hf => by
      cases hf
      exact alarms_resetResponder p a

theorem keepsAlarms_sendNine {n : Nat} {w : List Byte} {s t : State} (h : sendNine n w s = .next t) : KeepsAlarms s t :=
  keepsAlarms_onLink h fun a r d hf => by
    split at hf <;> cases hf
    exact (alarms_transfer ‹_›).trans (alarms_selectTx _ a)

theorem keepsAlarms_receiveNine {n : Nat} {w : List Byte} {s t : State} (h : receiveNine n w s = .next t) :
    KeepsAlarms s t :=
  keepsAlarms_onLink h fun a r d hf => by
    split at hf <;> cases hf
    exact (alarms_transfer ‹_›).trans (Act.alarms_setEnv _ a)

/-- No instruction but `W.CHECK` invokes the safety callback. -/
theorem keepsAlarms_exec {i : Instr} {s t : State} (h : exec i s = .next t) (hcheck : i ≠ .wCheck) : KeepsAlarms s t := by
  cases i with
  | encI16 | encI32 | encF32 => exact keepsAlarms_encodeInto h
  | decI16 | decI32 | decF32 => exact keepsAlarms_decodeFrom h
  | decId => exact keepsAlarms_execDecId h
  | rAdv | rFin | rMiss | sId | sSel | sVal | sAck | sDesync | sEnd => exact keepsAlarms_byteOperation rfl h
  | iProbe => exact keepsAlarms_execIProbe h
  | iCheck => exact keepsAlarms_execICheck h
  | sDispatch => exact keepsAlarms_execSDispatch h
  | vSlot => exact keepsAlarms_execVSlot h
  | vTxn => exact keepsAlarms_execVTxn h
  | wInc => cases h; rfl
  | wCheck => exact absurd rfl hcheck
  | tTick => exact keepsAlarms_execTTick h
  | tRestart => exact keepsAlarms_execTRestart h
  | bXchg => exact keepsAlarms_execBXchg h
  | reset => exact keepsAlarms_execReset h
  | frame | probe => exact keepsAlarms_sendNine h
  | reply | probeReply => exact keepsAlarms_receiveNine h

/-- Settles O43: the registers from what a one-link instruction writes, the callback unit by unit. -/
theorem watchdogIsIndependent : Obligations.WatchdogIsIndependent := by
  intro s t i h
  refine ⟨exec_watchdog h, keepsAlarms_exec h, ?_⟩
  rintro (rfl | rfl)
  · cases h
    exact ⟨rfl, rfl, rfl⟩
  · obtain ⟨w, fx, rfl⟩ := exec_wCheck_cases h
    exact ⟨rfl, rfl, rfl⟩

/-! ## A period (R214) -/

/-- From `s` to `t` the counter takes `k` increments, the configuration stays and the callback is not invoked. -/
structure Increments (k : Nat) (s t : State) : Prop where
  cfg : t.cfg = s.cfg
  wdCounter : t.wdCounter = (wdNext s.cfg)^[k] s.wdCounter
  alarms : KeepsAlarms s t

theorem Increments.refl (s : State) : Increments 0 s s := ⟨rfl, rfl, rfl⟩

theorem Increments.trans {j k : Nat} {s t u : State} (hst : Increments j s t) (htu : Increments k t u) :
    Increments (k + j) s u where
  cfg := htu.cfg.trans hst.cfg
  wdCounter := by rw [htu.wdCounter, hst.wdCounter, hst.cfg, Function.iterate_add_apply]
  alarms := Eq.trans htu.alarms hst.alarms

/-- One instruction that neither checks nor resets everything: `W.INC` increments once, every other not at all. -/
theorem increments_exec {i : Instr} {s t : State} (h : exec i s = .next t) (hcheck : i ≠ .wCheck) (hall : i ≠ .reset .all) :
    Increments (if i = .wInc then 1 else 0) s t where
  cfg := exec_cfg h
  wdCounter := by
    split
    · subst i
      cases h
      rfl
    · exact (exec_watchdog h ‹_› hcheck hall).left
  alarms := keepsAlarms_exec h hcheck

theorem increments_execAll {is : List Instr} {s t : State} (h : execAll is s = .next t)
    (his : ∀ i ∈ is, i ≠ .wCheck ∧ i ≠ .reset .all) : Increments (is.count .wInc) s t := by
  induction is generalizing s with
  | nil =>
    cases h
    exact .refl _
  | cons i rest ih =>
    obtain ⟨hi, hrest⟩ := List.forall_mem_cons.mp his
    obtain ⟨u, hu, hut⟩ := execAll_cons_cases h
    simpa [List.count_cons] using (increments_exec hu hi.left hi.right).trans (ih hut hrest)

/-- Settles O42: from 0 the counter reaches the number of increments, up to its largest value, and the check compares that. -/
theorem watchdogPeriod : Obligations.WatchdogPeriod := by
  intro s t is hzero his h
  have hperiod := increments_execAll h his
  have hcounter : t.wdCounter = min (is.count .wInc) (2 ^ s.cfg.wdWidth - 1) := by
    rw [hperiod.wdCounter, hzero, wdNext_iterate (Nat.zero_le _), Nat.zero_add, wdMax]
  refine ⟨hperiod.alarms, ?_⟩
  rw [← hcounter, ← hperiod.cfg]
  rcases Nat.lt_or_ge t.wdCounter t.cfg.wdThreshold with hlt | hle
  · exact ⟨_, exec_wCheck_of_lt hlt, rfl, fun _ => ⟨rfl, rfl⟩, fun hle => absurd hlt (Nat.not_lt.mpr hle)⟩
  · exact ⟨_, exec_wCheck_of_le hle, rfl, fun hlt => absurd hlt (Nat.not_lt.mpr hle), fun _ => ⟨rfl, rfl⟩⟩

end Machine
end Sys2Proof
end

section
/-! PROOFS. The fill of the push buffer (R228): every command's frame is there, with the values that the environment has
supplied. -/

namespace Sys2Proof
namespace Machine

/-- What a memory holds outside some bytes, it holds when only these have changed. -/
theorem Memory.Holds.sameOutside {m m' : Memory} {a b n : Nat} {bs : List Byte} (h : m.Holds a bs) (hm : m.SameOutside m' b n)
    (hdisj : a + bs.length ≤ b ∨ b + n ≤ a) : m'.Holds a bs := by
  obtain ⟨-, hread⟩ := hm
  intro i hi
  rw [hread (a + i) (by omega)]
  exact h i hi

theorem length_valueBytesOf_le (o : ByteOrder) (v : Value) : (valueBytesOf o v).length ≤ 4 := by
  rw [length_valueBytesOf]
  exact valueSize_le v.type

/-- A supplied value is the first one that is listed, if one is, and the bus and the main loop's steps stay as they are (R47). -/
theorem Inputs.pushValue_frame (n : Nat) (e : Inputs) :
    (∀ w, e.values[0]? = some w → (e.pushValue n).1 = w) ∧ (e.pushValue n).2.values = e.values.tail ∧
      (e.pushValue n).2.bus = e.bus ∧ (e.pushValue n).2.turns = e.turns := by
  obtain ⟨bus, answers, values, turns, draws⟩ := e
  cases values with
  | nil => exact ⟨nofun, rfl, rfl, rfl⟩
  | cons w rest => exact ⟨fun _ h => Option.some.inj h, rfl, rfl, rfl⟩

/-- `m'` is `m` with the frames of the commands `ids` from frame slot `j` on, each with its value as far as `ws` supplies it. -/
structure Filled (c : Cfg) (j : Nat) (ids : List Id) (ws : List Word32) (m m' : Memory) : Prop where
  idFields : ∀ i id, ids[i]? = some id → m'.Holds (9 * (j + i)) (bytes16 c.byteOrder id)
  constants : ∀ i id, ids[i]? = some id → m'.Holds (9 * (j + i) + 6) [0xFF, 0xFF, 0xFF]
  values : ∀ i id w, ids[i]? = some id → ws[i]? = some w →
    m'.Holds (9 * (j + i) + 2) (valueBytesOf c.byteOrder (valueOfPattern (vtype c.vtypes id) w))
  outside : m.SameOutside m' (9 * j) (9 * ids.length)

theorem Filled.nil (c : Cfg) (j : Nat) (ws : List Word32) (m : Memory) : Filled c j [] ws m m :=
  ⟨nofun, nofun, nofun, rfl, fun _ _ => rfl⟩

/-- One frame in front of the others, which leave it alone. -/
theorem Filled.cons {c : Cfg} {j : Nat} {id : Id} {ids : List Id} {w : Word32} {ws : List Word32} {m m1 m' : Memory}
    (hfirst : FrameWritten c.byteOrder (9 * j) id (valueBytesOf c.byteOrder (valueOfPattern (vtype c.vtypes id) w)) m m1)
    (hw : ∀ w', ws[0]? = some w' → w = w') (hrest : Filled c (j + 1) ids ws.tail m1 m') :
    Filled c j (id :: ids) ws m m' := by
  have hvalue := length_valueBytesOf_le c.byteOrder (valueOfPattern (vtype c.vtypes id) w)
  constructor
  case idFields =>
    intro i id' hid
    cases i with
    | zero =>
      cases hid
      exact hfirst.id.sameOutside hrest.outside (.inl (by simp; omega))
    | succ i =>
      rw [← Nat.add_assoc, Nat.add_right_comm]
      exact hrest.idFields i id' hid
  case constants =>
    intro i id' hid
    cases i with
    | zero =>
      cases hid
      exact hfirst.constants.sameOutside hrest.outside (.inl (by simp; omega))
    | succ i =>
      rw [← Nat.add_assoc, Nat.add_right_comm j]
      exact hrest.constants i id' hid
  case values =>
    intro i id' w' hid hw'
    cases i with
    | zero =>
      cases hid
      rw [← hw w' hw']
      exact hfirst.value.sameOutside hrest.outside (.inl (by omega))
    | succ i =>
      rw [← Nat.add_assoc, Nat.add_right_comm j]
      exact hrest.values i id' w' hid (by rwa [List.getElem?_tail])
  case outside =>
    obtain ⟨hsize, hread⟩ := hfirst.outside
    obtain ⟨hsize', hread'⟩ := hrest.outside
    refine ⟨hsize'.trans hsize, fun x hx => ?_⟩
    rw [List.length_cons] at hx
    rw [hread' x (by omega), hread x (by omega)]

/-- The fill of a push buffer that has room for the frames (R228). -/
theorem fillPush_filled {c : Cfg} {n j : Nat} {ids : List Id} {a : Act}
    (h : 9 * (j + ids.length) ≤ a.link.slot.pushBuf.size) :
    ∃ m e, fillPush c n j ids a = .ok ((a.setEnv e).setSlot { a.link.slot with pushBuf := m }) ∧
      Filled c j ids a.link.env.values a.link.slot.pushBuf m ∧ e.bus = a.link.env.bus ∧ e.turns = a.link.env.turns := by
  induction ids generalizing j a with
  | nil => exact ⟨a.link.slot.pushBuf, a.link.env, rfl, Filled.nil .., rfl, rfl⟩
  | cons id rest ih =>
    rw [List.length_cons] at h
    obtain ⟨hw, hvalues, hbus, hturns⟩ := a.link.env.pushValue_frame n
    obtain ⟨m, hm, hframe⟩ := encodeFrame_written (name := .push n) (o := c.byteOrder) (id := id) (off := 9 * j)
      (m := a.link.slot.pushBuf) (by omega)
      (length_valueBytesOf_le c.byteOrder (valueOfPattern (vtype c.vtypes id) (a.link.env.pushValue n).1))
    obtain ⟨hsize, -⟩ := hframe.outside
    obtain ⟨m', e, hfill, hrest, hbus', hturns'⟩ := ih (j := j + 1)
      (a := (a.setEnv (a.link.env.pushValue n).2).setSlot { a.link.slot with pushBuf := m }) (show _ ≤ m.size by omega)
    refine ⟨m', e, ?_, Filled.cons hframe hw (hvalues ▸ hrest), hbus'.trans hbus, hturns'.trans hturns⟩
    simp only [fillPush, hm]
    exact hfill

end Machine
end Sys2Proof
end

section
/-! PROOFS. The restart pulse (R231), and what every tick of a slot with buffers of their declared lengths comes to: a next state,
in which the buffers have these lengths again (R227, R249). -/

namespace Sys2Proof
namespace Machine

/-! ## The restart pulse (R231, R283) -/

theorem Responder.atReset_reset (idb : Pair) (vb : Quad) : (Responder.reset idb vb).AtReset :=
  ⟨rfl, rfl, rfl, rfl, rfl, rfl⟩

/-- Settles O48: the pulse draws the staging bytes and nothing else from the environment. -/
theorem tRestartResetsTheResponder : Obligations.TRestartResetsTheResponder := by
  intro s n l hl
  have hnext := onLink_next (f := fun a => .ok (.none, restartPulse n a)) hl rfl
  exact ⟨codeSelector_toBytes _, _, _, hnext, Responder.atReset_reset _ _⟩

/-! ## What every part of a tick keeps -/

/-- The part of a tick that turns `a` into `b` keeps the configuration, the pull buffer and the lengths of the other two buffers,
and it only adds effects. -/
structure TickKeeps (a b : Act) : Prop where
  slotCfg : b.link.slotCfg = a.link.slotCfg
  respCfg : b.link.respCfg = a.link.respCfg
  pullBuf : b.link.slot.pullBuf = a.link.slot.pullBuf
  pushSize : b.link.slot.pushBuf.size = a.link.slot.pushBuf.size
  rxSize : b.link.slot.rxBuf.size = a.link.slot.rxBuf.size
  fx : a.fx <+: b.fx

theorem TickKeeps.refl (a : Act) : TickKeeps a a := ⟨rfl, rfl, rfl, rfl, rfl, List.prefix_rfl⟩

theorem TickKeeps.trans {a b d : Act} (h : TickKeeps a b) (h' : TickKeeps b d) : TickKeeps a d where
  slotCfg := h'.slotCfg.trans h.slotCfg
  respCfg := h'.respCfg.trans h.respCfg
  pullBuf := h'.pullBuf.trans h.pullBuf
  pushSize := h'.pushSize.trans h.pushSize
  rxSize := h'.rxSize.trans h.rxSize
  fx := h.fx.trans h'.fx

theorem TickKeeps.sized {a b : Act} (h : TickKeeps a b) (ha : a.link.Sized) : b.link.Sized := by
  unfold Link.Sized
  rw [h.slotCfg, h.pullBuf, h.pushSize, h.rxSize]
  exact ha

theorem tickKeeps_tickPassed (a : Act) : TickKeeps a (tickPassed a) := ⟨rfl, rfl, rfl, rfl, rfl, List.prefix_rfl⟩

theorem tickKeeps_pause (p : Nat) (a : Act) : TickKeeps a (pause p a) := by
  obtain ⟨r, e, fx, h⟩ := pause_frame p a
  rw [h]
  exact ⟨rfl, rfl, rfl, rfl, rfl, List.prefix_append _ _⟩

theorem tickKeeps_restartPulse (n : Nat) (a : Act) : TickKeeps a (restartPulse n a) :=
  ⟨rfl, rfl, rfl, rfl, rfl, List.prefix_append _ _⟩

theorem tickKeeps_tickFailed (c : Cfg) (n : Nat) (kind : TickKind) (a : Act) : TickKeeps a (tickFailed c n kind a) := by
  have counted : TickKeeps a (a.setSlot { a.link.slot with failRun := a.link.slot.failRun + 1 }) :=
    ⟨rfl, rfl, rfl, rfl, rfl, List.prefix_rfl⟩
  simp only [tickFailed]
  split
  · exact (counted.trans (tickKeeps_pause n _)).trans (tickKeeps_restartPulse n _)
  · exact counted

/-! ## Every part of a tick answers -/

/-- A transfer inside both buffers, from a memory selected for it. -/
theorem transfer_selectTx_keeps {n : Nat} {m : Memory} {a : Act} (h : m.size ≤ a.link.slot.rxBuf.size) :
    ∃ b, transfer n m.size (selectTx m a) = .ok b ∧ TickKeeps a b ∧ b.link.slot.tx = m := by
  obtain ⟨rx, r, e, fx, hb, ⟨hsize, -⟩, -⟩ := transfer_frame (s := n) (len := m.size) (a := selectTx m a) (Nat.le_refl _) h
  exact ⟨_, hb, ⟨rfl, rfl, rfl, rfl, hsize, List.prefix_append _ _⟩, rfl⟩

theorem validateTxn_keeps {c : Cfg} {n count : Nat} {a : Act} (htx : 9 * count ≤ a.link.slot.tx.size)
    (hrx : 9 * count ≤ a.link.slot.rxBuf.size) :
    ∃ ok b, validateTxn c n count a = .ok (ok, b) ∧ TickKeeps a b := by
  obtain ⟨h, -⟩ | ⟨h, -⟩ := validateTxn_frame (c := c) (s := n) htx hrx
  · exact ⟨_, _, h, rfl, rfl, rfl, rfl, rfl, List.prefix_append _ _⟩
  · exact ⟨_, _, h, rfl, rfl, rfl, rfl, rfl, List.prefix_append _ _⟩

theorem fillPush_keeps {c : Cfg} {n j : Nat} {ids : List Id} {a : Act}
    (h : 9 * (j + ids.length) ≤ a.link.slot.pushBuf.size) :
    ∃ b, fillPush c n j ids a = .ok b ∧ TickKeeps a b := by
  obtain ⟨m, e, hb, hfilled, -⟩ := fillPush_filled (c := c) (n := n) h
  obtain ⟨hsize, -⟩ := hfilled.outside
  exact ⟨_, hb, rfl, rfl, rfl, hsize, rfl, List.prefix_rfl⟩

theorem prepareBuffer_keeps {c : Cfg} {n : Nat} {a : Act} (h : a.link.Sized) (b : TxBuf) :
    ∃ d, prepareBuffer c n b a = .ok d ∧ TickKeeps a d := by
  cases b with
  | push =>
    obtain ⟨hpush, -⟩ := h
    exact fillPush_keeps (by rw [hpush, Nat.zero_add])
  | pull => exact ⟨a, rfl, .refl a⟩

/-- Every buffer of a sized slot fits into its receive buffer. -/
theorem txBufMem_size_le {l : Link} (h : l.Sized) (b : TxBuf) : (txBufMem b l.slot).size ≤ l.slot.rxBuf.size := by
  obtain ⟨-, -, -, hpush, hpull⟩ := h
  cases b with
  | push => exact hpush
  | pull => exact hpull

theorem transact_keeps {c : Cfg} {n : Nat} {a : Act} (h : a.link.Sized) (b : TxBuf) :
    ∃ ok d, transact c n b a = .ok (ok, d) ∧ TickKeeps a d := by
  obtain ⟨a1, hprepare, hkeeps1⟩ := prepareBuffer_keeps (c := c) (n := n) h b
  have hfits := txBufMem_size_le (hkeeps1.sized h) b
  obtain ⟨a2, htransfer, hkeeps2, htx⟩ := transfer_selectTx_keeps (n := n) hfits
  have hcount := Nat.mul_div_le (txBufMem b a1.link.slot).size 9
  obtain ⟨ok, d, hvalidate, hkeeps3⟩ := validateTxn_keeps (c := c) (n := n) (count := (txBufMem b a1.link.slot).size / 9)
    (a := a2) (by rwa [htx]) (by rw [hkeeps2.rxSize]; omega)
  refine ⟨ok, d, ?_, (hkeeps1.trans hkeeps2).trans hkeeps3⟩
  simp only [transact, hprepare, htransfer, hvalidate]

theorem commandTick_keeps {c : Cfg} {n : Nat} {a : Act} (h : a.link.Sized) (plan : List TxBuf) :
    ∃ d, commandTick c n plan a = .ok d ∧ TickKeeps a d := by
  induction plan generalizing a with
  | nil => exact ⟨_, rfl, tickKeeps_tickPassed a⟩
  | cons b rest ih =>
    unfold commandTick
    split
    · exact ih h
    · obtain ⟨ok, a1, htransact, hkeeps⟩ := transact_keeps (c := c) (n := n) h b
      rw [htransact]
      cases ok with
      | false => exact ⟨_, rfl, hkeeps.trans (tickKeeps_tickFailed c n .command a1)⟩
      | true =>
        obtain ⟨d, hd, hkeeps'⟩ := ih (hkeeps.sized h)
        exact ⟨d, hd, hkeeps.trans hkeeps'⟩

theorem checkProbe_keeps {c : Cfg} {n : Nat} {a : Act} (h : 9 ≤ a.link.slot.rxBuf.size) :
    ∃ pass b, checkProbe c n a = .ok (pass, b) ∧ TickKeeps a b := by
  rw [checkProbe_eq h]
  split
  · exact ⟨_, _, rfl, rfl, rfl, rfl, rfl, rfl, List.prefix_rfl⟩
  · exact ⟨_, _, rfl, .refl a⟩

theorem probeTick_keeps {c : Cfg} {n : Nat} {a : Act} (h : 9 ≤ a.link.slot.rxBuf.size) :
    ∃ d, probeTick c n a = .ok d ∧ TickKeeps a d := by
  obtain ⟨a1, htransfer, hkeeps, -⟩ := transfer_selectTx_keeps (n := n) (m := probeBuf c) (a := a) h
  obtain ⟨pass, a2, hcheck, hkeeps'⟩ := checkProbe_keeps (c := c) (n := n) (a := a1) (hkeeps.rxSize ▸ h)
  rw [probeBuf_size] at htransfer
  simp only [probeTick, htransfer, hcheck]
  cases pass with
  | false => exact ⟨_, rfl, (hkeeps.trans hkeeps').trans (tickKeeps_tickFailed c n .probe a2)⟩
  | true => exact ⟨_, rfl, (hkeeps.trans hkeeps').trans (tickKeeps_tickPassed a2)⟩

theorem slotTick_keeps {c : Cfg} {n : Nat} {a : Act} (h : a.link.Sized) :
    ∃ d, slotTick c n a = .ok d ∧ TickKeeps a d := by
  unfold slotTick
  split
  · obtain ⟨-, -, hrx, -⟩ := h
    exact probeTick_keeps hrx
  · exact commandTick_keeps h _

/-- Settles O44: every part of a tick answers, and the tick keeps what its parts keep. -/
theorem tickOfASizedSlotCompletes : Obligations.TickOfASizedSlotCompletes := by
  intro s n l hl hsized
  obtain ⟨d, hd, hkeeps⟩ := slotTick_keeps (c := s.cfg) (n := n) (a := ⟨l, s.effects⟩) hsized
  obtain ⟨fx, hfx⟩ := hkeeps.fx
  have hnext : exec (.tTick n) s = .next (s.withLink n d.link d.fx .none) := execTTick_next hl hd
  rw [← hfx] at hnext
  exact ⟨codeSelector_toBytes _, d.link, fx, hnext, hkeeps.sized hsized, hkeeps.slotCfg, hkeeps.respCfg, hkeeps.pullBuf⟩

end Machine
end Sys2Proof
end

section
/-! PROOFS. A transfer of command frames on the ideal bus to a synchronized responder at a frame boundary: the responder answers
every frame as R91 says, and stands at a frame boundary again (R160 to R175). -/

namespace Sys2Proof
namespace Machine

/-! ## The answer to a frame (R91) -/

/-- `y` may be byte `pos` of the answer to frame `k` of `tx`: the id comes back, then the value, then the id again, each byte one
place behind the byte sent; the value of an id that the pull source claims may be any, and byte 0 belongs to the frame before. -/
def Answers (c : RespCfg) (tx : Memory) (k pos : Nat) (y : Byte) : Prop :=
  match pos with
  | 1 => y = tx.read (9 * k)
  | 2 => y = tx.read (9 * k + 1)
  | 3 => idOf c.byteOrder (tx.pairAt (9 * k)) ∉ c.pullS → y = tx.read (9 * k + 2)
  | 4 => idOf c.byteOrder (tx.pairAt (9 * k)) ∉ c.pullS → y = tx.read (9 * k + 3)
  | 5 => idOf c.byteOrder (tx.pairAt (9 * k)) ∉ c.pullS → y = tx.read (9 * k + 4)
  | 6 => idOf c.byteOrder (tx.pairAt (9 * k)) ∉ c.pullS → y = tx.read (9 * k + 5)
  | 7 => y = tx.read (9 * k)
  | 8 => y = tx.read (9 * k + 1)
  | _ => True

/-- The responder stands at byte `pos` of frame `k` of `tx`: it has staged a byte of the answer, and it holds what it has read of
the frame as far as the rest of the answer depends on it. -/
structure Responder.Serves (c : RespCfg) (tx : Memory) (k : Nat) (pos : Fin 9) (r : Responder) : Prop where
  sSync : r.sSync = .synchronized
  syncPos : r.syncPos = 0
  framePos : r.framePos = pos
  staged : Answers c tx k pos r.txReg
  id0 : 1 ≤ pos.val → r.idBytes.b0 = tx.read (9 * k)
  id1 : 2 ≤ pos.val → r.idBytes.b1 = tx.read (9 * k + 1)
  isPull : 3 ≤ pos.val → r.isPull = true → idOf c.byteOrder (tx.pairAt (9 * k)) ∈ c.pullS

/-- At a frame boundary nothing is read yet. -/
theorem Responder.serves_zero {r : Responder} (hs : r.sSync = .synchronized) (hsync : r.syncPos = 0) (hframe : r.framePos = 0)
    (c : RespCfg) (tx : Memory) (k : Nat) : r.Serves c tx k 0 :=
  ⟨hs, hsync, hframe, trivial, nofun, nofun, nofun⟩

/-! ## One byte of a frame (R162 to R175) -/

section
variable {c : RespCfg} {tx : Memory} {k : Nat} {a : Act} (p : Nat)

theorem byteStep_serves_id {pos : Fin 9} (h : a.link.resp.Serves c tx k pos) (hpos : pos = 0 ∨ pos = 1) :
    (byteStep p (tx.read (9 * k + pos)) a).link.resp.Serves c tx k (pos + 1) := by
  have hframe := h.framePos
  rw [byteStep_synchronized h.sSync, if_pos (by obtain rfl | rfl := hpos <;> rw [hframe] <;> decide)]
  obtain rfl | rfl := hpos
  · rw [captureId_zero hframe]
    exact ⟨h.sSync, h.syncPos, rfl, rfl, fun _ => rfl, nofun, nofun⟩
  · rw [captureId_one hframe]
    exact ⟨h.sSync, h.syncPos, rfl, rfl, fun _ => h.id0 (Nat.le_refl 1), fun _ => rfl, nofun⟩

/-- The lookup claims the frame for the pull source if its id is one of `PULL_S` (R164). -/
theorem byteStep_serves_sel (hc : a.link.respCfg = c) (h : a.link.resp.Serves c tx k 2) :
    (byteStep p (tx.read (9 * k + 2)) a).link.resp.Serves c tx k 3 := by
  have hframe := h.framePos
  have hid : slaveId a.link.respCfg a.link.resp = idOf c.byteOrder (tx.pairAt (9 * k)) := by
    rw [slaveId, hc, idOf, idOf, h.id0 (by decide), h.id1 (by decide)]
    rfl
  rw [byteStep_synchronized h.sSync, if_neg (by rw [hframe]; decide), if_pos (by rw [hframe]; rfl), selectValue, hid, hc]
  split
  · rename_i hpull
    exact ⟨h.sSync, h.syncPos, rfl, fun hpush => absurd hpull hpush, fun _ => h.id0 (by decide), fun _ => h.id1 (by decide),
      fun _ _ => hpull⟩
  · exact ⟨h.sSync, h.syncPos, rfl, fun _ => rfl, fun _ => h.id0 (by decide), fun _ => h.id1 (by decide), fun _ => nofun⟩

theorem byteStep_serves_val {pos : Fin 9} (h : a.link.resp.Serves c tx k pos) (hpos : pos = 3 ∨ pos = 4 ∨ pos = 5) :
    (byteStep p (tx.read (9 * k + pos)) a).link.resp.Serves c tx k (pos + 1) := by
  have hframe := h.framePos
  have hid0 := h.id0 (by obtain rfl | rfl | rfl := hpos <;> decide)
  have hid1 := h.id1 (by obtain rfl | rfl | rfl := hpos <;> decide)
  have hclaim := h.isPull (by obtain rfl | rfl | rfl := hpos <;> decide)
  have hstep : byteStep p (tx.read (9 * k + pos)) a = furtherValue (tx.read (9 * k + pos)) a := by
    rw [byteStep_synchronized h.sSync, hframe]
    obtain rfl | rfl | rfl := hpos <;> rfl
  have hanswers : ∀ y, (idOf c.byteOrder (tx.pairAt (9 * k)) ∉ c.pullS → y = tx.read (9 * k + pos)) →
      Answers c tx k (pos + 1 : Fin 9) y := by
    obtain rfl | rfl | rfl := hpos <;> exact fun y hy => hy
  rw [hstep]
  cases hp : a.link.resp.isPull with
  | true =>
    rw [furtherValue_pull hp, hframe]
    exact ⟨h.sSync, h.syncPos, rfl, hanswers _ (absurd (hclaim hp)), fun _ => hid0, fun _ => hid1, fun _ _ => hclaim hp⟩
  | false =>
    rw [furtherValue_push hp, hframe]
    exact ⟨h.sSync, h.syncPos, rfl, hanswers _ (fun _ => rfl), fun _ => hid0, fun _ => hid1, fun _ h' => hclaim h'⟩

/-- The constant bytes of the AckId field keep the responder in the frame, and it replies the id (R173). -/
theorem byteStep_serves_ack {pos : Fin 9} (h : a.link.resp.Serves c tx k pos) (hpos : pos = 6 ∨ pos = 7) :
    (byteStep p 0xFF a).link.resp.Serves c tx k (pos + 1) := by
  have hframe := h.framePos
  have hid0 := h.id0 (by obtain rfl | rfl := hpos <;> decide)
  have hid1 := h.id1 (by obtain rfl | rfl := hpos <;> decide)
  have hclaim := h.isPull (by obtain rfl | rfl := hpos <;> decide)
  have hstep : byteStep p 0xFF a = ackProbe a := by
    rw [byteStep_synchronized h.sSync, hframe]
    obtain rfl | rfl := hpos <;> rfl
  rw [hstep]
  obtain rfl | rfl := hpos
  · rw [ackProbe_six hframe]
    exact ⟨h.sSync, h.syncPos, rfl, hid0, fun _ => hid0, fun _ => hid1, fun _ => hclaim⟩
  · rw [ackProbe_seven hframe]
    exact ⟨h.sSync, h.syncPos, rfl, hid1, fun _ => hid0, fun _ => hid1, fun _ => hclaim⟩

/-- The last byte, whatever it is, ends the frame (R175). -/
theorem byteStep_serves_end (h : a.link.resp.Serves c tx k 8) (y : Byte) :
    (byteStep p y a).link.resp.Serves c tx (k + 1) 0 := by
  rw [byteStep_completes h.sSync (by rw [h.framePos]; decide)]
  exact Responder.serves_zero (r := (completeFrame p a).link.resp) h.sSync h.syncPos rfl c tx (k + 1)

end

/-! ## A transfer of frames -/

/-- `tx` is a number of frames as far as the responder reads them: the AckId field of each is `FF FF` (R90). -/
def Memory.AsksForAcks (tx : Memory) : Prop := ∀ k, 9 * k < tx.size → tx.Holds (9 * k + 6) [0xFF, 0xFF]

/-- Each byte of the frames takes the responder to the next byte, after the last byte of a frame to the next frame. -/
theorem byteStep_serves_next {c : RespCfg} {tx : Memory} {i : Nat} {a : Act} (hc : a.link.respCfg = c)
    (h : a.link.resp.Serves c tx (i / 9) (Fin.ofNat 9 i)) (hacks : tx.AsksForAcks) (hi : i < tx.size) (p : Nat) :
    (byteStep p (tx.read i) a).link.resp.Serves c tx ((i + 1) / 9) (Fin.ofNat 9 (i + 1)) := by
  obtain ⟨k, pos, rfl⟩ : ∃ k, ∃ pos : Fin 9, i = 9 * k + pos := ⟨i / 9, Fin.ofNat 9 i, (Nat.div_add_mod i 9).symm⟩
  have hlt := pos.isLt
  have hpos : Fin.ofNat 9 (9 * k + pos) = pos := Fin.ext (by simp [Nat.mod_eq_of_lt])
  have hk : (9 * k + pos.val) / 9 = k := by omega
  have hacks := hacks k (by omega)
  simp only [Memory.holds_cons] at hacks
  obtain ⟨hack0, hack1, -⟩ := hacks
  rw [hpos, hk] at h
  by_cases h8 : pos = 8
  · subst h8
    have hpos' : Fin.ofNat 9 (9 * k + (8 : Fin 9) + 1) = 0 := Fin.ext (by simp; omega)
    have hk' : (9 * k + (8 : Fin 9).val + 1) / 9 = k + 1 := by simp; omega
    rw [hpos', hk']
    exact byteStep_serves_end p h _
  · have hnext : (pos + 1).val = pos.val + 1 := Fin.val_add_one_of_lt (Fin.lt_last_iff_ne_last.mpr h8)
    have hpos' : Fin.ofNat 9 (9 * k + pos + 1) = pos + 1 := Fin.ext (by simp [hnext]; omega)
    have hk' : (9 * k + pos.val + 1) / 9 = k := by omega
    rw [hpos', hk']
    fin_cases pos
    · exact byteStep_serves_id p h (.inl rfl)
    · exact byteStep_serves_id p h (.inr rfl)
    · exact byteStep_serves_sel p hc h
    · exact byteStep_serves_val p h (.inl rfl)
    · exact byteStep_serves_val p h (.inr (.inl rfl))
    · exact byteStep_serves_val p h (.inr (.inr rfl))
    · exact hack0 ▸ byteStep_serves_ack p h (.inl rfl)
    · exact hack1 ▸ byteStep_serves_ack p h (.inr rfl)
    · exact absurd rfl h8

/-- A byte step takes no value from the push-value supplier (R47). -/
theorem byteStep_values (p : Nat) (rx : Byte) (a : Act) : (byteStep p rx a).link.env.values = a.link.env.values := by
  have sel : (selectValue p rx a).link.env.values = a.link.env.values := by
    unfold selectValue
    split
    · obtain ⟨-, hvalues, -⟩ := a.link.env.pullAnswer_frame p
      exact hvalues
    · rfl
  have val : (furtherValue rx a).link.env.values = a.link.env.values := by
    simp only [furtherValue]
    split <;> rfl
  cases hs : a.link.resp.sSync with
  | unsynchronized =>
    rw [byteStep_unsynchronized hs]
    split_ifs <;> rfl
  | synchronized =>
    rw [byteStep_synchronized hs]
    split_ifs
    · rfl
    · exact sel
    · exact val
    · rfl
    · rfl
    · rfl

/-- Where a transfer of the frames in `tx` stands before exchange `i`: the responder is at byte `i % 9` of frame `i / 9`, and what
the initiator has received so far answers the frames. -/
structure Act.Serving (c : RespCfg) (tx : Memory) (ws : List Word32) (i : Nat) (a : Act) : Prop where
  respCfg : a.link.respCfg = c
  txBuf : a.link.slot.tx = tx
  rxSize : tx.size ≤ a.link.slot.rxBuf.size
  values : a.link.env.values = ws
  serves : a.link.resp.Serves c tx (i / 9) (Fin.ofNat 9 i)
  received : ∀ x < i, Answers c tx (x / 9) (x % 9) (a.link.slot.rxBuf.read x)

theorem Act.Serving.dispatchFrame {c : RespCfg} {tx : Memory} {ws : List Word32} {i : Nat} {a : Act} (h : a.Serving c tx ws i)
    (p : Nat) : (dispatchFrame p a).Serving c tx ws i := by
  obtain ⟨respCfg, txBuf, rxSize, values, ⟨sSync, syncPos, framePos, staged, id0, id1, isPull⟩, received⟩ := h
  constructor <;> rw [dispatchFrame_link]
  · exact respCfg
  · exact txBuf
  · exact rxSize
  · exact values
  · exact ⟨sSync, syncPos, framePos, staged, id0, id1, isPull⟩
  · exact received

/-- The initiator receives the byte that is staged, and the responder reads the next one. -/
theorem Act.Serving.idealExchange {c : RespCfg} {tx : Memory} {ws : List Word32} {i : Nat} {a : Act} (h : a.Serving c tx ws i)
    (hacks : tx.AsksForAcks) (hi : i < tx.size) (p : Nat) : (idealExchange p i a).Serving c tx ws (i + 1) where
  respCfg := (idealExchange_respCfg p i a).trans h.respCfg
  txBuf := by
    rw [idealExchange_slot]
    exact h.txBuf
  rxSize := by
    rw [idealExchange_slot]
    simpa using h.rxSize
  values := (byteStep_values ..).trans h.values
  serves := by
    rw [Machine.idealExchange, h.txBuf]
    exact byteStep_serves_next (a := a.receive i) h.respCfg h.serves hacks hi p
  received := by
    intro x hx
    rw [idealExchange_slot, Memory.read_write (Nat.lt_of_lt_of_le hi h.rxSize)]
    split
    · subst x
      exact h.serves.staged
    · exact h.received x (by omega)

/-- A transfer of frames to an aligned responder on the ideal bus: every frame is answered, and the responder stands at a frame
boundary again. -/
theorem transfer_serving {p n : Nat} {tx : Memory} {a : Act} (hacks : tx.AsksForAcks) (hsize : tx.size = 9 * n)
    (hrx : tx.size ≤ a.link.slot.rxBuf.size) (hu : a.link.Undisturbed) (ha : a.link.Aligned) :
    ∃ b, transfer p tx.size (selectTx tx a) = .ok b ∧ b.Serving a.link.respCfg tx a.link.env.values tx.size ∧
      b.link.Undisturbed ∧ b.link.Aligned ∧ b.link.slot.pushBuf = a.link.slot.pushBuf := by
  obtain ⟨hbus, hline, hturns⟩ := hu
  obtain ⟨hm, hs, hframe, hsync⟩ := ha
  let a0 := selectTx tx a
  have start : a0.Serving a.link.respCfg tx a.link.env.values 0 :=
    ⟨rfl, rfl, hrx, rfl, Responder.serves_zero hs hsync hframe _ _ _, nofun⟩
  let b := (idealExchanges p tx.size 0 a.link.env.turns a0).schedule [] (a.link.env.turns.drop (tx.size + 1))
  have htransfer : transfer p tx.size a0 = .ok b := transfer_ideal hbus ⟨hline, Nat.le_refl _, hrx⟩
  have served := idealExchanges_induction (p := p) (n := tx.size)
    (P := fun i b => b.Serving a.link.respCfg tx a.link.env.values i) (fun _ _ h => h.dispatchFrame p)
    (fun _ _ hi h => h.idealExchange hacks hi p) (Nat.zero_add _) hturns start
  obtain ⟨rx, hslot⟩ := transfer_slot htransfer
  have hslot' : b.link.slot = { a.link.slot with tx := tx, rxBuf := rx } := hslot
  have hboundary : Fin.ofNat 9 tx.size = 0 := Fin.ext (by simp [hsize])
  refine ⟨b, htransfer,
    ⟨served.respCfg, served.txBuf, served.rxSize, served.values, served.serves, served.received⟩,
    ⟨rfl, by rw [hslot']; exact hline, fun ts hts => hturns ts (List.mem_of_mem_drop hts)⟩,
    ⟨by rw [hslot']; exact hm, served.serves.sSync, served.serves.framePos.trans hboundary, served.serves.syncPos⟩,
    by rw [hslot']⟩

/-! ## The verdict on an answered frame (R193) -/

/-- A frame with a valid id whose answer is that of R91 is accepted. -/
theorem frameVerdict_accepts {c : Cfg} {pullM : List Id} {e : Extracted} (h1 : e.rxId1 = e.txId1) (h2 : e.rxId2 = e.txId1)
    (hlow : 1 ≤ e.txId1.toInt) (hhigh : e.txId1.toInt ≤ c.maxId) (hval : e.txId1 ∉ pullM → e.rxVal = e.txVal) :
    (frameVerdict c pullM e).failed = false := by
  have hecho1 : echoId e.txId1 e.rxId1 = e.txId1.toInt := by rw [h1, echoId, if_pos rfl]
  have hecho2 : echoId e.txId1 e.rxId2 = e.txId1.toInt := by rw [h2, echoId, if_pos rfl]
  simp only [frameVerdict, hecho1, hecho2]
  rw [if_neg (by simp), if_neg (by omega)]
  split
  · rfl
  · rw [if_pos (hval ‹_›)]
    rfl

/-- What the validator extracts for an answered frame. -/
theorem extract_of_answers {c : RespCfg} {tx rx : Memory} {n k : Nat} (hk : k < n)
    (h : ∀ x < 9 * n, Answers c tx (x / 9) (x % 9) (rx.read x)) (o : ByteOrder) :
    let e := extract o tx rx k
    e.rxId1 = e.txId1 ∧ e.rxId2 = e.txId1 ∧
      (idOf c.byteOrder (tx.pairAt (9 * k)) ∉ c.pullS → e.rxVal = e.txVal) := by
  have answer : ∀ pos < 9, Answers c tx k pos (rx.read (9 * k + pos)) := by
    intro pos hpos
    have := h (9 * k + pos) (by omega)
    rwa [show (9 * k + pos) / 9 = k by omega, show (9 * k + pos) % 9 = pos by omega] at this
  have a1 : rx.read (9 * k + 1) = _ := answer 1 (by decide)
  have a2 : rx.read (9 * k + 1 + 1) = _ := answer 2 (by decide)
  have a7 : rx.read (9 * k + 7) = _ := answer 7 (by decide)
  have a8 : rx.read (9 * k + 7 + 1) = _ := answer 8 (by decide)
  refine ⟨?_, ?_, fun hpush => ?_⟩
  · simp only [extract, Memory.pairAt, a1, a2]
  · simp only [extract, Memory.pairAt, a7, a8]
  · have a3 : rx.read (9 * k + 3) = _ := answer 3 (by decide) hpush
    have a4 : rx.read (9 * k + 3 + 1) = _ := answer 4 (by decide) hpush
    have a5 : rx.read (9 * k + 3 + 2) = _ := answer 5 (by decide) hpush
    have a6 : rx.read (9 * k + 3 + 3) = _ := answer 6 (by decide) hpush
    simp only [extract, Memory.quadAt, a3, a4, a5, a6]

end Machine
end Sys2Proof
end

section
/-! PROOFS. Command ticks on the ideal bus with an aligned responder (R230, R234): every transaction of the plan passes. -/

namespace Sys2Proof
namespace Machine

/-! ## A buffer of command frames -/

/-- The commands of a buffer, in the order of their frames (R228). -/
def bufCmds (k : SlotCfg) (b : TxBuf) : List Id :=
  match b with
  | .push => k.pushCmds
  | .pull => k.pullCmds

theorem txBufMem_size {l : Link} (h : l.Sized) (b : TxBuf) : (txBufMem b l.slot).size = 9 * (bufCmds l.slotCfg b).length := by
  obtain ⟨hpush, hpull, -⟩ := h
  cases b with
  | push => exact hpush
  | pull => exact hpull

theorem bufCmds_subset (k : SlotCfg) (b : TxBuf) : bufCmds k b ⊆ k.pushCmds ++ k.pullCmds := by
  cases b with
  | push => exact List.subset_append_left ..
  | pull => exact List.subset_append_right ..

/-- The memory is the frames of these commands, as far as the ids and the AckId fields go (R90, R228). -/
structure Memory.HoldsCommands (o : ByteOrder) (ids : List Id) (m : Memory) : Prop where
  size : m.size = 9 * ids.length
  idFields : ∀ j id, ids[j]? = some id → m.Holds (9 * j) (bytes16 o id)
  ackFields : ∀ j id, ids[j]? = some id → m.Holds (9 * j + 6) [0xFF, 0xFF]

theorem Memory.HoldsCommands.asksForAcks {o : ByteOrder} {ids : List Id} {m : Memory} (h : m.HoldsCommands o ids) :
    m.AsksForAcks := fun k hk =>
  h.ackFields k _ (List.getElem?_eq_getElem (by have := h.size; omega))

theorem Filled.holdsCommands {c : Cfg} {ids : List Id} {ws : List Word32} {m m' : Memory} (h : Filled c 0 ids ws m m')
    (hm : m.size = 9 * ids.length) : m'.HoldsCommands c.byteOrder ids where
  size := by
    obtain ⟨hsize, -⟩ := h.outside
    exact hsize.trans hm
  idFields j id hid := by simpa using h.idFields j id hid
  ackFields j id hid := by
    have hconstants := h.constants j id hid
    rw [Nat.zero_add] at hconstants
    obtain ⟨hack, -⟩ := (Memory.holds_append (bs := [0xFF, 0xFF]) (cs := [0xFF])).mp hconstants
    exact hack

/-! ## What a passing tick starts from and keeps -/

/-- The link is as `CommandTickPasses` asks: the bus is ideal, both sides are aligned and their tables agree, every id is valid,
and the pull buffer holds its frames. -/
structure Link.Ready (c : Cfg) (l : Link) : Prop where
  sized : l.Sized
  undisturbed : l.Undisturbed
  aligned : l.Aligned
  byteOrder : c.byteOrder = l.respCfg.byteOrder
  claims : ∀ id, id ∈ l.slotCfg.pullM ↔ id ∈ l.respCfg.pullS
  valid : ∀ id ∈ l.slotCfg.pushCmds ++ l.slotCfg.pullCmds, 1 ≤ id.toInt ∧ id.toInt ≤ c.maxId
  pullFrames : l.slot.pullBuf.HoldsCommands c.byteOrder l.slotCfg.pullCmds

theorem Link.Ready.next {c : Cfg} {a b : Act} (h : a.link.Ready c) (hkeeps : TickKeeps a b) (hu : b.link.Undisturbed)
    (ha : b.link.Aligned) : b.link.Ready c where
  sized := hkeeps.sized h.sized
  undisturbed := hu
  aligned := ha
  byteOrder := hkeeps.respCfg ▸ h.byteOrder
  claims := hkeeps.slotCfg ▸ hkeeps.respCfg ▸ h.claims
  valid := hkeeps.slotCfg ▸ h.valid
  pullFrames := hkeeps.slotCfg ▸ hkeeps.pullBuf ▸ h.pullFrames

/-! ## One transaction -/

section
variable {c : Cfg} {n : Nat} {a : Act}

/-- An answered frame of a valid command is accepted, since both sides read its id and claim it alike (R193, R195 to R199). -/
theorem frameVerdict_of_serving {ids : List Id} {m : Memory} {ws : List Word32} {b : Act} {l : Link} (hl : l.Ready c)
    (hids : ids ⊆ l.slotCfg.pushCmds ++ l.slotCfg.pullCmds) (hm : m.HoldsCommands c.byteOrder ids)
    (hb : b.Serving l.respCfg m ws m.size) {j : Nat} (hj : j < ids.length) :
    (frameVerdict c l.slotCfg.pullM (extract c.byteOrder b.link.slot.tx b.link.slot.rxBuf j)).failed = false := by
  have hid : idOf c.byteOrder (m.pairAt (9 * j)) = ids[j] :=
    ord16_of_holds (hm.idFields j _ (List.getElem?_eq_getElem hj))
  obtain ⟨hlow, hhigh⟩ := hl.valid ids[j] (hids (List.getElem_mem hj))
  obtain ⟨h1, h2, hval⟩ := extract_of_answers hj (fun x hx => hb.received x (hm.size ▸ hx)) c.byteOrder
  rw [← hl.byteOrder, ← hl.claims] at hval
  rw [← hid] at hlow hhigh
  rw [hb.txBuf]
  exact frameVerdict_accepts h1 h2 hlow hhigh hval

/-- The transfer and the validation of a buffer of valid commands pass. -/
theorem transfer_validateTxn_passes {ids : List Id} {m : Memory} (ha : a.link.Ready c)
    (hids : ids ⊆ a.link.slotCfg.pushCmds ++ a.link.slotCfg.pullCmds) (hm : m.HoldsCommands c.byteOrder ids)
    (hrx : m.size ≤ a.link.slot.rxBuf.size) :
    ∃ b d, transfer n m.size (selectTx m a) = .ok b ∧ validateTxn c n (m.size / 9) b = .ok (true, d) ∧
      d.link.Undisturbed ∧ d.link.Aligned ∧ d.link.slot.pushBuf = a.link.slot.pushBuf ∧
      d.link.env.values = a.link.env.values := by
  obtain ⟨b, htransfer, hb, hu, hal, hpush⟩ :=
    transfer_serving (p := n) hm.asksForAcks hm.size hrx ha.undisturbed ha.aligned
  obtain ⟨b', htransfer', hkeeps, -⟩ := transfer_selectTx_keeps (n := n) hrx
  cases htransfer.symm.trans htransfer'
  have hcount : m.size / 9 = ids.length := by rw [hm.size, Nat.mul_div_cancel_left _ (by decide)]
  have hfits := hb.rxSize
  rw [hm.size] at hfits
  rcases validateTxn_frame (c := c) (s := n) (n := ids.length) (a := b) (by rw [hb.txBuf, hm.size]) hfits with
    ⟨hok, -⟩ | ⟨-, j, hj, hfail⟩
  · rw [← hcount] at hok
    exact ⟨b, _, htransfer, hok, hu, hal, hpush, hb.values⟩
  · rw [hkeeps.slotCfg, frameVerdict_of_serving ha hids hm hb hj] at hfail
    cases hfail

/-- What a transaction of buffer `b` does to the push buffer and to the supplied values: the push buffer is filled with them, the
pull buffer is sent as it is (R228, R230). -/
def PreparedFor (c : Cfg) (b : TxBuf) (l l' : Link) : Prop :=
  match b with
  | .push => Filled c 0 l.slotCfg.pushCmds l.env.values l.slot.pushBuf l'.slot.pushBuf
  | .pull => l'.slot.pushBuf = l.slot.pushBuf ∧ l'.env.values = l.env.values

theorem PreparedFor.congr {b : TxBuf} {l l1 l2 : Link} (h : PreparedFor c b l l1) (hpush : l2.slot.pushBuf = l1.slot.pushBuf)
    (hvalues : l2.env.values = l1.env.values) : PreparedFor c b l l2 := by
  cases b with
  | push =>
    unfold PreparedFor
    rw [hpush]
    exact h
  | pull => exact ⟨hpush.trans h.left, hvalues.trans h.right⟩

/-- A prepared buffer holds the frames of its commands. -/
theorem prepareBuffer_ready (h : a.link.Ready c) (b : TxBuf) :
    ∃ a1, prepareBuffer c n b a = .ok a1 ∧ TickKeeps a a1 ∧ a1.link.Ready c ∧ PreparedFor c b a.link a1.link ∧
      (txBufMem b a1.link.slot).HoldsCommands c.byteOrder (bufCmds a1.link.slotCfg b) := by
  cases b with
  | pull => exact ⟨a, rfl, .refl a, h, ⟨rfl, rfl⟩, h.pullFrames⟩
  | push =>
    have hsize : a.link.slot.pushBuf.size = 9 * a.link.slotCfg.pushCmds.length := txBufMem_size h.sized .push
    obtain ⟨hbus, hline, hturns⟩ := h.undisturbed
    obtain ⟨m, e, hfill, hfilled, hbus', hturns'⟩ := fillPush_filled (c := c) (n := n) (j := 0) (a := a)
      (ids := a.link.slotCfg.pushCmds) (by omega)
    have hkeeps : TickKeeps a ((a.setEnv e).setSlot { a.link.slot with pushBuf := m }) :=
      ⟨rfl, rfl, rfl, hfilled.outside.left, rfl, List.prefix_rfl⟩
    exact ⟨_, hfill, hkeeps, h.next hkeeps ⟨hbus'.trans hbus, hline, hturns' ▸ hturns⟩ h.aligned, hfilled,
      hfilled.holdsCommands hsize⟩

theorem transact_passes (h : a.link.Ready c) (b : TxBuf) :
    ∃ d, transact c n b a = .ok (true, d) ∧ TickKeeps a d ∧ d.link.Ready c ∧ PreparedFor c b a.link d.link := by
  obtain ⟨a1, hprepare, hkeeps1, h1, hprepared, hcommands⟩ := prepareBuffer_ready (n := n) h b
  obtain ⟨a2, d, htransfer, hvalidate, hu, ha, hpush, hvalues⟩ :=
    transfer_validateTxn_passes (n := n) h1 (bufCmds_subset _ b) hcommands (txBufMem_size_le h1.sized b)
  have htransact : transact c n b a = .ok (true, d) := by simp only [transact, hprepare, htransfer, hvalidate]
  obtain ⟨ok, d', htransact', hkeeps⟩ := transact_keeps (c := c) (n := n) h.sized b
  cases htransact.symm.trans htransact'
  exact ⟨d, htransact, hkeeps, h.next hkeeps hu ha, hprepared.congr hpush hvalues⟩

end

/-! ## The plan -/

/-- What the transactions of a plan do to the push buffer: it is filled if the plan sends it, and with the values supplied first if
the plan sends it once (R228, R230; log 9). -/
structure PlanSent (c : Cfg) (plan : List TxBuf) (l l' : Link) : Prop where
  kept : .push ∉ plan → l'.slot.pushBuf = l.slot.pushBuf
  filled : .push ∈ plan → ∃ ws m, Filled c 0 l.slotCfg.pushCmds ws m l'.slot.pushBuf ∧
    (plan.count .push = 1 → ws = l.env.values)

section
variable {c : Cfg} {rest : List TxBuf} {l l1 l' : Link}

theorem PlanSent.pull_cons (h : PlanSent c rest l1 l') (hcfg : l1.slotCfg = l.slotCfg)
    (hpush : l1.slot.pushBuf = l.slot.pushBuf) (hvalues : l1.env.values = l.env.values) : PlanSent c (.pull :: rest) l l' where
  kept hpull := (h.kept (mt (List.mem_cons_of_mem _) hpull)).trans hpush
  filled hmem := by
    have hfilled := h.filled (by simpa using hmem)
    rw [hcfg, hvalues] at hfilled
    simpa using hfilled

theorem PlanSent.push_cons (h : PlanSent c rest l1 l') (hcfg : l1.slotCfg = l.slotCfg)
    (hfill : Filled c 0 l.slotCfg.pushCmds l.env.values l.slot.pushBuf l1.slot.pushBuf) : PlanSent c (.push :: rest) l l' where
  kept hpush := absurd List.mem_cons_self hpush
  filled _ := by
    by_cases hrest : .push ∈ rest
    · obtain ⟨ws, m, hfilled, -⟩ := h.filled hrest
      have hcount := List.count_pos_iff.mpr hrest
      exact ⟨ws, m, hcfg ▸ hfilled, fun hone => by rw [List.count_cons_self] at hone; omega⟩
    · exact ⟨l.env.values, l.slot.pushBuf, h.kept hrest ▸ hfill, fun _ => rfl⟩

theorem PlanSent.cons {b : TxBuf} (h : PlanSent c rest l1 l') (hcfg : l1.slotCfg = l.slotCfg) (hb : PreparedFor c b l l1) :
    PlanSent c (b :: rest) l l' := by
  cases b with
  | push => exact h.push_cons hcfg hb
  | pull => exact h.pull_cons hcfg hb.left hb.right

/-- A buffer without commands is skipped; there is nothing to fill it with (log 35). -/
theorem PlanSent.skip {b : TxBuf} (h : PlanSent c rest l l') (hb : bufCmds l.slotCfg b = []) : PlanSent c (b :: rest) l l' := by
  cases b with
  | pull => exact h.pull_cons rfl rfl rfl
  | push =>
    refine h.push_cons rfl ?_
    rw [show l.slotCfg.pushCmds = [] from hb]
    exact Filled.nil ..

end

/-- Every transaction of the plan passes, and then the tick (R230). -/
theorem commandTick_passes {c : Cfg} {n : Nat} {a : Act} (h : a.link.Ready c) (plan : List TxBuf) :
    ∃ d, commandTick c n plan a = .ok d ∧ d.link.Ready c ∧ d.link.slot.failRun = 0 ∧ PlanSent c plan a.link d.link := by
  induction plan generalizing a with
  | nil =>
    exact ⟨_, rfl, h.next (tickKeeps_tickPassed a) h.undisturbed h.aligned, rfl, fun _ => rfl, nofun⟩
  | cons b rest ih =>
    unfold commandTick
    split
    · rename_i hempty
      obtain ⟨d, hd, hready, hrun, hsent⟩ := ih h
      rw [txBufMem_size h.sized] at hempty
      exact ⟨d, hd, hready, hrun, hsent.skip (List.length_eq_zero_iff.mp (by omega))⟩
    · obtain ⟨a1, htransact, hkeeps, h1, hprepared⟩ := transact_passes (n := n) h b
      obtain ⟨d, hd, hready, hrun, hsent⟩ := ih h1
      rw [htransact]
      exact ⟨d, hd, hready, hrun, hsent.cons hkeeps.slotCfg hprepared⟩

/-- Settles O47: the tick of a synchronized slot is its plan, and every transaction of the plan passes. -/
theorem commandTickPasses : Obligations.CommandTickPasses := by
  intro s n l hl hsized hu ha horder hclaims hvalid hpull
  have hpullFrames : l.slot.pullBuf.HoldsCommands s.cfg.byteOrder l.slotCfg.pullCmds :=
    { size := txBufMem_size hsized .pull
      idFields := fun j id hid => by
        obtain ⟨hj, rfl⟩ := List.getElem?_eq_some_iff.mp hid
        exact (hpull j hj).left
      ackFields := fun j id hid => by
        obtain ⟨hj, rfl⟩ := List.getElem?_eq_some_iff.mp hid
        exact (hpull j hj).right }
  obtain ⟨d, hd, hready, hrun, hsent⟩ := commandTick_passes (c := s.cfg) (n := n) (a := ⟨l, s.effects⟩)
    ⟨hsized, hu, ha, horder, hclaims, hvalid, hpullFrames⟩ l.slotCfg.tickPlan
  have htick : slotTick s.cfg n ⟨l, s.effects⟩ = .ok d := by
    rw [slotTick, if_neg (by rw [ha.left]; nofun)]
    exact hd
  obtain ⟨d', htick', hkeeps⟩ := slotTick_keeps (c := s.cfg) (n := n) (a := ⟨l, s.effects⟩) hsized
  cases htick.symm.trans htick'
  obtain ⟨fx, hfx⟩ := hkeeps.fx
  have hnext : exec (.tTick n) s = .next (s.withLink n d.link d.fx .none) := execTTick_next hl htick
  rw [← hfx] at hnext
  refine ⟨d.link, fx, hnext, hready.aligned, hrun, hready.undisturbed, fun j hj => ⟨fun hpush => ?frame, ?value⟩⟩
  case frame =>
    obtain ⟨ws, m, hfilled, -⟩ := hsent.filled hpush
    have hid := hfilled.idFields j _ (List.getElem?_eq_getElem hj)
    have hconstants := hfilled.constants j _ (List.getElem?_eq_getElem hj)
    rw [Nat.zero_add] at hid hconstants
    exact ⟨hid, hconstants⟩
  case value =>
    intro hw hone
    obtain ⟨ws, m, hfilled, hws⟩ := hsent.filled (List.count_pos_iff.mp (by omega))
    rw [hws hone] at hfilled
    have hvalue := hfilled.values j _ _ (List.getElem?_eq_getElem hj) (List.getElem?_eq_getElem hw)
    rwa [Nat.zero_add] at hvalue

end Machine
end Sys2Proof
end

section
/-! PROOFS. The configuration is constant (R290): every operation on a link keeps the constants and tables of its slot and of its
responder, so every step does. -/

namespace Sys2Proof
namespace Machine

/-- The constants and tables of a link: those of its slot and those of its responder. -/
def Link.tables (l : Link) : SlotCfg × RespCfg := (l.slotCfg, l.respCfg)

/-! ## The operations on a link -/

theorem tables_byteStep (p : Nat) (rx : Byte) (a : Act) : (byteStep p rx a).link.tables = a.link.tables :=
  congrArg₂ Prod.mk (byteStep_slotCfg p rx a) (byteStep_respCfg p rx a)

theorem tables_pause (p : Nat) (a : Act) : (pause p a).link.tables = a.link.tables :=
  congrArg₂ Prod.mk (pause_slotCfg p a) (pause_respCfg p a)

theorem tables_dispatchFrame (p : Nat) (a : Act) : (dispatchFrame p a).link.tables = a.link.tables := by
  rw [dispatchFrame_link]
  rfl

theorem tables_exchange {s i : Nat} {a b : Act} (h : exchange s i a = .ok b) : b.link.tables = a.link.tables := by
  obtain ⟨htx, hrx⟩ := exchange_cases h
  obtain ⟨_, _, _, _, hok⟩ := exchange_frame (s := s) htx hrx
  cases h.symm.trans hok
  rfl

theorem tables_transfer {s len : Nat} {a b : Act} (h : transfer s len a = .ok b) : b.link.tables = a.link.tables := by
  obtain ⟨htx, hrx⟩ := transfer_cases h
  obtain ⟨_, _, _, _, hok, -⟩ := transfer_frame (s := s) htx hrx
  cases h.symm.trans hok
  rfl

theorem tables_checkProbe {c : Cfg} {s : Nat} {a b : Act} {pass : Bool} (h : checkProbe c s a = .ok (pass, b)) :
    b.link.tables = a.link.tables := by
  rcases checkProbe_cases h with ⟨-, rfl⟩ | ⟨-, rfl⟩
  · rfl
  · rfl

theorem tables_validateTxn {c : Cfg} {s n : Nat} {ok : Bool} {a b : Act} (h : validateTxn c s n a = .ok (ok, b)) :
    b.link.tables = a.link.tables := by
  rcases validateTxn_link h with ⟨-, hb⟩ | ⟨-, hb⟩
  · rw [hb]
  · rw [hb]
    rfl

/-! ## The tick (R227 to R230) -/

theorem tables_tickFailed (c : Cfg) (n : Nat) (kind : TickKind) (a : Act) :
    (tickFailed c n kind a).link.tables = a.link.tables := by
  simp only [tickFailed]
  split
  · exact tables_pause n _
  · rfl

theorem tables_fillPush {c : Cfg} {n j : Nat} {ids : List Id} {a b : Act} (h : fillPush c n j ids a = .ok b) :
    b.link.tables = a.link.tables := by
  induction ids generalizing j a with
  | nil => cases h; rfl
  | cons id rest ih =>
    simp only [fillPush] at h
    split at h
    · cases h
    · exact (ih h).trans rfl

theorem tables_prepareBuffer {c : Cfg} {n : Nat} {buf : TxBuf} {a b : Act} (h : prepareBuffer c n buf a = .ok b) :
    b.link.tables = a.link.tables := by
  cases buf with
  | push => exact tables_fillPush h
  | pull => cases h; rfl

theorem tables_transact {c : Cfg} {n : Nat} {buf : TxBuf} {a b : Act} {ok : Bool} (h : transact c n buf a = .ok (ok, b)) :
    b.link.tables = a.link.tables := by
  unfold transact at h
  split at h
  · cases h
  · rename_i a1 hprepare
    simp only at h
    split at h
    · cases h
    · rename_i a2 htransfer
      calc b.link.tables
        _ = a2.link.tables := tables_validateTxn h
        _ = a1.link.tables := (tables_transfer htransfer).trans rfl
        _ = a.link.tables := tables_prepareBuffer hprepare

theorem tables_commandTick {c : Cfg} {n : Nat} {plan : List TxBuf} {a b : Act} (h : commandTick c n plan a = .ok b) :
    b.link.tables = a.link.tables := by
  induction plan generalizing a with
  | nil => cases h; rfl
  | cons buf rest ih =>
    unfold commandTick at h
    split at h
    · exact ih h
    · split at h
      · cases h
      · rename_i htransact
        exact (ih h).trans (tables_transact htransact)
      · rename_i htransact
        cases h
        exact (tables_tickFailed c n .command _).trans (tables_transact htransact)

theorem tables_probeTick {c : Cfg} {n : Nat} {a b : Act} (h : probeTick c n a = .ok b) : b.link.tables = a.link.tables := by
  unfold probeTick at h
  split at h
  · cases h
  · rename_i a1 htransfer
    have sent : a1.link.tables = a.link.tables := (tables_transfer htransfer).trans rfl
    split at h
    · cases h
    · rename_i hcheck
      cases h
      exact (tables_checkProbe hcheck).trans sent
    · rename_i hcheck
      cases h
      exact (tables_tickFailed c n .probe _).trans ((tables_checkProbe hcheck).trans sent)

theorem tables_slotTick {c : Cfg} {n : Nat} {a b : Act} (h : slotTick c n a = .ok b) : b.link.tables = a.link.tables := by
  unfold slotTick at h
  split at h
  · exact tables_probeTick h
  · exact tables_commandTick h

/-! ## The instructions -/

/-- From `s` to `t` no link changes a constant or a table, none is added and none is removed. -/
def KeepsTables (s t : State) : Prop := t.links.map Link.tables = s.links.map Link.tables

/-- Writing a link with the old link's tables into the state keeps the tables of all links. -/
theorem keepsTables_withLink {s : State} {n : Nat} {l l' : Link} (hl : s.links[n]? = some l) (h : l'.tables = l.tables)
    (fx : List Effect) (r : Result) : KeepsTables s (s.withLink n l' fx r) := by
  obtain ⟨hn, rfl⟩ := List.getElem?_eq_some_iff.mp hl
  rw [KeepsTables, State.withLink_links, List.map_set, h, ← List.getElem_map Link.tables (h := by simpa using hn),
    List.set_getElem_self]

/-- An operation on one link that keeps the link's tables. -/
theorem keepsTables_onLink {s t : State} {n : Nat} {f : Act → Except Fault (Result × Act)} (h : s.onLink n f = .next t)
    (hf : ∀ a r b, f a = .ok (r, b) → b.link.tables = a.link.tables) : KeepsTables s t := by
  obtain ⟨l, r, a, hl, hok, rfl⟩ := onLink_cases h
  exact keepsTables_withLink hl (hf _ _ _ hok) a.fx r

theorem keepsTables_byteOperation {i : Instr} {p : Nat} {rx : Byte} {op : Act → Act} {s t : State}
    (hexec : exec i s = byteOperation i p rx op s) (h : byteOperation i p rx op s = .next t) : KeepsTables s t := by
  obtain ⟨l, r, hl, rfl⟩ := byteOperation_byteStep hexec h
  exact keepsTables_withLink hl (tables_byteStep p rx ⟨l, s.effects⟩) _ r

theorem keepsTables_encodeInto {b : TxBuf} {n off : Nat} {id : Id} {v : Value} {s t : State}
    (h : encodeInto b n off id v s = .next t) : KeepsTables s t :=
  keepsTables_onLink h fun a r d hf => by
    split at hf <;> cases hf
    rfl

theorem keepsTables_decodeFrom {b : Buf} {n off : Nat} {ty : ValueType} {s t : State}
    (h : decodeFrom b n off ty s = .next t) : KeepsTables s t :=
  keepsTables_onLink h fun a r d hf => by
    split at hf <;> cases hf
    rfl

theorem keepsTables_execDecId {b : Buf} {n off : Nat} {s t : State} (h : execDecId b n off s = .next t) : KeepsTables s t :=
  keepsTables_onLink h fun a r d hf => by
    split at hf <;> cases hf
    rfl

theorem keepsTables_execIProbe {n : Nat} {s t : State} (h : execIProbe n s = .next t) : KeepsTables s t :=
  keepsTables_onLink h fun a r d hf => by
    split at hf <;> cases hf
    · rfl
    · rfl

theorem keepsTables_execICheck {n : Nat} {s t : State} (h : execICheck n s = .next t) : KeepsTables s t :=
  keepsTables_onLink h fun a r d hf => by
    split at hf
    · split at hf <;> cases hf
      exact tables_checkProbe ‹_›
    · cases hf
      rfl

theorem keepsTables_execSDispatch {p : Nat} {s t : State} (h : execSDispatch p s = .next t) : KeepsTables s t :=
  keepsTables_onLink h fun a r d hf => by
    cases hf
    exact tables_dispatchFrame p a

theorem keepsTables_execVSlot {n k : Nat} {s t : State} (h : execVSlot n k s = .next t) : KeepsTables s t :=
  keepsTables_onLink h fun a r d hf => by
    split at hf <;> cases hf
    exact congrArg Link.tables (validateSlot_link ‹_›)

theorem keepsTables_execVTxn {n count : Nat} {s t : State} (h : execVTxn n count s = .next t) : KeepsTables s t :=
  keepsTables_onLink h fun a r d hf => by
    split at hf <;> cases hf
    exact tables_validateTxn ‹_›

theorem keepsTables_execTTick {n : Nat} {s t : State} (h : execTTick n s = .next t) : KeepsTables s t :=
  keepsTables_onLink h fun a r d hf => by
    split at hf <;> cases hf
    exact tables_slotTick ‹_›

theorem keepsTables_execTRestart {n : Nat} {s t : State} (h : execTRestart n s = .next t) : KeepsTables s t :=
  keepsTables_onLink h fun a r d hf => by
    cases hf
    rfl

theorem keepsTables_execBXchg {n k : Nat} {s t : State} (h : execBXchg n k s = .next t) : KeepsTables s t :=
  keepsTables_onLink h fun a r d hf => by
    split at hf <;> cases hf
    exact tables_exchange ‹_›

theorem keepsTables_sendNine {n : Nat} {w : List Byte} {s t : State} (h : sendNine n w s = .next t) : KeepsTables s t :=
  keepsTables_onLink h fun a r d hf => by
    split at hf
    · cases hf
    · rename_i htransfer
      cases hf
      exact (tables_transfer htransfer).trans rfl

theorem keepsTables_receiveNine {n : Nat} {w : List Byte} {s t : State} (h : receiveNine n w s = .next t) :
    KeepsTables s t :=
  keepsTables_onLink h fun a r d hf => by
    split at hf
    · cases hf
    · rename_i htransfer
      cases hf
      exact (tables_transfer htransfer).trans rfl

/-- `RESET all` resets the links one by one, each with its own tables (R281). -/
theorem map_tables_resetLinks (c : Cfg) (s : Nat) (ls : List Link) :
    (resetLinks c s ls).map Link.tables = ls.map Link.tables := by
  induction ls generalizing s with
  | nil => rfl
  | cons l rest ih => exact congrArg (l.tables :: ·) (ih (s + 1))

theorem keepsTables_execReset {target : ResetTarget} {s t : State} (h : execReset target s = .next t) : KeepsTables s t := by
  cases target with
  | all =>
    cases h
    exact map_tables_resetLinks s.cfg 0 s.links
  | responder p =>
    have h : s.onLink p (fun a => .ok (.none, resetResponder p a)) = .next t := h
    exact keepsTables_onLink h fun a r d hf => by
      cases hf
      rfl

/-- No instruction changes a constant or a table of a link. -/
theorem keepsTables_exec {i : Instr} {s t : State} (h : exec i s = .next t) : KeepsTables s t := by
  cases i with
  | encI16 | encI32 | encF32 => exact keepsTables_encodeInto h
  | decI16 | decI32 | decF32 => exact keepsTables_decodeFrom h
  | decId => exact keepsTables_execDecId h
  | rAdv | rFin | rMiss | sId | sSel | sVal | sAck | sDesync | sEnd => exact keepsTables_byteOperation rfl h
  | iProbe => exact keepsTables_execIProbe h
  | iCheck => exact keepsTables_execICheck h
  | sDispatch => exact keepsTables_execSDispatch h
  | vSlot => exact keepsTables_execVSlot h
  | vTxn => exact keepsTables_execVTxn h
  | wInc =>
    cases h
    rfl
  | wCheck =>
    obtain ⟨w, fx, rfl⟩ := exec_wCheck_cases h
    rfl
  | tTick => exact keepsTables_execTTick h
  | tRestart => exact keepsTables_execTRestart h
  | bXchg => exact keepsTables_execBXchg h
  | reset => exact keepsTables_execReset h
  | frame | probe => exact keepsTables_sendNine h
  | reply | probeReply => exact keepsTables_receiveNine h

/-! ## The step -/

/-- What is kept of both tables of a link is kept of each. -/
theorem KeepsTables.split {s t : State} (h : KeepsTables s t) :
    t.links.map Link.slotCfg = s.links.map Link.slotCfg ∧ t.links.map Link.respCfg = s.links.map Link.respCfg := by
  have hslot := congrArg (List.map Prod.fst) h
  have hresp := congrArg (List.map Prod.snd) h
  rw [List.map_map, List.map_map] at hslot hresp
  exact ⟨hslot, hresp⟩

/-- Settles O56: a step idles or runs one instruction, and no instruction changes the configuration of the initiator or the tables
of a link. -/
theorem configurationIsConstant : Obligations.ConfigurationIsConstant := by
  intro s t h
  obtain ⟨es, rfl | ⟨i, hi⟩⟩ := step_cases h
  · exact ⟨rfl, rfl, rfl⟩
  · exact ⟨exec_cfg (s := s.begin es) hi, (keepsTables_exec (s := s.begin es) hi).split⟩

end Machine
end Sys2Proof
end

section
/-! PROOFS. The decoder and the encoder are inverses of each other: on requests, on keys and on the four wire formats (R90 to R93,
R104 to R108). -/

namespace Sys2Proof

/-! ## The request of an instruction (R104, R106) -/

/-- The fields of the request that asks for an instruction; none for the byte steps and the wire formats. -/
def requestOf (i : Instr) : Option Request :=
  match i with
  | .encI16 b s off id v => some ⟨0x01, s, b.kind, off, id, v.setWidth 32⟩
  | .encI32 b s off id v => some ⟨0x02, s, b.kind, off, id, v⟩
  | .encF32 b s off id w => some ⟨0x03, s, b.kind, off, id, w⟩
  | .decId b s off => some ⟨0x04, s, b.kind, off, 0, 0⟩
  | .decI16 b s off => some ⟨0x05, s, b.kind, off, 0, 0⟩
  | .decI32 b s off => some ⟨0x06, s, b.kind, off, 0, 0⟩
  | .decF32 b s off => some ⟨0x07, s, b.kind, off, 0, 0⟩
  | .iProbe s => some ⟨0x08, s, 0, 0, 0, 0⟩
  | .iCheck s => some ⟨0x09, s, 0, 0, 0, 0⟩
  | .vSlot s k => some ⟨0x0A, s, 0, k, 0, 0⟩
  | .vTxn s n => some ⟨0x0B, s, 0, n, 0, 0⟩
  | .wInc => some ⟨0x0C, 0, 0, 0, 0, 0⟩
  | .wCheck => some ⟨0x0D, 0, 0, 0, 0, 0⟩
  | .tTick s => some ⟨0x0E, s, 0, 0, 0, 0⟩
  | .tRestart s => some ⟨0x0F, s, 0, 0, 0, 0⟩
  | .sDispatch p => some ⟨0x10, p, 0, 0, 0, 0⟩
  | .bXchg s k => some ⟨0x11, s, 0, k, 0, 0⟩
  | .reset t => some ⟨0x12, t.unit, 0, 0, 0, 0⟩
  | .rAdv .. | .rFin .. | .rMiss .. | .sId .. | .sSel .. | .sVal .. | .sAck .. | .sDesync .. | .sEnd .. | .frame ..
  | .reply .. | .probe .. | .probeReply .. => none

/-- An instruction that has a request is well-formed, and its code words are the bytes of that request. -/
theorem encode_of_requestOf {i : Instr} {r : Request} (h : requestOf i = some r) (S : StartSeq) :
    i.wf S = true ∧ encode S i = .opsel r.toBytes := by
  cases i <;> cases h <;> exact ⟨rfl, rfl⟩

theorem TxBuf.kind_lt (b : TxBuf) : b.kind < 2 ^ 8 := by cases b <;> decide

theorem Buf.kind_lt (b : Buf) : b.kind < 2 ^ 8 := by cases b <;> decide

/-- The selector and the buffer kind of a request fit into their bytes. -/
theorem requestOf_bytes {i : Instr} {r : Request} (h : requestOf i = some r) : r.sel < 2 ^ 8 ∧ r.kind < 2 ^ 8 := by
  cases i with
  | encI16 b | encI32 b | encF32 b =>
    cases h
    exact ⟨by simp, b.kind_lt⟩
  | decId b | decI16 b | decI32 b | decF32 b =>
    cases h
    exact ⟨by simp, b.kind_lt⟩
  | _ => cases h <;> simp

/-! ## The fields of a request, row by row -/

theorem txBufOfKind_eq_ok {kind : Nat} {b : TxBuf} : txBufOfKind kind = .ok b ↔ kind = b.kind := by
  constructor
  · unfold txBufOfKind
    split <;> intro h <;> cases h <;> rfl
  · rintro rfl
    cases b <;> rfl

theorem bufOfKind_eq_ok {kind : Nat} {b : Buf} : bufOfKind kind = .ok b ↔ kind = b.kind := by
  constructor
  · unfold bufOfKind
    split <;> intro h <;> cases h <;> rfl
  · rintro rfl
    cases b <;> rfl

theorem resetTargetOfUnit_unit (t : ResetTarget) : resetTargetOfUnit t.unit = t := by cases t <;> rfl

theorem unit_resetTargetOfUnit (u : Nat) : (resetTargetOfUnit u).unit = u := by cases u <;> rfl

theorem ite_error_eq_ok {ε α : Type} {c : Prop} [Decidable c] {e : ε} {x y : α} :
    (if c then Except.error e else .ok x) = .ok y ↔ ¬c ∧ x = y := by
  split <;> simp [*]

section
variable {r : Request} {i : Instr}

theorem Request.encode_eq_ok {wide : Bool} {mk : TxBuf → Nat → Nat → Id → Word32 → Instr} :
    r.encode wide mk = .ok i ↔
      ∃ b : TxBuf, r.kind = b.kind ∧ (wide = false → r.value.toNat < 2 ^ 16) ∧ mk b r.unit r.arg r.id r.value = i := by
  unfold Request.encode
  cases hb : txBufOfKind r.kind with
  | error e =>
    refine ⟨nofun, fun ⟨b, hkind, _⟩ => ?_⟩
    cases (txBufOfKind_eq_ok.mpr hkind).symm.trans hb
  | ok b =>
    have hkind : ∀ b', r.kind = TxBuf.kind b' ↔ b' = b := fun b' => by
      rw [← txBufOfKind_eq_ok, hb, Except.ok.injEq, eq_comm]
    simp [hkind, ite_error_eq_ok]

theorem Request.decode_eq_ok {mk : Buf → Nat → Nat → Instr} :
    r.decode mk = .ok i ↔ ∃ b : Buf, r.kind = b.kind ∧ r.id = 0 ∧ r.value = 0 ∧ mk b r.unit r.arg = i := by
  unfold Request.decode
  cases hb : bufOfKind r.kind with
  | error e =>
    refine ⟨nofun, fun ⟨b, hkind, _⟩ => ?_⟩
    cases (bufOfKind_eq_ok.mpr hkind).symm.trans hb
  | ok b =>
    have hkind : ∀ b', r.kind = Buf.kind b' ↔ b' = b := fun b' => by
      rw [← bufOfKind_eq_ok, hb, Except.ok.injEq, eq_comm]
    simp [hkind, ite_error_eq_ok, and_assoc]

theorem Request.unitArg_eq_ok {mk : Nat → Nat → Instr} :
    r.unitArg mk = .ok i ↔ r.kind = 0 ∧ r.id = 0 ∧ r.value = 0 ∧ mk r.unit r.arg = i := by
  simp [Request.unitArg, ite_error_eq_ok, and_assoc]

theorem Request.unitOnly_eq_ok {mk : Nat → Instr} :
    r.unitOnly mk = .ok i ↔ r.kind = 0 ∧ r.arg = 0 ∧ r.id = 0 ∧ r.value = 0 ∧ mk r.unit = i := by
  simp [Request.unitOnly, ite_error_eq_ok, and_assoc]

theorem Request.bare_eq_ok {j : Instr} :
    r.bare j = .ok i ↔ r.unit = 0 ∧ r.kind = 0 ∧ r.arg = 0 ∧ r.id = 0 ∧ r.value = 0 ∧ j = i := by
  simp [Request.bare, ite_error_eq_ok, and_assoc]

/-- A request is given by its six fields. -/
theorem Request.eq_mk {sel unit kind arg : Nat} {id : Id} {value : Word32} (h1 : r.sel = sel) (h2 : r.unit = unit)
    (h3 : r.kind = kind) (h4 : r.arg = arg) (h5 : r.id = id) (h6 : r.value = value) :
    some ⟨sel, unit, kind, arg, id, value⟩ = some r := by
  subst h1 h2 h3 h4 h5 h6
  rfl

end

/-! ## Requests -/

/-- A 16-bit value is carried in 32 bits, and back. -/
theorem setWidth_setWidth_of_lt {v : Word32} (h : v.toNat < 2 ^ 16) : (v.setWidth 16).setWidth 32 = v := by
  refine BitVec.eq_of_toNat_eq ?_
  simp only [BitVec.toNat_setWidth]
  omega

/-- The request of an instruction asks for it. -/
theorem instr_of_requestOf {i : Instr} {r : Request} (h : requestOf i = some r) : r.instr = .ok i := by
  cases i with
  | encI16 b s off id v =>
    cases h
    have hfits : (v.setWidth 32).toNat < 2 ^ 16 := by
      have := v.isLt
      simp only [BitVec.toNat_setWidth]
      omega
    have hback : (v.setWidth 32).setWidth 16 = v := by simp
    simp only [Request.instr, Request.encode_eq_ok]
    exact ⟨b, rfl, fun _ => hfits, by rw [hback]⟩
  | encI32 b | encF32 b =>
    cases h
    simp only [Request.instr, Request.encode_eq_ok]
    exact ⟨b, rfl, nofun, rfl⟩
  | decId b | decI16 b | decI32 b | decF32 b =>
    cases h
    simp only [Request.instr, Request.decode_eq_ok]
    exact ⟨b, rfl, trivial, trivial, rfl⟩
  | reset t =>
    cases h
    simp [Request.instr, Request.unitOnly_eq_ok, resetTargetOfUnit_unit]
  | _ => cases h <;> rfl

/-- A request asks for no instruction but the one that it is the request of. -/
theorem requestOf_of_instr {i : Instr} {r : Request} (h : r.instr = .ok i) : requestOf i = some r := by
  unfold Request.instr at h
  split at h
  case h_1 hsel =>
    obtain ⟨b, hkind, hfits, rfl⟩ := Request.encode_eq_ok.mp h
    exact Request.eq_mk hsel rfl hkind rfl rfl (setWidth_setWidth_of_lt (hfits rfl)).symm
  case h_2 hsel | h_3 hsel =>
    obtain ⟨b, hkind, -, rfl⟩ := Request.encode_eq_ok.mp h
    exact Request.eq_mk hsel rfl hkind rfl rfl rfl
  case h_4 hsel | h_5 hsel | h_6 hsel | h_7 hsel =>
    obtain ⟨b, hkind, hid, hvalue, rfl⟩ := Request.decode_eq_ok.mp h
    exact Request.eq_mk hsel rfl hkind rfl hid hvalue
  case h_10 hsel | h_11 hsel | h_17 hsel =>
    obtain ⟨hkind, hid, hvalue, rfl⟩ := Request.unitArg_eq_ok.mp h
    exact Request.eq_mk hsel rfl hkind rfl hid hvalue
  case h_12 hsel | h_13 hsel =>
    obtain ⟨hunit, hkind, harg, hid, hvalue, rfl⟩ := Request.bare_eq_ok.mp h
    exact Request.eq_mk hsel hunit hkind harg hid hvalue
  case h_8 hsel | h_9 hsel | h_14 hsel | h_15 hsel | h_16 hsel =>
    obtain ⟨hkind, harg, hid, hvalue, rfl⟩ := Request.unitOnly_eq_ok.mp h
    exact Request.eq_mk hsel rfl hkind harg hid hvalue
  case h_18 hsel =>
    obtain ⟨hkind, harg, hid, hvalue, rfl⟩ := Request.unitOnly_eq_ok.mp h
    exact Request.eq_mk hsel (unit_resetTargetOfUnit r.unit).symm hkind harg hid hvalue
  case h_19 => cases h

theorem decode_encode_of_requestOf {i : Instr} {r : Request} (h : requestOf i = some r) (S : StartSeq) :
    decode S (encode S i) = .ok i := by
  obtain ⟨hsel, hkind⟩ := requestOf_bytes h
  rw [(encode_of_requestOf h S).right]
  simp only [decode, decodeRequest, r.ofBytes_toBytes hsel hkind, instr_of_requestOf h]

theorem encode_of_decodeRequest {w : List Byte} {i : Instr} (h : decodeRequest w = .ok i) (S : StartSeq) :
    i.wf S = true ∧ encode S i = .opsel w := by
  unfold decodeRequest at h
  split at h
  · cases h
  · rename_i r hr
    rw [← (Request.toBytes_ofBytes hr).left]
    exact encode_of_requestOf (requestOf_of_instr h) S

/-! ## Keys (R105) -/

/-- A legal key whose `m` bit is the comparison of the received byte is the key of the operation that it selects. -/
theorem encode_instrOfKey (S : StartSeq) (s : Bool) (pos : Fin 9) (p : Nat) (rx : Byte) :
    (instrOfKey s pos (keyMatch S s pos rx) p rx).wf S = true ∧
      encode S (instrOfKey s pos (keyMatch S s pos rx) p rx) = .skey (mkKey s pos (keyMatch S s pos rx)) p rx := by
  cases s with
  | false =>
    by_cases hrx : rx = S.get pos
    · by_cases h8 : pos = 8
      · subst h8
        simp [keyMatch, instrOfKey, Instr.wf, encode, hrx]
      · simp [keyMatch, instrOfKey, Instr.wf, encode, hrx, h8]
    · simp [keyMatch, instrOfKey, Instr.wf, encode, hrx]
  | true =>
    have hmatch : keyMatch S true pos rx = decide (rx = 0xFF) := rfl
    by_cases hrx : rx = 0xFF
    · rw [hmatch, decide_eq_true hrx, hrx]
      fin_cases pos <;> exact ⟨rfl, rfl⟩
    · rw [hmatch, decide_eq_false hrx]
      fin_cases pos <;> simp [instrOfKey, Instr.wf, encode, show ¬rx = 255#8 from hrx]

/-- A key is formed from its three fields. -/
theorem mkKey_of_toNat {key : BitVec 6} (h : key.toNat / 2 % 16 < 9) :
    mkKey (decide (32 ≤ key.toNat)) ⟨key.toNat / 2 % 16, h⟩ (decide (key.toNat % 2 = 1)) = key := by
  have hlt := key.isLt
  have hs : (decide (32 ≤ key.toNat)).toNat = key.toNat / 32 := by
    simp only [Bool.toNat, Bool.cond_decide]; split <;> omega
  have hm : (decide (key.toNat % 2 = 1)).toNat = key.toNat % 2 := by
    simp only [Bool.toNat, Bool.cond_decide]; split <;> omega
  refine BitVec.eq_of_toNat_eq ?_
  rw [Machine.mkKey_toNat, hs, hm]
  simp only
  omega

theorem encode_of_decodeKey {S : StartSeq} {key : BitVec 6} {p : Nat} {rx : Byte} {i : Instr}
    (h : decodeKey S key p rx = .ok i) : i.wf S = true ∧ encode S i = .skey key p rx := by
  unfold decodeKey at h
  split at h
  · rename_i hpos
    simp only at h
    split at h
    · rename_i hm
      rw [hm] at h
      cases h
      have hkey := mkKey_of_toNat hpos
      rw [hm] at hkey
      have := encode_instrOfKey S (decide (32 ≤ key.toNat)) ⟨key.toNat / 2 % 16, hpos⟩ p rx
      rwa [hkey] at this
    · cases h
  · cases h

/-- The key of a byte operation decodes to the operation of its table row, if its `m` bit is the comparison of the byte. -/
theorem decode_skey_eq_ok {S : StartSeq} {s m : Bool} {pos : Fin 9} {p : Nat} {rx : Byte} {i : Instr}
    (hm : m = keyMatch S s pos rx) (hi : instrOfKey s pos m p rx = i) : decode S (.skey (mkKey s pos m) p rx) = .ok i :=
  (Machine.decodeKey_mkKey S s pos m p rx).trans ((if_pos hm).trans (congrArg Except.ok hi))

/-! ## Wire formats (R90 to R93) -/

theorem encode_of_decodeSent {S : StartSeq} {s : Nat} {w : List Byte} {i : Instr} (h : decodeSent S s w = .ok i) :
    i.wf S = true ∧ encode S i = .sent s w := by
  unfold decodeSent at h
  split at h
  · split at h
    · rename_i hprobe
      cases h
      exact ⟨rfl, congrArg (Code.sent s) hprobe.symm⟩
    · rename_i hprobe
      split at h
      · rename_i hconst
        obtain ⟨rfl, rfl, rfl⟩ := hconst
        cases h
        exact ⟨decide_eq_true hprobe, rfl⟩
      · cases h
  · cases h

theorem encode_of_decodeReceived {S : StartSeq} {s : Nat} {w : List Byte} {i : Instr}
    (h : decodeReceived S s w = .ok i) : i.wf S = true ∧ encode S i = .received s w := by
  unfold decodeReceived at h
  split at h
  · split at h
    · rename_i hprobe
      cases h
      exact ⟨rfl, congrArg (Code.received s) hprobe.symm⟩
    · rename_i hprobe
      cases h
      exact ⟨decide_eq_true hprobe, rfl⟩
  · cases h

/-! ## The obligations -/

/-- Settles O2: a request is read back from its bytes, a key from its fields, and a wire format by its constants. -/
theorem decodeInvertsEncode : Obligations.DecodeInvertsEncode := by
  intro S i hwf
  cases i with
  | rAdv p pos rx =>
    obtain ⟨h8, rfl⟩ := of_decide_eq_true hwf
    exact decode_skey_eq_ok (by simp [keyMatch]) (if_neg h8)
  | rFin p rx =>
    obtain rfl : rx = S.get 8 := of_decide_eq_true hwf
    exact decode_skey_eq_ok (by simp [keyMatch]) rfl
  | rMiss p pos rx =>
    have hrx : rx ≠ S.get pos := of_decide_eq_true hwf
    exact decode_skey_eq_ok (by simp [keyMatch, hrx]) rfl
  | sId p pos rx =>
    have hpos : pos.val < 2 := of_decide_eq_true hwf
    exact decode_skey_eq_ok rfl (by rcases (by omega : pos = 0 ∨ pos = 1) with rfl | rfl <;> rfl)
  | sSel p rx | sEnd p rx => exact decode_skey_eq_ok rfl rfl
  | sVal p pos rx =>
    have hpos : 3 ≤ pos.val ∧ pos.val < 6 := of_decide_eq_true hwf
    exact decode_skey_eq_ok rfl (by rcases (by omega : pos = 3 ∨ pos = 4 ∨ pos = 5) with rfl | rfl | rfl <;> rfl)
  | sAck p pos rx =>
    obtain ⟨hpos, rfl⟩ : (6 ≤ pos.val ∧ pos.val < 8) ∧ rx = 0xFF := of_decide_eq_true hwf
    exact decode_skey_eq_ok rfl (by rcases (by omega : pos = 6 ∨ pos = 7) with rfl | rfl <;> rfl)
  | sDesync p pos rx =>
    obtain ⟨hpos, hrx⟩ : (6 ≤ pos.val ∧ pos.val < 8) ∧ rx ≠ 0xFF := of_decide_eq_true hwf
    exact decode_skey_eq_ok (decide_eq_false hrx).symm (by rcases (by omega : pos = 6 ∨ pos = 7) with rfl | rfl <;> rfl)
  | frame s id v =>
    have hprobe : frameBytes id v ≠ S.bytes := of_decide_eq_true hwf
    exact (if_neg hprobe).trans (if_pos ⟨rfl, rfl, rfl⟩)
  | reply s prev id v ack =>
    have hprobe : replyBytes prev id v ack ≠ probeReplyBytes S prev := of_decide_eq_true hwf
    exact if_neg hprobe
  | probe s => exact if_pos rfl
  | probeReply s prev => exact if_pos rfl
  | _ => exact decode_encode_of_requestOf rfl S

/-- Settles O3: each of the four kinds of code words is that of the instruction it is read as. -/
theorem encodeInvertsDecode : Obligations.EncodeInvertsDecode := by
  intro S c i h
  cases c with
  | opsel w => exact encode_of_decodeRequest h S
  | skey key p rx => exact encode_of_decodeKey h
  | sent s w => exact encode_of_decodeSent h
  | received s w => exact encode_of_decodeReceived h

end Sys2Proof
end

section
/-! PROOFS. From an event to the operation that the step performs (R17, R252, R253), and what is refused on the way and by the
operations themselves (R48, R105, R130, R226). -/

namespace Sys2Proof
namespace Machine

/-! ## The step, by what the next event asks for -/

section
variable {s : State} {e : Event} {rest : List Event}

theorem step_of_run {i : Instr} (he : s.events = e :: rest) (hf : fetchEvent e s = .run i) :
    step s = exec i (s.begin (eventsAfter e rest)) := by
  simp only [step, he, hf]

theorem step_of_idle (he : s.events = e :: rest) (hf : fetchEvent e s = .idle) :
    step s = .next (s.begin (eventsAfter e rest)) := by
  simp only [step, he, hf]

theorem step_of_refuse {r : Refusal} (he : s.events = e :: rest) (hf : fetchEvent e s = .refuse r) : step s = .refused r := by
  simp only [step, he, hf]

end

section
variable {S : StartSeq} {c : Code} {s : State} {i : Instr}

theorem fetchCode_run (hd : decode S c = .ok i) (hcall : callRefusal i s = none) : fetchCode S c s = .run i := by
  simp only [fetchCode, hd, hcall]

theorem fetchCode_refuse {r : Refusal} (hd : decode S c = .ok i) (hcall : callRefusal i s = some r) :
    fetchCode S c s = .refuse r := by
  simp only [fetchCode, hd, hcall]

/-- The caller's checks concern decode requests alone. -/
theorem callRefusal_of_not_decode (h : decodeCall i = none) (s : State) : callRefusal i s = none := by
  simp only [callRefusal, h]

/-- An instruction whose code words are no request is no decode. -/
theorem decodeCall_of_encode (h : ∀ w, encode S i ≠ .opsel w) : decodeCall i = none := by
  cases i with
  | decId | decI16 | decI32 | decF32 => exact absurd rfl (h _)
  | _ => rfl

end

theorem decodeCall_of_sent {S : StartSeq} {n : Nat} {w : List Byte} {i : Instr} (h : decode S (.sent n w) = .ok i) :
    decodeCall i = none :=
  decodeCall_of_encode (S := S) fun w h' => by cases (encode_of_decodeSent h).right.symm.trans h'

theorem decodeCall_of_received {S : StartSeq} {n : Nat} {w : List Byte} {i : Instr} (h : decode S (.received n w) = .ok i) :
    decodeCall i = none :=
  decodeCall_of_encode (S := S) fun w h' => by cases (encode_of_decodeReceived h).right.symm.trans h'

/-- Settles O1: each kind of event is fetched as its code words decode. -/
theorem stepRunsDecodedInstruction : Obligations.StepRunsDecodedInstruction := by
  intro s e rest he
  refine ⟨?request, ?byteClock, ?sent, ?received, ?ticks, ?held, ?boot⟩
  case request =>
    rintro w i rfl hd hcall
    exact step_of_run he (fetchCode_run hd hcall)
  case byteClock =>
    rintro p rx l i rfl hl hr hkey
    rw [← hkey.selected_eq]
    exact step_byteClock he hl hr
  case sent =>
    rintro n w i rfl hd
    exact step_of_run he (fetchCode_run hd (callRefusal_of_not_decode (decodeCall_of_sent hd) s))
  case received =>
    rintro n w i rfl hd
    exact step_of_run he (fetchCode_run hd (callRefusal_of_not_decode (decodeCall_of_received hd) s))
  case ticks =>
    rintro slots n rfl hmin
    rw [step_of_run he (i := .tTick n) (by simp only [fetchEvent, hmin])]
    simp only [eventsAfter, hmin]
  case held =>
    rintro p rx l rfl hl hr
    exact step_of_idle he (by simp only [fetchEvent, hl, if_pos hr])
  case boot =>
    rintro n j l id rfl hl hid
    exact step_of_run he (by simp only [fetchEvent, hl, hid])

/-- Settles O5: the words are decoded one by one. -/
theorem decodeReadsSpecWords : Obligations.DecodeReadsSpecWords :=
  ⟨rfl, rfl, rfl, rfl, rfl, rfl, rfl⟩

/-! ## The caller's checks of a decode request (R48, R130) -/

section
variable {s : State} {i : Instr} {b : Buf} {n off : Nat} {t : Option ValueType}

/-- Only the receive buffer can be decoded from by a request (R48; log 42). -/
theorem callRefusal_of_ne_rx (hi : decodeCall i = some (b, n, off, t)) (hb : b ≠ .rx) :
    callRefusal i s = some (.notReachable (bufName b n)) := by
  simp only [callRefusal, hi, if_neg hb]

/-- A `DEC.ID` has no type to be checked. -/
theorem callRefusal_of_untyped (hi : decodeCall i = some (.rx, n, off, none)) : callRefusal i s = none := by
  simp [callRefusal, hi]

/-- The type of a value decode is compared with the one that is declared for the frame's id (R130; log 17). -/
theorem callRefusal_of_typed {u v : ValueType} {l : Link} (hi : decodeCall i = some (.rx, n, off, some v))
    (hl : s.links[n]? = some l) (hoff : off + 2 ≤ l.slot.rxBuf.size)
    (hu : declaredType s.cfg.vtypes (idOf s.cfg.byteOrder (l.slot.rxBuf.pairAt off)) = some u) :
    callRefusal i s =
      if u = v then none else some (.wrongType (idOf s.cfg.byteOrder (l.slot.rxBuf.pairAt off))) := by
  have hid : decodeId (bufName .rx n) s.cfg.byteOrder off (bufMem .rx l.slot) =
      .ok (idOf s.cfg.byteOrder (l.slot.rxBuf.pairAt off)) := by
    rw [decodeId, checkBounds_ok (m := bufMem .rx l.slot) hoff]
    rfl
  simp only [callRefusal, hi, if_true, typeRefusal, hl, hid, hu]

end

/-- Settles O15: the fetch makes these checks before it runs a decode. -/
theorem wrongTypeDecodeIsRefused : Obligations.WrongTypeDecodeIsRefused := by
  intro s w rest i b n off t he hd hi
  refine ⟨fun hb => ?unreachable, ?untyped, ?typed⟩
  case unreachable => exact step_of_refuse he (fetchCode_refuse hd (callRefusal_of_ne_rx hi hb))
  case untyped =>
    rintro rfl rfl
    exact step_of_run he (fetchCode_run hd (callRefusal_of_untyped hi))
  case typed =>
    rintro u v l rfl rfl hl hoff hu
    have hcall := callRefusal_of_typed hi hl hoff hu
    split
    · rename_i hvu
      rw [if_pos hvu.symm] at hcall
      exact step_of_run he (fetchCode_run hd hcall)
    · rename_i hvu
      rw [if_neg (Ne.symm hvu)] at hcall
      exact step_of_refuse he (fetchCode_refuse hd hcall)

/-! ## What the operations refuse (R63, R105, R226; logs 13 and 27) -/

/-- An operation on a link that does not exist. -/
theorem onLink_refused {s : State} {n : Nat} (h : s.links[n]? = none) (f : Act → Except Fault (Result × Act)) :
    s.onLink n f = .refused (.noSuchSlot n) := by
  simp only [State.onLink, h]

theorem byteOperation_refused {s : State} {p : Nat} (h : s.links[p]? = none) (i : Instr) (rx : Byte) (op : Act → Act) :
    byteOperation i p rx op s = .refused (.noSuchSlot p) := by
  simp only [byteOperation, h]

/-- A byte operation that the responder does not select, or that it cannot take because it is held in reset. -/
theorem byteOperation_notSelected {s : State} {p : Nat} {l : Link} {i : Instr} {rx : Byte} (hl : s.links[p]? = some l)
    (h : l.slot.restartLine = true ∨ ¬Keyed l p rx i) (op : Act → Act) :
    byteOperation i p rx op s = .refused .notSelected := by
  have hsel : ¬(l.slot.restartLine = false ∧ selected l.respCfg l.resp p rx = i) := by
    rintro ⟨hr, rfl⟩
    obtain h | h := h
    · cases hr.symm.trans h
    · exact h (decode_skey ..)
  simp only [byteOperation, hl, if_neg hsel]

/-- Every instruction on one link is an operation on that link or one of the nine byte operations. -/
theorem exec_shape {i : Instr} {n : Nat} (h : linkOf i = some n) (s : State) :
    (∃ f, exec i s = s.onLink n f) ∨ ∃ rx op, exec i s = byteOperation i n rx op s := by
  cases i with
  | wInc | wCheck => cases h
  | reset target =>
    cases target with
    | all => cases h
    | responder p =>
      cases h
      simp only [exec, execReset]
      exact .inl ⟨_, rfl⟩
  | rAdv | rFin | rMiss | sId | sSel | sVal | sAck | sDesync | sEnd =>
    cases h
    exact .inr ⟨_, _, rfl⟩
  | encI16 | encI32 | encF32 | decI16 | decI32 | decF32 =>
    cases h
    simp only [exec, execEncI16, execEncI32, execEncF32, encodeInto, execDecI16, execDecI32, execDecF32, decodeFrom]
    exact .inl ⟨_, rfl⟩
  | frame | probe | reply | probeReply =>
    cases h
    simp only [exec, execFrame, execProbe, sendNine, execReply, execProbeReply, receiveNine]
    exact .inl ⟨_, rfl⟩
  | decId | iProbe | iCheck | sDispatch | vSlot | vTxn | tTick | tRestart | bXchg =>
    cases h
    simp only [exec, execDecId, execIProbe, execICheck, execSDispatch, execVSlot, execVTxn, execTTick, execTRestart, execBXchg]
    exact .inl ⟨_, rfl⟩

/-- Settles O58: an instruction looks its link up before it does anything, and a byte operation then its key. -/
theorem refusalsOfExec : Obligations.RefusalsOfExec := by
  intro s i n hi
  refine ⟨fun hnone => ?missing, fun l pos rx hl hbyte hkey => ?notSelected⟩
  case missing =>
    obtain ⟨f, hexec⟩ | ⟨rx, op, hexec⟩ := exec_shape hi s
    · exact hexec.trans (onLink_refused hnone f)
    · exact hexec.trans (byteOperation_refused hnone i rx op)
  case notSelected =>
    obtain rfl | rfl | rfl | rfl | rfl | rfl | rfl | rfl | rfl := hbyte <;> exact byteOperation_notSelected hl hkey _

end Machine
end Sys2Proof
end

section
/-! PROOFS. Single operations: byte order (R15), the check of a probe reply (R147), the dispatch of a signal (R176), what an unmet
condition does (log 14), and the state after reset (R282). -/

namespace Sys2Proof
namespace Machine

/-! ## Byte order (R15) -/

theorem ord16_bytes16 (o : ByteOrder) (v : BitVec 16) : ∃ b0 b1, bytes16 o v = [b0, b1] ∧ ord16 o b0 b1 = v := by
  have happend : v.extractLsb' 8 8 ++ v.extractLsb' 0 8 = v := BitVec.extractLsb'_append_extractLsb' (w := 8) (len := 8)
  cases o with
  | le => exact ⟨_, _, rfl, happend⟩
  | be => exact ⟨_, _, rfl, happend⟩

theorem ord32_bytes32 (o : ByteOrder) (v : Word32) :
    ∃ b0 b1 b2 b3, bytes32 o v = [b0, b1, b2, b3] ∧ ord32 o ⟨b0, b1, b2, b3⟩ = v := by
  cases o with
  | le => exact ⟨_, _, _, _, rfl, append_bytes_eq_self v⟩
  | be => exact ⟨_, _, _, _, rfl, append_bytes_eq_self v⟩

/-- Settles O6: a number is put together again from the bytes that it is cut into. -/
theorem byteOrderRoundTrip : Obligations.ByteOrderRoundTrip :=
  ⟨ord16_bytes16, ord32_bytes32, fun _ _ => ⟨rfl, rfl⟩, fun _ _ _ _ => ⟨rfl, rfl⟩⟩

/-! ## The check and the selection of the probe (R146, R147) -/

theorem checkProbe_fault {c : Cfg} {n : Nat} {a : Act} (h : a.link.slot.rxBuf.size < 9) :
    checkProbe c n a = .error (.precondition (.rx n) 0 9) := by
  rw [checkProbe, checkBounds_error h]

theorem execICheck_fault {s : State} {n : Nat} {l : Link} (hl : s.links[n]? = some l)
    (hm : l.slot.mSync = .unsynchronized) (h : l.slot.rxBuf.size < 9) :
    execICheck n s = .fault (.precondition (.rx n) 0 9) :=
  onLink_fault hl (by simp only [if_pos hm, checkProbe_fault (a := ⟨l, s.effects⟩) h])

/-- On a synchronized slot neither is performed (R145; log 14). -/
theorem execIProbe_idle {s : State} {n : Nat} {l : Link} (hl : s.links[n]? = some l) (hm : l.slot.mSync = .synchronized) :
    execIProbe n s = .next (s.withLink n l s.effects .none) :=
  onLink_next (a := ⟨l, s.effects⟩) hl (if_neg (by simp [hm]))

theorem execICheck_idle {s : State} {n : Nat} {l : Link} (hl : s.links[n]? = some l) (hm : l.slot.mSync = .synchronized) :
    execICheck n s = .next (s.withLink n l s.effects .none) :=
  onLink_next (a := ⟨l, s.effects⟩) hl (if_neg (by simp [hm]))

/-- Settles O20: the check compares the eight echoes and faults on a receive buffer that is too short for them. -/
theorem iCheckComparesEchoes : Obligations.ICheckComparesEchoes := by
  intro s n l hl hm
  refine ⟨codeSelector_toBytes _, fun hrx => ⟨fun hecho => ?pass, fun k hk => ?fail⟩, fun hrx => ⟨0, 9, ?fault⟩⟩
  case pass =>
    have hcheck := checkProbe_eq (c := s.cfg) (n := n) (a := ⟨l, s.effects⟩) hrx
    rw [if_pos ((probeEchoed_iff _ _).mpr hecho)] at hcheck
    exact execICheck_next (a := ⟨l, s.effects⟩) hl rfl hm hcheck
  case fail =>
    have hcheck := checkProbe_eq (c := s.cfg) (n := n) (a := ⟨l, s.effects⟩) hrx
    rw [if_neg fun hecho => hk ((probeEchoed_iff _ _).mp hecho k)] at hcheck
    exact execICheck_next (a := ⟨l, s.effects⟩) hl rfl hm hcheck
  case fault => exact execICheck_fault hl hm hrx

/-! ## The dispatch (R176) -/

theorem execSDispatch_next {s : State} {p : Nat} {l : Link} (hl : s.links[p]? = some l) :
    execSDispatch p s = .next (s.withLink p
      { l with resp := { l.resp with pending := l.resp.pending.drop 1 } }
      (s.effects ++ deliveries p l.respCfg (l.resp.pending.take 1)) .none) := by
  have hnext := onLink_next (f := fun a => .ok (.none, dispatchFrame p a)) hl rfl
  rwa [dispatchFrame_eq] at hnext

/-- Settles O32: of the oldest signal alone, a push is delivered. -/
theorem sDispatchDeliversPush : Obligations.SDispatchDeliversPush := by
  intro s p l snap rest hl hpending
  have hnext := execSDispatch_next hl
  rw [hpending] at hnext
  refine ⟨codeSelector_toBytes _, fun hpush => hnext.trans ?push, fun hpull => hnext.trans ?pull⟩
  case push =>
    simp only [deliveries, List.take_succ_cons, List.take_zero, List.flatMap_cons, List.flatMap_nil, hpush]
    rfl
  case pull => simp [deliveries, hpull]

/-- Settles O21: the three conditions are tested first. -/
theorem unmetConditionsChangeNothing : Obligations.UnmetConditionsChangeNothing := by
  intro s n l hl
  refine ⟨fun hm => ⟨execIProbe_idle hl hm, execICheck_idle hl hm⟩, fun hnil => (execSDispatch_next hl).trans ?_⟩
  obtain ⟨sc, rc, t, ⟨ss, sp, fp, ib, vb, ip, tr, pending⟩, e⟩ := l
  cases hnil
  simp [deliveries]

/-! ## The state after reset (R282) -/

/-- Settles O54: the one link of `State.reset` is written out. -/
theorem resetStateIsGood : Obligations.ResetStateIsGood := by
  refine ⟨⟨_, rfl, Responder.atReset_reset _ _, rfl, rfl, rfl, rfl, rfl, rfl⟩, rfl, rfl, rfl,
    ⟨fun l hl => ?inv, Nat.zero_le _⟩, ?legal, by decide, fun l hl => ?sized⟩
  case inv =>
    obtain rfl := List.mem_singleton.mp hl
    exact ⟨Responder.inv_reset _ _, rfl, rfl, rfl, Memory.wf_ofBytes _, rfl⟩
  case legal => decide
  case sized =>
    obtain rfl := List.mem_singleton.mp hl
    decide

end Machine
end Sys2Proof
end

section
/-! PROOFS. The validator on one frame slot and on a transaction (R190 to R200). -/

namespace Sys2Proof
namespace Machine

/-! ## The verdict, by what came back (R193, R195 to R199) -/

/-- `id1` and `id2` of the validator are the id sent where it came back, and -1 elsewhere. -/
theorem echoId_eq (sent echoed : Id) : echoId sent echoed = if echoed = sent then sent.toInt else -1 := by
  simp only [echoId, BitVec.toInt_inj]

section
variable {c : Cfg} {pullM : List Id} {e : Extracted}

/-- Exactly one of the two echoes matches. -/
theorem frameVerdict_of_mismatch (hid : e.txId1.toInt ≠ -1) (h : e.rxId1 = e.txId1 ↔ ¬e.rxId2 = e.txId1) :
    frameVerdict c pullM e = .fail .idAckMismatch := by
  simp only [frameVerdict, echoId_eq]
  by_cases h1 : e.rxId1 = e.txId1
  · simp [h1, h.mp h1, hid]
  · have h2 : e.rxId2 = e.txId1 := by by_contra h2; exact h1 (h.mpr h2)
    simp [h1, h2, Ne.symm hid]

/-- The two computed ids agree, but not on a valid id. -/
theorem frameVerdict_of_range (h : e.txId1.toInt = -1 ∨ (e.rxId1 = e.txId1 ↔ e.rxId2 = e.txId1))
    (hrange : ¬(e.rxId1 = e.txId1 ∧ 1 ≤ e.txId1.toInt ∧ e.txId1.toInt ≤ c.maxId)) :
    frameVerdict c pullM e = .fail .idRange := by
  have hsame : echoId e.txId1 e.rxId1 = echoId e.txId1 e.rxId2 := by
    simp only [echoId_eq]
    obtain h | h := h
    · rw [h, ite_self, ite_self]
    · simp only [h]
  have hout : echoId e.txId1 e.rxId1 < 1 ∨ (c.maxId : Int) < echoId e.txId1 e.rxId1 := by
    rw [echoId_eq]
    split
    · rename_i h1
      by_contra hin
      exact hrange ⟨h1, by omega, by omega⟩
    · exact .inl (by decide)
  simp only [frameVerdict]
  rw [if_neg (not_not.mpr hsame), if_pos hout]

/-- Both echoes match a valid id: the pull table and the echoed value decide. -/
theorem frameVerdict_of_echoed (h1 : e.rxId1 = e.txId1) (h2 : e.rxId2 = e.txId1)
    (hrange : 1 ≤ e.txId1.toInt ∧ e.txId1.toInt ≤ c.maxId) :
    frameVerdict c pullM e =
      if e.txId1 ∈ pullM then .okPull (valueOf c.byteOrder (vtype c.vtypes e.txId1) e.rxVal)
      else if e.rxVal = e.txVal then .okPush else .fail .staleEcho := by
  simp only [frameVerdict, echoId_eq, if_pos h1, if_pos h2]
  rw [if_neg (by simp), if_neg (by omega)]

end

/-- Two Value fields are equal byte by byte. -/
theorem quadAt_eq_iff (m m' : Memory) (a a' : Nat) :
    m.quadAt a = m'.quadAt a' ↔ ∀ j : Fin 4, m.read (a + j.val) = m'.read (a' + j.val) := by
  simp [Memory.quadAt, Fin.forall_fin_succ]

/-- The delivery that comes with a verdict (R198). -/
def pullDelivery (n : Nat) (id : Id) (v : Verdict) : List Effect :=
  match v with
  | .okPull w => [.pullDeliver n id w]
  | .okPush | .fail _ => []

@[simp] theorem pullDelivery_okPull (n : Nat) (id : Id) (w : Value) : pullDelivery n id (.okPull w) = [.pullDeliver n id w] :=
  rfl
@[simp] theorem pullDelivery_okPush (n : Nat) (id : Id) : pullDelivery n id .okPush = [] := rfl
@[simp] theorem pullDelivery_fail (n : Nat) (id : Id) (cause : FailCause) : pullDelivery n id (.fail cause) = [] := rfl

/-- The effects of a frame slot: the warning about the AckId that was sent, then the delivery (R194, R198). -/
theorem slotEffects_eq (c : Cfg) (n : Nat) (pullM : List Id) (e : Extracted) :
    slotEffects c n pullM e =
      (if e.txId2.toInt = -1 then [] else [.warnTxAck n]) ++ pullDelivery n e.txId1 (frameVerdict c pullM e) := by
  have hwarn : (if txAckWrong e then [.warnTxAck n] else []) = if e.txId2.toInt = -1 then [] else [Effect.warnTxAck n] := by
    simp only [txAckWrong, decide_eq_true_eq, ite_not]
  unfold slotEffects
  rw [hwarn]
  cases frameVerdict c pullM e <;> rfl

/-! ## `V.SLOT` (R193) -/

section
variable {s : State} {n k : Nat} {l : Link}

theorem execVSlot_of_ok {v : Verdict} {b : Act} (hl : s.links[n]? = some l)
    (h : validateSlot s.cfg n k ⟨l, s.effects⟩ = .ok (v, b)) :
    execVSlot n k s = .next (s.withLink n b.link b.fx (.verdict v)) :=
  onLink_next (r := .verdict v) (a := b) hl (by simp only [h])

theorem execVSlot_next (hl : s.links[n]? = some l) (htx : 9 * k + 9 ≤ l.slot.tx.size) (hrx : 9 * k + 9 ≤ l.slot.rxBuf.size) :
    execVSlot n k s = .next (s.withLink n l
      (s.effects ++ slotEffects s.cfg n l.slotCfg.pullM (extract s.cfg.byteOrder l.slot.tx l.slot.rxBuf k))
      (.verdict (frameVerdict s.cfg l.slotCfg.pullM (extract s.cfg.byteOrder l.slot.tx l.slot.rxBuf k)))) :=
  execVSlot_of_ok hl (validateSlot_frame (a := ⟨l, s.effects⟩) htx hrx)

/-- `V.SLOT` on a frame slot whose verdict is known. -/
theorem execVSlot_of_verdict {v : Verdict} (hl : s.links[n]? = some l) (htx : 9 * k + 9 ≤ l.slot.tx.size)
    (hrx : 9 * k + 9 ≤ l.slot.rxBuf.size)
    (hv : frameVerdict s.cfg l.slotCfg.pullM (extract s.cfg.byteOrder l.slot.tx l.slot.rxBuf k) = v) :
    execVSlot n k s = .next (s.withLink n l
      (s.effects ++ (if (extract s.cfg.byteOrder l.slot.tx l.slot.rxBuf k).txId2.toInt = -1 then [] else [.warnTxAck n]) ++
        pullDelivery n (extract s.cfg.byteOrder l.slot.tx l.slot.rxBuf k).txId1 v) (.verdict v)) := by
  rw [execVSlot_next hl htx hrx, slotEffects_eq, hv, List.append_assoc]

theorem execVSlot_fault (hl : s.links[n]? = some l) (h : l.slot.tx.size < 9 * k + 9 ∨ l.slot.rxBuf.size < 9 * k + 9) :
    ∃ b a m, execVSlot n k s = .fault (.precondition b a m) := by
  suffices ∃ b a m, validateSlot s.cfg n k ⟨l, s.effects⟩ = .error (.precondition b a m) by
    obtain ⟨b, a, m, hslot⟩ := this
    exact ⟨b, a, m, onLink_fault hl (by simp only [hslot])⟩
  unfold validateSlot
  rcases checkBounds_cases (.tx n) l.slot.tx (9 * k) 9 with ⟨htx, e1⟩ | ⟨-, e1⟩ <;> simp only [e1]
  · simp only [checkBounds_error (name := .rx n) (show l.slot.rxBuf.size < 9 * k + 9 by omega)]
    exact ⟨_, _, _, rfl⟩
  · exact ⟨_, _, _, rfl⟩

end

/-- Settles O34: the frame slot's fields are compared one after the other. -/
theorem vSlotVerdict : Obligations.VSlotVerdict := by
  intro s n k l hl tx rx o txId1 txId2 rxId1 rxId2 inRange warned value echoed
  have hval : (extract s.cfg.byteOrder tx rx k).rxVal = (extract s.cfg.byteOrder tx rx k).txVal ↔ echoed :=
    quadAt_eq_iff rx tx (o + 3) (o + 2)
  refine ⟨codeSelector_toBytes _, fun htx hrx => ⟨fun hid h => ?mismatch, fun h hrange => ?range, fun h1 h2 hr hpull => ?pull,
    fun h1 h2 hr hpush hecho => ?push, fun h1 h2 hr hpush hstale => ?stale⟩, fun h => execVSlot_fault hl h⟩
  case mismatch =>
    have hnext := execVSlot_of_verdict hl htx hrx (frameVerdict_of_mismatch hid h)
    rwa [pullDelivery_fail, List.append_nil] at hnext
  case range =>
    have hnext := execVSlot_of_verdict hl htx hrx (frameVerdict_of_range h hrange)
    rwa [pullDelivery_fail, List.append_nil] at hnext
  case pull =>
    exact execVSlot_of_verdict hl htx hrx ((frameVerdict_of_echoed h1 h2 hr).trans (if_pos hpull))
  case push =>
    have hnext := execVSlot_of_verdict hl htx hrx
      ((frameVerdict_of_echoed h1 h2 hr).trans ((if_neg hpush).trans (if_pos (hval.mpr hecho))))
    rwa [pullDelivery_okPush, List.append_nil] at hnext
  case stale =>
    have hnext := execVSlot_of_verdict hl htx hrx
      ((frameVerdict_of_echoed h1 h2 hr).trans ((if_neg hpush).trans (if_neg (mt hval.mp hstale))))
    rwa [pullDelivery_fail, List.append_nil] at hnext

/-! ## `V.TXN` (R191, R200) -/

section
variable {s : State} {n count : Nat} {l : Link}

theorem execVTxn_of_ok {ok : Bool} {b : Act} (hl : s.links[n]? = some l)
    (h : validateTxn s.cfg n count ⟨l, s.effects⟩ = .ok (ok, b)) :
    execVTxn n count s = .next (s.withLink n b.link b.fx (.txn ok)) :=
  onLink_next (r := .txn ok) (a := b) hl (by simp only [h])

/-- `V.TXN` inside both buffers: ok exactly where no frame slot fails, with the effects of all of them. -/
theorem execVTxn_next (hl : s.links[n]? = some l) (htx : 9 * count ≤ l.slot.tx.size) (hrx : 9 * count ≤ l.slot.rxBuf.size) :
    ∃ ok : Bool, (ok = true ↔ ∀ k < count,
        (frameVerdict s.cfg l.slotCfg.pullM (extract s.cfg.byteOrder l.slot.tx l.slot.rxBuf k)).failed = false) ∧
      execVTxn n count s = .next (s.withLink n
        (if ok then l else { l with slot := { l.slot with mSync := .unsynchronized } })
        (s.effects ++ (List.range count).flatMap fun k =>
          slotEffects s.cfg n l.slotCfg.pullM (extract s.cfg.byteOrder l.slot.tx l.slot.rxBuf k)) (.txn ok)) := by
  rw [List.range_eq_range']
  rcases validateTxn_frame (c := s.cfg) (s := n) (n := count) (a := ⟨l, s.effects⟩) htx hrx with
    ⟨htxn, hpass⟩ | ⟨htxn, k, hk, hfail⟩
  · exact ⟨true, ⟨fun _ => hpass, fun _ => rfl⟩, execVTxn_of_ok hl htxn⟩
  · refine ⟨false, ⟨nofun, fun hpass => ?_⟩, execVTxn_of_ok hl htxn⟩
    cases hfail.symm.trans (hpass k hk)

theorem execVTxn_fault (hl : s.links[n]? = some l) (h : l.slot.tx.size < 9 * count ∨ l.slot.rxBuf.size < 9 * count) :
    ∃ b a m, execVTxn n count s = .fault (.precondition b a m) := by
  suffices ∃ b a m, validateTxn s.cfg n count ⟨l, s.effects⟩ = .error (.precondition b a m) by
    obtain ⟨b, a, m, htxn⟩ := this
    exact ⟨b, a, m, onLink_fault hl (by simp only [htxn])⟩
  unfold validateTxn
  rcases checkBounds_cases (.tx n) l.slot.tx 0 (9 * count) with ⟨htx, e1⟩ | ⟨-, e1⟩ <;> simp only [e1]
  · simp only [checkBounds_error (name := .rx n) (show l.slot.rxBuf.size < 0 + 9 * count by omega)]
    exact ⟨_, _, _, rfl⟩
  · exact ⟨_, _, _, rfl⟩

end

theorem Verdict.failed_eq_false {v : Verdict} : v.failed = false ↔ ∀ cause, v ≠ .fail cause := by
  cases v <;> simp [Verdict.failed]

/-- Settles O35: the frame slots of `V.TXN` are those of `V.SLOT`. -/
theorem vTxnExaminesEverySlot : Obligations.VTxnExaminesEverySlot := by
  intro s n count l hl
  refine ⟨codeSelector_toBytes _, fun htx hrx => ?next, fun h => execVTxn_fault hl h⟩
  obtain ⟨ok, hok, hnext⟩ := execVTxn_next hl htx hrx
  refine ⟨ok, _, fun k => frameVerdict s.cfg l.slotCfg.pullM (extract s.cfg.byteOrder l.slot.tx l.slot.rxBuf k),
    fun k hk => ?slot, ?verdicts, hnext⟩
  case slot => exact execVSlot_next (s := { s with effects := [] }) hl (by omega) (by omega)
  case verdicts => simpa only [Verdict.failed_eq_false] using hok

end Machine
end Sys2Proof
end

section
/-! PROOFS. Exchanges on any bus (R62 to R65), and the transfer as the list of its operations: whatever the bus does, and wherever the
responder's own steps fall (R77). -/

namespace Sys2Proof
namespace Machine

/-! ## A byte step and the slot (R160) -/

/-- The responder's operations neither read nor write the initiator's registers: they commute with any change of them. -/
theorem byteStep_setSlot (p : Nat) (rx : Byte) (t : Slot) (a : Act) :
    byteStep p rx (a.setSlot t) = (byteStep p rx a).setSlot t := by
  have sel : selectValue p rx (a.setSlot t) = (selectValue p rx a).setSlot t := by
    unfold selectValue
    rw [apply_ite (Act.setSlot t)]
    rfl
  have val : furtherValue rx (a.setSlot t) = (furtherValue rx a).setSlot t := by
    unfold furtherValue
    rw [apply_ite (Act.setSlot t)]
    rfl
  cases hs : a.link.resp.sSync with
  | unsynchronized =>
    rw [byteStep_unsynchronized hs, byteStep_unsynchronized (a := a.setSlot t) hs]
    simp only [apply_ite (Act.setSlot t)]
    rfl
  | synchronized =>
    rw [byteStep_synchronized hs, byteStep_synchronized (a := a.setSlot t) hs, sel, val]
    simp only [apply_ite (Act.setSlot t)]
    rfl

theorem takeTurns_setSlot (p : Nat) (ts : List Turn) (t : Slot) (a : Act) :
    takeTurns p ts (a.setSlot t) = (takeTurns p ts a).setSlot t := by
  induction ts generalizing a with
  | nil => rfl
  | cons turn rest ih =>
    have one : takeTurn p turn (a.setSlot t) = (takeTurn p turn a).setSlot t := by
      cases turn with
      | dispatch =>
        simp only [takeTurn, dispatchFrame_eq]
        rfl
      | powerCycle => rfl
    rw [takeTurns, one, ih, takeTurns]

theorem byteSteps_setSlot (p : Nat) (cs : List AddedClock) (t : Slot) (a : Act) :
    byteSteps p cs (a.setSlot t) = (byteSteps p cs a).setSlot t := by
  induction cs generalizing a with
  | nil => rfl
  | cons c rest ih => rw [byteSteps, takeTurns_setSlot, byteStep_setSlot, ih, byteSteps]

@[simp] theorem byteSteps_slot (p : Nat) (cs : List AddedClock) (a : Act) : (byteSteps p cs a).link.slot = a.link.slot := by
  obtain ⟨r, e, fx, h⟩ := byteSteps_frame p cs a
  rw [h]

/-! ## The exchange (R62 to R64) -/

/-- On the ideal bus the responder takes the byte sent, and the initiator the staged reply. -/
theorem idealExchange_eq (p i : Nat) (a : Act) :
    idealExchange p i a = (byteStep p (a.link.slot.tx.read i) a).setSlot
      { a.link.slot with rxBuf := a.link.slot.rxBuf.write i a.link.resp.txReg } :=
  byteStep_setSlot ..

/-- The byte clocks that an exchange brings the responder: the one that the initiator means, unless the bus drops it, and those
that the bus adds (R64). -/
def exchangeClocks (txByte : Byte) (d : Disturbance) : List AddedClock :=
  (if d.dropClock then [] else [AddedClock.mk [] (d.toResponder.getD txByte)]) ++ d.extraClocks

/-- An exchange inside both buffers: the responder takes its byte clocks, and the initiator receives the staged reply, unless the
bus replaces it. -/
theorem exchange_eq {p i : Nat} {a : Act} (htx : i < a.link.slot.tx.size) (hrx : i < a.link.slot.rxBuf.size)
    (hr : a.link.slot.restartLine = false) :
    exchange p i a =
      .ok ((byteSteps p (exchangeClocks (a.link.slot.tx.read i) a.link.env.disturbance.1)
          (a.setEnv a.link.env.disturbance.2)).setSlot
        { a.link.slot with
          rxBuf := a.link.slot.rxBuf.write i (a.link.env.disturbance.1.toInitiator.getD a.link.resp.txReg) }) := by
  rw [exchange, checkBounds_ok (show i + 1 ≤ a.link.slot.tx.size from htx),
    checkBounds_ok (show i + 1 ≤ a.link.slot.rxBuf.size from hrx)]
  simp only
  rw [if_neg (by simp [hr]), exchangeBytes, exchangeClocks, ← byteSteps_setSlot]
  cases a.link.env.disturbance.1.dropClock <;> rfl

/-- An exchange inside both buffers with a responder that is held in reset (R63, R296). -/
theorem exchange_held {p i : Nat} {a : Act} (htx : i < a.link.slot.tx.size) (hrx : i < a.link.slot.rxBuf.size)
    (hr : a.link.slot.restartLine = true) :
    exchange p i a = .ok (exchangeHeld p i a.link.env.disturbance.1 (a.setEnv a.link.env.disturbance.2)) := by
  simp only [exchange, checkBounds_ok (show i + 1 ≤ a.link.slot.tx.size from htx),
    checkBounds_ok (show i + 1 ≤ a.link.slot.rxBuf.size from hrx), hr, if_true]

theorem exchange_fault {p i : Nat} {a : Act} (h : a.link.slot.tx.size ≤ i ∨ a.link.slot.rxBuf.size ≤ i) :
    ∃ b x m, exchange p i a = .error (.precondition b x m) := by
  unfold exchange
  rcases checkBounds_cases (.tx p) a.link.slot.tx i 1 with ⟨htx, e1⟩ | ⟨-, e1⟩ <;> simp only [e1]
  · simp only [checkBounds_error (name := .rx p) (show a.link.slot.rxBuf.size < i + 1 by omega)]
    exact ⟨_, _, _, rfl⟩
  · exact ⟨_, _, _, rfl⟩

section
variable {s : State} {n i : Nat} {l : Link}

theorem execBXchg_of_ok {b : Act} (hl : s.links[n]? = some l) (h : exchange n i ⟨l, s.effects⟩ = .ok b) :
    execBXchg n i s = .next (s.withLink n b.link b.fx .none) :=
  onLink_next (r := .none) (a := b) hl (by simp only [h])

theorem execBXchg_fault (hl : s.links[n]? = some l) (h : l.slot.tx.size ≤ i ∨ l.slot.rxBuf.size ≤ i) :
    ∃ b a m, execBXchg n i s = .fault (.precondition b a m) := by
  obtain ⟨b, a, m, hxchg⟩ := exchange_fault (p := n) (a := ⟨l, s.effects⟩) h
  exact ⟨b, a, m, onLink_fault hl (by simp only [hxchg])⟩

end

/-- A write reaches its offset and no other. -/
theorem Memory.write_exact {m : Memory} {i : Nat} (hi : i < m.size) (b : Byte) :
    (m.write i b).read i = b ∧ m.SameOutside (m.write i b) i 1 :=
  ⟨(Memory.read_write hi b i).trans (if_pos rfl), Memory.size_write .., fun x hx => Memory.read_write_ne (by omega) b⟩

/-- The byte clocks as operations are the byte steps of the exchange (R105, R160). -/
theorem clockSteps_eq {n : Nat} (cs : List AddedClock) {s : State} {a : Act} (hl : s.links[n]? = some a.link)
    (hfx : s.effects = a.fx) (hr : a.link.slot.restartLine = false) :
    ∃ r, clockSteps n cs s = .next (s.withLink n (byteSteps n cs a).link (byteSteps n cs a).fx r) := by
  induction cs generalizing s a with
  | nil => exact ⟨s.result, by rw [byteSteps, ← hfx, State.withLink_self hl]; rfl⟩
  | cons c rest ih =>
    obtain ⟨r, hturns⟩ := performs_turnOps n c.turns a s hl hfx
    have hb : (takeTurns n c.turns a).link.slot.restartLine = false := by rw [takeTurns_slot]; exact hr
    rw [byteSteps]
    generalize takeTurns n c.turns a = b at hturns hb ⊢
    have hlink := State.withLink_links_self hl b.link b.fx r
    have hstep := exec_selected (s := s.withLink n b.link b.fx r) c.rx hlink hb
    obtain ⟨r', hrest⟩ := ih (s := s.withLink n (byteStep n c.rx b).link (byteStep n c.rx b).fx
        (.reply (byteStep n c.rx b).link.resp.txReg)) (a := byteStep n c.rx b)
      (State.withLink_links_self hl ..) rfl (by rw [byteStep_slot]; exact hb)
    refine ⟨r', ?_⟩
    rw [State.withLink_withLink] at hstep hrest
    simp only [clockSteps, hturns, hlink, hstep]
    exact hrest

/-- Settles O50: the exchange is the byte steps of its byte clocks and one write into the receive buffer. -/
theorem disturbedExchange : Obligations.DisturbedExchange := by
  intro s n i l d rest hl hbus htx hrx
  have hd : l.env.disturbance = (d, { l.env with bus := rest }) := by simp only [Inputs.disturbance, hbus]
  refine ⟨fun hr => ?clocked, fun hr => ?held⟩
  case clocked =>
    let a : Act := ⟨{ l with env := { l.env with bus := rest } }, s.effects⟩
    let b := byteSteps n (exchangeClocks (l.slot.tx.read i) d) a
    obtain ⟨r, hclocks⟩ := clockSteps_eq (exchangeClocks (l.slot.tx.read i) d)
      (s := s.withLink n a.link s.effects .none) (a := a) (State.withLink_links_self hl ..) rfl hr
    have hxchg := exchange_eq (p := n) (a := ⟨l, s.effects⟩) htx hrx hr
    rw [hd] at hxchg
    have hnext : execBXchg n i s = _ := execBXchg_of_ok hl hxchg
    obtain ⟨hread, hsame⟩ := Memory.write_exact hrx (d.toInitiator.getD l.resp.txReg)
    rw [State.withLink_withLink] at hclocks
    refine ⟨_, b.link, _, hclocks, State.withLink_links_self hl .., hnext.trans ?_, hread, hsame⟩
    rw [State.withLink_withLink]
    rfl
  case held =>
    have hxchg := exchange_held (p := n) (a := ⟨l, s.effects⟩) htx hrx hr
    rw [hd] at hxchg
    obtain ⟨hread, hsame⟩ := Memory.write_exact hrx (d.toInitiator.getD (Config.freeByte n l.env.draws))
    exact ⟨_, execBXchg_of_ok hl hxchg, hread, hsame⟩

end Machine

open Machine in
/-- Settles O49: on the ideal bus the responder takes the one byte clock that the initiator means. -/
theorem idealExchange : Obligations.IdealExchange := by
  intro s n i l hl hbus
  refine ⟨codeSelector_toBytes _, fun htx hrx hr => ?clocked, fun htx hrx hr => ?held, fun h => execBXchg_fault hl h⟩
  case clocked =>
    obtain ⟨r, e, fx, hstep⟩ := byteStep_frame n (l.slot.tx.read i) ⟨l, s.effects⟩
    have hxchg := exchange_ideal (p := n) (a := ⟨l, s.effects⟩) hbus ⟨hr, htx, hrx⟩ (Nat.lt_succ_self i)
    rw [idealExchange_eq, hstep] at hxchg
    have hsel := exec_selected (l.slot.tx.read i) hl hr
    rw [hstep] at hsel
    obtain ⟨hread, hsame⟩ := Memory.write_exact hrx l.resp.txReg
    exact ⟨_, r, e, _, execBXchg_of_ok hl hxchg, hread, hsame, hsel⟩
  case held =>
    have hxchg := exchange_held (p := n) (a := ⟨l, s.effects⟩) htx hrx hr
    rw [show l.env.disturbance = (Disturbance.ideal, l.env) by simp only [Inputs.disturbance, hbus]] at hxchg
    obtain ⟨hread, hsame⟩ := Memory.write_exact hrx (Config.freeByte n l.env.draws)
    exact ⟨_, execBXchg_of_ok hl hxchg, hread, hsame⟩

end Sys2Proof
end

section
/-! PROOFS. A transfer on any bus is the list of its operations (R65, R77): the formats of the wire (log 15) and the tick of an
unsynchronized slot (R229). -/

namespace Sys2Proof
namespace Machine

/-! ## The places of the responder's own steps (R77; log 22) -/

/-- The same link with other places for the responder's own steps still to come. -/
def Act.withTurns (turns : List (List Turn)) (a : Act) : Act := a.schedule a.link.env.bus turns

@[simp] theorem Act.withTurns_turns (turns : List (List Turn)) (a : Act) : (a.withTurns turns).link.env.turns = turns := rfl
@[simp] theorem Act.withTurns_slot (turns : List (List Turn)) (a : Act) : (a.withTurns turns).link.slot = a.link.slot := rfl
@[simp] theorem Act.withTurns_fx (turns : List (List Turn)) (a : Act) : (a.withTurns turns).fx = a.fx := rfl

theorem Act.withTurns_self (a : Act) : a.withTurns a.link.env.turns = a := rfl

theorem byteStep_withTurns (p : Nat) (rx : Byte) (turns : List (List Turn)) (a : Act) :
    byteStep p rx (a.withTurns turns) = (byteStep p rx a).withTurns turns := by
  rw [Act.withTurns, byteStep_schedule, Act.withTurns, byteStep_bus]

theorem takeTurns_withTurns (p : Nat) (ts : List Turn) (turns : List (List Turn)) (a : Act) :
    takeTurns p ts (a.withTurns turns) = (takeTurns p ts a).withTurns turns := by
  rw [Act.withTurns, takeTurns_schedule, Act.withTurns, takeTurns_bus]

theorem byteSteps_withTurns (p : Nat) (cs : List AddedClock) (turns : List (List Turn)) (a : Act) :
    byteSteps p cs (a.withTurns turns) = (byteSteps p cs a).withTurns turns := by
  induction cs generalizing a with
  | nil => rfl
  | cons c rest ih => rw [byteSteps, takeTurns_withTurns, byteStep_withTurns, ih, byteSteps]

/-- An operation that commutes with every change of the places takes none of them. -/
theorem turns_of_withTurns {a b : Act} (h : b = b.withTurns a.link.env.turns) : b.link.env.turns = a.link.env.turns := by
  rw [h]
  rfl

theorem takeTurns_turns (p : Nat) (ts : List Turn) (a : Act) : (takeTurns p ts a).link.env.turns = a.link.env.turns :=
  turns_of_withTurns (by rw [← takeTurns_withTurns, Act.withTurns_self])

/-- A place takes the first list of the responder's own steps. -/
theorem pause_eq (p : Nat) (a : Act) :
    pause p a = (takeTurns p (a.link.env.turns.headD []) a).withTurns a.link.env.turns.tail := by
  rw [← takeTurns_withTurns, pause]
  cases h : a.link.env.turns with
  | nil =>
    have hself := a.withTurns_self
    rw [h] at hself
    exact hself.symm
  | cons ts rest => rfl

theorem pause_withTurns (p : Nat) (turns : List (List Turn)) (a : Act) :
    pause p (a.withTurns turns) = (takeTurns p (turns.headD []) a).withTurns turns.tail := by
  rw [pause_eq, takeTurns_withTurns]
  rfl

theorem disturbance_withTurns (turns : List (List Turn)) (e : Inputs) :
    ({ e with turns := turns } : Inputs).disturbance = (e.disturbance.1, { e.disturbance.2 with turns := turns }) := by
  obtain ⟨bus, answers, values, ts, draws⟩ := e
  cases bus with
  | nil => rfl
  | cons d rest => rfl

/-- An exchange inside both buffers takes none of these places either. -/
theorem exchange_withTurns {p i : Nat} {a b : Act} (h : exchange p i a = .ok b) (turns : List (List Turn)) :
    exchange p i (a.withTurns turns) = .ok (b.withTurns turns) := by
  obtain ⟨htx, hrx⟩ := exchange_cases h
  have hd := disturbance_withTurns turns a.link.env
  cases hr : a.link.slot.restartLine with
  | true =>
    have hnext := exchange_held (p := p) (a := a.withTurns turns) htx hrx hr
    rw [exchange_held htx hrx hr] at h
    cases h
    rw [hnext, show (a.withTurns turns).link.env.disturbance = _ from hd]
    rfl
  | false =>
    have hnext := exchange_eq (p := p) (a := a.withTurns turns) htx hrx hr
    rw [exchange_eq htx hrx hr] at h
    cases h
    have hcommute := byteSteps_withTurns p (exchangeClocks (a.link.slot.tx.read i) a.link.env.disturbance.1) turns
      (a.setEnv a.link.env.disturbance.2)
    rw [hnext, show (a.withTurns turns).link.env.disturbance = _ from hd]
    exact congrArg (fun b : Act => Except.ok (b.setSlot _)) hcommute

theorem exchange_turns {p i : Nat} {a b : Act} (h : exchange p i a = .ok b) : b.link.env.turns = a.link.env.turns := by
  have h' := exchange_withTurns h a.link.env.turns
  rw [Act.withTurns_self, h] at h'
  exact turns_of_withTurns (Except.ok.inj h')

/-! ## A transfer as the list of its operations (R65) -/

/-- Exchanges inside both buffers are their operations; the environment's places for the responder's own steps are those that the
list of the operations names. -/
theorem exchanges_performs {n len i : Nat} {turns : List (List Turn)} {a : Act} (htx : i + len ≤ a.link.slot.tx.size)
    (hrx : i + len ≤ a.link.slot.rxBuf.size) :
    ∃ b, exchanges n len i (a.withTurns turns) = .ok (b.withTurns (turns.drop (len + 1))) ∧
      Performs (transferOps n len i turns) n a b ∧ b.link.env.turns = a.link.env.turns := by
  induction len generalizing i turns a with
  | zero => exact ⟨_, by rw [exchanges, pause_withTurns, List.drop_one], performs_turnOps n _ a, takeTurns_turns ..⟩
  | succ len ih =>
    let a1 := takeTurns n (turns.headD []) a
    have hslot : a1.link.slot = a.link.slot := takeTurns_slot ..
    obtain ⟨_, _, _, _, hxchg⟩ := exchange_frame (s := n) (i := i) (a := a1) (by rw [hslot]; omega) (by rw [hslot]; omega)
    obtain ⟨a2, ha2⟩ : ∃ a2, exchange n i a1 = .ok a2 := ⟨_, hxchg⟩
    have hsize := exchange_rx_size ha2
    obtain ⟨m, hslot2⟩ := exchange_slot ha2
    rw [hslot] at hsize hslot2
    obtain ⟨b, hb, hperforms, hbturns⟩ := ih (i := i + 1) (turns := turns.tail) (a := a2)
      (by rw [hslot2]; simp only; omega) (by rw [hsize.right]; omega)
    refine ⟨b, ?_, (performs_turnOps n _ a).append ((performs_bXchg ha2).cons hperforms),
      hbturns.trans ((exchange_turns ha2).trans (takeTurns_turns ..))⟩
    rw [exchanges, pause_withTurns, exchange_withTurns ha2]
    simp only [hb, List.drop_tail]

/-- A transfer inside both buffers is performed, and it is its operations, on a link from which the places that it takes for the
responder's own steps have been taken. -/
theorem transfer_performs {n len : Nat} {a : Act} (htx : len ≤ a.link.slot.tx.size) (hrx : len ≤ a.link.slot.rxBuf.size) :
    ∃ b, transfer n len a = .ok b ∧
      Performs (transferOps n len 0 a.link.env.turns) n (a.withTurns (a.link.env.turns.drop (len + 1))) b ∧
      b.link.env.turns = a.link.env.turns.drop (len + 1) := by
  obtain ⟨b, hb, hperforms, hturns⟩ := exchanges_performs (n := n) (i := 0) (turns := a.link.env.turns)
    (a := a.withTurns (a.link.env.turns.drop (len + 1))) (by simpa using htx) (by simpa using hrx)
  refine ⟨b, ?_, hperforms, hturns⟩
  rw [transfer, checkBounds_ok (by omega), checkBounds_ok (by omega)]
  rw [Act.withTurns_turns] at hturns
  rw [← hturns, Act.withTurns_self] at hb
  exact hb

/-! ## Operations that return nothing (R18, R107) -/

/-- An operation that, when it answers, returns nothing. -/
def Quiet (i : Instr) : Prop := ∀ s t, exec i s = .next t → t.result = .none

theorem quiet_of_onLink {i : Instr} {n : Nat} {f : State → Act → Except Fault (Result × Act)}
    (hexec : ∀ s, exec i s = s.onLink n (f s)) (hf : ∀ s a r b, f s a = .ok (r, b) → r = .none) : Quiet i := by
  intro s t h
  rw [hexec] at h
  obtain ⟨l, r, a, -, hok, rfl⟩ := onLink_cases h
  exact hf _ _ _ _ hok

theorem quiet_turnOps (n : Nat) (ts : List Turn) : ∀ i ∈ turnOps n ts, Quiet i := by
  intro i hi
  obtain ⟨t, -, rfl⟩ := List.mem_map.mp hi
  cases t with
  | dispatch =>
    exact quiet_of_onLink (f := fun _ a => .ok (.none, dispatchFrame n a)) (fun _ => rfl) fun _ _ _ _ h => by
      cases h
      rfl
  | powerCycle =>
    exact quiet_of_onLink (f := fun _ a => .ok (.none, resetResponder n a)) (fun _ => rfl) fun _ _ _ _ h => by
      cases h
      rfl

theorem quiet_bXchg (n i : Nat) : Quiet (.bXchg n i) := by
  intro s t h
  obtain ⟨l, r, a, -, hok, rfl⟩ := onLink_cases (show execBXchg n i s = .next t from h)
  split at hok <;> cases hok
  rfl

theorem quiet_transferOps (n len i : Nat) (turns : List (List Turn)) : ∀ j ∈ transferOps n len i turns, Quiet j := by
  induction len generalizing i turns with
  | zero => exact quiet_turnOps n _
  | succ len ih =>
    intro j hj
    rcases List.mem_append.mp hj with hj | hj
    · exact quiet_turnOps n _ j hj
    · rcases List.mem_cons.mp hj with rfl | hj
      · exact quiet_bXchg n i
      · exact ih _ _ j hj

theorem execAll_result {is : List Instr} {s t : State} (hq : ∀ i ∈ is, Quiet i) (h : execAll is s = .next t)
    (hs : s.result = .none) : t.result = .none := by
  induction is generalizing s with
  | nil => cases h; exact hs
  | cons i is ih =>
    obtain ⟨u, hu, hrest⟩ := execAll_cons_cases h
    exact ih (fun j hj => hq j (List.mem_cons_of_mem _ hj)) hrest (hq i List.mem_cons_self s u hu)

/-- Operations that return nothing, on a link in a state in which nothing has been returned. -/
theorem Performs.execAll_quiet {is : List Instr} {n : Nat} {a b : Act} {s : State} (h : Performs is n a b)
    (hq : ∀ i ∈ is, Quiet i) {l : Link} (hl : s.links[n]? = some l) :
    execAll is (s.withLink n a.link a.fx .none) = .next (s.withLink n b.link b.fx .none) := by
  obtain ⟨r, hr⟩ := h (s.withLink n a.link a.fx .none) (State.withLink_links_self hl ..) rfl
  have hnone : r = .none := execAll_result hq hr rfl
  rw [hr, State.withLink_withLink, hnone]

/-! ## The formats of the wire (R90 to R93; log 15) -/

section
variable {s : State} {n : Nat} {l : Link} {w : List Byte}

theorem sendNine_of_ok {b : Act} (hl : s.links[n]? = some l)
    (h : transfer n 9 (selectTx (Memory.ofBytes w) ⟨l, s.effects⟩) = .ok b) :
    sendNine n w s = .next (s.withLink n b.link b.fx .none) :=
  onLink_next (r := .none) (a := b) hl (by simp only [h])

theorem receiveNine_of_ok {b : Act} (hl : s.links[n]? = some l)
    (h : transfer n 9 ⟨{ l with env := { l.env with bus := received w l.env.bus } }, s.effects⟩ = .ok b) :
    receiveNine n w s = .next (s.withLink n b.link b.fx .none) := by
  refine onLink_next (r := .none) (a := b) hl ?_
  simp only [Act.setEnv]
  rw [h]

/-- Nine bytes that are sent are transferred by the nine exchanges, and the receive buffer is the only buffer that they write. -/
theorem sendNine_performs (hl : s.links[n]? = some l) (hrx : 9 ≤ l.slot.rxBuf.size) (hw : w.length = 9) :
    sendNine n w s = execAll (transferOps n 9 0 l.env.turns) (s.withLink n
        { l.dropTurns 10 with slot := { l.slot with tx := Memory.ofBytes w } } s.effects .none) ∧
      ∃ m r env fx, sendNine n w s = .next (s.withLink n
        { l with slot := { l.slot with tx := Memory.ofBytes w, rxBuf := m }, resp := r, env := env }
        (s.effects ++ fx) .none) ∧ l.slot.rxBuf.SameOutside m 0 9 := by
  let a := selectTx (Memory.ofBytes w) ⟨l, s.effects⟩
  have htx : 9 ≤ a.link.slot.tx.size := hw.ge
  obtain ⟨b, hb, hperforms, -⟩ := transfer_performs (n := n) (a := a) htx hrx
  obtain ⟨m, r, env, fx, hframe, hsame, -⟩ := transfer_frame (s := n) (a := a) htx hrx
  have hsent := sendNine_of_ok hl hb
  refine ⟨hsent.trans (hperforms.execAll_quiet (quiet_transferOps _ _ _ _) hl).symm, m, r, env, fx, ?_, hsame⟩
  cases hb.symm.trans hframe
  exact hsent

end

/-- Settles O59: both formats are the transfer of their nine bytes. -/
theorem sentFormatsComplete : Obligations.SentFormatsComplete := by
  intro s n l hl hrx
  refine ⟨fun id v => ?frame, ?probe⟩
  case frame => exact sendNine_performs hl hrx rfl
  case probe => exact sendNine_performs hl hrx rfl

/-! ## What the initiator receives (R91, R93) -/

theorem byteSteps_bus (p : Nat) (cs : List AddedClock) (a : Act) : (byteSteps p cs a).link.env.bus = a.link.env.bus := by
  induction cs generalizing a with
  | nil => rfl
  | cons c rest ih => rw [byteSteps, ih, byteStep_bus, takeTurns_bus]

theorem pause_bus (p : Nat) (a : Act) : (pause p a).link.env.bus = a.link.env.bus := by
  rw [pause_eq]
  exact takeTurns_bus ..

/-- An exchange in which the bus replaces the byte for the initiator: that byte is received. -/
theorem exchange_received {p i : Nat} {a b : Act} {d : Disturbance} {rest : List Disturbance} {y : Byte}
    (h : exchange p i a = .ok b) (hbus : a.link.env.bus = d :: rest) (hy : d.toInitiator = some y) :
    b.link.slot.rxBuf = a.link.slot.rxBuf.write i y ∧ b.link.slot.tx = a.link.slot.tx ∧ b.link.env.bus = rest := by
  obtain ⟨htx, hrx⟩ := exchange_cases h
  have hd : a.link.env.disturbance = (d, { a.link.env with bus := rest }) := by simp only [Inputs.disturbance, hbus]
  cases hr : a.link.slot.restartLine with
  | true =>
    rw [exchange_held htx hrx hr, hd] at h
    cases h
    exact ⟨by simp [exchangeHeld, hy], rfl, rfl⟩
  | false =>
    rw [exchange_eq htx hrx hr, hd] at h
    cases h
    exact ⟨by simp [hy], rfl, byteSteps_bus ..⟩

/-- A transfer in which the bus replaces the bytes for the initiator by these. -/
theorem exchanges_received {p i : Nat} {w : List Byte} {bus : List Disturbance} {a b : Act}
    (h : exchanges p w.length i a = .ok b) (hbus : a.link.env.bus = received w bus)
    (htx : i + w.length ≤ a.link.slot.tx.size) (hrx : i + w.length ≤ a.link.slot.rxBuf.size) :
    b.link.slot.rxBuf.Holds i w := by
  induction w generalizing i bus a with
  | nil => exact Memory.holds_nil _ _
  | cons y rest ih =>
    rw [List.length_cons] at h htx hrx
    rw [exchanges] at h
    cases hx : exchange p i (pause p a) with
    | error e =>
      rw [hx] at h
      cases h
    | ok a1 =>
      rw [hx] at h
      have hbus' : (pause p a).link.env.bus = _ := (pause_bus p a).trans hbus
      obtain ⟨hrx1, htx1, hbus1⟩ := exchange_received hx hbus' rfl
      rw [pause_slot] at hrx1 htx1
      have hsize : a1.link.slot.rxBuf.size = a.link.slot.rxBuf.size := by rw [hrx1, Memory.size_write]
      have fits : i + 1 + rest.length ≤ a1.link.slot.tx.size ∧ i + 1 + rest.length ≤ a1.link.slot.rxBuf.size := by
        rw [htx1, hsize]
        omega
      refine Memory.holds_cons.mpr ⟨?_, ih h hbus1 fits.left fits.right⟩
      obtain ⟨m, _, _, _, hb, ⟨-, hread⟩, -⟩ := exchanges_frame (s := p) (n := rest.length) (i := i + 1) fits.left fits.right
      cases Except.ok.inj (h.symm.trans hb)
      rw [show m.read i = _ from hread i (by omega), hrx1, Memory.read_write (by omega), if_pos rfl]

section
variable {s : State} {n : Nat} {l : Link} {w : List Byte}

theorem receiveNine_performs (hl : s.links[n]? = some l) (htx : 9 ≤ l.slot.tx.size) (hrx : 9 ≤ l.slot.rxBuf.size)
    (hw : w.length = 9) :
    receiveNine n w s = execAll (transferOps n 9 0 l.env.turns) (s.withLink n
        { l with env := { (l.dropTurns 10).env with bus := received w l.env.bus } } s.effects .none) ∧
      ∃ m r env fx, receiveNine n w s = .next (s.withLink n
          { l with slot := { l.slot with rxBuf := m }, resp := r, env := env } (s.effects ++ fx) .none) ∧
        m.Holds 0 w ∧ l.slot.rxBuf.SameOutside m 0 9 := by
  let a : Act := ⟨{ l with env := { l.env with bus := received w l.env.bus } }, s.effects⟩
  obtain ⟨b, hb, hperforms, -⟩ := transfer_performs (n := n) (a := a) htx hrx
  obtain ⟨m, r, env, fx, hframe, hsame, -⟩ := transfer_frame (s := n) (a := a) htx hrx
  have harrived := receiveNine_of_ok hl hb
  have hexchanges : exchanges n w.length 0 a = .ok b := by
    rw [transfer, checkBounds_ok (by simpa using htx), checkBounds_ok (by simpa using hrx)] at hb
    rw [hw]
    exact hb
  have hholds := exchanges_received hexchanges rfl (by rw [hw]; simpa using htx) (by rw [hw]; simpa using hrx)
  cases hb.symm.trans hframe
  exact ⟨harrived.trans (hperforms.execAll_quiet (quiet_transferOps _ _ _ _) hl).symm, m, r, env, fx, harrived, hholds, hsame⟩

theorem transfer_fault {n len : Nat} {a : Act} (h : a.link.slot.tx.size < len ∨ a.link.slot.rxBuf.size < len) :
    ∃ b x m, transfer n len a = .error (.precondition b x m) := by
  unfold transfer
  rcases checkBounds_cases (.tx n) a.link.slot.tx 0 len with ⟨htx, e1⟩ | ⟨-, e1⟩ <;> simp only [e1]
  · simp only [checkBounds_error (name := .rx n) (show a.link.slot.rxBuf.size < 0 + len by omega)]
    exact ⟨_, _, _, rfl⟩
  · exact ⟨_, _, _, rfl⟩

theorem receiveNine_fault (hl : s.links[n]? = some l) (h : l.slot.tx.size < 9 ∨ l.slot.rxBuf.size < 9) :
    ∃ b a m, receiveNine n w s = .fault (.precondition b a m) := by
  obtain ⟨b, a, m, htransfer⟩ := transfer_fault (n := n)
    (a := ⟨{ l with env := { l.env with bus := received w l.env.bus } }, s.effects⟩) h
  refine ⟨b, a, m, onLink_fault hl ?_⟩
  simp only [Act.setEnv]
  rw [htransfer]

end

/-- Settles O60: both formats are the transfer in which their nine bytes are received. -/
theorem receivedFormatsArrive : Obligations.ReceivedFormatsArrive := by
  intro s n l i w hl hi
  obtain ⟨hw, hexec⟩ : w.length = 9 ∧ exec i s = receiveNine n w s := by
    obtain ⟨prev, ⟨rfl, rfl⟩ | ⟨id, v, ack, rfl, rfl⟩⟩ := hi
    · exact ⟨rfl, rfl⟩
    · exact ⟨rfl, rfl⟩
  rw [hexec]
  exact ⟨fun htx hrx => receiveNine_performs hl htx hrx hw, receiveNine_fault hl⟩

end Machine
end Sys2Proof
end

section
/-! PROOFS. The end of a failed tick as operations, and the tick of an unsynchronized slot (R229, R231). -/

namespace Sys2Proof
namespace Machine

/-- A transfer keeps the length of the receive buffer. -/
theorem transfer_rx_size {n len : Nat} {a b : Act} (h : transfer n len a = .ok b) :
    b.link.slot.rxBuf.size = a.link.slot.rxBuf.size := by
  obtain ⟨htx, hrx⟩ := transfer_cases h
  obtain ⟨_, _, _, _, hframe, ⟨hsize, _⟩, _⟩ := transfer_frame (s := n) htx hrx
  cases h.symm.trans hframe
  exact hsize

section
variable {s : State} {n : Nat} {l : Link}

theorem execTRestart_next (hl : s.links[n]? = some l) :
    execTRestart n s = .next (s.withLink n (restartPulse n ⟨l, s.effects⟩).link (restartPulse n ⟨l, s.effects⟩).fx .none) :=
  onLink_next (f := fun a => .ok (.none, restartPulse n a)) hl rfl

/-- A failed tick counts the failure; if the policy says so, the responder's own steps and the restart pulse follow (R229 to R231). -/
theorem tickFailed_ops (hl : s.links[n]? = some l) (c : Cfg) (kind : TickKind) (d : Act) :
    .next (s.withLink n (tickFailed c n kind d).link (tickFailed c n kind d).fx .none) =
      if restartDue c kind (d.link.slot.failRun + 1) then
        execAll (turnOps n (d.link.env.turns.headD []) ++ [.tRestart n])
          (s.withLink n { d.link.dropTurns 1 with slot := { d.link.slot with failRun := d.link.slot.failRun + 1 } } d.fx .none)
      else
        .next (s.withLink n { d.link with slot := { d.link.slot with failRun := d.link.slot.failRun + 1 } } d.fx .none) := by
  unfold tickFailed
  simp only
  split
  · let a := (d.setSlot { d.link.slot with failRun := d.link.slot.failRun + 1 }).withTurns d.link.env.turns.tail
    let s0 := s.withLink n a.link a.fx .none
    have hdrop : d.link.env.turns.drop 1 = d.link.env.turns.tail := List.drop_one
    have hpause : pause n (d.setSlot { d.link.slot with failRun := d.link.slot.failRun + 1 }) =
        takeTurns n (d.link.env.turns.headD []) a := by
      rw [pause_eq, ← takeTurns_withTurns]
      rfl
    obtain ⟨r, hturns⟩ := performs_turnOps n (d.link.env.turns.headD []) a s0 (State.withLink_links_self hl ..) rfl
    have hrestart : exec (.tRestart n) _ = _ := execTRestart_next
      (s := s0.withLink n (takeTurns n (d.link.env.turns.headD []) a).link (takeTurns n (d.link.env.turns.headD []) a).fx r)
      (State.withLink_links_self (State.withLink_links_self hl ..) ..)
    rw [Link.dropTurns, hdrop, hpause]
    refine Eq.symm ((execAll_append hturns).trans ((execAll_cons hrestart []).trans ?_))
    rw [State.withLink_withLink, State.withLink_withLink]
    rfl
  · rfl

theorem probeTick_of_ok {c : Cfg} {a b d : Act} {pass : Bool} (htransfer : transfer n 9 (selectTx (probeBuf c) a) = .ok b)
    (hcheck : checkProbe c n b = .ok (pass, d)) :
    probeTick c n a = .ok (if pass then tickPassed d else tickFailed c n .probe d) := by
  simp only [probeTick, htransfer, hcheck]
  cases pass <;> rfl

end

/-- Settles O45: the tick's transfer and check are the probe transaction's. -/
theorem probeTickIsProbeTransaction : Obligations.ProbeTickIsProbeTransaction := by
  intro s n l hl hm hrx
  let a := selectTx (probeBuf s.cfg) ⟨l, s.effects⟩
  obtain ⟨b, hb, hperforms, -⟩ := transfer_performs (n := n) (len := 9) (a := a) (Nat.le_refl 9) hrx
  obtain ⟨m, hslot⟩ := transfer_slot hb
  have hbrx : 9 ≤ b.link.slot.rxBuf.size := by
    rw [transfer_rx_size hb]
    exact hrx
  obtain ⟨pass, d, hcheck⟩ : ∃ pass d, checkProbe s.cfg n b = .ok (pass, d) := ⟨_, _, checkProbe_eq hbrx⟩
  have hrun : d.link.slot.failRun = l.slot.failRun := by
    obtain ⟨-, rfl⟩ | ⟨-, rfl⟩ := checkProbe_cases hcheck
    · simp only [Act.setSlot_slot, hslot]
      rfl
    · rw [hslot]
      rfl
  have htick : slotTick s.cfg n ⟨l, s.effects⟩ = .ok (if pass then tickPassed d else tickFailed s.cfg n .probe d) := by
    rw [slotTick, if_pos hm]
    exact probeTick_of_ok hb hcheck
  have hnext : exec (.tTick n) s = _ := execTTick_next hl htick
  let s0 := s.withLink n (l.dropTurns 10) s.effects .none
  have hl0 : s0.links[n]? = some (l.dropTurns 10) := State.withLink_links_self hl ..
  have hprobe : exec (.iProbe n) s0 = _ := execIProbe_next hl0 hm
  have htransfer := hperforms.execAll_quiet (quiet_transferOps n 9 0 _) hl
  let s1 := s.withLink n b.link b.fx .none
  have hicheck : exec (.iCheck n) s1 = _ := execICheck_next (a := b) (State.withLink_links_self hl ..) rfl
    (by rw [hslot]; exact hm) hcheck
  have hall : execAll (probeTransaction n l.env.turns) s0 = .next (s.withLink n d.link d.fx (.check pass)) := by
    rw [probeTransaction, List.cons_append, execAll_cons hprobe]
    refine (execAll_append (t := s1) ?_).trans ((execAll_cons hicheck []).trans ?_)
    · rw [State.withLink_withLink]
      exact htransfer
    · rw [State.withLink_withLink]
      rfl
  refine ⟨_, d.link, pass, hall, State.withLink_links_self hl .., rfl, fun hp => ?pass, fun hp hdue => ?fail, fun hp hdue => ?restart⟩
  case pass =>
    subst hp
    rw [State.withLink_withLink]
    exact hnext
  case fail =>
    subst hp
    have hfailed := tickFailed_ops hl s.cfg .probe d
    rw [hrun, if_neg (by simp [hdue])] at hfailed
    rw [State.withLink_withLink]
    exact hnext.trans hfailed
  case restart =>
    subst hp
    have hfailed := tickFailed_ops hl s.cfg .probe d
    rw [hrun, if_pos hdue] at hfailed
    rw [State.withLink_withLink]
    exact hnext.trans hfailed

end Machine
end Sys2Proof
end

section
/-! PROOFS. Command ticks as lists of operations (R228, R230): the fill, the transaction, and that the rest of a tick does not read
the plan that it is a part of. -/

namespace Sys2Proof
namespace Machine

/-! ## The plan is read where a tick starts, and nowhere else (R230) -/

/-- The same link with another `TICK_PLAN`. -/
def Act.withPlan (plan : List TxBuf) (a : Act) : Act :=
  { a with link := { a.link with slotCfg := { a.link.slotCfg with tickPlan := plan } } }

section
variable (plan : List TxBuf)

theorem byteStep_withPlan (p : Nat) (rx : Byte) (a : Act) :
    byteStep p rx (a.withPlan plan) = (byteStep p rx a).withPlan plan := by
  have sel : selectValue p rx (a.withPlan plan) = (selectValue p rx a).withPlan plan := by
    unfold selectValue
    rw [apply_ite (Act.withPlan plan)]
    rfl
  have val : furtherValue rx (a.withPlan plan) = (furtherValue rx a).withPlan plan := by
    unfold furtherValue
    rw [apply_ite (Act.withPlan plan)]
    rfl
  cases hs : a.link.resp.sSync with
  | unsynchronized =>
    rw [byteStep_unsynchronized hs, byteStep_unsynchronized (a := a.withPlan plan) hs]
    simp only [apply_ite (Act.withPlan plan)]
    rfl
  | synchronized =>
    rw [byteStep_synchronized hs, byteStep_synchronized (a := a.withPlan plan) hs, sel, val]
    simp only [apply_ite (Act.withPlan plan)]
    rfl

theorem takeTurns_withPlan (p : Nat) (ts : List Turn) (a : Act) :
    takeTurns p ts (a.withPlan plan) = (takeTurns p ts a).withPlan plan := by
  induction ts generalizing a with
  | nil => rfl
  | cons turn rest ih =>
    have one : takeTurn p turn (a.withPlan plan) = (takeTurn p turn a).withPlan plan := by
      cases turn with
      | dispatch =>
        simp only [takeTurn, dispatchFrame_eq]
        rfl
      | powerCycle => rfl
    rw [takeTurns, one, ih, takeTurns]

theorem byteSteps_withPlan (p : Nat) (cs : List AddedClock) (a : Act) :
    byteSteps p cs (a.withPlan plan) = (byteSteps p cs a).withPlan plan := by
  induction cs generalizing a with
  | nil => rfl
  | cons c rest ih => rw [byteSteps, takeTurns_withPlan, byteStep_withPlan, ih, byteSteps]

theorem pause_withPlan (p : Nat) (a : Act) : pause p (a.withPlan plan) = (pause p a).withPlan plan := by
  rw [pause_eq, pause_eq]
  exact congrArg _ (takeTurns_withPlan plan p _ a)

@[simp] theorem Act.withPlan_slot (a : Act) : (a.withPlan plan).link.slot = a.link.slot := rfl
@[simp] theorem Act.withPlan_env (a : Act) : (a.withPlan plan).link.env = a.link.env := rfl

theorem Act.withPlan_setSlot (t : Slot) (a : Act) : (a.withPlan plan).setSlot t = (a.setSlot t).withPlan plan := rfl
theorem Act.withPlan_setEnv (e : Inputs) (a : Act) : (a.withPlan plan).setEnv e = (a.setEnv e).withPlan plan := rfl

theorem exchange_withPlan (p i : Nat) (a : Act) :
    exchange p i (a.withPlan plan) = (exchange p i a).map (Act.withPlan plan) := by
  rcases checkBounds_cases (.tx p) a.link.slot.tx i 1 with ⟨htx, -⟩ | ⟨-, e1⟩
  · rcases checkBounds_cases (.rx p) a.link.slot.rxBuf i 1 with ⟨hrx, -⟩ | ⟨-, e2⟩
    · cases hr : a.link.slot.restartLine with
      | true =>
        rw [exchange_held (a := a.withPlan plan) htx hrx hr, exchange_held htx hrx hr]
        rfl
      | false =>
        rw [exchange_eq (a := a.withPlan plan) htx hrx hr, exchange_eq htx hrx hr]
        exact congrArg (fun b : Act => Except.ok (b.setSlot { a.link.slot with
          rxBuf := a.link.slot.rxBuf.write i (a.link.env.disturbance.1.toInitiator.getD a.link.resp.txReg) }))
          (byteSteps_withPlan plan p (exchangeClocks (a.link.slot.tx.read i) a.link.env.disturbance.1)
            (a.setEnv a.link.env.disturbance.2))
    · simp only [exchange, Act.withPlan_slot, checkBounds_ok htx, e2]
      rfl
  · simp only [exchange, Act.withPlan_slot, e1]
    rfl

theorem exchanges_withPlan (p len i : Nat) (a : Act) :
    exchanges p len i (a.withPlan plan) = (exchanges p len i a).map (Act.withPlan plan) := by
  induction len generalizing i a with
  | zero =>
    rw [exchanges, pause_withPlan]
    rfl
  | succ len ih =>
    rw [exchanges, pause_withPlan, exchange_withPlan, exchanges]
    cases exchange p i (pause p a) with
    | error e => rfl
    | ok b => exact ih (i + 1) b

theorem transfer_withPlan (p len : Nat) (a : Act) :
    transfer p len (a.withPlan plan) = (transfer p len a).map (Act.withPlan plan) := by
  simp only [transfer, Act.withPlan_slot, exchanges_withPlan]
  cases checkBounds (.tx p) a.link.slot.tx 0 len with
  | error e => rfl
  | ok _ =>
    cases checkBounds (.rx p) a.link.slot.rxBuf 0 len with
    | error e => rfl
    | ok _ => rfl

theorem validateSlot_withPlan (c : Cfg) (p k : Nat) (a : Act) :
    validateSlot c p k (a.withPlan plan) = (validateSlot c p k a).map (Prod.map id (Act.withPlan plan)) := by
  rcases checkBounds_cases (.tx p) a.link.slot.tx (9 * k) 9 with ⟨htx, -⟩ | ⟨-, e1⟩
  · rcases checkBounds_cases (.rx p) a.link.slot.rxBuf (9 * k) 9 with ⟨hrx, -⟩ | ⟨-, e2⟩
    · rw [validateSlot_frame (a := a.withPlan plan) htx hrx, validateSlot_frame htx hrx]
      rfl
    · simp only [validateSlot, Act.withPlan_slot, checkBounds_ok htx, e2]
      rfl
  · simp only [validateSlot, Act.withPlan_slot, e1]
    rfl

theorem validateSlots_withPlan (c : Cfg) (p n k : Nat) (failed : Bool) (a : Act) :
    validateSlots c p n k failed (a.withPlan plan) =
      (validateSlots c p n k failed a).map (Prod.map id (Act.withPlan plan)) := by
  induction n generalizing k failed a with
  | zero => rfl
  | succ n ih =>
    rw [validateSlots, validateSlot_withPlan, validateSlots]
    cases validateSlot c p k a with
    | error e => rfl
    | ok x => exact ih (k + 1) (failed || x.1.failed) x.2

theorem validateTxn_withPlan (c : Cfg) (p n : Nat) (a : Act) :
    validateTxn c p n (a.withPlan plan) = (validateTxn c p n a).map (Prod.map id (Act.withPlan plan)) := by
  simp only [validateTxn, Act.withPlan_slot, validateSlots_withPlan]
  cases checkBounds (.tx p) a.link.slot.tx 0 (9 * n) with
  | error e => rfl
  | ok _ =>
    cases checkBounds (.rx p) a.link.slot.rxBuf 0 (9 * n) with
    | error e => rfl
    | ok _ =>
      cases validateSlots c p n 0 false a with
      | error e => rfl
      | ok x =>
        obtain ⟨failed, b⟩ := x
        cases failed <;> rfl

theorem fillPush_withPlan (c : Cfg) (p j : Nat) (ids : List Id) (a : Act) :
    fillPush c p j ids (a.withPlan plan) = (fillPush c p j ids a).map (Act.withPlan plan) := by
  induction ids generalizing j a with
  | nil => rfl
  | cons id rest ih =>
    simp only [fillPush, Act.withPlan_slot, Act.withPlan_env, Act.withPlan_setEnv, Act.withPlan_setSlot]
    split
    · rfl
    · exact ih (j + 1) _

theorem prepareBuffer_withPlan (c : Cfg) (p : Nat) (b : TxBuf) (a : Act) :
    prepareBuffer c p b (a.withPlan plan) = (prepareBuffer c p b a).map (Act.withPlan plan) := by
  cases b with
  | push => exact fillPush_withPlan plan c p 0 a.link.slotCfg.pushCmds a
  | pull => rfl

theorem transact_withPlan (c : Cfg) (p : Nat) (b : TxBuf) (a : Act) :
    transact c p b (a.withPlan plan) = (transact c p b a).map (Prod.map id (Act.withPlan plan)) := by
  rw [transact, prepareBuffer_withPlan, transact]
  cases prepareBuffer c p b a with
  | error e => rfl
  | ok a1 =>
    have htransfer := transfer_withPlan plan p (txBufMem b a1.link.slot).size (selectTx (txBufMem b a1.link.slot) a1)
    simp only [Except.map, Act.withPlan_slot]
    rw [show selectTx _ (a1.withPlan plan) = (selectTx (txBufMem b a1.link.slot) a1).withPlan plan from rfl, htransfer]
    cases transfer p (txBufMem b a1.link.slot).size (selectTx (txBufMem b a1.link.slot) a1) with
    | error e => rfl
    | ok a2 => exact validateTxn_withPlan plan c p _ a2

theorem tickFailed_withPlan (c : Cfg) (p : Nat) (kind : TickKind) (a : Act) :
    tickFailed c p kind (a.withPlan plan) = (tickFailed c p kind a).withPlan plan := by
  let counted := a.setSlot { a.link.slot with failRun := a.link.slot.failRun + 1 }
  rw [tickFailed, tickFailed, apply_ite (Act.withPlan plan)]
  change (if restartDue c kind _ then restartPulse p (pause p (counted.withPlan plan)) else _) = _
  rw [pause_withPlan]
  rfl

/-- What a tick does along the rest of a plan does not depend on the plan in the configuration. -/
theorem commandTick_withPlan (c : Cfg) (p : Nat) (rest : List TxBuf) (a : Act) :
    commandTick c p rest (a.withPlan plan) = (commandTick c p rest a).map (Act.withPlan plan) := by
  induction rest generalizing a with
  | nil => rfl
  | cons b rest ih =>
    unfold commandTick
    rw [transact_withPlan, Act.withPlan_slot, ih]
    split
    · rfl
    · cases transact c p b a with
      | error e => rfl
      | ok x =>
        obtain ⟨ok, a1⟩ := x
        cases ok with
        | true => exact ih a1
        | false => exact congrArg Except.ok (tickFailed_withPlan plan c p .command a1)

end

end Machine
end Sys2Proof
end

section
/-! PROOFS. The command tick as its operations (R228, R230): a buffer is prepared, transferred and validated, and the first failure
ends the tick. -/

namespace Sys2Proof
namespace Machine

/-! ## The fill as encode operations (R228) -/

/-- The operation that encodes a command encodes the value of its declared type. -/
theorem exec_encodeCommand (c : Cfg) (b : TxBuf) (n j : Nat) (id : Id) (w : Word32) (s : State) :
    exec (encodeCommand c b n j id w) s = encodeInto b n (9 * j) id (valueOfPattern (vtype c.vtypes id) w) s := by
  unfold encodeCommand
  cases vtype c.vtypes id <;> rfl

section
variable {s : State} {n : Nat} {l : Link} {b : TxBuf} {off : Nat} {id : Id} {v : Value}

theorem encodeInto_of_ok {m : Memory} (hl : s.links[n]? = some l)
    (h : encodeFrame (txBufName b n) s.cfg.byteOrder off id (valueBytesOf s.cfg.byteOrder v) (txBufMem b l.slot) = .ok m) :
    encodeInto b n off id v s = .next (s.withLink n { l with slot := setTxBuf b m l.slot } s.effects .none) :=
  onLink_next (a := (⟨l, s.effects⟩ : Act).setSlot (setTxBuf b m l.slot)) hl (by simp only [h])

theorem encodeInto_of_error {e : Fault} (hl : s.links[n]? = some l)
    (h : encodeFrame (txBufName b n) s.cfg.byteOrder off id (valueBytesOf s.cfg.byteOrder v) (txBufMem b l.slot) = .error e) :
    encodeInto b n off id v s = .fault e :=
  onLink_fault hl (by simp only [h])

end

/-- An operation on the link of `a` answers the link and the effects of `b`, or faults, as the operations do on link `n` of `s`. -/
inductive SameOutcome (n : Nat) (s : State) (is : List Instr) (o : Except Fault Act) (s0 : State) : Prop where
  | next (b : Act) (r : Result) (ho : o = .ok b) (hs : execAll is s0 = .next (s.withLink n b.link b.fx r))
  | fault (e : Fault) (ho : o = .error e) (hs : execAll is s0 = .fault e)

theorem SameOutcome.of_fault {n : Nat} {s s0 : State} {is : List Instr} {o : Except Fault Act} {e : Fault}
    (h : SameOutcome n s is o s0) (hs : execAll is s0 = .fault e) : o = .error e := by
  cases h with
  | next b r ho hs' => cases hs'.symm.trans hs
  | fault e' ho hs' =>
    cases hs'.symm.trans hs
    exact ho

theorem SameOutcome.of_next {n : Nat} {s s0 f : State} {is : List Instr} {o : Except Fault Act} {l m : Link}
    (h : SameOutcome n s is o s0) (hl : s.links[n]? = some l) (hs : execAll is s0 = .next f) (hm : f.links[n]? = some m) :
    ∃ b r, o = .ok b ∧ f = s.withLink n b.link b.fx r ∧ m = b.link := by
  cases h with
  | fault e ho hs' => cases hs'.symm.trans hs
  | next b r ho hs' =>
    cases hs'.symm.trans hs
    cases Option.some.inj ((State.withLink_links_self hl ..).symm.trans hm)
    exact ⟨_, _, ho, rfl, rfl⟩

/-- The fill is its encode operations, on a link from which the supplied values have been taken. -/
theorem fillPush_sameOutcome {n j : Nat} {ids : List Id} {a : Act} {s : State}
    (hl : s.links[n]? = some (a.setEnv (supplied n ids.length a.link.env).2).link) (hfx : s.effects = a.fx) :
    SameOutcome n s (fillOps s.cfg n j ids (supplied n ids.length a.link.env).1) (fillPush s.cfg n j ids a) s := by
  induction ids generalizing j a s with
  | nil =>
    have hself : s.links[n]? = some a.link := hl
    refine .next a s.result rfl ?_
    rw [← hfx, State.withLink_self hself]
    rfl
  | cons id rest ih =>
    let w := (a.link.env.pushValue n).1
    let env := (supplied n (rest.length + 1) a.link.env).2
    have hops : fillOps s.cfg n j (id :: rest) (supplied n (rest.length + 1) a.link.env).1 =
        encodeCommand s.cfg .push n j id w ::
          fillOps s.cfg n (j + 1) rest (supplied n rest.length (a.link.env.pushValue n).2).1 := rfl
    rw [List.length_cons, hops]
    cases hencode : encodeFrame (.push n) s.cfg.byteOrder (9 * j) id
        (valueBytesOf s.cfg.byteOrder (valueOfPattern (vtype s.cfg.vtypes id) w)) a.link.slot.pushBuf with
    | error e =>
      have hexec := (exec_encodeCommand s.cfg .push n j id w s).trans (encodeInto_of_error (b := .push) hl hencode)
      exact .fault e (by simp only [fillPush, w] at hencode ⊢; rw [hencode]) (by simp only [execAll, hexec])
    | ok m =>
      let a1 := (a.setEnv (a.link.env.pushValue n).2).setSlot { a.link.slot with pushBuf := m }
      have hexec := (exec_encodeCommand s.cfg .push n j id w s).trans (encodeInto_of_ok (b := .push) hl hencode)
      have hfill : fillPush s.cfg n j (id :: rest) a = fillPush s.cfg n (j + 1) rest a1 := by
        simp only [fillPush, w] at hencode ⊢
        rw [hencode]
      rw [hfill]
      have hrest := ih (j := j + 1) (a := a1)
        (s := s.withLink n (a1.setEnv env).link s.effects .none) (State.withLink_links_self hl ..) hfx
      cases hrest with
      | next b r ho hs =>
        rw [State.withLink_withLink] at hs
        exact .next b r ho ((execAll_cons hexec _).trans hs)
      | fault e ho hs => exact .fault e ho ((execAll_cons hexec _).trans hs)

theorem prepareBuffer_sameOutcome {s : State} {n : Nat} {l : Link} (hl : s.links[n]? = some l) (b : TxBuf) :
    SameOutcome n s (prepareOps s.cfg n b l).1 (prepareBuffer s.cfg n b ⟨l, s.effects⟩)
      (s.withLink n { l with env := (prepareOps s.cfg n b l).2 } s.effects .none) := by
  cases b with
  | pull => exact .next ⟨l, s.effects⟩ .none rfl rfl
  | push =>
    have hfill := fillPush_sameOutcome (n := n) (j := 0) (ids := l.slotCfg.pushCmds) (a := ⟨l, s.effects⟩)
      (s := s.withLink n { l with env := (prepareOps s.cfg n .push l).2 } s.effects .none)
      (State.withLink_links_self hl ..) rfl
    cases hfill with
    | next d r ho hs =>
      rw [State.withLink_withLink] at hs
      exact .next d r ho hs
    | fault e ho hs => exact .fault e ho hs

/-- The preparation writes of the slot the push buffer alone. -/
theorem fillPush_slot {c : Cfg} {n j : Nat} {ids : List Id} {a d : Act} (h : fillPush c n j ids a = .ok d) :
    ∃ m, d.link.slot = { a.link.slot with pushBuf := m } := by
  induction ids generalizing j a with
  | nil =>
    cases h
    exact ⟨_, rfl⟩
  | cons id rest ih =>
    simp only [fillPush] at h
    split at h
    · cases h
    · obtain ⟨m, hm⟩ := ih h
      exact ⟨m, hm⟩

theorem prepareBuffer_slot {c : Cfg} {n : Nat} {b : TxBuf} {a d : Act} (h : prepareBuffer c n b a = .ok d) :
    ∃ m, d.link.slot = { a.link.slot with pushBuf := m } := by
  cases b with
  | push => exact fillPush_slot h
  | pull =>
    cases h
    exact ⟨_, rfl⟩

/-! ## The transaction as its operations (R191, R230) -/

/-- The transfer and the validation of a buffer that fits into the receive buffer are the operations of the transaction. -/
theorem transaction_performs {s : State} {n : Nat} {l : Link} (hl : s.links[n]? = some l) {d : Act} {m : Memory}
    (hrx : m.size ≤ d.link.slot.rxBuf.size) :
    ∃ x ok e, transfer n m.size (selectTx m d) = .ok x ∧ validateTxn s.cfg n (m.size / 9) x = .ok (ok, e) ∧
      execAll (commandTransaction n m.size d.link.env.turns)
          (s.withLink n { d.link.dropTurns (m.size + 1) with slot := { d.link.slot with tx := m } } d.fx .none) =
        .next (s.withLink n e.link e.fx (.txn ok)) ∧
      e.link.slot.failRun = d.link.slot.failRun ∧ (ok = true → e.link.slot.mSync = d.link.slot.mSync) := by
  obtain ⟨x, hx, hperforms, -⟩ := transfer_performs (n := n) (a := selectTx m d) (Nat.le_refl m.size) hrx
  obtain ⟨y, hslot⟩ := transfer_slot hx
  have hfits := Nat.mul_div_le m.size 9
  obtain ⟨ok, e, he, -⟩ := validateTxn_keeps (c := s.cfg) (n := n) (count := m.size / 9) (a := x)
    (by rw [hslot]; exact hfits) (by rw [transfer_rx_size hx]; exact hfits.trans hrx)
  have hvtxn : exec (.vTxn n (m.size / 9)) (s.withLink n x.link x.fx .none) = _ :=
    execVTxn_of_ok (State.withLink_links_self hl ..) he
  have hall := hperforms.execAll_quiet (quiet_transferOps _ _ _ _) hl
  refine ⟨x, ok, e, hx, he, ?_, ?_, ?_⟩
  · refine (execAll_append hall).trans ((execAll_cons hvtxn []).trans ?_)
    rw [State.withLink_withLink]
    rfl
  · rcases validateTxn_link he with ⟨-, hlink⟩ | ⟨-, hlink⟩
    · rw [hlink, hslot]
      rfl
    · rw [hlink, invalidate, Act.setSlot_slot, hslot]
      rfl
  · rintro rfl
    rcases validateTxn_link he with ⟨-, hlink⟩ | ⟨hok, -⟩
    · rw [hlink, hslot]
      rfl
    · cases hok

/-! ## Going on with the rest of the plan (R230) -/

theorem execTTick_fault {s : State} {n : Nat} {l : Link} {e : Fault} (hl : s.links[n]? = some l)
    (h : slotTick s.cfg n ⟨l, s.effects⟩ = .error e) : execTTick n s = .fault e :=
  onLink_fault hl (by simp only [h])

/-- If the tick of `s` comes to the rest of the plan on the link that stands in `u`, it ends as the tick of `u` with that rest as
its plan. -/
theorem tickGoesOn_of_commandTick {s : State} {n : Nat} {l : Link} {d : Act} {rest : List TxBuf} (r : Result)
    (hl : s.links[n]? = some l) (hm : d.link.slot.mSync = .synchronized) (hcfg : d.link.slotCfg = l.slotCfg)
    (htick : slotTick s.cfg n ⟨l, s.effects⟩ = commandTick s.cfg n rest d) :
    TickGoesOn n s (s.withLink n d.link d.fx r) l.slotCfg.tickPlan rest := by
  let v := s.withLink n (d.withPlan rest).link d.fx r
  have hv : (s.withLink n d.link d.fx r).withPlan n rest = v := by
    rw [State.withPlan_some rest (State.withLink_links_self hl ..)]
    exact State.withLink_withLink s n d.link _ d.fx d.fx r r
  have hvl : v.links[n]? = some (d.withPlan rest).link := State.withLink_links_self hl ..
  have htickv : slotTick v.cfg n ⟨(d.withPlan rest).link, v.effects⟩ =
      (commandTick s.cfg n rest d).map (Act.withPlan rest) := by
    rw [slotTick, if_neg (by rw [Act.withPlan_slot, hm]; nofun)]
    exact commandTick_withPlan rest s.cfg n rest d
  rw [TickGoesOn, hv]
  cases hrest : commandTick s.cfg n rest d with
  | error e =>
    rw [hrest] at htick htickv
    have hexec : exec (.tTick n) s = _ := execTTick_fault hl htick
    have hexecv : exec (.tTick n) v = _ := execTTick_fault hvl htickv
    rw [hexec, hexecv]
    exact ⟨nofun, fun e' he' => he'⟩
  | ok e =>
    rw [hrest] at htick htickv
    have hexec : exec (.tTick n) s = _ := execTTick_next hl htick
    have hexecv : exec (.tTick n) v = _ := execTTick_next hvl htickv
    have hplan : e.withPlan l.slotCfg.tickPlan = e := by
      have htables := congrArg Prod.fst (tables_commandTick hrest)
      rw [Act.withPlan, show e.link.slotCfg = l.slotCfg from htables.trans hcfg]
      obtain ⟨⟨sc, rc, t, r, env⟩, fx⟩ := e
      cases htables.trans hcfg
      rfl
    rw [hexec, hexecv]
    refine ⟨fun t ht => ?_, nofun⟩
    cases ht
    rw [State.withPlan_some _ (State.withLink_links_self hvl ..)]
    have hback : e.link = ((e.withPlan rest).withPlan l.slotCfg.tickPlan).link := congrArg Act.link hplan.symm
    rw [hback]
    simp only [State.withLink, v, List.set_set]
    rfl

/-! ## The clauses of a command tick (R230) -/

theorem slotTick_of_synchronized {c : Cfg} {n : Nat} {a : Act} (h : a.link.slot.mSync = .synchronized) :
    slotTick c n a = commandTick c n a.link.slotCfg.tickPlan a := by
  rw [slotTick, if_neg (by rw [h]; nofun)]

section
variable {c : Cfg} {n : Nat} {b : TxBuf} {rest : List TxBuf} {a d : Act} {e : Fault}

theorem commandTick_of_empty (h : (txBufMem b a.link.slot).size = 0) :
    commandTick c n (b :: rest) a = commandTick c n rest a := by
  rw [commandTick, if_pos h]

theorem commandTick_of_fault (hsize : (txBufMem b a.link.slot).size ≠ 0) (h : transact c n b a = .error e) :
    commandTick c n (b :: rest) a = .error e := by
  rw [commandTick, if_neg hsize, h]

theorem commandTick_of_pass (hsize : (txBufMem b a.link.slot).size ≠ 0) (h : transact c n b a = .ok (true, d)) :
    commandTick c n (b :: rest) a = commandTick c n rest d := by
  rw [commandTick, if_neg hsize, h]

theorem commandTick_of_fail (hsize : (txBufMem b a.link.slot).size ≠ 0) (h : transact c n b a = .ok (false, d)) :
    commandTick c n (b :: rest) a = .ok (tickFailed c n .command d) := by
  rw [commandTick, if_neg hsize, h]

/-- A transfer of the whole selected buffer into a receive buffer that is too short faults there. -/
theorem transfer_of_short_rx {m : Memory} (h : a.link.slot.rxBuf.size < m.size) :
    transfer n m.size (selectTx m a) = .error (.precondition (.rx n) 0 m.size) := by
  have htx : checkBounds (.tx n) (selectTx m a).link.slot.tx 0 m.size = .ok () := checkBounds_ok (by simp [selectTx])
  have hrx : checkBounds (.rx n) (selectTx m a).link.slot.rxBuf 0 m.size = .error (.precondition (.rx n) 0 m.size) :=
    checkBounds_error (by simp only [selectTx, Act.setSlot_slot]; omega)
  simp only [transfer, htx, hrx]

theorem transact_of_prepared (h : prepareBuffer c n b a = .ok d) {x : Act} {o : Except Fault (Bool × Act)}
    (hx : transfer n (txBufMem b d.link.slot).size (selectTx (txBufMem b d.link.slot) d) = .ok x)
    (ho : validateTxn c n ((txBufMem b d.link.slot).size / 9) x = o) : transact c n b a = o := by
  simp only [transact, h, hx, ho]

theorem transact_of_unprepared (h : prepareBuffer c n b a = .error e) : transact c n b a = .error e := by
  simp only [transact, h]

theorem transact_of_transfer_fault (h : prepareBuffer c n b a = .ok d)
    (hx : transfer n (txBufMem b d.link.slot).size (selectTx (txBufMem b d.link.slot) d) = .error e) :
    transact c n b a = .error e := by
  simp only [transact, h, hx]

end

/-- A transaction that runs to its end fits into the receive buffer. -/
theorem rx_size_of_commandTransaction {n len : Nat} {turns : List (List Turn)} {l : Link} {s t : State}
    (hl : s.links[n]? = some l) (h : execAll (commandTransaction n len turns) s = .next t) : len ≤ l.slot.rxBuf.size := by
  obtain ⟨u, htransfer, -⟩ := execAll_append_cases h
  cases len with
  | zero => exact Nat.zero_le _
  | succ len =>
    have := rx_size_of_execAll_transferOps hl htransfer
    omega

section
variable {s : State} {n : Nat} {l : Link} {b : TxBuf} {rest : List TxBuf}

/-- The transaction that the tick of `s` performs first, after the preparation has answered `d`: its operations, run from the
prepared state, and the tick's result for either verdict. -/
theorem tick_after_transaction (hl : s.links[n]? = some l) (hsync : l.slot.mSync = .synchronized)
    (hplan : l.slotCfg.tickPlan = b :: rest) (hsize : (txBufMem b l.slot).size ≠ 0) {d : Act}
    (hprepare : prepareBuffer s.cfg n b ⟨l, s.effects⟩ = .ok d) {u : State} {l' : Link}
    (hrun : execAll (commandTransaction n (txBufMem b d.link.slot).size d.link.env.turns)
      (s.withLink n { d.link.dropTurns ((txBufMem b d.link.slot).size + 1) with
        slot := { d.link.slot with tx := txBufMem b d.link.slot } } d.fx .none) = .next u)
    (hl' : u.links[n]? = some l') :
    (u.result = .txn true → TickGoesOn n s u (b :: rest) rest) ∧
    (u.result = .txn false →
      exec (.tTick n) s =
        if restartDue s.cfg .command (l.slot.failRun + 1) then
          execAll (turnOps n (l'.env.turns.headD []) ++ [.tRestart n])
            (u.withLink n { l'.dropTurns 1 with slot := { l'.slot with failRun := l.slot.failRun + 1 } } u.effects .none)
        else .next (u.withLink n { l' with slot := { l'.slot with failRun := l.slot.failRun + 1 } } u.effects .none)) := by
  have hfits := rx_size_of_commandTransaction (State.withLink_links_self hl ..) hrun
  obtain ⟨x, ok, e, htransfer, hvalidate, hall, hfail, hkept⟩ := transaction_performs hl (d := d) hfits
  obtain ⟨_, hslot⟩ := prepareBuffer_slot hprepare
  have htransact := transact_of_prepared hprepare htransfer hvalidate
  have htick : slotTick s.cfg n ⟨l, s.effects⟩ = commandTick s.cfg n (b :: rest) ⟨l, s.effects⟩ := by
    rw [← hplan]
    exact slotTick_of_synchronized hsync
  cases hall.symm.trans hrun
  cases Option.some.inj ((State.withLink_links_self hl ..).symm.trans hl')
  refine ⟨fun hpass => ?pass, fun hno => ?fail⟩
  case pass =>
    cases Result.txn.inj hpass
    rw [← hplan]
    refine tickGoesOn_of_commandTick _ hl ?_ (congrArg Prod.fst (tables_transact htransact))
      (htick.trans (commandTick_of_pass hsize htransact))
    rw [hkept rfl, hslot]
    exact hsync
  case fail =>
    cases Result.txn.inj hno
    have hnext : exec (.tTick n) s = _ := execTTick_next hl (htick.trans (commandTick_of_fail hsize htransact))
    have hfailed := tickFailed_ops hl s.cfg .command e
    rw [hfail, hslot] at hfailed
    rw [State.withLink_withLink, State.withLink_withLink]
    exact hnext.trans hfailed

end

/-- Settles O46: a fault or a pass of the preparation decides the fill's clauses, and the transaction after it decides the rest. -/
theorem failedTransactionEndsTick : Obligations.FailedTransactionEndsTick := by
  intro s n l hl hsync
  have htick : slotTick s.cfg n ⟨l, s.effects⟩ = commandTick s.cfg n l.slotCfg.tickPlan ⟨l, s.effects⟩ :=
    slotTick_of_synchronized hsync
  refine ⟨fun hnil => ?empty, fun b rest hplan => ⟨fun hsize => ?skipped, fun e hsize hfill => ?unprepared,
    fun f m hsize hfill hm hshort => ?short, fun f u m l' hsize hfill hm hrun hl' => ?transaction⟩⟩
  case empty =>
    rw [hnil] at htick
    exact execTTick_next hl htick
  case skipped =>
    rw [hplan] at htick
    have hgoes := tickGoesOn_of_commandTick s.result hl (d := ⟨l, s.effects⟩) hsync rfl
      (htick.trans (commandTick_of_empty hsize))
    rwa [State.withLink_self hl, hplan] at hgoes
  case unprepared =>
    rw [hplan] at htick
    have ho := (prepareBuffer_sameOutcome hl b).of_fault hfill
    exact execTTick_fault hl (htick.trans (commandTick_of_fault hsize (transact_of_unprepared ho)))
  case short =>
    obtain ⟨d, r, ho, rfl, rfl⟩ := (prepareBuffer_sameOutcome hl b).of_next hl hfill hm
    rw [hplan] at htick
    exact execTTick_fault hl
      (htick.trans (commandTick_of_fault hsize (transact_of_transfer_fault ho (transfer_of_short_rx hshort))))
  case transaction =>
    obtain ⟨d, r, ho, rfl, rfl⟩ := (prepareBuffer_sameOutcome hl b).of_next hl hfill hm
    rw [State.withLink_withLink] at hrun
    exact tick_after_transaction hl hsync hplan hsize ho hrun hl'

end Machine
end Sys2Proof
end

section
/-! PROOFS. `RESET`, and the boot that follows it (R228, R281 to R283). -/

namespace Sys2Proof
namespace Machine

/-! ## The reset of the links (R281) -/

theorem length_resetLinks (c : Cfg) (n : Nat) (ls : List Link) : (resetLinks c n ls).length = ls.length := by
  induction ls generalizing n with
  | nil => rfl
  | cons l rest ih => exact congrArg (· + 1) (ih (n + 1))

theorem getElem?_resetLinks {c : Cfg} {n i : Nat} {ls : List Link} {l : Link} (h : ls[i]? = some l) :
    (resetLinks c n ls)[i]? = some (resetLink c (n + i) l) := by
  induction ls generalizing n i with
  | nil => cases h
  | cons l' rest ih =>
    cases i with
    | zero =>
      cases h
      rfl
    | succ i =>
      have hrest := ih (n := n + 1) h
      rwa [Nat.add_assoc, Nat.add_comm 1] at hrest

/-! ## A run in parts -/

theorem run_add_of_run {k : Nat} {s t : State} (h : Host.Core.run Sys2Proof.core k s = .next t) (m : Nat) :
    Host.Core.run Sys2Proof.core (k + m) s = Host.Core.run Sys2Proof.core m t := by
  induction k generalizing s with
  | zero =>
    cases h
    rw [Nat.zero_add]
  | succ k ih =>
    rw [Nat.add_right_comm]
    cases hstep : step s with
    | next u =>
      rw [run_succ_of_step hstep] at h ⊢
      exact ih h
    | fault e => simp [Host.Core.run, Sys2Proof.core, hstep] at h
    | refused e => simp [Host.Core.run, Sys2Proof.core, hstep] at h

/-! ## A frame of the boot (R228) -/

/-- The nine bytes of a frame with value 0, as the boot encodes it. -/
def bootFrame (o : ByteOrder) (id : Id) : List Byte := bytes16 o id ++ [0x00, 0x00, 0x00, 0x00, 0xFF, 0xFF, 0xFF]

/-- The first `j` commands of a buffer are encoded with value 0; behind them the buffer is as the reset left it. -/
structure BootedTo (o : ByteOrder) (ids : List Id) (j : Nat) (m : Memory) : Prop where
  size : m.size = 9 * ids.length
  frames : ∀ (k : Nat) (h : k < ids.length), k < j → m.Holds (9 * k) (bootFrame o ids[k])
  blank : ∀ x, 9 * j ≤ x → m.read x = 0x00

theorem bootedTo_zero (o : ByteOrder) (ids : List Id) : BootedTo o ids 0 (Memory.zero (9 * ids.length)) :=
  ⟨rfl, fun _ _ => nofun, fun _ _ => rfl⟩

/-- The bytes of the value 0 are zeros in every type and in either order. -/
theorem read_valueBytesOf_zero {o : ByteOrder} {t : ValueType} {i : Nat}
    (h : i < (valueBytesOf o (valueOfPattern t 0)).length) : (valueBytesOf o (valueOfPattern t 0))[i] = 0x00 := by
  have hzero : ∀ b ∈ valueBytesOf o (valueOfPattern t 0), b = 0x00 := by cases t <;> cases o <;> decide
  exact hzero _ (List.getElem_mem h)

/-- The bytes that a value shorter than the field does not reach are zeros of the reset. -/
theorem FrameWritten.holds_bootFrame {o : ByteOrder} {off : Nat} {id : Id} {t : ValueType} {m m' : Memory}
    (h : FrameWritten o off id (valueBytesOf o (valueOfPattern t 0)) m m') (hblank : ∀ x, off ≤ x → m.read x = 0x00) :
    m'.Holds off (bootFrame o id) := by
  have hvalue : m'.Holds (off + 2) [0x00, 0x00, 0x00, 0x00] := by
    intro i hi
    have hi4 : i < 4 := hi
    have hzero : [0x00, 0x00, 0x00, (0x00 : Byte)][i] = 0x00 := List.eq_of_mem_replicate (n := 4) (List.getElem_mem hi)
    rw [hzero]
    by_cases hv : i < (valueBytesOf o (valueOfPattern t 0)).length
    · rw [h.value i hv, read_valueBytesOf_zero hv]
    · rw [h.unwritten (off + 2 + i) (by omega) (by omega)]
      exact hblank _ (by omega)
  have hrest : m'.Holds (off + 2) ([0x00, 0x00, 0x00, 0x00] ++ [0xFF, 0xFF, 0xFF]) := Memory.holds_append.mpr ⟨hvalue, h.constants⟩
  exact Memory.holds_append.mpr ⟨h.id, by rw [length_bytes16]; exact hrest⟩

theorem BootedTo.succ {o : ByteOrder} {ids : List Id} {j : Nat} {t : ValueType} {m m' : Memory} (h : BootedTo o ids j m)
    (hj : j < ids.length) (hw : FrameWritten o (9 * j) ids[j] (valueBytesOf o (valueOfPattern t 0)) m m') :
    BootedTo o ids (j + 1) m' where
  size := hw.outside.left.trans h.size
  frames k hk hkj := by
    rcases Nat.lt_succ_iff_lt_or_eq.mp hkj with hlt | rfl
    · refine (h.frames k hk hlt).sameOutside hw.outside (.inl ?_)
      simp only [bootFrame, List.length_append, length_bytes16, List.length_cons, List.length_nil]
      omega
    · exact hw.holds_bootFrame h.blank
  blank x hx := by
    rw [hw.outside.right x (.inr (by omega))]
    exact h.blank x (by omega)

/-! ## The run of the boot -/

/-- A link whose pull buffer is `m`. -/
def Link.withPullBuf (l : Link) (m : Memory) : Link := { l with slot := { l.slot with pullBuf := m } }

/-- One event of the boot encodes one frame. -/
theorem step_bootEncode {s : State} {n j : Nat} {l : Link} {rest : List Event} (hl : s.links[n]? = some l)
    (he : s.events = .bootEncode n j :: rest) (hj : j < l.slotCfg.pullCmds.length)
    (hm : BootedTo s.cfg.byteOrder l.slotCfg.pullCmds j l.slot.pullBuf) :
    ∃ t m, step s = .next t ∧ t.events = rest ∧ t.cfg = s.cfg ∧ t.links = s.links.set n (l.withPullBuf m) ∧
      BootedTo s.cfg.byteOrder l.slotCfg.pullCmds (j + 1) m := by
  have hfetch : fetchEvent (.bootEncode n j) s = .run (encodeCommand s.cfg .pull n j l.slotCfg.pullCmds[j] 0) := by
    simp only [fetchEvent, hl, List.getElem?_eq_getElem hj]
  obtain ⟨m, hnext, hwritten⟩ := encodeInto_next (s := s.begin rest) (b := .pull) (off := 9 * j) (id := l.slotCfg.pullCmds[j])
    (v := valueOfPattern (vtype s.cfg.vtypes l.slotCfg.pullCmds[j]) 0) hl (by have := hm.size; simp only [txBufMem]; omega)
  exact ⟨_, m, (step_of_run he hfetch).trans ((exec_encodeCommand ..).trans hnext), rfl, rfl, rfl, hm.succ hj hwritten⟩

/-- The boot of one link, from its frame `j` on. -/
theorem run_bootLink {s : State} {n j k : Nat} {l : Link} {rest : List Event} (hl : s.links[n]? = some l)
    (he : s.events = (List.range' j k).map (.bootEncode n) ++ rest) (hk : j + k = l.slotCfg.pullCmds.length)
    (hm : BootedTo s.cfg.byteOrder l.slotCfg.pullCmds j l.slot.pullBuf) :
    ∃ t m, Host.Core.run Sys2Proof.core k s = .next t ∧ t.events = rest ∧ t.cfg = s.cfg ∧
      t.links = s.links.set n (l.withPullBuf m) ∧
      BootedTo s.cfg.byteOrder l.slotCfg.pullCmds l.slotCfg.pullCmds.length m := by
  induction k generalizing s j l with
  | zero =>
    cases hk
    refine ⟨s, l.slot.pullBuf, rfl, he, rfl, ?_, hm⟩
    obtain ⟨hn, rfl⟩ := List.getElem?_eq_some_iff.mp hl
    exact (List.set_getElem_self hn).symm
  | succ k ih =>
    obtain ⟨t, m, hstep, hevents, hcfg, hlinks, hm1⟩ := step_bootEncode hl he (by omega) hm
    have hlt : t.links[n]? = some (l.withPullBuf m) := by
      rw [hlinks, List.getElem?_set_self (List.getElem?_eq_some_iff.mp hl).choose]
    obtain ⟨u, m', hrun, hrest, hcfg', hlinks', hm'⟩ := ih hlt hevents (by rw [Nat.add_right_comm]; exact hk)
      (by rw [hcfg]; exact hm1)
    refine ⟨u, m', (run_succ_of_step hstep k).trans hrun, hrest, hcfg'.trans hcfg, ?_, hcfg ▸ hm'⟩
    rw [hlinks', hlinks, List.set_set]
    rfl

/-- The pull buffer of link `i` of `s` has the commands of `l`, the first `j l` of which the boot has encoded. -/
def State.LinkBooted (s : State) (i : Nat) (l : Link) (j : Nat) : Prop :=
  ∃ l', s.links[i]? = some l' ∧ l'.slotCfg = l.slotCfg ∧ BootedTo s.cfg.byteOrder l.slotCfg.pullCmds j l'.slot.pullBuf

theorem State.LinkBooted.congr {s t : State} {i j : Nat} {l : Link} (h : s.LinkBooted i l j) (hlinks : t.links[i]? = s.links[i]?)
    (hcfg : t.cfg = s.cfg) : t.LinkBooted i l j := by
  obtain ⟨l', hl', hslot, hm⟩ := h
  exact ⟨l', hlinks.trans hl', hslot, hcfg ▸ hm⟩

/-- The boot of the links from index `n` on, which are the configured ones of `ls` with a pull buffer as the reset leaves it. -/
theorem run_bootEvents {s : State} {n : Nat} {ls : List Link} {rest : List Event} (he : s.events = bootEvents n ls ++ rest)
    (hls : ∀ i l, ls[i]? = some l → s.LinkBooted (n + i) l 0) :
    ∃ u, Host.Core.run Sys2Proof.core (bootEvents n ls).length s = .next u ∧ u.events = rest ∧ u.cfg = s.cfg ∧
      (∀ i < n, u.links[i]? = s.links[i]?) ∧
      ∀ i l, ls[i]? = some l → u.LinkBooted (n + i) l l.slotCfg.pullCmds.length := by
  induction ls generalizing s n with
  | nil => exact ⟨s, rfl, he, rfl, fun _ _ => rfl, nofun⟩
  | cons l rest' ih =>
    obtain ⟨l', hl', hslot, hm⟩ := hls 0 l rfl
    rw [Nat.add_zero] at hl'
    rw [bootEvents, List.range_eq_range', List.append_assoc, ← hslot] at he
    obtain ⟨t, m, hrun, hevents, hcfg, hlinks, hm'⟩ := run_bootLink hl' he (Nat.zero_add _) (hslot ▸ hm)
    have hother : ∀ i, n ≠ i → t.links[i]? = s.links[i]? := fun i hi => by rw [hlinks, List.getElem?_set_ne hi]
    have hfirst : t.LinkBooted n l l.slotCfg.pullCmds.length := by
      refine ⟨l'.withPullBuf m, ?_, hslot, by rw [hcfg, ← hslot]; exact hm'⟩
      rw [hlinks, List.getElem?_set_self (List.getElem?_eq_some_iff.mp hl').choose]
    obtain ⟨u, hrunRest, heventsRest, hcfgRest, hbelow, hbooted⟩ := ih hevents fun i l2 hl2 => by
      refine State.LinkBooted.congr (s := s) ?_ (hother _ (by omega)) hcfg
      rw [Nat.add_right_comm, Nat.add_assoc]
      exact hls (i + 1) l2 hl2
    refine ⟨u, ?_, heventsRest, hcfgRest.trans hcfg, fun i hi => ?_, fun i l2 hl2 => ?_⟩
    · rw [bootEvents, List.length_append, List.length_map, List.length_range, ← hslot]
      exact (run_add_of_run hrun _).trans hrunRest
    · exact (hbelow i (by omega)).trans (hother i (by omega))
    · cases i with
      | zero =>
        cases hl2
        exact hfirst.congr (hbelow n (by omega)) hcfgRest
      | succ i =>
        have := hbooted i l2 hl2
        rwa [Nat.add_right_comm, Nat.add_assoc] at this

/-- Settles O53: the reset writes each link's registers, and the boot then encodes the pull frames link by link. -/
theorem resetRestoresResetValues : Obligations.ResetRestoresResetValues := by
  intro s
  refine ⟨fun _ => codeSelector_toBytes _, ?all, fun p l hl => ?responder⟩
  case all =>
    have hlink : ∀ (n : Nat) (l : Link), s.links[n]? = some l → (resetAll s).links[n]? = some (resetLink s.cfg n l) := by
      intro n l hl
      have := getElem?_resetLinks (c := s.cfg) (n := 0) hl
      rwa [Nat.zero_add] at this
    obtain ⟨u, hrun, hevents, hcfg, -, hbooted⟩ := run_bootEvents (s := resetAll s) (n := 0) (ls := s.links) rfl fun i l hl =>
      ⟨resetLink s.cfg i l, by rw [Nat.zero_add]; exact hlink i l hl, rfl, bootedTo_zero _ _⟩
    refine ⟨resetAll s, rfl, rfl, rfl, rfl, rfl, rfl, length_resetLinks .., fun n l hl => ?_, u, hrun, hevents, fun n l hl => ?_⟩
    · exact ⟨_, hlink n l hl, rfl, rfl, Responder.atReset_reset _ _, rfl, rfl, rfl, rfl, rfl, rfl⟩
    · obtain ⟨l', hl', -, hm⟩ := hbooted n l hl
      rw [Nat.zero_add] at hl'
      rw [hcfg] at hm
      exact ⟨l', hl', hm.size, fun j hj => hm.frames j hj hj⟩
  case responder =>
    have hnext : exec (.reset (.responder p)) s = _ :=
      onLink_next (f := fun a => .ok (.none, resetResponder p a)) hl rfl
    exact ⟨_, _, hnext, Responder.atReset_reset _ _⟩

end Machine
end Sys2Proof
end

section
/-! PROOFS. A frame that is sent, exchange by exchange (R65, R90), and the responder that stays unsynchronized while it is sent
(R202). -/

namespace Sys2Proof
namespace Machine

/-! ## What a transfer leaves as it is -/

/-- `a` has come from `a0` by exchanges and by the responder's own steps: they keep the configuration, and of the slot they write the
receive buffer alone. -/
structure Act.Continues (a0 a : Act) : Prop where
  slotCfg : a.link.slotCfg = a0.link.slotCfg
  respCfg : a.link.respCfg = a0.link.respCfg
  slot : a.link.slot = { a0.link.slot with rxBuf := a.link.slot.rxBuf }
  rxSize : a.link.slot.rxBuf.size = a0.link.slot.rxBuf.size

theorem Act.Continues.refl (a : Act) : a.Continues a := ⟨rfl, rfl, rfl, rfl⟩

section
variable {a0 a b : Act} (h : a0.Continues a)
include h

theorem Act.Continues.tx : a.link.slot.tx = a0.link.slot.tx := by rw [h.slot]

theorem Act.Continues.restartLine : a.link.slot.restartLine = a0.link.slot.restartLine := by rw [h.slot]

theorem Act.Continues.mSync : a.link.slot.mSync = a0.link.slot.mSync := by rw [h.slot]

theorem Act.Continues.dispatchFrame (p : Nat) : a0.Continues (dispatchFrame p a) := by
  constructor <;> rw [dispatchFrame_link]
  · exact h.slotCfg
  · exact h.respCfg
  · exact h.slot
  · exact h.rxSize

theorem Act.Continues.exchange {p i : Nat} (hx : exchange p i a = .ok b) : a0.Continues b := by
  obtain ⟨htx, hrx⟩ := exchange_cases hx
  obtain ⟨_, _, _, _, hframe⟩ := exchange_frame (s := p) htx hrx
  obtain ⟨m, hslot⟩ := exchange_slot hx
  obtain ⟨-, hsize⟩ := exchange_rx_size hx
  cases hx.symm.trans hframe
  exact ⟨h.slotCfg, h.respCfg, by rw [hslot, h.slot], hsize.trans h.rxSize⟩

end

/-! ## What every exchange and every dispatch keeps, a transfer keeps -/

section
variable {p n : Nat} {P : Nat → Act → Prop} (dispatch : ∀ i a, P i a → P i (dispatchFrame p a))
  (withTurns : ∀ i a turns, P i a → P i (a.withTurns turns))
include dispatch withTurns

/-- The exchanges below `n` on any bus, with the main loop's dispatches at their places. -/
theorem exchanges_induction {a0 a : Act} (htx : n ≤ a0.link.slot.tx.size) (hrx : n ≤ a0.link.slot.rxBuf.size)
    (xchg : ∀ i a b, i < n → a0.Continues a → P i a → exchange p i a = .ok b → P (i + 1) b)
    {len i : Nat} (hlen : i + len = n) (hturns : Powered a.link.env.turns) (hcont : a0.Continues a) (ha : P i a) :
    ∃ b, exchanges p len i a = .ok b ∧ a0.Continues b ∧ P n b := by
  have paused (i : Nat) (a : Act) (hturns : Powered a.link.env.turns) (hcont : a0.Continues a) (ha : P i a) :
      a0.Continues (pause p a) ∧ P i (pause p a) ∧ (pause p a).link.env.turns = a.link.env.turns.tail := by
    rw [pause_eq]
    obtain ⟨hc, hP⟩ := takeTurns_induction (p := p) (P := fun b => a0.Continues b ∧ P i b)
      (fun b ⟨hc, hP⟩ => ⟨hc.dispatchFrame p, dispatch i b hP⟩) (powered_head hturns) ⟨hcont, ha⟩
    exact ⟨⟨hc.slotCfg, hc.respCfg, hc.slot, hc.rxSize⟩, withTurns i _ _ hP, rfl⟩
  induction len generalizing i a with
  | zero =>
    cases hlen
    obtain ⟨hc, hP, -⟩ := paused _ a hturns hcont ha
    exact ⟨_, rfl, hc, hP⟩
  | succ len ih =>
    obtain ⟨hc, hP, htail⟩ := paused i a hturns hcont ha
    obtain ⟨_, _, _, _, hframe⟩ := exchange_frame (s := p) (i := i) (a := pause p a) (by rw [hc.tx]; omega)
      (by rw [hc.rxSize]; omega)
    obtain ⟨b, hb⟩ : ∃ b, exchange p i (pause p a) = .ok b := ⟨_, hframe⟩
    have hbturns : Powered b.link.env.turns := by
      rw [exchange_turns hb, htail]
      exact powered_tail hturns
    obtain ⟨d, hd, hdone⟩ := ih (i := i + 1) (by omega) hbturns (hc.exchange hb) (xchg i _ b (by omega) hc hP hb)
    refine ⟨d, ?_, hdone⟩
    rw [exchanges, hb]
    exact hd

variable {s : State} {l : Link} {w : List Byte}

/-- Nine bytes that are sent on any bus. -/
theorem sendNine_induction (hl : s.links[p]? = some l) (hturns : Powered l.env.turns) (hrx : 9 ≤ l.slot.rxBuf.size)
    (hw : w.length = 9)
    (xchg : ∀ i a b, i < 9 → (selectTx (Memory.ofBytes w) ⟨l, s.effects⟩).Continues a → P i a →
      exchange p i a = .ok b → P (i + 1) b)
    (start : P 0 (selectTx (Memory.ofBytes w) ⟨l, s.effects⟩)) :
    ∃ b, sendNine p w s = .next (s.withLink p b.link b.fx .none) ∧
      (selectTx (Memory.ofBytes w) ⟨l, s.effects⟩).Continues b ∧ P 9 b := by
  let a0 := selectTx (Memory.ofBytes w) ⟨l, s.effects⟩
  have htx : 9 ≤ a0.link.slot.tx.size := hw.ge
  obtain ⟨b, hb, hdone⟩ := exchanges_induction dispatch withTurns htx hrx xchg (Nat.zero_add 9) hturns (.refl a0) start
  refine ⟨b, sendNine_of_ok hl ?_, hdone⟩
  rw [transfer, checkBounds_ok (by rwa [Nat.zero_add]), checkBounds_ok (by rwa [Nat.zero_add])]
  exact hb

end

/-- An exchange that the bus leaves alone is that of the ideal bus. -/
theorem exchange_undisturbed {p i : Nat} {a b : Act} {e : Inputs} (h : exchange p i a = .ok b)
    (hr : a.link.slot.restartLine = false) (hd : a.link.env.disturbance = (Disturbance.ideal, e)) :
    b = idealExchange p i (a.setEnv e) := by
  obtain ⟨htx, hrx⟩ := exchange_cases h
  rw [exchange_eq htx hrx hr, hd] at h
  cases h
  exact (byteStep_setSlot p _ _ (a.setEnv e)).symm

section
variable {p : Nat} {P : Nat → Act → Prop} {s : State} {l : Link} {w : List Byte}

/-- Nine bytes that are sent on the ideal bus. -/
theorem sendNine_ideal_induction (dispatch : ∀ i a, P i a → P i (dispatchFrame p a))
    (withTurns : ∀ i a turns, P i a → P i (a.withTurns turns)) (hl : s.links[p]? = some l) (hu : l.Undisturbed)
    (hrx : 9 ≤ l.slot.rxBuf.size) (hw : w.length = 9)
    (xchg : ∀ i a, i < 9 → (selectTx (Memory.ofBytes w) ⟨l, s.effects⟩).Continues a → P i a → P (i + 1) (idealExchange p i a))
    (start : P 0 (selectTx (Memory.ofBytes w) ⟨l, s.effects⟩)) :
    ∃ b, sendNine p w s = .next (s.withLink p b.link b.fx .none) ∧
      (selectTx (Memory.ofBytes w) ⟨l, s.effects⟩).Continues b ∧ P 9 b := by
  obtain ⟨hbus, hline, hturns⟩ := hu
  obtain ⟨b, hb, hcont, -, hP⟩ := sendNine_induction (P := fun i a => a.link.env.bus = [] ∧ P i a)
    (fun i a ⟨hbus, hP⟩ => ⟨by rw [dispatchFrame_link]; exact hbus, dispatch i a hP⟩)
    (fun i a turns ⟨hbus, hP⟩ => ⟨hbus, withTurns i a turns hP⟩) hl hturns hrx hw
    (fun i a b hi hc ⟨hbus, hP⟩ hx => by
      have hideal := exchange_undisturbed hx (hc.restartLine.trans hline)
        (e := a.link.env) (by simp only [Inputs.disturbance, hbus])
      cases hideal
      exact ⟨(idealExchange_bus p i a).trans hbus, xchg i a hi hc hP⟩)
    ⟨hbus, start⟩
  exact ⟨b, hb, hcont, hP⟩

end

/-! ## A responder that stays unsynchronized (R202) -/

/-- The AckId and Sentinel bytes of a frame are `0xFF`. -/
theorem getD_frameBytes_of_ge (id : Pair) (v : Quad) {i : Nat} (h6 : 6 ≤ i) (h9 : i < 9) :
    (frameBytes id v).getD i 0 = 0xFF := by
  obtain rfl | rfl | rfl : i = 6 ∨ i = 7 ∨ i = 8 := by omega
  · rfl
  · rfl
  · rfl

/-- Where the frame stands before exchange `i` if the responder was unsynchronized when it began: it is so still, and to every
`0xFF` of the frame it has replied `0x00`; or it has finished a probe, and reads the rest of the frame as the start of one. -/
inductive Act.Unserved (i : Nat) (a : Act) : Prop where
  | waiting (hs : a.link.resp.sSync = .unsynchronized) (staged : 7 ≤ i → a.link.resp.txReg = 0x00)
      (received : ∀ k, 7 ≤ k → k < i → a.link.slot.rxBuf.read k = 0x00)
  | reading (hs : a.link.resp.sSync = .synchronized) (hpos : a.link.resp.framePos.val < i)

theorem Act.Unserved.dispatchFrame {i : Nat} {a : Act} (h : a.Unserved i) (p : Nat) : (dispatchFrame p a).Unserved i := by
  cases h with
  | waiting hs staged received =>
    refine .waiting ?_ ?_ ?_ <;> rw [dispatchFrame_link]
    · exact hs
    · exact staged
    · exact received
  | reading hs hpos =>
    refine .reading ?_ ?_ <;> rw [dispatchFrame_link]
    · exact hs
    · exact hpos

theorem Act.Unserved.withTurns {i : Nat} {a : Act} (h : a.Unserved i) (turns : List (List Turn)) :
    (a.withTurns turns).Unserved i := by
  cases h with
  | waiting hs staged received => exact .waiting hs staged received
  | reading hs hpos => exact .reading hs hpos

/-- The default START_SEQUENCE has its one `0xFF` at the end, so an unsynchronized responder drops a `0xFF`, or finishes a probe
with it (R143, R144, R153). -/
theorem byteStep_ff_unsynchronized {a : Act} (hs : a.link.resp.sSync = .unsynchronized)
    (hS : a.link.respCfg.startSeq = StartSeq.default) (p : Nat) : byteStep p 0xFF a = probeFinish a ∨ byteStep p 0xFF a = probeMiss a := by
  rw [byteStep_unsynchronized hs, hS]
  split
  · rename_i hmatch
    rw [if_pos (StartSeq.default_get_eq_last _ hmatch.symm)]
    exact .inl rfl
  · exact .inr rfl

/-- A byte keeps an unsynchronized responder so, or it finishes a probe. -/
theorem byteStep_unsynchronized_cases {a : Act} (hs : a.link.resp.sSync = .unsynchronized) (p : Nat) (rx : Byte) :
    byteStep p rx a = probeFinish a ∨ (byteStep p rx a).link.resp.sSync = .unsynchronized := by
  rw [byteStep_unsynchronized hs]
  split_ifs
  · exact .inl rfl
  · exact .inr hs
  · exact .inr hs

section
variable {a0 a : Act} {id : Pair} {v : Quad} {i p : Nat}

/-- The byte that exchange `i` of a frame brings the responder. -/
theorem Act.Continues.tx_read (hc : a0.Continues a) (h0 : a0.link.slot.tx = Memory.ofBytes (frameBytes id v)) :
    a.link.slot.tx.read i = (frameBytes id v).getD i 0 := by
  rw [hc.tx, h0, Memory.read_ofBytes]

theorem Act.Unserved.idealExchange (h : a.Unserved i) (hc : a0.Continues a) (hi : i < 9) (hinv : a.link.resp.Inv)
    (htx : a0.link.slot.tx = Memory.ofBytes (frameBytes id v)) (hrx : 9 ≤ a0.link.slot.rxBuf.size)
    (hS : a0.link.respCfg.startSeq = StartSeq.default) : (idealExchange p i a).Unserved (i + 1) := by
  have hread : a.link.slot.tx.read i = _ := hc.tx_read htx
  have hrx' : i < a.link.slot.rxBuf.size := by rw [hc.rxSize]; omega
  have hff : 6 ≤ i → a.link.slot.tx.read i = 0xFF := fun h6 => hread.trans (getD_frameBytes_of_ge id v h6 hi)
  have synced (hfinish : Machine.idealExchange p i a = probeFinish (a.receive i)) (hs : a.link.resp.sSync = .unsynchronized) :
      (Machine.idealExchange p i a).Unserved (i + 1) := by
    rw [hfinish]
    have hpos : a.link.resp.framePos = 0 := hinv.left hs
    exact .reading rfl (by rw [show (probeFinish (a.receive i)).link.resp.framePos = 0 from hpos]; exact Nat.succ_pos i)
  cases h with
  | waiting hs staged received =>
    have hreceived : ∀ k, 7 ≤ k → k < i + 1 → (Machine.idealExchange p i a).link.slot.rxBuf.read k = 0x00 := by
      intro k h7 hk
      rw [idealExchange_slot, Memory.read_write hrx']
      split
      · exact staged (by omega)
      · exact received k h7 (by omega)
    by_cases h6 : 6 ≤ i
    · rcases byteStep_ff_unsynchronized (a := a.receive i) hs (hc.respCfg ▸ hS) p with hfinish | hmiss
      · exact synced (by rw [Machine.idealExchange, hff h6, hfinish]) hs
      · have hxchg : Machine.idealExchange p i a = probeMiss (a.receive i) := by rw [Machine.idealExchange, hff h6, hmiss]
        exact .waiting (by rw [hxchg]; exact hs) (fun _ => by rw [hxchg]; rfl) hreceived
    · rcases byteStep_unsynchronized_cases (a := a.receive i) hs p (a.link.slot.tx.read i) with hfinish | hs'
      · exact synced hfinish hs
      · exact .waiting hs' (fun h7 => absurd h7 (by omega)) hreceived
  | reading hs hpos =>
    by_cases h6 : a.link.resp.framePos.val < 6
    · obtain ⟨hs', hpos'⟩ := idealExchange_reading hs h6 p i
      exact .reading hs' (by omega)
    · have hnext : (a.link.resp.framePos + 1).val = a.link.resp.framePos.val + 1 :=
        Fin.val_add_one_of_lt (Fin.lt_def.mpr (by simp; omega))
      have hack : Machine.idealExchange p i a = ackProbe (a.receive i) := by
        rw [Machine.idealExchange, hff (by omega), byteStep_synchronized (a := a.receive i) hs, Act.receive_resp,
          if_neg (by omega), if_neg (by omega), if_neg h6, if_pos (by omega), if_pos rfl]
      rw [hack]
      exact .reading hs (hnext.trans_lt (by omega))

end

/-- An echo of zeros is that of no valid id. -/
theorem frameVerdict_of_zero_echo {c : Cfg} {pullM : List Id} {e : Extracted} (h2 : e.rxId2 = 0) :
    (frameVerdict c pullM e).failed = true := by
  by_cases hid : e.txId1.toInt = -1 ∨ (e.rxId1 = e.txId1 ↔ e.rxId2 = e.txId1)
  · rw [frameVerdict_of_range hid]
    · rfl
    · rintro ⟨h1, hlow, -⟩
      have hne : e.txId1.toInt ≠ -1 := by omega
      have hzero := (hid.resolve_left hne).mp h1
      rw [← hzero, h2] at hlow
      exact absurd hlow (by decide)
  · obtain ⟨hne, hiff⟩ := not_or.mp hid
    rw [frameVerdict_of_mismatch hne (by tauto)]
    rfl

theorem idOf_zero (o : ByteOrder) : idOf o ⟨0x00, 0x00⟩ = 0 := by cases o <;> rfl

section
variable {s : State} {n : Nat} {l : Link} (hl : s.links[n]? = some l) (htx : 9 ≤ l.slot.tx.size) (hrx : 9 ≤ l.slot.rxBuf.size)
include hl htx hrx

/-- `V.TXN` on one frame slot that passes. -/
theorem execVTxn_one_passes {v : Verdict}
    (hv : frameVerdict s.cfg l.slotCfg.pullM (extract s.cfg.byteOrder l.slot.tx l.slot.rxBuf 0) = v) (hpass : v.failed = false) :
    execVTxn n 1 s = .next (s.withLink n l
      (s.effects ++ slotEffects s.cfg n l.slotCfg.pullM (extract s.cfg.byteOrder l.slot.tx l.slot.rxBuf 0)) (.txn true)) := by
  obtain ⟨ok, hok, hnext⟩ := execVTxn_next (count := 1) hl htx hrx
  obtain rfl : ok = true := hok.mpr fun k hk => by
    obtain rfl : k = 0 := by omega
    rw [hv, hpass]
  simpa using hnext

/-- `V.TXN` on one frame slot that fails. -/
theorem execVTxn_one_fails
    (hfail : (frameVerdict s.cfg l.slotCfg.pullM (extract s.cfg.byteOrder l.slot.tx l.slot.rxBuf 0)).failed = true) :
    ∃ fx, execVTxn n 1 s =
      .next (s.withLink n { l with slot := { l.slot with mSync := .unsynchronized } } fx (.txn false)) := by
  obtain ⟨ok, hok, hnext⟩ := execVTxn_next (count := 1) hl htx hrx
  obtain rfl : ok = false := by
    rw [← Bool.not_eq_true, hok]
    intro hpass
    cases hfail.symm.trans (hpass 0 Nat.one_pos)
  exact ⟨_, hnext⟩

end

/-- Settles O36: a synchronized responder would not leave the frame, and one that is not replies zeros to the AckId field. -/
theorem unsynchronizedResponderFailsFrame : Obligations.UnsynchronizedResponderFailsFrame := by
  intro s n l id v hl hu hs hinv hS hrx
  obtain ⟨b, hsent, hcont, hunserved, -⟩ := sendNine_ideal_induction (p := n) (w := frameBytes id v)
    (P := fun i a => a.Unserved i ∧ a.link.resp.Inv)
    (fun i a ⟨h, hinv⟩ => ⟨h.dispatchFrame n, by rw [dispatchFrame_link]; exact hinv⟩)
    (fun i a turns ⟨h, hinv⟩ => ⟨h.withTurns turns, hinv⟩) hl hu hrx rfl
    (fun i a hi hc ⟨h, hinv⟩ => ⟨h.idealExchange hc hi hinv rfl hrx hS, idealExchange_respInv hinv n i⟩)
    ⟨.waiting hs (by simp) (by simp), hinv⟩
  have hlb := State.withLink_links_self hl b.link b.fx .none
  refine ⟨_, b.link, hsent, hlb, fun hstays => ?_⟩
  cases hunserved with
  | reading hs' => cases hstays.symm.trans hs'
  | waiting _ _ received =>
    have hecho : (extract s.cfg.byteOrder b.link.slot.tx b.link.slot.rxBuf 0).rxId2 = 0 := by
      simp only [extract, Memory.pairAt]
      rw [received 7 (by decide) (by decide), received 8 (by decide) (by decide), idOf_zero]
    obtain ⟨fx, hnext⟩ := execVTxn_one_fails hlb (by rw [hcont.tx]; exact Nat.le_refl 9) (by rw [hcont.rxSize]; exact hrx)
      (frameVerdict_of_zero_echo hecho)
    exact ⟨_, _, hnext, rfl, State.withLink_links_self hlb .., rfl⟩

end Machine
end Sys2Proof
end

section
/-! PROOFS. A frame that an aligned responder reads, byte by byte (R90, R91, R162 to R176): what it stages, what it keeps, and what it
signals. -/

namespace Sys2Proof
namespace Machine

/-! ## Effects and signals (R175, R176) -/

theorem filter_deliveries (p : Nat) (c : RespCfg) (snaps : List Snapshot) :
    (deliveries p c snaps).filter Effect.isDelivery = deliveries p c snaps ∧
      (deliveries p c snaps).filter (fun e => !e.isDelivery) = [] := by
  have hall : ∀ e ∈ deliveries p c snaps, e.isDelivery = true := by
    intro e he
    obtain ⟨snap, -, hsnap⟩ := List.mem_flatMap.mp he
    split at hsnap
    · cases hsnap
    · cases List.mem_singleton.mp hsnap
      rfl
  exact ⟨List.filter_eq_self.mpr hall, List.filter_eq_nil_iff.mpr fun e he => by simp [hall e he]⟩

/-- Of the signals, the first ones have been dispatched and the others are pending; since the effects were `fx0`, the dispatches have
emitted their deliveries, and the byte steps `other`. -/
def Act.Signalled (p : Nat) (fx0 : List Effect) (signals : List Snapshot) (other : List Effect) (a : Act) : Prop :=
  ∃ fx done, a.fx = fx0 ++ fx ∧ fx.filter (fun e => !e.isDelivery) = other ∧
    fx.filter Effect.isDelivery = deliveries p a.link.respCfg done ∧ signals = done ++ a.link.resp.pending

theorem Act.signalled_start (p : Nat) (a : Act) : a.Signalled p a.fx a.link.resp.pending [] :=
  ⟨[], [], (List.append_nil _).symm, rfl, rfl, rfl⟩

section
variable {p : Nat} {fx0 other : List Effect} {signals : List Snapshot} {a : Act} (h : a.Signalled p fx0 signals other)
include h

theorem Act.Signalled.dispatchFrame : (dispatchFrame p a).Signalled p fx0 signals other := by
  obtain ⟨fx, done, hfx, hother, hdelivered, hsignals⟩ := h
  obtain ⟨hall, hnone⟩ := filter_deliveries p a.link.respCfg (a.link.resp.pending.take 1)
  rw [dispatchFrame_eq]
  refine ⟨fx ++ deliveries p a.link.respCfg (a.link.resp.pending.take 1), done ++ a.link.resp.pending.take 1, ?_, ?_, ?_, ?_⟩
  · rw [hfx, List.append_assoc]
  · rw [List.filter_append, hother, hnone, List.append_nil]
  · rw [List.filter_append, hdelivered, hall, deliveries_append]
  · rw [hsignals, List.append_assoc, List.take_append_drop]

/-- A byte step emits no delivery; it may signal. -/
theorem Act.Signalled.byteStep {b : Act} {es : List Effect} {snaps : List Snapshot} (hcfg : b.link.respCfg = a.link.respCfg)
    (hfx : b.fx = a.fx ++ es) (hes : ∀ e ∈ es, e.isDelivery = false)
    (hpending : b.link.resp.pending = a.link.resp.pending ++ snaps) : b.Signalled p fx0 (signals ++ snaps) (other ++ es) := by
  obtain ⟨fx, done, hfx0, hother, hdelivered, hsignals⟩ := h
  refine ⟨fx ++ es, done, ?_, ?_, ?_, ?_⟩
  · rw [hfx, hfx0, List.append_assoc]
  · rw [List.filter_append, hother, List.filter_eq_self.mpr fun e he => by simp [hes e he]]
  · rw [List.filter_append, hdelivered, List.filter_eq_nil_iff.mpr fun e he => by simp [hes e he], hcfg, List.append_nil]
  · rw [hpending, hsignals, List.append_assoc]

/-- A byte step that emits and signals nothing. -/
theorem Act.Signalled.quiet {b : Act} (hcfg : b.link.respCfg = a.link.respCfg) (hfx : b.fx = a.fx)
    (hpending : b.link.resp.pending = a.link.resp.pending) : b.Signalled p fx0 signals other := by
  have hb := h.byteStep (b := b) (es := []) (snaps := []) hcfg (by rw [hfx, List.append_nil]) (by simp)
    (by rw [hpending, List.append_nil])
  simpa using hb

/-- As the obligations state it, with the number of the signals that have been dispatched. -/
theorem Act.Signalled.exists_dispatched : ∃ fx k, a.fx = fx0 ++ fx ∧ fx.filter (fun e => !e.isDelivery) = other ∧
    fx.filter Effect.isDelivery = deliveries p a.link.respCfg (signals.take k) ∧
    a.link.resp.pending = signals.drop k := by
  obtain ⟨fx, done, hfx, hother, hdelivered, rfl⟩ := h
  exact ⟨fx, done.length, hfx, hother, by rw [List.take_left, hdelivered], List.drop_left.symm⟩

end

/-! ## The registers of the responder inside a frame (R162 to R173) -/

/-- Whether the responder's pull source claims the id of a frame (R164). -/
def claims (c : RespCfg) (id : Pair) : Bool := decide (idOf c.byteOrder id ∈ c.pullS)

/-- The value bytes that the responder of link `l` replies to a frame: the answer of the pull source, if it claims the id, and else
the bytes of the frame (R91, R164). -/
def Link.replyValue (p : Nat) (l : Link) (id : Pair) (v : Quad) : Quad :=
  if claims l.respCfg id then (l.env.pullAnswer p).1 else v

/-- The query that the responder makes for a frame (R164). -/
def pullQueries (p : Nat) (c : RespCfg) (id : Pair) : List Effect :=
  if claims c id then [.pullQuery p (idOf c.byteOrder id)] else []

theorem isDelivery_of_mem_pullQueries {p : Nat} {c : RespCfg} {id : Pair} {e : Effect} (h : e ∈ pullQueries p c id) :
    e.isDelivery = false := by
  unfold pullQueries at h
  split at h
  · cases List.mem_singleton.mp h
    rfl
  · cases h

/-- The responder stands at byte `pos` of a frame of id `id` to which it replies the value bytes `w`: `prev` was staged when the
frame began, and `pull` tells whether it has the value bytes from its pull source. -/
structure Responder.Reads (prev : Byte) (id : Pair) (w : Quad) (pull : Bool) (pos : Fin 9) (r : Responder) : Prop where
  sSync : r.sSync = .synchronized
  syncPos : r.syncPos = 0
  framePos : r.framePos = pos
  staged : r.txReg = (replyBytes prev id w id).getD pos.val 0x00
  id0 : 1 ≤ pos.val → r.idBytes.b0 = id.b0
  id1 : 2 ≤ pos.val → r.idBytes.b1 = id.b1
  isPull : 3 ≤ pos.val → r.isPull = pull
  value : 3 ≤ pos.val → ∀ j : Fin 4, (pull = true ∨ j.val + 3 ≤ pos.val) → quadGet r.valueBytes j.val = quadGet w j.val

theorem Quad.ext_quadGet {q q' : Quad} (h : ∀ j : Fin 4, quadGet q j.val = quadGet q' j.val) : q = q' := by
  obtain ⟨b0, b1, b2, b3⟩ := q
  obtain ⟨c0, c1, c2, c3⟩ := q'
  obtain rfl : b0 = c0 := h 0
  obtain rfl : b1 = c1 := h 1
  obtain rfl : b2 = c2 := h 2
  obtain rfl : b3 = c3 := h 3
  rfl

/-- At the last byte of a frame the responder holds all of it. -/
theorem Responder.Reads.eq_of_last {prev : Byte} {id : Pair} {w : Quad} {pull : Bool} {r : Responder}
    (h : r.Reads prev id w pull 8) : r.idBytes = id ∧ r.valueBytes = w ∧ r.isPull = pull := by
  refine ⟨?_, Quad.ext_quadGet fun j => h.value (by decide) j (.inr (show j.val + 3 ≤ 8 by omega)), h.isPull (by decide)⟩
  obtain ⟨b0, b1⟩ := id
  rw [← show r.idBytes.b0 = b0 from h.id0 (by decide), ← show r.idBytes.b1 = b1 from h.id1 (by decide)]

/-- A byte step at byte `pos` of a frame takes the responder to the next byte; at the selection it makes its query. -/
structure Act.ReadsByte (p : Nat) (prev : Byte) (id : Pair) (w : Quad) (pos : Fin 9) (a b : Act) : Prop where
  reads : b.link.resp.Reads prev id w (claims a.link.respCfg id) (pos + 1)
  fx : b.fx = a.fx ++ if pos = 2 then pullQueries p a.link.respCfg id else []
  pending : b.link.resp.pending = a.link.resp.pending
  env : pos.val < 2 → b.link.env = a.link.env

theorem quadGet_quadSet_ne {q : Quad} {i j : Fin 4} (h : j ≠ i) (y : Byte) :
    quadGet (quadSet q i.val y) j.val = quadGet q j.val := by
  revert h
  fin_cases i <;> fin_cases j <;> simp [quadGet, quadSet]

section
variable {prev : Byte} {id : Pair} {v w : Quad} {a : Act} (p : Nat)

/-- A byte step that writes the responder's registers alone. -/
theorem Act.readsByte_setResp {pos : Fin 9} {r : Responder} (h2 : pos ≠ 2)
    (reads : r.Reads prev id w (claims a.link.respCfg id) (pos + 1)) (hpending : r.pending = a.link.resp.pending) :
    a.ReadsByte p prev id w pos (a.setResp r) :=
  ⟨reads, by rw [if_neg h2, List.append_nil]; rfl, hpending, fun _ => rfl⟩

theorem byteStep_reads_id0 (h : a.link.resp.Reads prev id w (claims a.link.respCfg id) 0) :
    a.ReadsByte p prev id w 0 (byteStep p id.b0 a) := by
  have hframe := h.framePos
  rw [byteStep_synchronized h.sSync, if_pos (by rw [hframe]; decide), captureId_zero hframe]
  exact a.readsByte_setResp p (by decide) ⟨h.sSync, h.syncPos, rfl, rfl, fun _ => rfl, nofun, nofun, nofun⟩ rfl

theorem byteStep_reads_id1 (h : a.link.resp.Reads prev id w (claims a.link.respCfg id) 1) :
    a.ReadsByte p prev id w 1 (byteStep p id.b1 a) := by
  have hframe := h.framePos
  rw [byteStep_synchronized h.sSync, if_pos (by rw [hframe]; decide), captureId_one hframe]
  exact a.readsByte_setResp p (by decide)
    ⟨h.sSync, h.syncPos, rfl, rfl, fun _ => h.id0 (Nat.le_refl 1), fun _ => rfl, nofun, nofun⟩ rfl

/-- At position 2 the responder decides whether the frame is a pull (R164). -/
theorem byteStep_reads_sel (h : a.link.resp.Reads prev id w (claims a.link.respCfg id) 2)
    (hw : w = a.link.replyValue p id v) : a.ReadsByte p prev id w 2 (byteStep p v.b0 a) := by
  have hframe := h.framePos
  have hid : slaveId a.link.respCfg a.link.resp = idOf a.link.respCfg.byteOrder id := by
    rw [slaveId, idOf, idOf, h.id0 (by decide), h.id1 (by decide)]
  rw [byteStep_synchronized h.sSync, if_neg (by rw [hframe]; decide), if_pos (by rw [hframe]; rfl), selectValue, hid]
  by_cases hpull : idOf a.link.respCfg.byteOrder id ∈ a.link.respCfg.pullS
  · have hclaims : claims a.link.respCfg id = true := decide_eq_true hpull
    rw [Link.replyValue, if_pos hclaims] at hw
    rw [if_pos hpull, hw, selectPull, hid]
    refine ⟨?_, ?_, rfl, nofun⟩
    · rw [hclaims]
      exact ⟨h.sSync, h.syncPos, rfl, rfl, fun _ => h.id0 (by decide), fun _ => h.id1 (by decide), fun _ => rfl, fun _ _ _ => rfl⟩
    · rw [if_pos rfl, pullQueries, if_pos hclaims]
      rfl
  · have hclaims : claims a.link.respCfg id = false := decide_eq_false hpull
    rw [Link.replyValue, hclaims, if_neg (by decide)] at hw
    rw [if_neg hpull, hw]
    refine ⟨?_, ?_, rfl, nofun⟩
    · rw [hclaims]
      refine ⟨h.sSync, h.syncPos, rfl, rfl, fun _ => h.id0 (by decide), fun _ => h.id1 (by decide), fun _ => rfl, fun _ j hj => ?_⟩
      obtain rfl : j = 0 := Fin.ext (by have : j.val + 3 ≤ 3 := hj.resolve_left nofun; simp; omega)
      exact quadGet_set _ 0 v.b0
    · rw [if_pos rfl, pullQueries, hclaims, if_neg (by decide), List.append_nil]
      rfl

/-- Byte `i` of the Value field, at positions 3 to 5: a push is captured and echoed, of a pull the next byte is replied (R165). -/
theorem byteStep_reads_val {pos : Fin 9} {i : Fin 4} (hpos : pos.val = i.val + 2) (h3 : 3 ≤ pos.val)
    (h : a.link.resp.Reads prev id w (claims a.link.respCfg id) pos) (hpush : claims a.link.respCfg id = false → w = v) :
    a.ReadsByte p prev id w pos (byteStep p (quadGet v i.val) a) := by
  have hframe := h.framePos
  have hi := i.isLt
  have h2 : pos ≠ 2 := fun h => by rw [h] at h3; exact absurd h3 (by decide)
  have hnext : (pos + 1).val = pos.val + 1 := Fin.val_add_one_of_lt (Fin.lt_def.mpr (by simp; omega))
  have hstaged : quadGet w i.val = (replyBytes prev id w id).getD (pos + 1).val 0x00 := by
    rw [hnext, hpos]
    fin_cases i <;> rfl
  have hindex : a.link.resp.framePos.val - 2 = i.val := by rw [hframe]; omega
  rw [byteStep_synchronized h.sSync, hframe, if_neg (by omega), if_neg (by omega), if_pos (by omega)]
  cases hp : claims a.link.respCfg id with
  | true =>
    rw [furtherValue_pull ((h.isPull h3).trans hp), hindex, hframe]
    refine a.readsByte_setResp p h2 ?_ rfl
    exact ⟨h.sSync, h.syncPos, rfl, (h.value h3 i (.inl hp)).trans hstaged, fun _ => h.id0 (by omega),
      fun _ => h.id1 (by omega), fun _ => h.isPull h3, fun _ j _ => h.value h3 j (.inl hp)⟩
  | false =>
    obtain rfl := hpush hp
    rw [furtherValue_push ((h.isPull h3).trans hp), hindex, hframe]
    refine a.readsByte_setResp p h2 ⟨h.sSync, h.syncPos, rfl, hstaged, fun _ => h.id0 (by omega), fun _ => h.id1 (by omega),
      fun _ => h.isPull h3, fun _ j hj => ?_⟩ rfl
    have hj3 := hj.resolve_left (by simp [hp])
    by_cases hji : j = i
    · subst hji
      exact quadGet_set _ _ _
    · have hne : j.val ≠ i.val := fun h => hji (Fin.ext h)
      exact (quadGet_quadSet_ne hji _).trans (h.value h3 j (.inr (by omega)))

/-- The constant bytes of the AckId field are answered with the id (R173). -/
theorem byteStep_reads_ack {pos : Fin 9} (hpos : pos = 6 ∨ pos = 7)
    (h : a.link.resp.Reads prev id w (claims a.link.respCfg id) pos) : a.ReadsByte p prev id w pos (byteStep p 0xFF a) := by
  have hframe := h.framePos
  have hstep : byteStep p 0xFF a = ackProbe a := by
    rw [byteStep_synchronized h.sSync, hframe]
    obtain rfl | rfl := hpos <;> rfl
  rw [hstep]
  obtain rfl | rfl := hpos
  · rw [ackProbe_six hframe]
    exact a.readsByte_setResp p (by decide) ⟨h.sSync, h.syncPos, rfl, h.id0 (by decide), fun _ => h.id0 (by decide),
      fun _ => h.id1 (by decide), fun _ => h.isPull (by decide),
      fun _ j _ => h.value (by decide) j (.inr (show j.val + 3 ≤ 6 by omega))⟩ rfl
  · rw [ackProbe_seven hframe]
    exact a.readsByte_setResp p (by decide) ⟨h.sSync, h.syncPos, rfl, h.id1 (by decide), fun _ => h.id0 (by decide),
      fun _ => h.id1 (by decide), fun _ => h.isPull (by decide),
      fun _ j _ => h.value (by decide) j (.inr (show j.val + 3 ≤ 7 by omega))⟩ rfl

/-- Every byte of the frame but the last takes the responder to the next one. -/
theorem byteStep_readsByte {pos : Fin 9} (h8 : pos ≠ 8) (h : a.link.resp.Reads prev id w (claims a.link.respCfg id) pos)
    (hw : pos.val ≤ 2 → w = a.link.replyValue p id v) (hpush : claims a.link.respCfg id = false → w = v) :
    a.ReadsByte p prev id w pos (byteStep p ((frameBytes id v).getD pos.val 0) a) := by
  fin_cases pos
  · exact byteStep_reads_id0 p h
  · exact byteStep_reads_id1 p h
  · exact byteStep_reads_sel p h (hw (Nat.le_refl 2))
  · exact byteStep_reads_val (i := 1) p rfl (by decide) h hpush
  · exact byteStep_reads_val (i := 2) p rfl (by decide) h hpush
  · exact byteStep_reads_val (i := 3) p rfl (by decide) h hpush
  · exact byteStep_reads_ack p (.inl rfl) h
  · exact byteStep_reads_ack p (.inr rfl) h
  · exact absurd rfl h8

end

/-! ## The exchanges of a frame (R65, R91) -/

/-- The bytes that come back for a frame on link `l` (R91). -/
def Link.reply (p : Nat) (l : Link) (id : Pair) (v : Quad) : List Byte :=
  replyBytes l.resp.txReg id (l.replyValue p id v) id

/-- A transfer of a frame that has begun in `a0` stands before exchange `pos`: the responder has read so many bytes, and the initiator
has received so many bytes of the reply. -/
structure Act.Reading (a : Act) (p : Nat) (a0 : Act) (id : Pair) (v : Quad) (pos : Fin 9) : Prop where
  reads : a.link.resp.Reads a0.link.resp.txReg id (a0.link.replyValue p id v) (claims a0.link.respCfg id) pos
  env : pos.val ≤ 2 → a.link.env.answers = a0.link.env.answers ∧ a.link.env.draws = a0.link.env.draws
  received : a.link.slot.rxBuf.Holds 0 ((a0.link.reply p id v).take pos.val)
  signalled : a.Signalled p a0.fx a0.link.resp.pending (if 3 ≤ pos.val then pullQueries p a0.link.respCfg id else [])

theorem Act.reading_start {p : Nat} {a : Act} (hs : a.link.resp.sSync = .synchronized) (hsync : a.link.resp.syncPos = 0)
    (hframe : a.link.resp.framePos = 0) (id : Pair) (v : Quad) : a.Reading p a id v 0 where
  reads := ⟨hs, hsync, hframe, rfl, nofun, nofun, nofun, nofun⟩
  env _ := ⟨rfl, rfl⟩
  received := Memory.holds_nil _ _
  signalled := a.signalled_start p

/-- One more byte of a list that a memory holds from offset 0 on. -/
theorem Memory.Holds.write_next {m : Memory} {bs : List Byte} {i : Nat} (h : m.Holds 0 (bs.take i)) (hi : i < bs.length)
    (hm : i < m.size) : (m.write i (bs.getD i 0x00)).Holds 0 (bs.take (i + 1)) := by
  rw [List.take_add_one, List.getElem?_eq_getElem hi, Memory.holds_append]
  refine ⟨h.writeBytes (cs := [_]) (.inl (by simp)), ?_⟩
  simp [hi, hi.le, Memory.read_write (m := m) (a := i) hm]

/-- The value of a pull depends of the environment on the next answer alone. -/
theorem Link.replyValue_congr {p : Nat} {l l' : Link} (hcfg : l'.respCfg = l.respCfg) (hanswers : l'.env.answers = l.env.answers)
    (hdraws : l'.env.draws = l.env.draws) (id : Pair) (v : Quad) : l'.replyValue p id v = l.replyValue p id v := by
  have hanswer : (l'.env.pullAnswer p).1 = (l.env.pullAnswer p).1 := by
    unfold Inputs.pullAnswer Inputs.freeQuad
    rw [hanswers, hdraws]
    cases l.env.answers <;> rfl
  rw [Link.replyValue, Link.replyValue, hcfg, hanswer]

section
variable {p : Nat} {a0 a : Act} {id : Pair} {v : Quad} {pos : Fin 9} (h : a.Reading p a0 id v pos)
include h

theorem Act.Reading.dispatchFrame : (dispatchFrame p a).Reading p a0 id v pos := by
  obtain ⟨⟨sSync, syncPos, framePos, staged, id0, id1, isPull, value⟩, env, received, signalled⟩ := h
  refine ⟨?_, ?_, ?_, signalled.dispatchFrame⟩ <;> rw [dispatchFrame_link]
  · exact ⟨sSync, syncPos, framePos, staged, id0, id1, isPull, value⟩
  · exact env
  · exact received

/-- What the bus and the main loop will do does not matter to the responder. -/
theorem Act.Reading.schedule (bus : List Disturbance) (turns : List (List Turn)) : (a.schedule bus turns).Reading p a0 id v pos :=
  ⟨h.reads, h.env, h.received, h.signalled⟩

/-- The bytes received so far and the one that is staged. -/
theorem Act.Reading.receive (hc : a0.Continues a) (hrx : 9 ≤ a0.link.slot.rxBuf.size) :
    (a.receive pos).link.slot.rxBuf.Holds 0 ((a0.link.reply p id v).take (pos.val + 1)) := by
  have hstaged : a.link.resp.txReg = (a0.link.reply p id v).getD pos.val 0x00 := h.reads.staged
  have hsize := hc.rxSize
  have hpos := pos.isLt
  rw [Act.receive, Act.setSlot_slot, hstaged]
  exact h.received.write_next pos.isLt (by omega)

/-- The exchange of a byte before the last. -/
theorem Act.Reading.idealExchange (h8 : pos ≠ 8) (hc : a0.Continues a)
    (htx : a0.link.slot.tx = Memory.ofBytes (frameBytes id v)) (hrx : 9 ≤ a0.link.slot.rxBuf.size) :
    (idealExchange p pos.val a).Reading p a0 id v (pos + 1) := by
  have hnext : (pos + 1).val = pos.val + 1 := Fin.val_add_one_of_lt (Fin.lt_last_iff_ne_last.mpr h8)
  have hcfg := hc.respCfg
  have hstep : (a.receive pos).ReadsByte p a0.link.resp.txReg id (a0.link.replyValue p id v) pos (Machine.idealExchange p pos.val a) := by
    rw [Machine.idealExchange, hc.tx_read htx]
    refine byteStep_readsByte p h8 (hcfg ▸ h.reads) (fun h2 => ?_) (fun hpush => ?_)
    · obtain ⟨hanswers, hdraws⟩ := h.env h2
      exact (Link.replyValue_congr (l' := (a.receive pos).link) hcfg hanswers hdraws id v).symm
    · rw [Act.receive_respCfg, hcfg] at hpush
      rw [Link.replyValue, hpush]
      rfl
  have hreads := hstep.reads
  have hfx := hstep.fx
  rw [Act.receive_respCfg, hcfg] at hreads hfx
  refine ⟨hreads, fun h2 => ?env, ?received, ?signalled⟩
  case env =>
    rw [hstep.env (by omega)]
    exact h.env (by omega)
  case received =>
    rw [Machine.idealExchange, byteStep_slot, hnext]
    exact h.receive hc hrx
  case signalled =>
    have hqueries : (if 3 ≤ (pos + 1).val then pullQueries p a0.link.respCfg id else []) =
        (if 3 ≤ pos.val then pullQueries p a0.link.respCfg id else []) ++
          if pos = 2 then pullQueries p a0.link.respCfg id else [] := by
      rw [hnext]
      by_cases h2 : pos = 2
      · subst h2
        rfl
      · have h2' : pos.val ≠ 2 := fun h => h2 (Fin.ext h)
        have hiff : 3 ≤ pos.val + 1 ↔ 3 ≤ pos.val := by omega
        simp only [if_neg h2, List.append_nil, hiff]
    have hquiet : ∀ e ∈ (if pos = 2 then pullQueries p a0.link.respCfg id else []), e.isDelivery = false := fun e he => by
      split at he
      · exact isDelivery_of_mem_pullQueries he
      · cases he
    rw [hqueries, ← List.append_nil a0.link.resp.pending]
    exact h.signalled.byteStep (byteStep_respCfg ..) hfx hquiet (by rw [hstep.pending, List.append_nil]; rfl)

end

/-! ## The end of the frame (R175) -/

/-- The signal of a frame on link `l`. -/
def Link.snapshot (p : Nat) (l : Link) (id : Pair) (v : Quad) : Snapshot := ⟨id, l.replyValue p id v, claims l.respCfg id⟩

/-- The transfer of a frame that has begun in `a0` has completed: the responder is at a frame boundary and has signalled the frame,
and the initiator has received the reply. -/
structure Act.Completed (a : Act) (p : Nat) (a0 : Act) (id : Pair) (v : Quad) : Prop where
  sSync : a.link.resp.sSync = .synchronized
  framePos : a.link.resp.framePos = 0
  syncPos : a.link.resp.syncPos = 0
  received : a.link.slot.rxBuf.Holds 0 (a0.link.reply p id v)
  signalled : a.Signalled p a0.fx (a0.link.resp.pending ++ [a0.link.snapshot p id v])
    (pullQueries p a0.link.respCfg id ++ [.frameComplete p (a0.link.snapshot p id v)])

theorem Act.Completed.dispatchFrame {p : Nat} {a0 a : Act} {id : Pair} {v : Quad} (h : a.Completed p a0 id v) :
    (dispatchFrame p a).Completed p a0 id v := by
  refine ⟨?_, ?_, ?_, ?_, h.signalled.dispatchFrame⟩ <;> rw [dispatchFrame_link]
  · exact h.sSync
  · exact h.framePos
  · exact h.syncPos
  · exact h.received

/-- The last byte completes the frame, whatever it is. -/
theorem Act.Reading.complete {p : Nat} {a0 a : Act} {id : Pair} {v : Quad} (h : a.Reading p a0 id v 8) (hc : a0.Continues a)
    (hrx : 9 ≤ a0.link.slot.rxBuf.size) : (Machine.idealExchange p 8 a).Completed p a0 id v := by
  obtain ⟨hid, hvalue, hpull⟩ := h.reads.eq_of_last
  have hstep : Machine.idealExchange p 8 a = completeFrame p (a.receive 8) :=
    byteStep_completes (a := a.receive 8) h.reads.sSync (by rw [Act.receive_resp, h.reads.framePos]; decide) p _
  have hreceived := h.receive hc hrx
  have hsnap : (⟨a.link.resp.idBytes, a.link.resp.valueBytes, a.link.resp.isPull⟩ : Snapshot) = a0.link.snapshot p id v := by
    rw [hid, hvalue, hpull]
    rfl
  rw [hstep]
  refine ⟨h.reads.sSync, rfl, h.reads.syncPos, hreceived, ?_⟩
  rw [← hsnap]
  exact h.signalled.byteStep (b := completeFrame p (a.receive 8)) rfl rfl (by simp [Effect.isDelivery]) rfl

/-- Where a frame stands before exchange `i`: the responder reads it, or it has completed it. -/
inductive Act.FrameRead (a : Act) (p : Nat) (a0 : Act) (id : Pair) (v : Quad) (i : Nat) : Prop where
  | reading (pos : Fin 9) (hi : i = pos.val) (h : a.Reading p a0 id v pos)
  | completed (hi : i = 9) (h : a.Completed p a0 id v)

section
variable {p i : Nat} {a0 a : Act} {id : Pair} {v : Quad} (h : a.FrameRead p a0 id v i)
include h

theorem Act.FrameRead.dispatchFrame : (dispatchFrame p a).FrameRead p a0 id v i := by
  cases h with
  | reading pos hi h => exact .reading pos hi h.dispatchFrame
  | completed hi h => exact .completed hi h.dispatchFrame

theorem Act.FrameRead.withTurns (turns : List (List Turn)) : (a.withTurns turns).FrameRead p a0 id v i := by
  cases h with
  | reading pos hi h => exact .reading pos hi (h.schedule _ turns)
  | completed hi h => exact .completed hi ⟨h.sSync, h.framePos, h.syncPos, h.received, h.signalled⟩

theorem Act.FrameRead.idealExchange (hi : i < 9) (hc : a0.Continues a)
    (htx : a0.link.slot.tx = Memory.ofBytes (frameBytes id v)) (hrx : 9 ≤ a0.link.slot.rxBuf.size) :
    (idealExchange p i a).FrameRead p a0 id v (i + 1) := by
  cases h with
  | completed hi' _ => omega
  | reading pos hi' h =>
    subst hi'
    by_cases h8 : pos = 8
    · subst h8
      exact .completed rfl (h.complete hc hrx)
    · exact .reading (pos + 1) (Fin.val_add_one_of_lt (Fin.lt_last_iff_ne_last.mpr h8)).symm (h.idealExchange h8 hc htx hrx)

end

/-- A frame to an aligned responder on the ideal bus is completed. -/
theorem exec_frame_completes {s : State} {n : Nat} {l : Link} (hl : s.links[n]? = some l) (hu : l.Undisturbed) (ha : l.Aligned)
    (hrx : 9 ≤ l.slot.rxBuf.size) (id : Pair) (v : Quad) :
    ∃ b, exec (.frame n id v) s = .next (s.withLink n b.link b.fx .none) ∧
      (selectTx (Memory.ofBytes (frameBytes id v)) ⟨l, s.effects⟩).Continues b ∧
      b.Completed n (selectTx (Memory.ofBytes (frameBytes id v)) ⟨l, s.effects⟩) id v := by
  obtain ⟨-, hs, hframe, hsync⟩ := ha
  let a0 := selectTx (Memory.ofBytes (frameBytes id v)) ⟨l, s.effects⟩
  obtain ⟨b, hsent, hcont, hread⟩ := sendNine_ideal_induction (p := n) (w := frameBytes id v)
    (P := fun i a => a.FrameRead n a0 id v i) (fun _ _ h => h.dispatchFrame) (fun _ _ turns h => h.withTurns turns)
    hl hu hrx rfl (fun _ _ hi hc h => h.idealExchange hi hc rfl hrx)
    (.reading 0 rfl (Act.reading_start (a := a0) hs hsync hframe id v))
  refine ⟨b, hsent, hcont, ?_⟩
  cases hread with
  | reading pos hi _ => exact absurd pos.isLt (by omega)
  | completed _ h => exact h

end Machine
end Sys2Proof
end

section
/-! PROOFS. The frame of an aligned pair end to end (R203), and the frame that is accepted although the responder dropped it (R179,
R297). -/

namespace Sys2Proof
namespace Machine

/-! ## The verdict on the reply of a frame (R192, R193) -/

section
variable {s : State} {n : Nat} {l : Link} {id : Pair} {v w : Quad} {prev : Byte}

/-- What the validator extracts from a frame and its reply (R90, R91). -/
theorem extract_of_reply {rx : Memory} (h : rx.Holds 0 (replyBytes prev id w id)) (o : ByteOrder) :
    extract o (Memory.ofBytes (frameBytes id v)) rx 0 =
      { txId1 := idOf o id, txVal := v, txId2 := idOf o ⟨0xFF, 0xFF⟩, rxId1 := idOf o id, rxVal := w, rxId2 := idOf o id } := by
  simp only [replyBytes, Memory.holds_cons] at h
  obtain ⟨-, h1, h2, h3, h4, h5, h6, h7, h8, -⟩ := h
  simp only [extract, Memory.pairAt, Memory.quadAt, Memory.read_ofBytes, h1, h2, h3, h4, h5, h6, h7, h8]
  rfl

theorem idOf_ff_toInt (o : ByteOrder) : (idOf o ⟨0xFF, 0xFF⟩).toInt = -1 := by cases o <;> decide

/-- The delivery of an accepted frame of id `id` with the value bytes `w` (R198). -/
def frameDelivery (c : Cfg) (n : Nat) (pullM : List Id) (id : Pair) (w : Quad) : List Effect :=
  if idOf c.byteOrder id ∈ pullM then
    [.pullDeliver n (idOf c.byteOrder id) (valueOf c.byteOrder (vtype c.vtypes (idOf c.byteOrder id)) w)]
  else []

/-- A frame of a valid id whose reply has come back is accepted if the initiator claims it as a pull, or if its value has come back. -/
theorem execVTxn_of_reply (hl : s.links[n]? = some l) (htx : l.slot.tx = Memory.ofBytes (frameBytes id v))
    (hrx : 9 ≤ l.slot.rxBuf.size) (hreply : l.slot.rxBuf.Holds 0 (replyBytes prev id w id))
    (hlow : 1 ≤ (idOf s.cfg.byteOrder id).toInt) (hhigh : (idOf s.cfg.byteOrder id).toInt ≤ s.cfg.maxId)
    (hvalue : idOf s.cfg.byteOrder id ∈ l.slotCfg.pullM ∨ w = v) :
    exec (.vTxn n 1) s =
      .next (s.withLink n l (s.effects ++ frameDelivery s.cfg n l.slotCfg.pullM id w) (.txn true)) := by
  have hextract := extract_of_reply (v := v) hreply s.cfg.byteOrder
  rw [← htx] at hextract
  have hverdict := frameVerdict_of_echoed (c := s.cfg) (pullM := l.slotCfg.pullM)
    (e := extract s.cfg.byteOrder l.slot.tx l.slot.rxBuf 0) (by rw [hextract]) (by rw [hextract])
    (by rw [hextract]; exact ⟨hlow, hhigh⟩)
  have hwarn : (extract s.cfg.byteOrder l.slot.tx l.slot.rxBuf 0).txId2.toInt = -1 := by
    rw [hextract]
    exact idOf_ff_toInt _
  have htx9 : 9 ≤ l.slot.tx.size := by rw [htx]; exact Nat.le_refl 9
  by_cases hpull : idOf s.cfg.byteOrder id ∈ l.slotCfg.pullM
  · rw [if_pos (by rw [hextract]; exact hpull)] at hverdict
    have hnext : exec (.vTxn n 1) s = _ := execVTxn_one_passes hl htx9 hrx hverdict rfl
    rw [slotEffects_eq, if_pos hwarn, hverdict, List.nil_append, pullDelivery_okPull, hextract] at hnext
    rwa [frameDelivery, if_pos hpull]
  · rw [if_neg (by rw [hextract]; exact hpull), if_pos (by rw [hextract]; exact hvalue.resolve_left hpull)] at hverdict
    have hnext : exec (.vTxn n 1) s = _ := execVTxn_one_passes hl htx9 hrx hverdict rfl
    rw [slotEffects_eq, if_pos hwarn, hverdict, List.nil_append, pullDelivery_okPush] at hnext
    rwa [frameDelivery, if_neg hpull]

end

/-! ## The main loop after the frame (R176) -/

/-- As many dispatches as there are pending signals deliver them all. -/
theorem execAll_dispatches {s : State} {n : Nat} {l : Link} (hl : s.links[n]? = some l) (hr : s.result = .none) :
    execAll (List.replicate l.resp.pending.length (.sDispatch n)) s =
      .next (s.withLink n { l with resp := { l.resp with pending := [] } }
        (s.effects ++ deliveries n l.respCfg l.resp.pending) .none) := by
  generalize hp : l.resp.pending = pending
  induction pending generalizing s l with
  | nil =>
    have hempty : { l with resp := { l.resp with pending := [] } } = l := by rw [← hp]
    rw [hempty, deliveries, List.flatMap_nil, List.append_nil, ← hr, State.withLink_self hl]
    rfl
  | cons snap rest ih =>
    let t := s.withLink n { l with resp := { l.resp with pending := rest } } (s.effects ++ deliveries n l.respCfg [snap]) .none
    have hone : exec (.sDispatch n) s = .next t := by
      have hnext := execSDispatch_next hl
      rw [hp] at hnext
      exact hnext
    have hrest := ih (s := t) (State.withLink_links_self hl ..) rfl rfl
    rw [List.length_cons, List.replicate_succ, execAll_cons hone, hrest, State.withLink_withLink,
      ← List.singleton_append (x := snap), deliveries_append, ← List.append_assoc]
    rfl

/-! ## The two frames of R203 -/

section
variable {s : State} {n : Nat} {l : Link} {id : Pair} {v : Quad} {b : Act}

/-- A completed frame leaves both sides aligned. -/
theorem Act.Completed.aligned {a0 : Act} (h : b.Completed n a0 id v) (hc : a0.Continues b) (ha : a0.link.Aligned) :
    b.link.Aligned :=
  ⟨hc.mSync.trans ha.left, h.sSync, h.framePos, h.syncPos⟩

/-- `V.TXN` after a completed frame of a valid id that both sides claim alike. -/
theorem Act.Completed.execVTxn (hl : s.links[n]? = some l) (hrx : 9 ≤ l.slot.rxBuf.size)
    (hlow : 1 ≤ (idOf s.cfg.byteOrder id).toInt) (hhigh : (idOf s.cfg.byteOrder id).toInt ≤ s.cfg.maxId)
    (hc : (selectTx (Memory.ofBytes (frameBytes id v)) ⟨l, s.effects⟩).Continues b)
    (h : b.Completed n (selectTx (Memory.ofBytes (frameBytes id v)) ⟨l, s.effects⟩) id v)
    (hvalue : idOf s.cfg.byteOrder id ∈ l.slotCfg.pullM ∨ l.replyValue n id v = v) :
    exec (.vTxn n 1) (s.withLink n b.link b.fx .none) =
      .next ((s.withLink n b.link b.fx .none).withLink n b.link
        (b.fx ++ frameDelivery s.cfg n l.slotCfg.pullM id (l.replyValue n id v)) (.txn true)) := by
  have hnext := execVTxn_of_reply (s := s.withLink n b.link b.fx .none) (v := v) (State.withLink_links_self hl ..) hc.tx
    (by rw [hc.rxSize]; exact hrx) h.received hlow hhigh (by rw [hc.slotCfg]; exact hvalue)
  rw [hc.slotCfg] at hnext
  exact hnext

end

section
variable {l : Link} {id : Pair}

theorem claims_of_push (h : idOf l.respCfg.byteOrder id ∉ l.respCfg.pullS) : claims l.respCfg id = false := decide_eq_false h

theorem claims_of_pull (h : idOf l.respCfg.byteOrder id ∈ l.respCfg.pullS) : claims l.respCfg id = true := decide_eq_true h

theorem Link.replyValue_of_push (h : idOf l.respCfg.byteOrder id ∉ l.respCfg.pullS) (p : Nat) (v : Quad) :
    l.replyValue p id v = v := by
  rw [Link.replyValue, claims_of_push h]
  rfl

theorem Link.replyValue_of_pull (h : idOf l.respCfg.byteOrder id ∈ l.respCfg.pullS) (p : Nat) (v : Quad) :
    l.replyValue p id v = (l.env.pullAnswer p).1 := by
  rw [Link.replyValue, claims_of_pull h]
  rfl

end

/-- Settles O38: the completed frame is echoed, so the validator accepts it, and the pending signals are dispatched in order. -/
theorem pushFrameIsDeliveredAndAccepted : Obligations.PushFrameIsDeliveredAndAccepted := by
  intro s n l id v hl hu ha hrx hpush hpushM hlow hhigh signals
  obtain ⟨b, hsent, hcont, hdone⟩ := exec_frame_completes hl hu ha hrx id v
  have hvalue := l.replyValue_of_push hpush n v
  have hsignalled : b.Signalled n s.effects (l.resp.pending ++ [l.snapshot n id v])
      (pullQueries n l.respCfg id ++ [.frameComplete n (l.snapshot n id v)]) := hdone.signalled
  rw [Link.snapshot, hvalue, pullQueries, claims_of_push hpush] at hsignalled
  obtain ⟨fx, k, hfx, hother, hdelivered, hpending⟩ := hsignalled.exists_dispatched
  rw [hcont.respCfg] at hdelivered
  have hreceived : b.link.slot.rxBuf.Holds 0 (replyBytes l.resp.txReg id (l.replyValue n id v) id) := hdone.received
  rw [hvalue] at hreceived
  have hverdict := hdone.execVTxn hl hrx hlow hhigh hcont (.inr hvalue)
  rw [frameDelivery, if_neg hpushM, List.append_nil] at hverdict
  have hlb := State.withLink_links_self hl b.link b.fx .none
  refine ⟨_, b.link, fx, k, hsent, hlb, hfx, hother, hdelivered, hpending, hreceived, hdone.aligned hcont ha, hverdict, ?_⟩
  rw [← show b.link.respCfg = l.respCfg from hcont.respCfg]
  exact execAll_dispatches hlb rfl

/-- Settles O39: the reply holds the answer of the pull source, which the validator delivers. -/
theorem pullFrameDeliversTheAnswer : Obligations.PullFrameDeliversTheAnswer := by
  intro s n l id v hl hu ha hrx hpull hpullM hlow hhigh
  obtain ⟨b, hsent, hcont, hdone⟩ := exec_frame_completes hl hu ha hrx id v
  have hvalue := l.replyValue_of_pull hpull n v
  have hsignalled : b.Signalled n s.effects (l.resp.pending ++ [l.snapshot n id v])
      (pullQueries n l.respCfg id ++ [.frameComplete n (l.snapshot n id v)]) := hdone.signalled
  rw [Link.snapshot, hvalue, pullQueries, claims_of_pull hpull] at hsignalled
  obtain ⟨fx, k, hfx, hother, hdelivered, hpending⟩ := hsignalled.exists_dispatched
  rw [hcont.respCfg] at hdelivered
  have hreceived : b.link.slot.rxBuf.Holds 0 (replyBytes l.resp.txReg id (l.replyValue n id v) id) := hdone.received
  rw [hvalue] at hreceived
  have hverdict := hdone.execVTxn hl hrx hlow hhigh hcont (.inl hpullM)
  rw [frameDelivery, if_pos hpullM, hvalue] at hverdict
  refine ⟨_, b.link, fx, k, (l.env.pullAnswer n).1, hsent, State.withLink_links_self hl .., hfx, fun q rest hq => ?_, hother,
    hdelivered, hpending, hreceived, hdone.aligned hcont ha, hverdict⟩
  rw [Inputs.pullAnswer, hq]

end Machine
end Sys2Proof
end

section
/-! PROOFS. The frame that the validator accepts although the responder dropped it (R179, R297). -/

namespace Sys2Proof
namespace Machine

/-- The bus replaces the byte of the last of `k + 1` exchanges for the responder, and leaves the others alone. -/
def busWithBad (k : Nat) (bad : Byte) : List Disturbance :=
  List.replicate k Disturbance.ideal ++ [{ Disturbance.ideal with toResponder := some bad }]

/-- A transfer of a frame that has begun in `a0` stands before exchange `i`, and the responder has desynchronized in exchange 7: what
the initiator receives is the reply of the frame all the same, but no frame is signalled. -/
structure Act.Lost (a : Act) (p : Nat) (a0 : Act) (id : Pair) (v : Quad) (i : Nat) : Prop where
  bus : a.link.env.bus = []
  sSync : a.link.resp.sSync = .unsynchronized
  waits : i = 8 → a.link.resp.syncPos = 0 ∧ a.link.resp.txReg = 0x00
  received : a.link.slot.rxBuf.Holds 0 ((a0.link.reply p id v).take i)
  signalled : a.Signalled p a0.fx a0.link.resp.pending (pullQueries p a0.link.respCfg id)

/-- Where a frame with a corrupted second AckId byte stands before exchange `i`. -/
inductive Act.Corrupted (a : Act) (p : Nat) (a0 : Act) (id : Pair) (v : Quad) (bad : Byte) (i : Nat) : Prop where
  | reading (pos : Fin 9) (hi : i = pos.val) (h7 : pos.val ≤ 7) (hbus : a.link.env.bus = busWithBad (7 - pos.val) bad)
      (h : a.Reading p a0 id v pos)
  | lost (hi : 8 ≤ i) (h : a.Lost p a0 id v i)

section
variable {p i : Nat} {a0 a b : Act} {id : Pair} {v : Quad} {bad : Byte}

theorem Act.Corrupted.dispatchFrame (h : a.Corrupted p a0 id v bad i) : (dispatchFrame p a).Corrupted p a0 id v bad i := by
  cases h with
  | reading pos hi h7 hbus h => exact .reading pos hi h7 (by rw [dispatchFrame_link]; exact hbus) h.dispatchFrame
  | lost hi h =>
    refine .lost hi ⟨?_, ?_, ?_, ?_, h.signalled.dispatchFrame⟩ <;> rw [dispatchFrame_link]
    · exact h.bus
    · exact h.sSync
    · exact h.waits
    · exact h.received

theorem Act.Corrupted.withTurns (h : a.Corrupted p a0 id v bad i) (turns : List (List Turn)) :
    (a.withTurns turns).Corrupted p a0 id v bad i := by
  cases h with
  | reading pos hi h7 hbus h => exact .reading pos hi h7 hbus (h.schedule _ turns)
  | lost hi h => exact .lost hi ⟨h.bus, h.sSync, h.waits, h.received, h.signalled⟩

/-- The exchanges before the corrupted one are undisturbed. -/
theorem Act.Reading.exchange_before {pos : Fin 9} (h : a.Reading p a0 id v pos) (h7 : pos.val < 7)
    (hbus : a.link.env.bus = busWithBad (7 - pos.val) bad) (hc : a0.Continues a) (hline : a0.link.slot.restartLine = false)
    (htx : a0.link.slot.tx = Memory.ofBytes (frameBytes id v)) (hrx : 9 ≤ a0.link.slot.rxBuf.size)
    (hx : exchange p pos.val a = .ok b) : b.Corrupted p a0 id v bad (pos.val + 1) := by
  have h8 : pos ≠ 8 := fun h => by rw [h] at h7; exact absurd h7 (by decide)
  have hnext : (pos + 1).val = pos.val + 1 := Fin.val_add_one_of_lt (Fin.lt_last_iff_ne_last.mpr h8)
  have hrest : busWithBad (7 - pos.val) bad = Disturbance.ideal :: busWithBad (7 - (pos + 1).val) bad := by
    rw [hnext, show 7 - pos.val = 7 - (pos.val + 1) + 1 by omega]
    rfl
  have hideal := exchange_undisturbed hx (hc.restartLine.trans hline)
    (e := { a.link.env with bus := busWithBad (7 - (pos + 1).val) bad }) (by simp only [Inputs.disturbance, hbus, hrest])
  subst hideal
  refine .reading (pos + 1) hnext.symm (by omega) (idealExchange_bus ..) ?_
  exact (h.schedule _ _).idealExchange h8 ⟨hc.slotCfg, hc.respCfg, hc.slot, hc.rxSize⟩ htx hrx

/-- In the corrupted exchange the initiator receives the first id byte again, and the responder desynchronizes (R174). -/
theorem Act.Reading.exchange_bad (h : a.Reading p a0 id v 7) (hbus : a.link.env.bus = busWithBad 0 bad) (hbad : bad ≠ 0xFF)
    (hc : a0.Continues a) (hline : a0.link.slot.restartLine = false) (hrx : 9 ≤ a0.link.slot.rxBuf.size)
    (hx : exchange p 7 a = .ok b) : b.Lost p a0 id v 8 := by
  obtain ⟨htx7, hrx7⟩ := exchange_cases hx
  have hd : a.link.env.disturbance =
      ({ Disturbance.ideal with toResponder := some bad }, { a.link.env with bus := [] }) := by
    simp only [Inputs.disturbance, hbus]
    rfl
  let a1 := a.setEnv { a.link.env with bus := [] }
  have hstep : byteStep p bad a1 = desynchronize a1 :=
    byteStep_desynchronizes (a := a1) h.reads.sSync (by rw [show a1.link.resp.framePos = 7 from h.reads.framePos]; decide)
      (by rw [show a1.link.resp.framePos = 7 from h.reads.framePos]; decide) hbad p
  have hreceived := h.receive hc hrx
  rw [exchange_eq htx7 hrx7 (hc.restartLine.trans hline), hd] at hx
  have hb : b = (byteStep p bad a1).setSlot
      { a.link.slot with rxBuf := a.link.slot.rxBuf.write 7 a.link.resp.txReg } := (Except.ok.inj hx).symm
  subst hb
  rw [hstep]
  exact ⟨rfl, rfl, fun _ => ⟨h.reads.syncPos, rfl⟩, hreceived, h.signalled.quiet rfl rfl rfl⟩

/-- A responder that waits for a probe drops a byte, or takes it as the first of a probe: it writes its registers alone, and it
stays unsynchronized. -/
theorem byteStep_waiting (hw : a.link.resp.Waits) (p : Nat) (rx : Byte) :
    ∃ r, byteStep p rx a = a.setResp r ∧ r.sSync = .unsynchronized ∧ r.pending = a.link.resp.pending := by
  rw [byteStep_unsynchronized hw.sSync, hw.syncPos, if_neg (show (0 : Fin 9) ≠ 8 by decide)]
  split
  · exact ⟨_, rfl, hw.sSync, rfl⟩
  · exact ⟨_, rfl, hw.sSync, rfl⟩

/-- After the desynchronization the zero that is staged stands for the second id byte, which is zero. -/
theorem Act.Lost.exchange_last {b0 : Byte} (h : a.Lost p a0 ⟨b0, 0⟩ v 8) (hc : a0.Continues a)
    (hline : a0.link.slot.restartLine = false) (hrx : 9 ≤ a0.link.slot.rxBuf.size) (hx : exchange p 8 a = .ok b) :
    b.Lost p a0 ⟨b0, 0⟩ v 9 := by
  have hideal : b = Machine.idealExchange p 8 a := exchange_undisturbed hx (hc.restartLine.trans hline) (e := a.link.env)
    (by simp only [Inputs.disturbance, h.bus])
  have hbus := (idealExchange_bus p 8 a).trans h.bus
  obtain ⟨hsync, hreg⟩ := h.waits rfl
  have hsize := hc.rxSize
  have hreceived : (a.link.slot.rxBuf.write 8 a.link.resp.txReg).Holds 0 ((a0.link.reply p ⟨b0, 0⟩ v).take 9) := by
    rw [hreg]
    exact h.received.write_next (Nat.lt_succ_self 8) (by omega)
  obtain ⟨r, hstep, hs, hpending⟩ := byteStep_waiting (a := a.receive 8) ⟨h.sSync, hsync⟩ p (a.link.slot.tx.read 8)
  have hxchg : Machine.idealExchange p 8 a = (a.receive 8).setResp r := hstep
  rw [hxchg] at hideal hbus
  subst hideal
  exact ⟨hbus, hs, nofun, hreceived, h.signalled.quiet rfl rfl hpending⟩

/-- One more exchange of the frame, the corrupted one among them. -/
theorem Act.Corrupted.exchange {b0 : Byte} (h : a.Corrupted p a0 ⟨b0, 0⟩ v bad i) (hbad : bad ≠ 0xFF) (hi : i < 9)
    (hc : a0.Continues a) (hline : a0.link.slot.restartLine = false)
    (htx : a0.link.slot.tx = Memory.ofBytes (frameBytes ⟨b0, 0⟩ v)) (hrx : 9 ≤ a0.link.slot.rxBuf.size)
    (hx : exchange p i a = .ok b) : b.Corrupted p a0 ⟨b0, 0⟩ v bad (i + 1) := by
  cases h with
  | reading pos hi' h7 hbus h =>
    subst hi'
    by_cases hlast : pos.val < 7
    · exact h.exchange_before hlast hbus hc hline htx hrx hx
    · obtain rfl : pos = 7 := Fin.ext (by simp; omega)
      exact .lost (Nat.le_refl 8) (h.exchange_bad hbus hbad hc hline hrx hx)
  | lost h8 h =>
    obtain rfl : i = 8 := by omega
    exact .lost (Nat.le_succ 8) (h.exchange_last hc hline hrx hx)

end

/-- A query is no signal of a frame. -/
theorem not_frameComplete_of_filter {p : Nat} {fx : List Effect} {c : RespCfg} {id : Pair}
    (h : fx.filter (fun e => !e.isDelivery) = pullQueries p c id) (snap : Snapshot) : .frameComplete p snap ∉ fx := by
  intro hmem
  have hother : .frameComplete p snap ∈ pullQueries p c id := h ▸ List.mem_filter.mpr ⟨hmem, rfl⟩
  unfold pullQueries at hother
  split at hother
  · cases List.mem_singleton.mp hother
  · cases hother

/-- Settles O37: the zero that the desynchronized responder has staged is the second id byte, so that the echo is complete. -/
theorem blindSpotOfTheValidator : Obligations.BlindSpotOfTheValidator := by
  intro s n l b0 bad v hl hline hturns hs hframe hsync hbus hbad hrx hlow hhigh hclaim
  let a0 := selectTx (Memory.ofBytes (frameBytes ⟨b0, 0⟩ v)) ⟨l, s.effects⟩
  obtain ⟨b, hsent, hcont, hdone⟩ := sendNine_induction (p := n) (w := frameBytes ⟨b0, 0⟩ v)
    (P := fun i a => a.Corrupted n a0 ⟨b0, 0⟩ v bad i) (fun _ _ h => h.dispatchFrame) (fun _ _ turns h => h.withTurns turns)
    hl hturns hrx rfl (fun _ _ _ hi hc h hx => h.exchange hbad hi hc hline rfl hrx hx)
    (.reading 0 rfl (Nat.zero_le 7) hbus (Act.reading_start (a := a0) hs hsync hframe _ v))
  cases hdone with
  | reading pos hi _ _ _ => exact absurd pos.isLt (by omega)
  | lost _ h =>
    have hlb := State.withLink_links_self hl b.link b.fx .none
    obtain ⟨fx, k, hfx, hother, -, hpending⟩ := h.signalled.exists_dispatched
    have hreply : b.link.slot.rxBuf.Holds 0 (replyBytes l.resp.txReg ⟨b0, 0⟩ (l.replyValue n ⟨b0, 0⟩ v) ⟨b0, 0⟩) := h.received
    have hverdict := execVTxn_of_reply (s := s.withLink n b.link b.fx .none) (v := v) hlb hcont.tx
      (by rw [hcont.rxSize]; exact hrx) hreply hlow hhigh
      (by rw [hcont.slotCfg]; exact hclaim.imp_right fun hpush => l.replyValue_of_push hpush n v)
    exact ⟨_, b.link, fx, k, hsent, hlb, hfx, not_frameComplete_of_filter hother, h.sSync, hpending, _, hverdict, rfl,
      State.withLink_links_self hlb ..⟩

end Machine
end Sys2Proof
end
